-- ==== Sys2Proof/Word.lean ====
section
/-! DEFINITION. The word types of the Tesarn 2408. -/

namespace Sys2Proof

/-- One byte of a message on a control port. -/
abbrev Byte := BitVec 8

/-- An internal sample, read as a two's-complement value in -32,768..32,767 (R3). -/
abbrev Sample := BitVec 16

/-- A coefficient, read as a two's-complement value in -8,388,608..8,388,607 (R40). -/
abbrev Coef := BitVec 24

/-- One TDM slot as it travels, audio in the upper 24 bits (R1). -/
abbrev Slot := BitVec 32

/-- A block number: the block counter wraps at 32 bits (R13). -/
abbrev BlockNo := BitVec 32

/-- A set of microphones: microphone m is in it when bit m is set (R166). -/
abbrev MicMask := BitVec 24

end Sys2Proof
end

