-- ==== Sys2Proof/Syntax.lean ====
section
/-! DEFINITION. The commands of the part: one constructor of `Instr` per row of spec/opcode_table.json. -/

namespace Sys2Proof

/-- The two control ports. -/
inductive Port where
  | p0
  | p1
  deriving DecidableEq, Repr

/-- The two audio ports. -/
inductive AudioPort where
  | feed
  | array
  deriving DecidableEq, Repr

/-- One bit at an audio port (R1, R2): the levels of the frame sync pin (FSYNC or ASYNC) and of the data pin (FDATA or ADIN). -/
structure LineBit where
  sync : Bool
  data : Bool
  deriving DecidableEq, Repr

/-- Bits that an audio port receives one after the other. -/
structure PortBits where
  port : AudioPort
  bits : List LineBit
  deriving DecidableEq, Repr

/-- The levels of the strap pins and of CSEL as a power-on reset ends (R154, R158). -/
structure Straps where
  grant0A : Bool
  grant0B : Bool
  grant1A : Bool
  grant1B : Bool
  addrHigh : Bool
  cselLow : Bool
  deriving DecidableEq, Repr

/-- How a transaction opens: on the four-wire port 0 by a falling CSEL and a first byte (none when the transaction ends before that
byte is whole), on the two-wire port 1 by a start condition and an address byte of seven address bits and a direction
(R153, R154). -/
inductive Opening where
  | fourWire (first : Option Byte)
  | twoWire (addr : BitVec 7) (read : Bool)
  deriving DecidableEq, Repr

/-- The commands. The frame rows of the audio ports carry the bits that the port receives in them, first bit first (log 10). A request
names its port and carries its body bytes as they stand on the wire (R167); the kind and length bytes before them are the constructor's
kind code and the body's length (R156). -/
inductive Instr where
  | powerOnReset (straps : Straps)
  | feedFrameArrival (bits : List LineBit)
  | arrayFrameArrival (bits : List LineBit)
  | holdExpired
  | supervisorStage
  | runThreshold (mic : Nat)
  | micDiverged (mic : Nat)
  | alignmentStage
  | bulkResult
  | checkCountdownExpiry (feed : Nat)
  | arbiterStage
  | updateStage
  | meterTimerExpiry (port : Port)
  | stopTimerExpiry
  | unknownKind (port : Port) (bytes : List Byte)
  | identify (port : Port) (body : List Byte)
  | readPath (port : Port) (body : List Byte)
  | readMic (port : Port) (body : List Byte)
  | readReference (port : Port) (body : List Byte)
  | readTaps (port : Port) (body : List Byte)
  | readEvents (port : Port) (body : List Byte)
  | readCounters (port : Port) (body : List Byte)
  | readPool (port : Port) (body : List Byte)
  | setMic (port : Port) (body : List Byte)
  | setReference (port : Port) (body : List Byte)
  | setPath (port : Port) (body : List Byte)
  | setGlobal (port : Port) (body : List Byte)
  | acquire (port : Port) (body : List Byte)
  | hold (port : Port) (body : List Byte)
  | release (port : Port) (body : List Byte)
  | mute (port : Port) (body : List Byte)
  | meter (port : Port) (body : List Byte)
  | watch (port : Port) (body : List Byte)
  | eventEnable (port : Port) (body : List Byte)
  | openPath (port : Port) (body : List Byte)
  | closePath (port : Port) (body : List Byte)
  | setWindows (port : Port) (body : List Byte)
  | writeTaps (port : Port) (body : List Byte)
  | clearModel (port : Port) (body : List Byte)
  | route (port : Port) (body : List Byte)
  | standby (port : Port) (body : List Byte)
  | wake (port : Port) (body : List Byte)
  | resetPart (port : Port) (body : List Byte)
  | resetPort (port : Port) (body : List Byte)
  | frameSync (input : PortBits)
  | transactionBegin (opening : Opening) (early : List Byte)
  | transactionEndNoRequest (port : Port)
  deriving DecidableEq, Repr

end Sys2Proof
end

