-- ==== Sys2Proof/Decode.lean ====
section
/-! DEFINITION. Decoding of table words: spec/opcode_table.json gives no row any bits. -/

namespace Sys2Proof

/-- The command that a table word spells. Every row of spec/opcode_table.json has an empty list of fields and no fixed bits, so no
word spells a command (log 24). -/
def decodeTableWord (_nbits _w : Nat) : Option Instr := none

end Sys2Proof
end

