-- ==== Sys2Proof/Config.lean ====
section
/-! DEFINITION. The constants of the part (00_scope, "Numbers used throughout") and its free values. -/

namespace Sys2Proof.Config

/-- Microphone channels, M0 to M23. -/
def mics : Nat := 24
/-- Loudspeaker feeds, F0 to F7. -/
def feeds : Nat := 8
/-- Frames in a block. -/
def blockFrames : Nat := 64
/-- Bits in a feed frame (R1). -/
def feedFrameBits : Nat := 256
/-- Bits in an array frame (R1). -/
def arrayFrameBits : Nat := 768
/-- Frames the feed store holds (R5). -/
def storeFrames : Nat := 32
/-- The fill at which a LOST feed returns, and to which a resume trims (R8, R15). -/
def returnFill : Nat := 16
/-- A fill above this drops one frame at the slip check (R10). -/
def slipHigh : Nat := 24
/-- A fill below this sets the pending-repeat mark at the slip check (R10). -/
def slipLow : Nat := 8
/-- Samples in a reference history (R19). -/
def historyLength : Nat := 12288
/-- Samples in the aligned window (R21). -/
def alignedWindow : Nat := 1024
/-- Lags of the bulk-delay search, 8 samples apart (R27). -/
def lags : Nat := 256
/-- Counted blocks that complete a measurement (R28). -/
def measureBlocks : Nat := 64
/-- The guard taken off the strongest lag (R28). -/
def guardSamples : Nat := 64
/-- The largest difference that keeps b (R29, R30). -/
def moveTolerance : Nat := 16
/-- Blocks spent LOCKED before a CHECK (R32). -/
def checkBlocks : Nat := 4096
/-- The largest bulk delay. -/
def maxDelay : Nat := 2047
/-- The largest activity floor, 2^40 (R22). -/
def maxFloor : Nat := 1099511627776
/-- The activity floor after a reset (R22). -/
def resetFloor : Nat := 1048576
/-- Segments of the tap store (R41). -/
def segments : Nat := 1024
/-- Coefficients in a segment. -/
def segmentTaps : Nat := 64
/-- Path records (R56). -/
def paths : Nat := 128
/-- The end of the delays a window may cover (R59). -/
def delayEnd : Nat := 8192
/-- Values a port's staging buffer holds (R50). -/
def stagingPlaces : Nat := 2048
/-- The residual gain and target at full gain (R74, R80). -/
def fullGain : Nat := 32767
/-- The largest move of the residual gain per sample (R82). -/
def rampStep : Nat := 256
/-- Taps that may adapt in one block (R110). -/
def budget : Nat := 16384
/-- The hold limit in blocks (R145). -/
def holdLimit : Nat := 250
/-- Records an event queue holds (R174). -/
def queueRecords : Nat := 32
/-- The longest message body (R156). -/
def maxBody : Nat := 250
/-- Bytes of records in one READ EVENTS response (R175). -/
def eventBytes : Nat := 248
/-- The regularisation after a reset (R105). -/
def resetDelta : Nat := 65536
/-- The largest regularisation (R104). -/
def maxDelta : Nat := 16777216

/-- A FREE VALUE: where records of different owners are raised at the same moment, R171 lets them join a queue in either order.
The n-th such choice is this bit; nothing constrains it (log 7). -/
opaque freeOrder : Nat → Bool

/-- A FREE VALUE: what CDO carries in a byte after the first of a transaction that port 0 ignores; R154 does not say (log 36). -/
opaque ignoredOut : Nat → Nat → BitVec 8

/-- A FREE VALUE: whether the part acknowledges a byte of a write that RESET PART dropped; R153 and R155 do not say (log 37). -/
opaque ignoredAck : Nat → Nat → Bool

end Sys2Proof.Config
end

