-- ==== Sys2Proof/Machine/State.lean ====
section
/-! DEFINITION. The state of the part as plain data, and its value after a reset. -/

namespace Sys2Proof.Machine

/-! ## How a step can stop -/

/-- The part has no fault that stops it: a faulted frame, a full store and a refused request each have an effect that the spec
states, so no command raises one. Safe. -/
inductive Fault where
  deriving DecidableEq, Repr

/-- The model's refusals. -/
inductive Refusal where
  /-- Raised by an arm of `exec` that has no meaning yet; no arm raises it now. Safe. -/
  | notModelled (mnemonic : String)
  deriving DecidableEq, Repr

/-! ## One value per control port -/

/-- Two copies of a thing, one for each control port. -/
structure PerPort (α : Type) where
  p0 : α
  p1 : α
  deriving DecidableEq, Repr

/-- The copy of a port. -/
def PerPort.get {α : Type} (v : PerPort α) : Port → α
  | .p0 => v.p0
  | .p1 => v.p1

/-- The pair with one port's copy replaced. -/
def PerPort.set {α : Type} (v : PerPort α) (p : Port) (a : α) : PerPort α :=
  match p with
  | .p0 => { v with p0 := a }
  | .p1 => { v with p1 := a }

/-! ## Audio ports -/

/-- Framing state of a receiver (R2). IN_FRAME holds the bit count, and the data bits of the frame so far as a number, the first of them
its most significant bit (R1). -/
inductive Framing where
  | search
  | inFrame (bits data : Nat)
  deriving DecidableEq, Repr

/-- How a frame ends (R2): well formed, with the slots received (slot 0 first), or faulted, cut short by a sync that is out of place
and that starts the next frame. -/
inductive FrameEnd where
  | wellFormed (slots : List Slot)
  | faulted
  deriving DecidableEq, Repr

/-- Feed state (1.2). -/
inductive FeedState where
  | live
  | lost
  deriving DecidableEq, Repr

/-- The feed port receiver (table of 1.2, R6); `pin` is the level at which FSYNC was seen at the bit before (R2). -/
structure FeedPort where
  store : List (List Sample)
  state : FeedState
  last : List Sample
  repeatMark : Bool
  framing : Framing
  pin : Bool
  deriving DecidableEq, Repr

/-- Run state of the array port (R14, R15). -/
inductive RunState where
  | running
  | stopped
  deriving DecidableEq, Repr

/-- The array port (table of 1.3, R17); `rows` is the partial block, `pin` the level at which ASYNC was seen at the bit before (R2), and
`adout` the slots that ADOUT carries in the frame in progress (none: driven low, R4). -/
structure ArrayPort where
  rows : List (List Sample)
  counter : BlockNo
  degraded : Bool
  feedLive : Bool
  run : RunState
  stopTimer : Bool
  outBuf : List (List Sample)
  framing : Framing
  pin : Bool
  adout : Option (List Slot)
  deriving DecidableEq, Repr

/-! ## Alignment unit -/

/-- Who sets b (2.3). -/
inductive FeedMode where
  | manual
  | auto
  deriving DecidableEq, Repr

/-- Where the bulk-delay search stands (R25). -/
inductive Acq where
  | manual
  | seek
  | locked
  | check
  deriving DecidableEq, Repr

/-- Verdict of the last result formed (R28). -/
inductive Validity where
  | none
  | valid
  | weak
  deriving DecidableEq, Repr

/-- A feed's alignment record (table of 2.3), activity floor (R22) and measures (R21). `counted` is 64 only between an alignment
stage and the BULK_RESULT it makes due. -/
structure Feed where
  mode : FeedMode
  acq : Acq
  b : Nat
  manualDelay : Nat
  actFloor : Nat
  probe : Nat
  acc : List Int
  counted : Nat
  countdown : Nat
  lastLag : Nat
  lastValidity : Validity
  dueMove : Option Nat
  energy : Nat
  peak : Nat
  active : Bool
  deriving DecidableEq, Repr

/-! ## Supervisor -/

/-- Convergence state (R126). -/
inductive Conv where
  | idle
  | acquire
  | converged
  | recover
  deriving DecidableEq, Repr

/-- Talk state (R121). -/
inductive Talk where
  | clear
  | talk
  deriving DecidableEq, Repr

/-- Quality class of an excited block (R124). -/
inductive Quality where
  | none
  | good
  | fair
  | poor
  deriving DecidableEq, Repr

/-- Why a MIC_STATE was raised (R132, R170). -/
inductive Cause where
  | opened
  | emptied
  | goodRun
  | poorRun
  | diverged
  | clearModel
  | bulkMove
  | bulkSet
  deriving DecidableEq, Repr

/-- A supervision record (R118), without the pending owner, which the pending lists give. -/
structure Mic where
  conv : Conv
  talk : Talk
  hangover : Nat
  goodRun : Nat
  poorRun : Nat
  divCount : Nat
  lastClass : Quality
  theta : Nat
  hang : Nat
  floor : Nat
  peakD : Nat
  peakE : Nat
  energyD : Nat
  energyE : Nat
  measBlock : BlockNo
  deriving DecidableEq, Repr

/-! ## Tap store and path table -/

/-- The coefficients of the tap store, as pairs of an address (segment x 64 + index) and a value, in one canonical form (see
`Memory.wf` in Machine/Ops.lean): an address not listed reads zero, the reset contents (R42). -/
abbrev Memory := List (Nat × Coef)

/-- State of a segment (R41); a reservation belongs to a change set of a port. -/
inductive SegState where
  | free
  | reserved (port : Port)
  | inUse
  deriving DecidableEq, Repr

/-- Start and length of a window, as a request gives them (R59). -/
structure Geom where
  start : Nat
  len : Nat
  deriving DecidableEq, Repr

/-- A window record (R57); its queue place is its entry in the level queues. -/
structure Window where
  start : Nat
  len : Nat
  segs : List Nat
  age : Nat
  deriving DecidableEq, Repr

/-- The fields of an OPEN path record (R56). -/
structure OpenPath where
  mic : Nat
  feed : Nat
  windows : List Window
  base : Nat
  fast : Nat
  slow : Nat
  frozen : Bool
  deriving DecidableEq, Repr

/-- A path record (R56). The fields a PENDING_OPEN path will open with stand in its pending set (log 23). -/
inductive PathRec where
  | free
  | pendingOpen (mic feed : Nat)
  | opened (path : OpenPath)
  deriving DecidableEq, Repr

/-- The owners' state that reads report as of the last completed block processing (R160): tap store, path table, supervisor,
residual gains, alignment records, and the feed port state captured at the block start (R38). -/
structure Model where
  coefs : Memory
  segs : List SegState
  paths : List PathRec
  clearList : List Nat
  mics : List Mic
  gains : List Nat
  feeds : List Feed
  captured : FeedState
  deriving DecidableEq, Repr

/-- State of a path record without its fields (R56). -/
inductive PathStatus where
  | free
  | pendingOpen
  | opened
  deriving DecidableEq, Repr

/-- What READ POOL counts (R55): segment states and path record states as of the last completed block processing, kept up with the
reservations, returns, takings and freeings made since. -/
structure PoolView where
  segs : List SegState
  paths : List PathStatus
  deriving DecidableEq, Repr

/-! ## Canceller, arbiter, global settings -/

/-- The rest of the canceller's state (R74): masks, activity snapshot, block error record (per microphone, in frame order). -/
structure Canceller where
  reqMask : PerPort MicMask
  mask : PerPort MicMask
  snapshot : List Bool
  errD : List (List Sample)
  errE : List (List Sample)
  deriving DecidableEq, Repr

/-- A window in a level queue (R107). -/
structure QEntry where
  path : Nat
  index : Nat
  deriving DecidableEq, Repr

/-- Scan mode of the arbiter (R112). -/
inductive Scan where
  | fair
  | greedy
  deriving DecidableEq, Repr

/-- The global settings (R104, R105). -/
structure Globals where
  delta : Nat
  scan : Scan
  deriving DecidableEq, Repr

/-! ## Change stager -/

/-- What a staged request is about (R137). -/
inductive Object where
  | path (n : Nat)
  | mic (n : Nat)
  | feed (n : Nat)
  | global
  deriving DecidableEq, Repr

/-- The open part of a path's set (R137). -/
structure OpenPart where
  mic : Nat
  feed : Nat
  windows : List Geom
  base : Nat
  fast : Nat
  slow : Nat
  deriving DecidableEq, Repr

/-- The parts a set on a path may carry (R137), with its reservations (R43) and staged tap values by delay (R49, R50). -/
structure PathChange where
  opening : Option OpenPart
  close : Bool
  windows : Option (List Geom)
  base : Option Nat
  fast : Option Nat
  slow : Option Nat
  frozen : Option Bool
  taps : List (Nat × Coef)
  clear : Bool
  reservations : List Nat
  deriving DecidableEq, Repr

/-- The parts a set on a microphone may carry (R137). -/
structure MicChange where
  theta : Option Nat
  hang : Option Nat
  floor : Option Nat
  clear : Bool
  deriving DecidableEq, Repr

/-- The parts a set on a feed may carry (R137). -/
structure FeedChange where
  mode : Option FeedMode
  manualDelay : Option Nat
  actFloor : Option Nat
  probe : Option Nat
  acquire : Bool
  deriving DecidableEq, Repr

/-- The parts a set on the global object may carry (R137). -/
structure GlobalChange where
  delta : Option Nat
  scan : Option Scan
  clear : Bool
  deriving DecidableEq, Repr

/-- The object of a set with the parts it carries. -/
inductive Change where
  | path (n : Nat) (c : PathChange)
  | mic (n : Nat) (c : MicChange)
  | feed (n : Nat) (c : FeedChange)
  | global (c : GlobalChange)
  deriving DecidableEq, Repr

/-- A change set (R137). -/
structure ChangeSet where
  port : Port
  acceptBlock : BlockNo
  change : Change
  deriving DecidableEq, Repr

/-- A port's part of the change stager: pending list, hold, vote (R137, R143, R149). -/
structure Stager where
  list : List ChangeSet
  hold : Bool
  age : Nat
  vote : Bool
  deriving DecidableEq, Repr

/-! ## Control ports -/

/-- Grant level of a port (R158). -/
inductive Grant where
  | observe
  | tune
  | structural
  | control
  deriving DecidableEq, Repr

/-- Status of a response (table of R158). -/
inductive Status where
  | accepted
  | acceptedClamped
  | noRequest
  | malformed
  | unknownKind
  | denied
  | noSuchObject
  | badGeometry
  | noSegments
  | tableFull
  | duplicate
  | pendingOther
  | stagingFull
  | wrongMode
  deriving DecidableEq, Repr

/-- A response message (R157). -/
structure Response where
  kind : Byte
  status : Status
  body : List Byte
  deriving DecidableEq, Repr

/-- Transaction state of a port (10.1); RECEIVING holds the bytes received so far, SENDING the copy of the slot. IGNORING tells whether
the transaction is a write that RESET PART dropped (R155), for CDO still carries 0x00 during a write (R154). -/
inductive Trans where
  | idle
  | receiving (held : List Byte)
  | sending (copy : Response)
  | ignoring (write : Bool)
  deriving DecidableEq, Repr

/-- A control port (R155, R157, R158). -/
structure Ctl where
  trans : Trans
  slot : Response
  grant : Grant
  deriving DecidableEq, Repr

/-! ## Report unit -/

/-- An entry of a METER record (R169). -/
structure MeterEntry where
  mic : Nat
  conv : Conv
  talk : Talk
  lastClass : Quality
  peakD : Nat
  peakE : Nat
  deriving DecidableEq, Repr

/-- The kinds of event, each with its object and detail (R169). -/
inductive Event where
  | micState (mic : Nat) (old new : Conv) (cause : Cause)
  | micDiverged (mic : Nat) (before : Conv) (cleared : Nat)
  | bulkLocked (feed : Nat) (moved : Bool) (b : Nat)
  | bulkMoved (feed old new : Nat)
  | bulkWeak (feed lag : Nat) (formedIn : Acq)
  | feedLost
  | feedBack
  | arrayStopped
  | arrayResumed
  | standbyEntered
  | standbyLeft
  | applied (sets : Nat)
  | watchHit (object : Object) (slot : Nat) (origin : Port)
  | meter (entries : List MeterEntry)
  | holdExpired (sets : Nat)
  | partReset
  deriving DecidableEq, Repr

/-- An event record: the event and the block counter of its cause (R171). -/
structure Record where
  block : BlockNo
  event : Event
  deriving DecidableEq, Repr

/-- A counter and its overflow flag (R176). -/
structure Counter where
  value : BitVec 16
  overflow : Bool
  deriving DecidableEq, Repr

/-- A port's copies of the eight counters (R176). -/
structure Counters where
  feedDrop : Counter
  feedRepeat : Counter
  feedLosses : Counter
  feedFrameFault : Counter
  arrayFrameFault : Counter
  arrayStops : Counter
  degradedBlocks : Counter
  eventsLost : Counter
  deriving DecidableEq, Repr

/-- Mode of a meter timer (R177). -/
inductive MeterMode where
  | oneShot
  | continuous
  deriving DecidableEq, Repr

/-- A meter timer (R177). -/
structure Meter where
  running : Bool
  mode : MeterMode
  period : Nat
  mask : MicMask
  count : Nat
  deriving DecidableEq, Repr

/-- Object kind of a watch slot (R179). -/
inductive WatchKind where
  | none
  | path
  | mic
  | feed
  | global
  deriving DecidableEq, Repr

/-- A watch slot (R179). -/
structure Watch where
  kind : WatchKind
  first : Nat
  last : Nat
  deriving DecidableEq, Repr

/-- A port's part of the report unit (11.3 to 11.7). -/
structure Report where
  queue : List Record
  routineOn : Bool
  faultOn : Bool
  counters : Counters
  meter : Meter
  watches : List Watch
  deriving DecidableEq, Repr

/-- A destination of the routing table (R172). -/
inductive Dest where
  | none
  | port0
  | port1
  | both
  deriving DecidableEq, Repr

/-! ## The block being processed -/

/-- What comes next for the block being processed: the end of the holds that expire at its block start, the supervisor's stage, the
alignment unit's stage (with the supervisor's step 5 before it), the arbiter's stage (with the search results before it), the
update stage, or the meter expiries that end the processing (`standbyDue`: STANDBY_ENTERED is still to be raised). -/
inductive Phase where
  | expiring
  | supervise
  | align
  | arbitrate
  | update
  | meters (standbyDue : Bool)
  deriving DecidableEq, Repr

/-- The block handed to the canceller (R13) and what its stages hand on. `writesSince` counts the history writes made since its block
start (R20); `stageQueues` are the level queues at the start of the current stage (R109). -/
structure Proc where
  number : BlockNo
  rows : List (List Sample)
  degraded : Bool
  feedLive : Bool
  standby : Bool
  writesSince : Nat
  phase : Phase
  excited : List Nat
  grants : List QEntry
  stageQueues : List (List QEntry)
  deriving DecidableEq, Repr

/-! ## The whole state -/

structure State where
  pending : List Instr
  feedPort : FeedPort
  array : ArrayPort
  hist : List (List Sample)
  model : Model
  seen : Model
  pool : PoolView
  queues : List (List QEntry)
  globals : Globals
  canc : Canceller
  proc : Option Proc
  stager : PerPort Stager
  standby : Bool
  ctl : PerPort Ctl
  twoWireAddr : BitVec 7
  routes : List Dest
  report : PerPort Report
  freeCount : Nat
  deriving DecidableEq, Repr

/-! ## Reset values -/

/-- A row of zeros, one sample per microphone. -/
def zeroRow : List Sample := List.replicate Config.mics 0#16

/-- R6. -/
def FeedPort.reset : FeedPort :=
  { store := [], state := .lost, last := List.replicate Config.feeds 0#16, repeatMark := false, framing := .search,
    pin := false }

/-- R17. -/
def ArrayPort.reset : ArrayPort :=
  { rows := [], counter := 0#32, degraded := false, feedLive := true, run := .running, stopTimer := true,
    outBuf := List.replicate Config.blockFrames zeroRow, framing := .search, pin := false, adout := none }

/-- 256 accumulators at zero (R24). -/
def zeroAcc : List Int := List.replicate Config.lags 0

/-- R24, R23. -/
def Feed.reset : Feed :=
  { mode := .manual, acq := .manual, b := 0, manualDelay := 0, actFloor := Config.resetFloor, probe := 0, acc := zeroAcc,
    counted := 0, countdown := 0, lastLag := 0, lastValidity := .none, dueMove := none, energy := 0, peak := 0, active := false }

/-- R118. -/
def Mic.reset : Mic :=
  { conv := .idle, talk := .clear, hangover := 0, goodRun := 0, poorRun := 0, divCount := 0, lastClass := .none, theta := 16,
    hang := 8, floor := 32767, peakD := 0, peakE := 0, energyD := 0, energyE := 0, measBlock := 0#32 }

/-- R42, R58, R118, R74, R24, R38. -/
def Model.reset : Model :=
  { coefs := [], segs := List.replicate Config.segments .free, paths := List.replicate Config.paths .free, clearList := [],
    mics := List.replicate Config.mics Mic.reset, gains := List.replicate Config.mics Config.fullGain,
    feeds := List.replicate Config.feeds Feed.reset, captured := .lost }

/-- R55. -/
def PoolView.reset : PoolView :=
  { segs := List.replicate Config.segments .free, paths := List.replicate Config.paths .free }

/-- R74. -/
def Canceller.reset : Canceller :=
  { reqMask := ⟨0#24, 0#24⟩, mask := ⟨0#24, 0#24⟩, snapshot := List.replicate Config.feeds false,
    errD := List.replicate Config.mics (List.replicate Config.blockFrames 0#16),
    errE := List.replicate Config.mics (List.replicate Config.blockFrames 0#16) }

/-- R137, R143, R149. -/
def Stager.reset : Stager := { list := [], hold := false, age := 0, vote := false }

/-- The NO_REQUEST response (R157). -/
def Response.none : Response := { kind := 0#8, status := .noRequest, body := [] }

/-- A counter at zero with its flag clear (R176). -/
def Counter.zero : Counter := { value := 0#16, overflow := false }

/-- R176. -/
def Counters.reset : Counters :=
  { feedDrop := .zero, feedRepeat := .zero, feedLosses := .zero, feedFrameFault := .zero, arrayFrameFault := .zero,
    arrayStops := .zero, degradedBlocks := .zero, eventsLost := .zero }

/-- Stopped with an empty mask (R177); mode, period and count are DESIGN CHOICE (log 9). -/
def Meter.reset : Meter := { running := false, mode := .oneShot, period := 1, mask := 0#24, count := 0 }

/-- A slot of kind none (R179; first and last: log 17). -/
def Watch.reset : Watch := { kind := .none, first := 0, last := 0 }

/-- R173, R174, R176, R177, R179. -/
def Report.reset : Report :=
  { queue := [], routineOn := true, faultOn := true, counters := .reset, meter := .reset, watches := List.replicate 4 .reset }

/-- An idle port whose slot holds NO_REQUEST (R155, R157), with a grant as latched. -/
def Ctl.reset (g : Grant) : Ctl := { trans := .idle, slot := Response.none, grant := g }

/-- The part right after a power-on reset. The straps' levels are inputs that POWER_ON_RESET names; here both grant codes are 0, ADDR
is low and CSEL is high (DESIGN CHOICE, log 8). No command waits. -/
def State.reset : State :=
  { pending := [], feedPort := .reset, array := .reset,
    hist := List.replicate Config.feeds (List.replicate Config.historyLength 0#16),
    model := .reset, seen := .reset, pool := .reset, queues := [[], [], [], []], globals := { delta := Config.resetDelta, scan := .fair },
    canc := .reset, proc := none, stager := ⟨.reset, .reset⟩, standby := false,
    ctl := ⟨.reset .observe, .reset .observe⟩, twoWireAddr := 0x2C#7, routes := List.replicate 11 .both,
    report := ⟨.reset, .reset⟩, freeCount := 0 }

end Sys2Proof.Machine
end

