-- ==== Sys2Proof/Machine/Flags.lean ====
section
/-! DEFINITION. The part's arithmetic and verdicts: rounding and saturation, slots and samples, the receiver's framing, the talk,
quality and validity verdicts, levels and step codes, the residual ramp, and the update's normaliser and increment. -/

namespace Sys2Proof.Machine

/-! ## Rounding, saturation, sums (00_scope, Conventions) -/

/-- `a / d` rounded to nearest, ties away from zero. -/
def roundDiv (a : Int) (d : Nat) : Int :=
  let q : Int := ((2 * a.natAbs + d) / (2 * d) : Nat)
  if a < 0 then -q else q

/-- `a` clamped to `lo..hi`. -/
def clampInt (lo hi a : Int) : Int := max lo (min hi a)

/-- Saturated to 16 bits. -/
def sat16 (a : Int) : Sample := BitVec.ofInt 16 (clampInt (-32768) 32767 a)

/-- Clamped to the coefficient range (R100). -/
def clampCoef (a : Int) : Coef := BitVec.ofInt 24 (clampInt (-8388608) 8388607 a)

/-- A number clamped to `lo..hi` (R159). -/
def clampNat (lo hi v : Nat) : Nat := max lo (min hi v)

/-- The sum of `f i` for `i` below `n`, exact. -/
def sumTo (n : Nat) (f : Nat → Int) : Int := ((List.range n).map f).sum

/-- The sum of the squares of a list of samples, exact. -/
def energyOf (l : List Sample) : Nat := (l.map fun x => x.toInt.natAbs * x.toInt.natAbs).sum

/-- The largest absolute value in a list of samples, 0 for none. -/
def peakOf (l : List Sample) : Nat := l.foldl (fun m x => max m x.toInt.natAbs) 0

/-! ## Slots and framing -/

/-- R3: the upper 24 bits as a two's-complement value v, then floor(v / 256). -/
def sampleOfSlot (s : Slot) : Sample := BitVec.ofInt 16 ((s.extractLsb' 8 24).toInt.fdiv 256)

/-- R4: o x 256 in the upper 24 bits, zero padding. -/
def slotOfSample (o : Sample) : Slot := BitVec.ofInt 24 (o.toInt * 256) ++ (0#8)

/-- The slots that a frame's data bits spell, slot 0 first and most significant bit first (R1). -/
def slotsOf (n data : Nat) : List Slot := (List.range n).map fun i => BitVec.ofNat 32 (data / 2 ^ (32 * (n - 1 - i)))

/-- A bit is a sync when the frame sync pin is seen high after it was seen low at the bit before (R2). -/
def isSync (pin : Bool) (b : LineBit) : Bool := b.sync && !pin

/-- What a received bit does at a receiver with `len` bits in a frame whose sync pin was seen at `pin` at the bit before (R2): the
framing state, and how a frame ends with this bit, if one does. -/
def Framing.onBit (len : Nat) (pin : Bool) (b : LineBit) : Framing → Framing × Option FrameEnd
  | .search => if isSync pin b then (.inFrame 1 b.data.toNat, none) else (.search, none)
  | .inFrame n data =>
    if isSync pin b then (.inFrame 1 b.data.toNat, some .faulted)
    else if n + 1 < len then (.inFrame (n + 1) (2 * data + b.data.toNat), none)
    else (.search, some (.wellFormed (slotsOf (len / 32) (2 * data + b.data.toNat))))

/-- A receiver that is in a frame. -/
def Framing.busy : Framing → Bool
  | .search => false
  | .inFrame _ _ => true

/-! ## Supervision verdicts -/

/-- The talk condition (R121). -/
def talkCondition (theta peakD peakX : Nat) : Bool := theta * peakX < 16 * peakD

/-- Quality class of an excited block (R124). -/
def qualityOf (ed ee : Nat) : Quality :=
  if 32 * ee ≤ ed then .good else if ed < 4 * ee then .poor else .fair

/-- Whether an excited block is diverging (R124). -/
def diverging (ed ee : Nat) : Bool := 4 * ed < ee

/-- A run or count one higher, stopping at 65,535 (R118, R114). -/
def runUp (n : Nat) : Nat := min (n + 1) 65535

/-- Effective level of a path (R131, R108). No open path is on an IDLE microphone: that line is the model's own and no run reaches
it (log 21). -/
def levelOf (c : Conv) (base : Nat) : Nat :=
  match c with
  | .idle => base
  | .acquire => min 3 (base + 1)
  | .converged => base
  | .recover => 3

/-- Step code of a path (R131, R98); IDLE as in `levelOf` (log 21). -/
def stepCodeOf (c : Conv) (fast slow : Nat) : Nat :=
  match c with
  | .idle => slow
  | .acquire => fast
  | .converged => slow
  | .recover => fast

/-! ## Bulk-delay search -/

/-- The index of the largest magnitude in a list, the first of them if several share it (R28): `best` and `bestAt` are the largest so
far and its index, `i` the index of the head. -/
def peakIndexFrom (i bestAt best : Nat) : List Int → Nat
  | [] => bestAt
  | c :: cs => if best < c.natAbs then peakIndexFrom (i + 1) i c.natAbs cs else peakIndexFrom (i + 1) bestAt best cs

/-- l* of a measurement (R28). -/
def bestLag (acc : List Int) : Nat := 8 * peakIndexFrom 0 0 0 acc

/-- VALID when the peak is at least four times the mean magnitude (R28). -/
def validityOf (acc : List Int) : Validity :=
  let peak := (acc.getD (peakIndexFrom 0 0 0 acc) 0).natAbs
  if 4 * (acc.map Int.natAbs).sum ≤ peak * 256 then .valid else .weak

/-- b_new of a VALID result (R28). -/
def newDelay (lag : Nat) : Nat := lag - Config.guardSamples

/-- Whether a new delay is more than the tolerance away from b (R29, R30). -/
def movesDelay (b bNew : Nat) : Bool := Config.moveTolerance < max b bNew - min b bNew

/-! ## Residual stage -/

/-- One step of the residual gain toward its target (R82). -/
def rampGain (target r : Nat) : Nat :=
  if r < target then r + min Config.rampStep (target - r) else r - min Config.rampStep (r - target)

/-- The residual output of an error at a gain (R83). -/
def residualOut (e : Sample) (r : Nat) : Sample := BitVec.ofInt 16 (roundDiv (e.toInt * r) 32768)

/-- The error of an input sample and an exact sum (R77, R78). -/
def errorOf (d : Sample) (acc : Int) : Sample := sat16 (d.toInt - roundDiv acc 8388608)

/-! ## Update -/

/-- The normaliser D of a path (R97). -/
def normaliser (energy taps delta : Nat) : Nat := energy * taps / 1024 + delta

/-- The increment of a tap (R99). -/
def increment (code : Nat) (gradient : Int) (d : Nat) : Int := roundDiv (code * gradient * 512) d

/-- The new value of a tap (R100). -/
def updatedCoef (w : Coef) (delta : Int) : Coef := clampCoef (w.toInt + delta)

end Sys2Proof.Machine
end

