-- ==== Sys2Proof/Machine/Operands.lean ====
section
/-! DEFINITION. The wire layouts of 10_control_ports_and_requests: kind codes, classes and body lengths (R165), codes (R158, R170),
request bodies (R167), event records (R169). -/

namespace Sys2Proof.Machine

/-! ## Bytes -/

/-- `n` bytes of a number, least significant first (R166). -/
def le : Nat → Nat → List Byte
  | 0, _ => []
  | n + 1, v => BitVec.ofNat 8 v :: le n (v / 256)

/-- The number that bytes spell, least significant first (R166). -/
def unLe : List Byte → Nat
  | [] => 0
  | b :: bs => b.toNat + 256 * unLe bs

/-- The field of `n` bytes at offset `off` of a body. -/
def field (body : List Byte) (off n : Nat) : Nat := unLe ((body.drop off).take n)

/-- One byte. -/
def byte (v : Nat) : Byte := BitVec.ofNat 8 v

/-- A flag as a byte (R170). -/
def flagByte (b : Bool) : Byte := if b then 1#8 else 0#8

/-! ## Codes (R158, R170) -/

/-- The number of a control port (R168). -/
def portCode : Port → Nat
  | .p0 => 0
  | .p1 => 1

/-- The other control port. -/
def otherPort : Port → Port
  | .p0 => .p1
  | .p1 => .p0

def Grant.code : Grant → Nat
  | .observe => 0
  | .tune => 1
  | .structural => 2
  | .control => 3

/-- The grant level of a pair of strap pins, the A pin being the low bit (R158). -/
def Grant.ofStraps (a b : Bool) : Grant :=
  match b, a with
  | false, false => .observe
  | false, true => .tune
  | true, false => .structural
  | true, true => .control

def Status.code : Status → Nat
  | .accepted => 0x00
  | .acceptedClamped => 0x01
  | .noRequest => 0x10
  | .malformed => 0x11
  | .unknownKind => 0x12
  | .denied => 0x13
  | .noSuchObject => 0x14
  | .badGeometry => 0x15
  | .noSegments => 0x16
  | .tableFull => 0x17
  | .duplicate => 0x18
  | .pendingOther => 0x19
  | .stagingFull => 0x1A
  | .wrongMode => 0x1B

def Conv.code : Conv → Nat
  | .idle => 0
  | .acquire => 1
  | .converged => 2
  | .recover => 3

def Talk.code : Talk → Nat
  | .clear => 0
  | .talk => 1

def Quality.code : Quality → Nat
  | .none => 0
  | .good => 1
  | .fair => 2
  | .poor => 3

def Cause.code : Cause → Nat
  | .opened => 0
  | .emptied => 1
  | .goodRun => 2
  | .poorRun => 3
  | .diverged => 4
  | .clearModel => 5
  | .bulkMove => 6
  | .bulkSet => 7

def FeedMode.code : FeedMode → Nat
  | .manual => 0
  | .auto => 1

def FeedMode.ofCode (n : Nat) : FeedMode := if n = 0 then .manual else .auto

def Acq.code : Acq → Nat
  | .manual => 0
  | .seek => 1
  | .locked => 2
  | .check => 3

def Validity.code : Validity → Nat
  | .none => 0
  | .valid => 1
  | .weak => 2

def FeedState.code : FeedState → Nat
  | .live => 0
  | .lost => 1

def Scan.code : Scan → Nat
  | .fair => 0
  | .greedy => 1

def Scan.ofCode (n : Nat) : Scan := if n = 0 then .fair else .greedy

def Dest.ofCode : Nat → Dest
  | 0 => .none
  | 1 => .port0
  | 2 => .port1
  | _ => .both

def WatchKind.code : WatchKind → Nat
  | .none => 0
  | .path => 1
  | .mic => 2
  | .feed => 3
  | .global => 4

/-- The object kind of a code, none above 4 (R179). -/
def WatchKind.ofCode : Nat → Option WatchKind
  | 0 => some .none
  | 1 => some .path
  | 2 => some .mic
  | 3 => some .feed
  | 4 => some .global
  | _ => none

/-- Object kind and object id of an object in an event record (R169, R170). -/
def Object.bytes : Object → List Byte
  | .path n => [1#8, byte n]
  | .mic n => [2#8, byte n]
  | .feed n => [3#8, byte n]
  | .global => [4#8, 0#8]

/-- The pending owner code of R170. -/
def ownerCode : Option Port → Nat
  | none => 0
  | some .p0 => 1
  | some .p1 => 2

/-! ## Kinds of request (R165) -/

/-- The requests of the kind-code table. -/
inductive Kind where
  | identify
  | readPath
  | readMic
  | readReference
  | readTaps
  | readEvents
  | readCounters
  | readPool
  | setMic
  | setReference
  | setPath
  | setGlobal
  | acquire
  | hold
  | release
  | mute
  | meter
  | watch
  | eventEnable
  | openPath
  | closePath
  | setWindows
  | writeTaps
  | clearModel
  | route
  | standby
  | wake
  | resetPart
  | resetPort
  deriving DecidableEq, Repr

/-- The kind byte (R165). -/
def Kind.code : Kind → Byte
  | .identify => 0x01#8
  | .readPath => 0x02#8
  | .readMic => 0x03#8
  | .readReference => 0x04#8
  | .readTaps => 0x05#8
  | .readEvents => 0x06#8
  | .readCounters => 0x07#8
  | .readPool => 0x08#8
  | .setMic => 0x10#8
  | .setReference => 0x11#8
  | .setPath => 0x12#8
  | .setGlobal => 0x13#8
  | .acquire => 0x14#8
  | .hold => 0x15#8
  | .release => 0x16#8
  | .mute => 0x17#8
  | .meter => 0x18#8
  | .watch => 0x19#8
  | .eventEnable => 0x1A#8
  | .openPath => 0x20#8
  | .closePath => 0x21#8
  | .setWindows => 0x22#8
  | .writeTaps => 0x23#8
  | .clearModel => 0x24#8
  | .route => 0x30#8
  | .standby => 0x31#8
  | .wake => 0x32#8
  | .resetPart => 0x33#8
  | .resetPort => 0x3F#8

/-- The request class (R165). -/
def Kind.grant : Kind → Grant
  | .identify => .observe
  | .readPath => .observe
  | .readMic => .observe
  | .readReference => .observe
  | .readTaps => .observe
  | .readEvents => .observe
  | .readCounters => .observe
  | .readPool => .observe
  | .setMic => .tune
  | .setReference => .tune
  | .setPath => .tune
  | .setGlobal => .tune
  | .acquire => .tune
  | .hold => .tune
  | .release => .tune
  | .mute => .tune
  | .meter => .observe
  | .watch => .observe
  | .eventEnable => .observe
  | .openPath => .structural
  | .closePath => .structural
  | .setWindows => .structural
  | .writeTaps => .structural
  | .clearModel => .structural
  | .route => .control
  | .standby => .control
  | .wake => .control
  | .resetPart => .control
  | .resetPort => .observe

/-- Every kind of the table. -/
def Kind.all : List Kind :=
  [.identify, .readPath, .readMic, .readReference, .readTaps, .readEvents, .readCounters, .readPool, .setMic, .setReference, .setPath,
   .setGlobal, .acquire, .hold, .release, .mute, .meter, .watch, .eventEnable, .openPath, .closePath, .setWindows, .writeTaps,
   .clearModel, .route, .standby, .wake, .resetPart, .resetPort]

/-- Whether a kind byte is in the kind-code table (R156). -/
def knownKind (b : Byte) : Bool := Kind.all.any fun k => k.code == b

/-- The body length of a layout whose count byte at `at_` counts windows of four bytes. -/
def windowsLayout (at_ : Nat) (body : List Byte) : Bool :=
  at_ < body.length && body.length == at_ + 1 + 4 * field body at_ 1

/-- Whether a body has the length its kind's layout gives for it (R156, R165). -/
def Kind.layoutOk (k : Kind) (body : List Byte) : Bool :=
  match k with
  | .identify => body.length == 0
  | .readPath => body.length == 1
  | .readMic => body.length == 1
  | .readReference => body.length == 1
  | .readTaps => body.length == 5
  | .readEvents => body.length == 1
  | .readCounters => body.length == 0
  | .readPool => body.length == 0
  | .setMic => body.length == 6
  | .setReference => body.length == 12
  | .setPath => body.length == 8
  | .setGlobal => body.length == 6
  | .acquire => body.length == 1
  | .hold => body.length == 0
  | .release => body.length == 0
  | .mute => body.length == 3
  | .meter => body.length == 7
  | .watch => body.length == 4
  | .eventEnable => body.length == 2
  | .openPath => windowsLayout 7 body
  | .closePath => body.length == 1
  | .setWindows => windowsLayout 1 body
  | .writeTaps => 4 ≤ body.length && (body.length - 4) % 3 == 0
  | .clearModel => body.length == 2
  | .route => 2 ≤ body.length && body.length % 2 == 0
  | .standby => body.length == 0
  | .wake => body.length == 0
  | .resetPart => body.length == 0
  | .resetPort => body.length == 0

/-- The bytes of a request message: kind, body length, body (10.2). -/
def message (k : Kind) (body : List Byte) : List Byte := k.code :: byte body.length :: body

/-- The bytes of a response message: kind echo, status, body length, body (10.2). -/
def Response.bytes (r : Response) : List Byte := r.kind :: byte r.status.code :: byte r.body.length :: r.body

/-! ## Request bodies (R167) -/

/-- An optional field: present when its flag is set, clamped to `lo..hi` (R159, R166). -/
def optField (flags i lo hi v : Nat) : Option Nat := if flags.testBit i then some (clampNat lo hi v) else none

/-- Whether an optional field is present and out of its range (R159). -/
def optClamped (flags i lo hi v : Nat) : Bool := flags.testBit i && (decide (v < lo) || decide (hi < v))

/-- Fields of SET MIC (R133). -/
structure SetMicReq where
  mic : Nat
  theta : Option Nat
  hang : Option Nat
  floor : Option Nat
  clamped : Bool
  deriving DecidableEq, Repr

def parseSetMic (body : List Byte) : SetMicReq :=
  let fl := field body 1 1
  { mic := field body 0 1, theta := optField fl 0 1 64 (field body 2 1), hang := optField fl 1 0 31 (field body 3 1),
    floor := optField fl 2 0 32767 (field body 4 2),
    clamped := optClamped fl 0 1 64 (field body 2 1) || optClamped fl 1 0 31 (field body 3 1) ||
      optClamped fl 2 0 32767 (field body 4 2) }

/-- Fields of SET REFERENCE (R34). `probe` is not clamped: it is a reference to an object. -/
structure SetReferenceReq where
  feed : Nat
  mode : Option FeedMode
  manualDelay : Option Nat
  actFloor : Option Nat
  probe : Option Nat
  clamped : Bool
  deriving DecidableEq, Repr

def parseSetReference (body : List Byte) : SetReferenceReq :=
  let fl := field body 1 1
  { feed := field body 0 1, mode := (optField fl 0 0 1 (field body 2 1)).map FeedMode.ofCode,
    manualDelay := optField fl 1 0 Config.maxDelay (field body 3 2), actFloor := optField fl 2 1 Config.maxFloor (field body 5 6),
    probe := if fl.testBit 3 then some (field body 11 1) else none,
    clamped := optClamped fl 0 0 1 (field body 2 1) || optClamped fl 1 0 Config.maxDelay (field body 3 2) ||
      optClamped fl 2 1 Config.maxFloor (field body 5 6) }

/-- Fields of SET PATH (R70). -/
structure SetPathReq where
  path : Nat
  base : Option Nat
  fast : Option Nat
  slow : Option Nat
  frozen : Option Bool
  clamped : Bool
  deriving DecidableEq, Repr

def parseSetPath (body : List Byte) : SetPathReq :=
  let fl := field body 1 1
  { path := field body 0 1, base := optField fl 0 0 3 (field body 2 1), fast := optField fl 1 1 255 (field body 3 2),
    slow := optField fl 2 1 255 (field body 5 2), frozen := (optField fl 3 0 1 (field body 7 1)).map (· == 1),
    clamped := optClamped fl 0 0 3 (field body 2 1) || optClamped fl 1 1 255 (field body 3 2) ||
      optClamped fl 2 1 255 (field body 5 2) || optClamped fl 3 0 1 (field body 7 1) }

/-- Fields of SET GLOBAL (R104). -/
structure SetGlobalReq where
  delta : Option Nat
  scan : Option Scan
  clamped : Bool
  deriving DecidableEq, Repr

def parseSetGlobal (body : List Byte) : SetGlobalReq :=
  let fl := field body 0 1
  { delta := optField fl 0 1 Config.maxDelta (field body 1 4), scan := (optField fl 1 0 1 (field body 5 1)).map Scan.ofCode,
    clamped := optClamped fl 0 1 Config.maxDelta (field body 1 4) || optClamped fl 1 0 1 (field body 5 1) }

/-- The windows of a window list: four bytes each, start and then length (R166). -/
def parseWindows : List Byte → List Geom
  | s0 :: s1 :: l0 :: l1 :: rest => { start := unLe [s0, s1], len := unLe [l0, l1] } :: parseWindows rest
  | _ => []

/-- Fields of OPEN PATH (R61), settings clamped. -/
structure OpenPathReq where
  mic : Nat
  feed : Nat
  base : Nat
  fast : Nat
  slow : Nat
  windows : List Geom
  clamped : Bool
  deriving DecidableEq, Repr

def parseOpenPath (body : List Byte) : OpenPathReq :=
  { mic := field body 0 1, feed := field body 1 1, base := clampNat 0 3 (field body 2 1), fast := clampNat 1 255 (field body 3 2),
    slow := clampNat 1 255 (field body 5 2), windows := parseWindows (body.drop 8),
    clamped := optClamped 1 0 0 3 (field body 2 1) || optClamped 1 0 1 255 (field body 3 2) ||
      optClamped 1 0 1 255 (field body 5 2) }

/-- The values of WRITE TAPS: three bytes each, 24-bit two's complement (R166). -/
def parseValues : List Byte → List Coef
  | a :: b :: c :: rest => BitVec.ofNat 24 (unLe [a, b, c]) :: parseValues rest
  | _ => []

/-- Fields of WRITE TAPS (R49). -/
structure WriteTapsReq where
  path : Nat
  window : Nat
  offset : Nat
  values : List Coef
  deriving DecidableEq, Repr

def parseWriteTaps (body : List Byte) : WriteTapsReq :=
  { path := field body 0 1, window := field body 1 1, offset := field body 2 2, values := parseValues (body.drop 4) }

/-- Fields of READ TAPS (R54), the count clamped to 1..64. -/
structure ReadTapsReq where
  path : Nat
  window : Nat
  offset : Nat
  count : Nat
  clamped : Bool
  deriving DecidableEq, Repr

def parseReadTaps (body : List Byte) : ReadTapsReq :=
  { path := field body 0 1, window := field body 1 1, offset := field body 2 2, count := clampNat 1 64 (field body 4 1),
    clamped := optClamped 1 0 1 64 (field body 4 1) }

/-- The entries of ROUTE: an event kind code and a destination code each (R172). -/
def parseRoute : List Byte → List (Nat × Nat)
  | k :: d :: rest => (k.toNat, d.toNat) :: parseRoute rest
  | _ => []

/-- A microphone mask (R166). -/
def parseMask (body : List Byte) (off : Nat) : MicMask := BitVec.ofNat 24 (field body off 3)

/-- Fields of METER (R177): whether it starts the timer, and what it starts it with, clamped. -/
structure MeterReq where
  start : Bool
  mode : MeterMode
  period : Nat
  mask : MicMask
  clamped : Bool
  deriving DecidableEq, Repr

def parseMeter (body : List Byte) : MeterReq :=
  let action := field body 0 1
  { start := action != 0, mode := if field body 1 1 = 0 then .oneShot else .continuous, period := clampNat 1 65535 (field body 2 2),
    mask := parseMask body 4,
    clamped := action != 0 &&
      (optClamped 1 0 0 1 action || optClamped 1 0 0 1 (field body 1 1) || optClamped 1 0 1 65535 (field body 2 2)) }

/-! ## Event records (R169) -/

/-- Whether a record is of class FAULT (R171). -/
def Event.isFault : Event → Bool
  | .micState .. => false
  | .micDiverged .. => true
  | .bulkLocked .. => false
  | .bulkMoved .. => false
  | .bulkWeak .. => false
  | .feedLost => true
  | .feedBack => false
  | .arrayStopped => true
  | .arrayResumed => false
  | .standbyEntered => false
  | .standbyLeft => false
  | .applied _ => false
  | .watchHit .. => false
  | .meter _ => false
  | .holdExpired _ => true
  | .partReset => false

/-- The kind code (R169). -/
def Event.code : Event → Nat
  | .micState .. => 0x01
  | .micDiverged .. => 0x02
  | .bulkLocked .. => 0x03
  | .bulkMoved .. => 0x04
  | .bulkWeak .. => 0x05
  | .feedLost => 0x06
  | .feedBack => 0x07
  | .arrayStopped => 0x08
  | .arrayResumed => 0x09
  | .standbyEntered => 0x0A
  | .standbyLeft => 0x0B
  | .applied _ => 0x10
  | .watchHit .. => 0x11
  | .meter _ => 0x12
  | .holdExpired _ => 0x13
  | .partReset => 0x14

/-- Whether a kind code is a routed kind (R172). -/
def routedCode (n : Nat) : Bool := decide (1 ≤ n) && decide (n ≤ 11)

/-- Object kind and object id (R169): the id is 0 when the kind is none or global. -/
def Event.objectBytes : Event → List Byte
  | .micState m _ _ _ => [2#8, byte m]
  | .micDiverged m _ _ => [2#8, byte m]
  | .bulkLocked f _ _ => [3#8, byte f]
  | .bulkMoved f _ _ => [3#8, byte f]
  | .bulkWeak f _ _ => [3#8, byte f]
  | .watchHit o _ _ => o.bytes
  | _ => [0#8, 0#8]

/-- Detail bytes (R169). -/
def Event.detail : Event → List Byte
  | .micState _ old new cause => [byte old.code, byte new.code, byte cause.code]
  | .micDiverged _ before n => [byte before.code, byte n]
  | .bulkLocked _ moved b => flagByte moved :: le 2 b
  | .bulkMoved _ old new => le 2 old ++ le 2 new
  | .bulkWeak _ lag formedIn => le 2 lag ++ [byte formedIn.code]
  | .applied n => [byte n]
  | .watchHit _ slot origin => [byte slot, byte (portCode origin)]
  | .holdExpired n => [byte n]
  | _ => []

/-- An entry of a METER record (R169). -/
def MeterEntry.bytes (e : MeterEntry) : List Byte :=
  [byte e.mic, byte e.conv.code, byte e.talk.code, byte e.lastClass.code] ++ le 2 e.peakD ++ le 2 e.peakE

/-- What follows the detail: the entries of a METER record (R169). -/
def Event.entryBytes : Event → List Byte
  | .meter es => byte es.length :: es.flatMap MeterEntry.bytes
  | _ => []

/-- The bytes of an event record (R169). -/
def Record.bytes (r : Record) : List Byte :=
  [byte r.event.code, flagByte r.event.isFault] ++ le 4 r.block.toNat ++ r.event.objectBytes ++
    [byte r.event.detail.length] ++ r.event.detail ++ r.event.entryBytes

end Sys2Proof.Machine
end

