-- ==== Sys2Proof/Machine/Ops.lean ====
section
/-! DEFINITION. The named operations the meanings share: the tap store's memory, segments, histories, path table, level queues, the
report unit, change sets and claims. (A block has no exception entry: raising an event or a counter is a command's effect.) -/

namespace Sys2Proof.Machine

/-! ## The tap store's memory -/

/-- The canonical form of the memory: addresses strictly rising, and no entry equal to what an unlisted address reads as. -/
abbrev Memory.wf (m : Memory) : Prop := m.Pairwise (fun c d => c.1 < d.1) ∧ ∀ c ∈ m, c.2 ≠ 0#24

/-- What an unlisted address reads as: the reset contents (R42). -/
def Memory.unlisted : Coef := 0#24

/-- The coefficient at an address. -/
def Memory.read : Memory → Nat → Coef
  | [], _ => Memory.unlisted
  | c :: m, a => if c.1 = a then c.2 else Memory.read m a

/-- A memory with an address's entry left out. -/
def Memory.erase (m : Memory) (a : Nat) : Memory := m.filter fun c => c.1 != a

/-- A memory with an entry put in at its place. -/
def Memory.insert (a : Nat) (v : Coef) : Memory → Memory
  | [] => [(a, v)]
  | c :: m =>
    if a < c.1 then (a, v) :: c :: m
    else if a = c.1 then (a, v) :: m
    else c :: Memory.insert a v m

/-- A write of one coefficient. -/
def Memory.write (m : Memory) (a : Nat) (v : Coef) : Memory :=
  if v = Memory.unlisted then Memory.erase m a else Memory.insert a v m

/-- Several writes, in order. -/
def Memory.writeAll (m : Memory) (ws : List (Nat × Coef)) : Memory := ws.foldl (fun m w => Memory.write m w.1 w.2) m

/-- The 64 coefficients of a segment set to zero (R42, R45, R47). -/
def Memory.zeroSegment (m : Memory) (seg : Nat) : Memory := m.filter fun c => c.1 / Config.segmentTaps != seg

/-- Several segments set to zero. -/
def Memory.zeroSegments (m : Memory) (l : List Nat) : Memory := l.foldl Memory.zeroSegment m

/-! ## Segments (R41, R43) -/

/-- The free pool, lowest number first. -/
def freePool (segs : List SegState) : List Nat :=
  segs.zipIdx.filterMap fun c => if c.1 = .free then some c.2 else none

/-- The states with several segments put in one state. -/
def setSegs (st : SegState) (l : List Nat) (segs : List SegState) : List SegState := l.foldl (fun g i => g.set i st) segs

/-- A number put in its place in an ascending list. -/
def insertNat (n : Nat) : List Nat → List Nat
  | [] => [n]
  | x :: xs => if n ≤ x then n :: x :: xs else x :: insertNat n xs

/-- A list in ascending order. -/
def sortNats (l : List Nat) : List Nat := l.foldr insertNat []

/-- A set with some members more, each at most once (R47). -/
def addAll (l new : List Nat) : List Nat := new.foldl (fun l n => if l.contains n then l else l ++ [n]) l

/-! ## Windows and paths -/

/-- A window list in ascending start order (R59). -/
def insertGeom (g : Geom) : List Geom → List Geom
  | [] => [g]
  | h :: t => if g.start ≤ h.start then g :: h :: t else h :: insertGeom g t

def sortGeoms (l : List Geom) : List Geom := l.foldr insertGeom []

/-- No two windows of a sorted list share a delay. -/
def disjointChain : List Geom → Bool
  | g :: h :: t => decide (g.start + g.len ≤ h.start) && disjointChain (h :: t)
  | _ => true

/-- One window's own tests of R59. -/
def Geom.ok (g : Geom) : Bool :=
  g.start % 64 == 0 && g.len % 64 == 0 && decide (64 ≤ g.len) && decide (g.start + g.len ≤ Config.delayEnd)

/-- Whether a window list is valid (R59). -/
def validGeoms (l : List Geom) : Bool :=
  decide (1 ≤ l.length) && decide (l.length ≤ 4) && l.all Geom.ok && disjointChain (sortGeoms l)

/-- The delay blocks of a window, ascending. -/
def Geom.blocks (g : Geom) : List Nat := (List.range (g.len / 64)).map (g.start / 64 + ·)

/-- The delay blocks of a layout. -/
def layoutBlocks (l : List Geom) : List Nat := l.flatMap Geom.blocks

/-- The segments a window list needs (R59). -/
def segmentsNeeded (l : List Geom) : Nat := (l.map Geom.len).sum / 64

def Window.geom (w : Window) : Geom := { start := w.start, len := w.len }

/-- The window list of a path as geometry. -/
def OpenPath.geoms (p : OpenPath) : List Geom := p.windows.map Window.geom

/-- The total taps of a path (R57). -/
def OpenPath.totalTaps (p : OpenPath) : Nat := (p.windows.map Window.len).sum

/-- The segments of a path. -/
def OpenPath.segs (p : OpenPath) : List Nat := p.windows.flatMap Window.segs

/-- The delay blocks of a path with the segments that back them. -/
def OpenPath.backing (p : OpenPath) : List (Nat × Nat) := p.windows.flatMap fun w => w.geom.blocks.zip w.segs

/-- The taps of a window, ascending: delay and address (R40). -/
def Window.taps (w : Window) : List (Nat × Nat) :=
  w.segs.zipIdx.flatMap fun c => (List.range 64).map fun j => (w.start + 64 * c.2 + j, c.1 * Config.segmentTaps + j)

/-- The address of the tap at a delay of a window, none if the window does not cover it (R40). -/
def Window.tapAddr (w : Window) (k : Nat) : Option Nat :=
  if w.start ≤ k ∧ k < w.start + w.len then (w.segs[(k - w.start) / 64]?).map fun seg => seg * Config.segmentTaps + k % 64
  else none

/-- The address of the tap at a delay of a path, none if no window covers it (R40). -/
def OpenPath.tapAddr (p : OpenPath) (k : Nat) : Option Nat := p.windows.findSome? fun w => w.tapAddr k

/-- The OPEN paths with their numbers, ascending. -/
def openPaths (paths : List PathRec) : List (Nat × OpenPath) :=
  paths.zipIdx.filterMap fun c =>
    match c.1 with
    | .free => none
    | .pendingOpen _ _ => none
    | .opened p => some (c.2, p)

/-- The OPEN paths on a microphone. -/
def pathsOnMic (paths : List PathRec) (m : Nat) : List (Nat × OpenPath) := (openPaths paths).filter fun c => c.2.mic == m

/-- The OPEN paths on a feed. -/
def pathsOnFeed (paths : List PathRec) (f : Nat) : List (Nat × OpenPath) := (openPaths paths).filter fun c => c.2.feed == f

/-- Whether a pair of microphone and feed is held (R60). -/
def pairHeld (paths : List PathRec) (mic feed : Nat) : Bool :=
  paths.any fun r =>
    match r with
    | .free => false
    | .pendingOpen m f => m == mic && f == feed
    | .opened p => p.mic == mic && p.feed == feed

/-- The state of a record. -/
def PathRec.status : PathRec → PathStatus
  | .free => .free
  | .pendingOpen _ _ => .pendingOpen
  | .opened _ => .opened

/-- The record of a path number; a number above 127 has none and counts as FREE (R64). -/
def pathAt (paths : List PathRec) (n : Nat) : PathRec := paths.getD n .free

/-- A microphone's record. -/
def micAt (mics : List Mic) (m : Nat) : Mic := mics.getD m Mic.reset

/-- A feed's record. -/
def feedAt (feeds : List Feed) (f : Nat) : Feed := feeds.getD f Feed.reset

/-- The effective level of an open path (R108). -/
def pathLevel (mics : List Mic) (p : OpenPath) : Nat := levelOf (micAt mics p.mic).conv p.base

/-! ## Level queues -/

/-- The window a queue entry names, with its path. -/
def windowAt (paths : List PathRec) (e : QEntry) : Option (OpenPath × Window) :=
  match pathAt paths e.path with
  | .free => none
  | .pendingOpen _ _ => none
  | .opened p => (p.windows[e.index]?).map fun w => (p, w)

/-- Whether two windows are the same window across a reshape (R69). -/
def sameWindow (v w : Window) : Bool := v.start == w.start && v.len == w.len

/-- The entry of the same window after a change of the path table, none when the window is gone or changed (R69, R107). -/
def carriedEntry (old new : List PathRec) (e : QEntry) : Option QEntry :=
  match windowAt old e, pathAt new e.path with
  | some (_, w), .opened q => (q.windows.findIdx? fun v => sameWindow w v).map fun i => { path := e.path, index := i }
  | _, _ => none

/-- The level of the window an entry names. -/
def entryLevel (paths : List PathRec) (mics : List Mic) (e : QEntry) : Option Nat :=
  (windowAt paths e).map fun c => pathLevel mics c.1

/-- Every window of every open path, by path number and then by window index. -/
def allEntries (paths : List PathRec) : List QEntry :=
  (openPaths paths).flatMap fun c => (List.range c.2.windows.length).map fun i => { path := c.1, index := i }

/-- One level queue after a change: the same windows whose level is this one keep their places, and every other window of this level
joins the tail in ascending path number and window order (R72, R109). -/
def settleQueue (old new : List PathRec) (mics : List Mic) (level : Nat) (queue : List QEntry) : List QEntry :=
  let kept := (queue.filterMap (carriedEntry old new)).filter fun e => entryLevel new mics e == some level
  kept ++ (allEntries new).filter fun e => entryLevel new mics e == some level && !kept.contains e

/-- The four level queues after a change of the path table, the settings or the microphone states (R72, R109). -/
def settleQueues (old new : List PathRec) (mics : List Mic) (queues : List (List QEntry)) : List (List QEntry) :=
  (List.range 4).map fun level => settleQueue old new mics level (queues.getD level [])

/-! ## Updates of one part of the state -/

def State.setCtl (s : State) (p : Port) (c : Ctl) : State := { s with ctl := s.ctl.set p c }

def State.setStager (s : State) (p : Port) (c : Stager) : State := { s with stager := s.stager.set p c }

def State.setReport (s : State) (p : Port) (r : Report) : State := { s with report := s.report.set p r }

def State.setModel (s : State) (m : Model) : State := { s with model := m }

def State.setProc (s : State) (p : Option Proc) : State := { s with proc := p }

def State.setQueues (s : State) (q : List (List QEntry)) : State := { s with queues := q }

def State.setArray (s : State) (a : ArrayPort) : State := { s with array := a }

def State.setFeedPort (s : State) (f : FeedPort) : State := { s with feedPort := f }

def State.setCanc (s : State) (c : Canceller) : State := { s with canc := c }

def State.setPool (s : State) (v : PoolView) : State := { s with pool := v }

/-! ## Counters (R176) -/

inductive CounterId where
  | feedDrop
  | feedRepeat
  | feedLosses
  | feedFrameFault
  | arrayFrameFault
  | arrayStops
  | degradedBlocks
  | eventsLost
  deriving DecidableEq, Repr

/-- A counter raised by one: 65,535 becomes 0 and the flag is set, and it stays set (R176). -/
def Counter.bump (c : Counter) : Counter := { value := c.value + 1#16, overflow := c.overflow || c.value == 0xFFFF#16 }

def Counters.get (c : Counters) : CounterId → Counter
  | .feedDrop => c.feedDrop
  | .feedRepeat => c.feedRepeat
  | .feedLosses => c.feedLosses
  | .feedFrameFault => c.feedFrameFault
  | .arrayFrameFault => c.arrayFrameFault
  | .arrayStops => c.arrayStops
  | .degradedBlocks => c.degradedBlocks
  | .eventsLost => c.eventsLost

def Counters.bump (c : Counters) : CounterId → Counters
  | .feedDrop => { c with feedDrop := c.feedDrop.bump }
  | .feedRepeat => { c with feedRepeat := c.feedRepeat.bump }
  | .feedLosses => { c with feedLosses := c.feedLosses.bump }
  | .feedFrameFault => { c with feedFrameFault := c.feedFrameFault.bump }
  | .arrayFrameFault => { c with arrayFrameFault := c.arrayFrameFault.bump }
  | .arrayStops => { c with arrayStops := c.arrayStops.bump }
  | .degradedBlocks => { c with degradedBlocks := c.degradedBlocks.bump }
  | .eventsLost => { c with eventsLost := c.eventsLost.bump }

def Report.count (r : Report) (i : CounterId) : Report := { r with counters := r.counters.bump i }

/-- A counted cause raises the counter in both ports' copies (R18, R176). -/
def State.countBoth (s : State) (i : CounterId) : State :=
  { s with report := { p0 := s.report.p0.count i, p1 := s.report.p1.count i } }

/-! ## Event records (R171 to R174) -/

/-- Whether a record passes a port's class enables (R173). -/
def Report.passes (r : Report) (e : Event) : Bool :=
  if e = .partReset then true else if e.isFault then r.faultOn else r.routineOn

/-- A record bound for a port meets its class enables and then its queue (R173, R174). -/
def Report.join (r : Report) (c : Record) : Report :=
  if r.passes c.event then
    if r.queue.length < Config.queueRecords then { r with queue := r.queue ++ [c] } else r.count .eventsLost
  else r

/-- A port's alert line: asserted exactly while its queue holds a record (R174). -/
def State.alert (s : State) (p : Port) : Bool := !(s.report.get p).queue.isEmpty

/-- A record delivered to the port its kind names. -/
def State.deliver (s : State) (p : Port) (c : Record) : State := s.setReport p ((s.report.get p).join c)

/-- The routing table's entry of an event (R172). -/
def State.destOf (s : State) (e : Event) : Dest := s.routes.getD (e.code - 1) .both

/-- A routed event goes where the routing table sends it (R172). -/
def State.raise (s : State) (c : Record) : State :=
  match s.destOf c.event with
  | .none => s
  | .port0 => s.deliver .p0 c
  | .port1 => s.deliver .p1 c
  | .both => (s.deliver .p0 c).deliver .p1 c

/-- A record on its way: to the port its kind names, or routed. -/
structure Notice where
  dest : Option Port
  record : Record
  deriving DecidableEq, Repr

def State.post (s : State) (n : Notice) : State :=
  match n.dest with
  | some p => s.deliver p n.record
  | none => s.raise n.record

/-- Two lists merged, each in its own order, the free values from `k` on choosing between them (R171, log 7). -/
def mergeFree {α : Type} : Nat → Nat → List α → List α → List α
  | fuel + 1, k, x :: xs, y :: ys =>
    if Config.freeOrder k then x :: mergeFree fuel (k + 1) xs (y :: ys) else y :: mergeFree fuel (k + 1) (x :: xs) ys
  | _, _, xs, ys => xs ++ ys

/-- Several lists merged, each in its own order (R171, log 7). -/
def mergeAll {α : Type} : Nat → List (List α) → List α
  | _, [] => []
  | k, l :: ls =>
    let fuel := l.length + ls.flatten.length
    mergeFree fuel k l (mergeAll (k + fuel) ls)

/-- The free values a merge of several lists may look at. -/
def mergeCost {α : Type} : List (List α) → Nat
  | [] => 0
  | l :: ls => l.length + ls.flatten.length + mergeCost ls

/-- Records of several owners raised at one moment: each owner's in its own order, the owners in any order (R171). -/
def State.postMerged (s : State) (lists : List (List Notice)) : State :=
  let t := (mergeAll s.freeCount lists).foldl State.post s
  { t with freeCount := s.freeCount + mergeCost lists }

/-! ## Histories (R19) -/

/-- One write to every history: sample f becomes the newest of feed f and the oldest is overwritten. The block being processed reads
one write deeper from now on. -/
def State.writeHistories (s : State) (samples : List Sample) : State :=
  { s with
    hist := s.hist.zipIdx.map fun c => samples.getD c.2 0#16 :: c.1.take (Config.historyLength - 1)
    proc := s.proc.map fun p => { p with writesSince := p.writesSince + 1 } }

/-- The sample of a feed written `depth` writes before the newest. -/
def histAt (hist : List (List Sample)) (f depth : Nat) : Int := ((hist.getD f []).getD depth 0#16).toInt

/-- x_f(n - k) for frame i of a block whose last frame lies `writes` writes back (R19, R20). -/
def refSample (hist : List (List Sample)) (writes f i k : Nat) : Int := histAt hist f (writes + (63 - i) + k)

/-! ## Change sets (R137 to R139) -/

def Change.object : Change → Object
  | .path n _ => .path n
  | .mic n _ => .mic n
  | .feed n _ => .feed n
  | .global _ => .global

def ChangeSet.object (c : ChangeSet) : Object := c.change.object

def PathChange.empty : PathChange :=
  { opening := none, close := false, windows := none, base := none, fast := none, slow := none, frozen := none, taps := [],
    clear := false, reservations := [] }

def MicChange.empty : MicChange := { theta := none, hang := none, floor := none, clear := false }

def FeedChange.empty : FeedChange := { mode := none, manualDelay := none, actFloor := none, probe := none, acquire := false }

def GlobalChange.empty : GlobalChange := { delta := none, scan := none, clear := false }

/-- A set on an object with no part yet. -/
def Change.empty : Object → Change
  | .path n => .path n .empty
  | .mic n => .mic n .empty
  | .feed n => .feed n .empty
  | .global => .global .empty

def Change.mapPath (f : PathChange → PathChange) : Change → Change
  | .path n c => .path n (f c)
  | .mic n c => .mic n c
  | .feed n c => .feed n c
  | .global c => .global c

def Change.mapMic (f : MicChange → MicChange) : Change → Change
  | .path n c => .path n c
  | .mic n c => .mic n (f c)
  | .feed n c => .feed n c
  | .global c => .global c

def Change.mapFeed (f : FeedChange → FeedChange) : Change → Change
  | .path n c => .path n c
  | .mic n c => .mic n c
  | .feed n c => .feed n (f c)
  | .global c => .global c

def Change.mapGlobal (f : GlobalChange → GlobalChange) : Change → Change
  | .path n c => .path n c
  | .mic n c => .mic n c
  | .feed n c => .feed n c
  | .global c => .global (f c)

def Change.pathPart : Change → PathChange
  | .path _ c => c
  | .mic _ _ => .empty
  | .feed _ _ => .empty
  | .global _ => .empty

def Change.micPart : Change → MicChange
  | .mic _ c => c
  | .path _ _ => .empty
  | .feed _ _ => .empty
  | .global _ => .empty

def Change.feedPart : Change → FeedChange
  | .feed _ c => c
  | .path _ _ => .empty
  | .mic _ _ => .empty
  | .global _ => .empty

def Change.globalPart : Change → GlobalChange
  | .global c => c
  | .path _ _ => .empty
  | .mic _ _ => .empty
  | .feed _ _ => .empty

/-- A port's pending set on an object. -/
def State.ownSet (s : State) (p : Port) (o : Object) : Option ChangeSet :=
  (s.stager.get p).list.find? fun c => c.object == o

/-- What a port has pending on an object: no part when it has no set there. -/
def State.ownChange (s : State) (p : Port) (o : Object) : Change := ((s.ownSet p o).map ChangeSet.change).getD (.empty o)

/-- The pending owner of an object (R138). -/
def State.owner (s : State) (o : Object) : Option Port :=
  if (s.ownSet .p0 o).isSome then some .p0 else if (s.ownSet .p1 o).isSome then some .p1 else none

/-- The claim rule: the other port has a change set pending on the object (R138). -/
def State.claimedByOther (s : State) (p : Port) (o : Object) : Bool := (s.ownSet (otherPort p) o).isSome

/-- A pending list with a request's parts merged into the set on an object, or with a new set at its tail (R137, R139). -/
def stageInto (p : Port) (block : BlockNo) (o : Object) (f : Change → Change) (l : List ChangeSet) : List ChangeSet :=
  if l.any fun c => c.object == o then l.map fun c => if c.object = o then { c with change := f c.change } else c
  else l ++ [{ port := p, acceptBlock := block, change := f (.empty o) }]

/-- A staged request accepted into its port's set on an object (R137 to R139). -/
def State.stage (s : State) (p : Port) (o : Object) (f : Change → Change) : State :=
  let g := s.stager.get p
  s.setStager p { g with list := stageInto p s.array.counter o f g.list }

/-- The places in use in a port's staging buffer (R50). -/
def State.stagingUsed (s : State) (p : Port) : Nat :=
  ((s.stager.get p).list.map fun c => c.change.pathPart.taps.length).sum

/-- The free places in a port's staging buffer (R50). -/
def State.stagingRoom (s : State) (p : Port) : Nat := Config.stagingPlaces - s.stagingUsed p

/-- Segments put in a state at an acceptance or a discard: in the store, and in what READ POOL counts (R43, R44, R55). -/
def State.markSegs (s : State) (st : SegState) (l : List Nat) : State :=
  { s with
    model := { s.model with segs := setSegs st l s.model.segs }
    pool := { s.pool with segs := setSegs st l s.pool.segs } }

/-- A path record set at an acceptance or a discard: in the table, and in what READ POOL counts (R55, R58, R61, R64). -/
def State.markPath (s : State) (n : Nat) (r : PathRec) : State :=
  { s with
    model := { s.model with paths := s.model.paths.set n r }
    pool := { s.pool with paths := s.pool.paths.set n r.status } }

/-- What the discard of a set gives back: its reservations, and the record of a pending open (R44, R58, R147). -/
def State.returnSet (s : State) (c : ChangeSet) : State :=
  let t := s.markSegs .free c.change.pathPart.reservations
  match c.change with
  | .path n d => if d.opening.isSome then t.markPath n .free else t
  | .mic _ _ => t
  | .feed _ _ => t
  | .global _ => t

/-- A port's set on an object discarded (R44, R64). -/
def State.discard (s : State) (p : Port) (o : Object) : State :=
  match s.ownSet p o with
  | none => s
  | some c =>
    let t := s.returnSet c
    let g := t.stager.get p
    t.setStager p { g with list := g.list.filter fun d => d.object != o }

/-- Every set of a port discarded (R147). -/
def State.discardAll (s : State) (p : Port) : State :=
  let t := (s.stager.get p).list.foldl State.returnSet s
  let g := t.stager.get p
  t.setStager p { g with list := [] }

end Sys2Proof.Machine
end

