-- ==== Sys2Proof/Machine/Cancel.lean ====
section
/-! DEFINITION. The canceller's work on one block (05_cancellation_arithmetic). -/

namespace Sys2Proof.Machine

/-- The term of one window in the sum of R76 for frame i. -/
def windowAcc (s : State) (writes i : Nat) (p : OpenPath) (w : Window) : Int :=
  (w.taps.map fun t =>
    (Memory.read s.model.coefs t.2).toInt * refSample s.hist writes p.feed i ((feedAt s.model.feeds p.feed).b + t.1)).sum

/-- acc of a microphone at frame i: over its open paths, their windows and the taps of each (R76). -/
def echoAcc (s : State) (writes m i : Nat) : Int :=
  ((pathsOnMic s.model.paths m).map fun c => (c.2.windows.map (windowAcc s writes i c.2)).sum).sum

/-- The input sample d of a microphone in a row of a block. -/
def inputAt (rows : List (List Sample)) (m i : Nat) : Sample := (rows.getD i []).getD m 0#16

/-- The 64 input samples of a microphone. -/
def inputsOf (rows : List (List Sample)) (m : Nat) : List Sample := (List.range Config.blockFrames).map (inputAt rows m)

/-- The 64 errors of a microphone (R78): its inputs when it is IDLE. -/
def errorsOf (s : State) (p : Proc) (m : Nat) : List Sample :=
  (List.range Config.blockFrames).map fun i =>
    if (micAt s.model.mics m).conv = .idle then inputAt p.rows m i
    else errorOf (inputAt p.rows m i) (echoAcc s p.writesSince m i)

/-- The residual target T of a microphone (R80). -/
def targetOf (s : State) (m : Nat) : Nat :=
  let mic := micAt s.model.mics m
  if mic.conv = .idle then Config.fullGain
  else if mic.talk = .talk then Config.fullGain
  else if (pathsOnMic s.model.paths m).any fun c => s.canc.snapshot.getD c.2.feed false then mic.floor
  else Config.fullGain

/-- The residual stage over a run of errors: the gain moves before each sample, and the sample takes the moved gain (R82, R83). -/
def residualRun (target : Nat) : Nat → List Sample → Nat × List Sample
  | r, [] => (r, [])
  | r, e :: es =>
    let r' := rampGain target r
    let rest := residualRun target r' es
    (rest.1, residualOut e r' :: rest.2)

/-- Whether either mask in force holds a microphone (R85, R87). -/
def mutedNow (c : Canceller) (m : Nat) : Bool := c.mask.p0.getLsbD m || c.mask.p1.getLsbD m

/-- A microphone's residual gain. -/
def gainAt (s : State) (m : Nat) : Nat := s.model.gains.getD m Config.fullGain

/-- A microphone's gain after a block cancelled outside standby: an IDLE microphone's does not move (R82, R84). -/
def gainAfter (s : State) (p : Proc) (m : Nat) : Nat :=
  if (micAt s.model.mics m).conv = .idle then gainAt s m else (residualRun (targetOf s m) (gainAt s m) (errorsOf s p m)).1

/-- A microphone's 64 output samples (R87, R88). -/
def outputsOf (s : State) (p : Proc) (m : Nat) : List Sample :=
  if mutedNow s.canc m then List.replicate Config.blockFrames 0#16
  else if p.standby then inputsOf p.rows m
  else if (micAt s.model.mics m).conv = .idle then inputsOf p.rows m
  else (residualRun (targetOf s m) (gainAt s m) (errorsOf s p m)).2

/-- Rows from columns: row i takes sample i of each column. -/
def rowsOfColumns (cols : List (List Sample)) : List (List Sample) :=
  (List.range Config.blockFrames).map fun i => cols.map fun c => c.getD i 0#16

/-- The output block of a block (R16, R87). -/
def outputBlock (s : State) (p : Proc) : List (List Sample) :=
  rowsOfColumns ((List.range Config.mics).map (outputsOf s p))

/-- The row that ADOUT carries in the frame now in progress: the buffer row of the frame's position in the block being collected
(R16); zeros while the port is STOPPED, since the block that the resume begins sends zeros (log 14); driven low in SEARCH (R4). -/
def ArrayPort.driven (a : ArrayPort) : Option (List Slot) :=
  if a.framing.busy then
    some ((if a.run = .stopped then zeroRow else a.outBuf.getD a.rows.length zeroRow).map slotOfSample)
  else none

/-- The array port with ADOUT carrying the row of the frame in progress. -/
def ArrayPort.drive (a : ArrayPort) : ArrayPort := { a with adout := a.driven }

/-- The canceller copies the masks, cancels the block and places its output (R85, R75 to R88). -/
def State.cancelBlock (s : State) (p : Proc) : State :=
  let s := s.setCanc { s.canc with mask := s.canc.reqMask }
  let out := outputBlock s p
  let s' :=
    if p.standby then s
    else
      { s with
        model := { s.model with gains := (List.range Config.mics).map (gainAfter s p) }
        canc := { s.canc with
          errD := (List.range Config.mics).map (inputsOf p.rows)
          errE := (List.range Config.mics).map (errorsOf s p) } }
  s'.setArray ({ s'.array with outBuf := out }.drive)

end Sys2Proof.Machine
end

