-- ==== Sys2Proof/Machine/BlockStart.lean ====
section
/-! DEFINITION. What lands at a block start: due moves, change sets, the tap store's four steps, microphone states, queue places, the
cancelled block, and the records (R31, R35, R46, R66, R72, R128, R140 to R142, R145, R180). -/

namespace Sys2Proof.Machine

/-! ## The sets that apply -/

/-- The sets of a port that apply at this block start: all of them unless the port is holding (R140). -/
def applyingOf (g : Stager) : List ChangeSet := if g.hold then [] else g.list

/-- The sets of both ports that apply at this block start. -/
def State.applying (s : State) : List ChangeSet := applyingOf s.stager.p0 ++ applyingOf s.stager.p1

/-- The parts that applying sets carry for an object. -/
def changeFor (sets : List ChangeSet) (o : Object) : Change :=
  ((sets.find? fun c => c.object == o).map ChangeSet.change).getD (.empty o)

/-! ## Feeds: due move first, then the set (R31, R35 to R37) -/

/-- A due move lands (R31). -/
def Feed.landMove (f : Feed) : Feed :=
  match f.dueMove with
  | some b => { f with b := b, dueMove := none }
  | none => f

/-- Accumulators and counted blocks at zero. -/
def Feed.restart (f : Feed) : Feed := { f with acc := zeroAcc, counted := 0 }

/-- The mode field of a SET REFERENCE set (R35). -/
def Feed.takeMode (f : Feed) (mode : Option FeedMode) : Feed :=
  match mode, f.mode with
  | some .auto, .manual => { f.restart with mode := .auto, acq := .seek, countdown := 0 }
  | some .manual, .auto => { f.restart with mode := .manual, acq := .manual, b := f.manualDelay, countdown := 0 }
  | some .auto, .auto => f
  | some .manual, .manual => f
  | none, _ => f

/-- The manual delay becomes b in MANUAL (R35). -/
def Feed.takeDelay (f : Feed) (delay : Option Nat) : Feed :=
  match delay with
  | some d => if f.mode = .manual then { f with manualDelay := d, b := d } else { f with manualDelay := d }
  | none => f

/-- The probe field: a different probe restarts a measurement in progress (R35). -/
def Feed.takeProbe (f : Feed) (probe : Option Nat) : Feed :=
  match probe with
  | some p =>
    if p = f.probe then f
    else if f.acq = .seek ∨ f.acq = .check then { f.restart with probe := p }
    else { f with probe := p }
  | none => f

/-- ACQUIRE restarts the search (R37). -/
def Feed.takeAcquire (f : Feed) (acquire : Bool) : Feed :=
  if acquire then { f.restart with acq := .seek, countdown := 0 } else f

/-- A set on a feed applies: its fields together, then the acquire (R35, R37). -/
def Feed.applyChange (f : Feed) (c : FeedChange) : Feed :=
  let f1 := f.takeMode c.mode
  let f2 := f1.takeDelay c.manualDelay
  let f3 := { f2 with actFloor := c.actFloor.getD f2.actFloor }
  (f3.takeProbe c.probe).takeAcquire c.acquire

/-- A feed after the block start (R36). -/
def landFeed (sets : List ChangeSet) (n : Nat) (f : Feed) : Feed :=
  f.landMove.applyChange (changeFor sets (.feed n)).feedPart

/-- Whether a set (not the due move) changed the feed's b at this block start (R35). -/
def setMovedFeed (sets : List ChangeSet) (n : Nat) (f : Feed) : Bool := (landFeed sets n f).b != f.landMove.b

/-! ## Settings (R71, R105, R134) -/

/-- Microphone settings land (R134). -/
def Mic.applyChange (m : Mic) (c : MicChange) : Mic :=
  { m with theta := c.theta.getD m.theta, hang := c.hang.getD m.hang, floor := c.floor.getD m.floor }

/-- Path settings land on an OPEN path (R71). -/
def PathRec.applySettings (r : PathRec) (c : PathChange) : PathRec :=
  match r with
  | .opened p =>
    .opened { p with base := c.base.getD p.base, fast := c.fast.getD p.fast, slow := c.slow.getD p.slow,
                     frozen := c.frozen.getD p.frozen }
  | .free => .free
  | .pendingOpen m f => .pendingOpen m f

/-- Global settings land (R105). -/
def Globals.applyChange (g : Globals) (c : GlobalChange) : Globals :=
  { delta := c.delta.getD g.delta, scan := c.scan.getD g.scan }

/-- The feed, microphone and path settings of the applying sets, before the clear step (R141). -/
def Model.landSettings (m : Model) (sets : List ChangeSet) : Model :=
  { m with
    feeds := m.feeds.zipIdx.map fun c => landFeed sets c.2 c.1
    mics := m.mics.zipIdx.map fun c => c.1.applyChange (changeFor sets (.mic c.2)).micPart
    paths := m.paths.zipIdx.map fun c => c.1.applySettings (changeFor sets (.path c.2)).pathPart }

/-! ## The tap store's four steps (R46) -/

/-- Whether a CLEAR MODEL set that applies names an open path (R53). -/
def namedByClear (sets : List ChangeSet) (n : Nat) (p : OpenPath) : Bool :=
  (changeFor sets .global).globalPart.clear || (changeFor sets (.mic p.mic)).micPart.clear ||
    (changeFor sets (.path n)).pathPart.clear

/-- Step 1: every open path on the clear list, named by a CLEAR MODEL, or on a feed whose b a set changed is zeroed, and the list is
emptied (R47, R53, R35). `moved` tells the feeds whose b a set changed. -/
def Model.clearStep (m : Model) (sets : List ChangeSet) (moved : Nat → Bool) : Model :=
  let named := (openPaths m.paths).filter fun c => m.clearList.contains c.1 || namedByClear sets c.1 c.2 || moved c.2.feed
  { m with coefs := Memory.zeroSegments m.coefs (named.flatMap fun c => c.2.segs), clearList := [] }

/-- Segments released: zeroed and FREE (R45). -/
def Model.release (m : Model) (l : List Nat) : Model :=
  { m with coefs := Memory.zeroSegments m.coefs l, segs := setSegs .free l m.segs }

/-- Step 2 for one set: a close (R65). -/
def Model.closeStep (m : Model) (c : ChangeSet) : Model :=
  match c.change with
  | .path n d =>
    match d.close, pathAt m.paths n with
    | true, .opened p => { m.release p.segs with paths := m.paths.set n .free }
    | _, _ => m
  | .mic _ _ => m
  | .feed _ _ => m
  | .global _ => m

/-- The segments of a window: the backing of each of its delay blocks, ascending (R68). -/
def segsFor (backing : List (Nat × Nat)) (g : Geom) : List Nat :=
  g.blocks.filterMap fun k => (backing.find? fun c => c.1 == k).map Prod.snd

/-- The window records of a new layout: a same window keeps its grant age, any other starts at 0 (R68, R69). -/
def rebuildWindows (old : List Window) (backing : List (Nat × Nat)) (layout : List Geom) : List Window :=
  layout.map fun g =>
    { start := g.start, len := g.len, segs := segsFor backing g,
      age := ((old.find? fun w => w.geom == g).map Window.age).getD 0 }

/-- The layout step of one path: kept delay blocks keep their segments, new ones take the reserved segments lowest first in ascending
delay order, dropped ones are released, and reserved segments left over become FREE (R45, R68). `old` are the windows before
(none for an open). -/
def Model.layOut (m : Model) (n : Nat) (p : OpenPath) (old : List Window) (layout : List Geom) (reserved : List Nat) : Model :=
  let blocks := layoutBlocks layout
  let oldBacking := old.flatMap fun w => w.geom.blocks.zip w.segs
  let kept := oldBacking.filter fun c => blocks.contains c.1
  let dropped := (oldBacking.filter fun c => !blocks.contains c.1).map Prod.snd
  let fresh := blocks.filter fun k => !(kept.any fun c => c.1 == k)
  let placed := fresh.zip reserved
  let m1 := m.release dropped
  { m1 with
    segs := setSegs .free (reserved.drop fresh.length) (setSegs .inUse (placed.map Prod.snd) m1.segs)
    paths := m1.paths.set n (.opened { p with windows := rebuildWindows old (kept ++ placed) layout }) }

/-- The path that an open part with its merged settings makes (R62, R63), before its windows are laid out. -/
def openedPath (d : PathChange) (o : OpenPart) : OpenPath :=
  { mic := o.mic, feed := o.feed, windows := [], base := d.base.getD o.base, fast := d.fast.getD o.fast,
    slow := d.slow.getD o.slow, frozen := d.frozen.getD false }

/-- Step 3 for one set: a reshape or an open (R62, R68). -/
def Model.shapeStep (m : Model) (c : ChangeSet) : Model :=
  match c.change with
  | .path n d =>
    match d.opening, d.windows, pathAt m.paths n with
    | some o, ws, _ => m.layOut n (openedPath d o) [] (ws.getD o.windows) d.reservations
    | none, some ws, .opened p => m.layOut n p p.windows ws d.reservations
    | none, _, _ => m
  | .mic _ _ => m
  | .feed _ _ => m
  | .global _ => m

/-- Step 4 for one set: each staged value replaces the coefficient of its tap, and a value whose delay no window covers is discarded
(R51). -/
def Model.tapStep (m : Model) (c : ChangeSet) : Model :=
  match c.change with
  | .path n d =>
    match pathAt m.paths n with
    | .opened p =>
      { m with coefs := Memory.writeAll m.coefs (d.taps.filterMap fun t => (p.tapAddr t.1).map fun a => (a, t.2)) }
    | .free => m
    | .pendingOpen _ _ => m
  | .mic _ _ => m
  | .feed _ _ => m
  | .global _ => m

/-! ## Microphone states (R66, R128, R130) -/

/-- A change of convergence state, or a re-entry into ACQUIRE: the runs become 0 (R130). -/
def Mic.enter (m : Mic) (c : Conv) : Mic := { m with conv := c, goodRun := 0, poorRun := 0, divCount := 0 }

/-- The MIC_STATE of a change from one state to another, none for a re-entry (R130, R132). -/
def micStateNotice (block : BlockNo) (m : Nat) (old new : Conv) (cause : Cause) : List Notice :=
  if old = new then [] else [{ dest := none, record := { block := block, event := .micState m old new cause } }]

/-- What the block start did to a microphone (R128): the state it goes to and the cause, if any. `hadPath` and `hasPath` tell
whether it had an open path before and has one after the reshape-and-open step. -/
def blockStartVerdict (hadPath hasPath opened clearedByModel clearedBySet idle : Bool) : Option (Conv × Cause) :=
  if hadPath && !hasPath then some (.idle, .emptied)
  else if opened then some (.acquire, .opened)
  else if clearedByModel && !idle then some (.acquire, .clearModel)
  else if clearedBySet && !idle then some (.acquire, .bulkSet)
  else none

/-- Whether a path opened on a microphone at this block start (R66). -/
def openedOn (sets : List ChangeSet) (m : Nat) : Bool :=
  sets.any fun c => match c.change.pathPart.opening with
    | some o => o.mic == m
    | none => false

/-- The verdict of a block start on a microphone; `before` and `after` are the path tables before the close step and after the
reshape-and-open step. -/
def verdictOn (sets : List ChangeSet) (moved : Nat → Bool) (before after : List PathRec) (mics : List Mic) (m : Nat) :
    Option (Conv × Cause) :=
  blockStartVerdict (!(pathsOnMic before m).isEmpty) (!(pathsOnMic after m).isEmpty) (openedOn sets m)
    ((pathsOnMic before m).any fun c => namedByClear sets c.1 c.2) ((pathsOnMic before m).any fun c => moved c.2.feed)
    ((micAt mics m).conv == .idle)

/-- The microphone records after the verdicts. -/
def applyVerdicts (verdict : Nat → Option (Conv × Cause)) (mics : List Mic) : List Mic :=
  mics.zipIdx.map fun c => match verdict c.2 with
    | some v => c.1.enter v.1
    | none => c.1

/-- The MIC_STATE records of the verdicts, in ascending microphone number (R132). -/
def verdictNotices (block : BlockNo) (verdict : Nat → Option (Conv × Cause)) (mics : List Mic) : List Notice :=
  mics.zipIdx.flatMap fun c => match verdict c.2 with
    | some v => micStateNotice block c.2 c.1.conv v.1 v.2
    | none => []

/-- A microphone that goes to IDLE has its r set to 32,767 (R84). -/
def idleGains (verdict : Nat → Option (Conv × Cause)) (gains : List Nat) : List Nat :=
  gains.zipIdx.map fun c => match verdict c.2 with
    | some v => if v.1 = .idle then Config.fullGain else c.1
    | none => c.1

/-! ## Records (R142, R145, R180) -/

/-- Whether a watch slot covers an object (R179). -/
def Watch.covers (w : Watch) : Object → Bool
  | .path n => w.kind == .path && decide (w.first ≤ n) && decide (n ≤ w.last)
  | .mic n => w.kind == .mic && decide (w.first ≤ n) && decide (n ≤ w.last)
  | .feed n => w.kind == .feed && decide (w.first ≤ n) && decide (n ≤ w.last)
  | .global => w.kind == .global

/-- The WATCH_HIT of an applied set at the other port, by the lowest-numbered slot that covers its object (R180). -/
def watchNotice (s : State) (block : BlockNo) (c : ChangeSet) : List Notice :=
  let p := otherPort c.port
  match (s.report.get p).watches.findIdx? fun w => w.covers c.object with
  | some i => [{ dest := some p, record := { block := block, event := .watchHit c.object i c.port } }]
  | none => []

/-- The hits that a port's applied sets give, in the order of its pending list (R142, R180). -/
def watchNotices (s : State) (block : BlockNo) (sets : List ChangeSet) (p : Port) : List Notice :=
  (sets.filter fun c => c.port == p).flatMap (watchNotice s block)

/-- HOLD_EXPIRED and then APPLIED of a port (R142, R145). -/
def stagerNotices (block : BlockNo) (p : Port) (expired : Bool) (n : Nat) : List Notice :=
  (if expired then [{ dest := some p, record := { block := block, event := .holdExpired n } }] else []) ++
    (if n = 0 then [] else [{ dest := some p, record := { block := block, event := .applied n } }])

/-- The applied sets leave a port's pending list (R140). -/
def Stager.applied (g : Stager) : Stager := if g.hold then g else { g with list := [] }

/-! ## The block start -/

/-- The model after the settings and the four steps (R141, R46), and the path table as it stood before the close step. -/
def Model.applySets (m : Model) (sets : List ChangeSet) : Model :=
  let moved := fun f => setMovedFeed sets f (feedAt m.feeds f)
  let m1 := (m.landSettings sets).clearStep sets moved
  let m2 := sets.foldl Model.closeStep m1
  let m3 := sets.foldl Model.shapeStep m2
  sets.foldl Model.tapStep m3

/-- The feeds whose b the applying sets change (R35). -/
def State.movedFeeds (s : State) (f : Nat) : Bool := setMovedFeed s.applying f (feedAt s.model.feeds f)

/-- What this block start does to a microphone's convergence state (R128). -/
def State.landVerdict (s : State) : Nat → Option (Conv × Cause) :=
  verdictOn s.applying s.movedFeeds s.model.paths (s.model.applySets s.applying).paths s.model.mics

/-- The model after the due moves, the applying sets, and the microphone states that follow from them (R31, R84, R128, R141). -/
def State.landedModel (s : State) : Model :=
  let m := s.model.applySets s.applying
  { m with mics := applyVerdicts s.landVerdict m.mics, gains := idleGains s.landVerdict m.gains }

/-- Due moves and applying sets land, and the queue places settle (R72, R140). -/
def State.landSets (s : State) : State :=
  { s with
    model := s.landedModel
    globals := s.globals.applyChange (changeFor s.applying .global).globalPart
    queues := settleQueues s.model.paths s.landedModel.paths s.landedModel.mics s.queues
    stager := { p0 := s.stager.p0.applied, p1 := s.stager.p1.applied } }

/-- The records of a block start whose order a rule gives: each port's HOLD_EXPIRED and APPLIED (R145), MIC_STATE by microphone (R132), and
each port's sets' hits (R142, R180). No rule orders these lists against one another, the two ports' neither, so they merge freely
(R171, log 7). `expired` are the ports whose holds ended here. -/
def State.landNotices (s : State) (block : BlockNo) (expired : PerPort Bool) : List (List Notice) :=
  [stagerNotices block .p0 expired.p0 (applyingOf s.stager.p0).length,
   stagerNotices block .p1 expired.p1 (applyingOf s.stager.p1).length,
   verdictNotices block s.landVerdict s.model.mics,
   watchNotices s block s.applying .p0,
   watchNotices s block s.applying .p1]

/-- The block handed to the stages that follow its cancellation: none but the alignment unit's in standby (R110, R119). -/
def State.startStages (s : State) (p : Proc) : State :=
  s.setProc (some { p with phase := if p.standby then .align else .supervise, stageQueues := s.queues })

/-- The rest of a block start once the holds are settled: what is due lands, the canceller takes the block, and the records are
given. -/
def State.landBlock (s : State) (p : Proc) (expired : PerPort Bool) : State :=
  ((s.landSets.cancelBlock p).startStages p).postMerged (s.landNotices p.number expired)

/-- Whether a port's hold expires at this block start (R145). -/
def Stager.expires (g : Stager) : Bool := g.hold && decide (Config.holdLimit ≤ g.age)

/-- A hold that expires ends: the flag is cleared and the age returns to 0 (R145). -/
def Stager.endHold (g : Stager) : Stager := if g.expires then { g with hold := false, age := 0 } else g

/-- A block start taken outside standby ages a holding port's hold by one (R145). -/
def Stager.ageHold (g : Stager) : Stager := if g.hold then { g with age := g.age + 1 } else g

/-- The ports whose holds expire at this block start (R145). -/
def State.expiredHolds (s : State) : PerPort Bool := { p0 := s.stager.p0.expires, p1 := s.stager.p1.expires }

/-- The holds that expire end (R145). -/
def State.endHolds (s : State) : State := { s with stager := { p0 := s.stager.p0.endHold, p1 := s.stager.p1.endHold } }

/-- The holds whose age has reached 250 end, and the block start goes on with their sets (R145). Nothing when no block start waits
for it. -/
def State.expireHolds (s : State) : State :=
  match s.proc with
  | some p =>
    match p.phase with
    | .expiring => s.endHolds.landBlock p s.expiredHolds
    | .supervise => s
    | .align => s
    | .arbitrate => s
    | .update => s
    | .meters _ => s
  | none => s

/-- The slip check (R10). -/
def State.slipCheck (s : State) : State :=
  let f := s.feedPort
  match f.state with
  | .lost => s
  | .live =>
    if Config.slipHigh < f.store.length then (s.setFeedPort { f with store := f.store.tail }).countBoth .feedDrop
    else if f.store.length < Config.slipLow then s.setFeedPort { f with repeatMark := true }
    else s

/-- DEGRADED_BLOCKS is counted for a degraded block (R13). -/
def State.countDegraded (s : State) : State := if s.array.degraded then s.countBoth .degradedBlocks else s

/-- The block handed to the canceller, with its rows and its marks; whether it is cancelled in standby is decided here (R13, R88). -/
def State.handedBlock (s : State) : Proc :=
  { number := s.array.counter, rows := s.array.rows, degraded := s.array.degraded, feedLive := s.array.feedLive,
    standby := s.standby, writesSince := 0, phase := .expiring, excited := [], grants := [], stageQueues := s.queues }

/-- The hand-off (R13), the capture of the feed port's state (R38), and the ageing of the holds (R145). -/
def State.takeBlock (s : State) : State :=
  { s with
    array := { s.array with rows := [], degraded := false, feedLive := true, counter := s.array.counter + 1#32 }
    model := { s.model with captured := s.feedPort.state }
    proc := some s.handedBlock
    stager := if s.standby then s.stager else { p0 := s.stager.p0.ageHold, p1 := s.stager.p1.ageHold } }

/-- Whether a hold expires at the block start of a block (R145). -/
def State.holdsExpire (s : State) (p : Proc) : Bool := !p.standby && (s.stager.p0.expires || s.stager.p1.expires)

/-- The block start goes on with what lands, unless a hold expires at it: then it waits for HOLD_EXPIRED (log 3). -/
def State.landUnlessHeld (s : State) (p : Proc) : State :=
  if s.holdsExpire p then s else s.landBlock p { p0 := false, p1 := false }

/-- The block start that follows the 64th row (R13). -/
def State.blockStart (s : State) : State :=
  let t := s.countDegraded.slipCheck
  t.takeBlock.landUnlessHeld t.handedBlock

end Sys2Proof.Machine
end

