-- ==== Sys2Proof/Machine/Stages.lean ====
section
/-! DEFINITION. The stages of a block's processing: supervisor, alignment unit, arbiter, update engine, end of the processing. -/

namespace Sys2Proof.Machine

/-- Whether the block being processed is in a phase. -/
def State.inPhase (s : State) (ph : Phase) : Bool :=
  match s.proc with
  | some p => p.phase == ph
  | none => false

/-! ## Supervisor (08_microphone_supervision) -/

/-- peak_x of a microphone (R121), from the feed measures of the last block processed, in standby or not (R136, log 39). -/
def peakX (s : State) (m : Nat) : Nat :=
  (pathsOnMic s.model.paths m).foldl (fun x c => max x (feedAt s.model.feeds c.2.feed).peak) 0

/-- Step 1: the block measures (R120). -/
def Mic.measure (m : Mic) (number : BlockNo) (d e : List Sample) : Mic :=
  { m with peakD := peakOf d, peakE := peakOf e, energyD := energyOf d, energyE := energyOf e, measBlock := number }

/-- Step 2: the talk detector, not run on a degraded block (R121, R122). -/
def Mic.detectTalk (m : Mic) (degraded : Bool) (px : Nat) : Mic :=
  if degraded then m
  else if talkCondition m.theta m.peakD px then { m with talk := .talk, hangover := m.hang }
  else if m.hangover = 0 then { m with talk := .clear }
  else { m with hangover := m.hangover - 1 }

/-- Step 4: the class and the runs of an excited block (R124, R125). -/
def Mic.classify (m : Mic) : Mic :=
  match qualityOf m.energyD m.energyE with
  | .good => { m with lastClass := .good, goodRun := runUp m.goodRun, poorRun := 0, divCount := 0 }
  | .fair => { m with lastClass := .fair, goodRun := 0, poorRun := 0, divCount := 0 }
  | .poor =>
    { m with lastClass := .poor, goodRun := 0, poorRun := runUp m.poorRun,
             divCount := if diverging m.energyD m.energyE then m.divCount + 1 else 0 }
  | .none => m

/-- Whether one of the feeds of a microphone's open paths is active (R123). The first evaluation after a WAKE reads the activity left by
the last block processed in standby (R136), where R151 says "as they stood when standby was entered" (log 39). -/
def anyFeedActive (s : State) (m : Nat) : Bool :=
  (pathsOnMic s.model.paths m).any fun c => (feedAt s.model.feeds c.2.feed).active

/-- Steps 1 and 2 of the evaluation of a microphone. -/
def measured (s : State) (p : Proc) (m : Nat) (mic : Mic) : Mic :=
  (mic.measure p.number (s.canc.errD.getD m []) (s.canc.errE.getD m [])).detectTalk p.degraded (peakX s m)

/-- Step 3: whether the block is excited for a microphone (R123). -/
def excitedFor (s : State) (p : Proc) (m : Nat) (mic : Mic) : Bool :=
  !p.degraded && (measured s p m mic).talk == .clear && anyFeedActive s m

/-- Steps 1 to 4 of the evaluation of a microphone (R119). -/
def evaluated (s : State) (p : Proc) (m : Nat) (mic : Mic) : Mic :=
  if excitedFor s p m mic then (measured s p m mic).classify else measured s p m mic

/-- The supervisor's stage: steps 1 to 4 for all 24 microphones (R119). Step 5 is RUN_THRESHOLD and MIC_DIVERGED. -/
def State.supervisorStage (s : State) : State :=
  match s.proc with
  | some p =>
    if p.phase = .supervise then
      { s with
        model := { s.model with mics := s.model.mics.zipIdx.map fun c => evaluated s p c.2 c.1 }
        proc := some { p with
          phase := .align
          excited := (s.model.mics.zipIdx.filter fun c => excitedFor s p c.2 c.1).map Prod.snd
          stageQueues := s.queues } }
    else s
  | none => s

/-- Step 5, first part: the divergence count has reached 8 (R127). -/
def Mic.divergeDue (m : Mic) : Bool := decide (8 ≤ m.divCount)

/-- Step 5, second part: a run threshold is reached and the divergence count is not (R126). -/
def Mic.runDue (m : Mic) : Option (Conv × Cause) :=
  if m.divergeDue then none
  else match m.conv with
    | .idle => none
    | .acquire => if 4 ≤ m.goodRun then some (.converged, .goodRun) else none
    | .converged => if 25 ≤ m.poorRun then some (.recover, .poorRun) else none
    | .recover => if 4 ≤ m.goodRun then some (.converged, .goodRun) else none

/-- Step 5 is due for a microphone. -/
def Mic.verdictDue (m : Mic) : Bool := m.divergeDue || m.runDue.isSome

/-- The microphones for which step 5 is due, ascending. -/
def verdictsDue (mics : List Mic) : List Nat := (mics.zipIdx.filter fun c => c.1.verdictDue).map Prod.snd

/-- Step 5 is a microphone's turn: the supervisor's stage of a block cancelled outside standby has been taken, and no lower-numbered
microphone's step 5 is due (R132). -/
def State.verdictTurn (s : State) (m : Nat) : Bool :=
  match s.proc with
  | some p => p.phase == .align && !p.standby && (verdictsDue s.model.mics).head? == some m
  | none => false

/-- The block being processed. -/
def State.blockNumber (s : State) : BlockNo :=
  match s.proc with
  | some p => p.number
  | none => s.array.counter

/-- A microphone's convergence state changes during a stage: the runs become 0, and the windows settle as the stage's start and the
states now give (R109, R130). -/
def State.enterConv (s : State) (m : Nat) (c : Conv) : State :=
  let mics := s.model.mics.set m ((micAt s.model.mics m).enter c)
  let start := match s.proc with
    | some p => p.stageQueues
    | none => s.queues
  { s with
    model := { s.model with mics := mics }
    queues := settleQueues s.model.paths s.model.paths mics start }

/-- A run threshold changes a microphone's state (R126). -/
def State.runThreshold (s : State) (m : Nat) : State :=
  let mic := micAt s.model.mics m
  match s.verdictTurn m, mic.runDue with
  | true, some v => (micStateNotice s.blockNumber m mic.conv v.1 v.2).foldl State.post (s.enterConv m v.1)
  | _, _ => s

/-- Paths put on the clear list (R47). -/
def State.askClears (s : State) (l : List Nat) : State :=
  s.setModel { s.model with clearList := addAll s.model.clearList l }

/-- A microphone diverges (R127): its paths go on the clear list, it goes to ACQUIRE, and MIC_DIVERGED follows any MIC_STATE. -/
def State.micDiverged (s : State) (m : Nat) : State :=
  let mic := micAt s.model.mics m
  if s.verdictTurn m && mic.divergeDue then
    let mine := (pathsOnMic s.model.paths m).map Prod.fst
    let t := (s.askClears mine).enterConv m .acquire
    (micStateNotice s.blockNumber m mic.conv .acquire .diverged ++
      ([{ dest := none, record := { block := s.blockNumber, event := .micDiverged m mic.conv mine.length } }] : List Notice)).foldl
      State.post t
  else s

/-- Step 5 of a microphone, whichever part is due. -/
def State.verdictStep (s : State) (m : Nat) : State := (s.micDiverged m).runThreshold m

/-- Every step 5 still due, in ascending microphone number. -/
def State.verdictSteps (s : State) : State := (List.range Config.mics).foldl State.verdictStep s

/-- Whether the supervisor's step 5 is still due for some microphone. -/
def State.verdictsPending (s : State) (p : Proc) : Bool := !p.standby && !(verdictsDue s.model.mics).isEmpty

/-! ## Alignment unit (02_reference_history_and_bulk_alignment) -/

/-- The aligned window of a feed for a block whose last frame lies `writes` writes back (R21). -/
def alignedSamples (hist : List (List Sample)) (writes f b : Nat) : List Sample :=
  ((hist.getD f []).drop (writes + b)).take Config.alignedWindow

/-- The measures of a feed recomputed (R21). -/
def Feed.remeasure (f : Feed) (l : List Sample) : Feed :=
  { f with energy := energyOf l, peak := peakOf l, active := decide (f.actFloor ≤ energyOf l) }

/-- The sum that a counted block adds to the accumulator of a lag (R27). -/
def lagSum (hist : List (List Sample)) (p : Proc) (probe f lag : Nat) : Int :=
  sumTo Config.blockFrames fun i => (inputAt p.rows probe i).toInt * refSample hist p.writesSince f i lag

/-- Whether a block counts for a feed's search (R26); the feed's measures are those recomputed for the block. -/
def counts (mics : List Mic) (p : Proc) (f : Feed) : Bool :=
  !p.standby && f.active && (micAt mics f.probe).talk == .clear && !p.degraded && p.feedLive

/-- A feed's part of the alignment unit's stage (R21, R26, R27, R32). -/
def Feed.stage (hist : List (List Sample)) (mics : List Mic) (p : Proc) (n : Nat) (f0 : Feed) : Feed :=
  let f := f0.remeasure (alignedSamples hist p.writesSince n f0.b)
  match f.acq with
  | .manual => f
  | .locked => if p.standby then f else { f with countdown := f.countdown - 1 }
  | .seek | .check =>
    if counts mics p f then
      { f with acc := f.acc.zipIdx.map fun c => c.1 + lagSum hist p f.probe n (8 * c.2), counted := f.counted + 1 }
    else f

/-- The end of a block's processing: reads see the state it leaves (R160). -/
def State.complete (s : State) : State :=
  { s with
    seen := s.model
    pool := { segs := s.model.segs, paths := s.model.paths.map PathRec.status }
    proc := none }

/-- The alignment unit's stage. A block cancelled in standby has no later stage, so its processing is complete (R110, R160). -/
def State.alignmentStage (s : State) : State :=
  match s.proc with
  | some p =>
    if p.phase = .align && !s.verdictsPending p then
      let feeds := s.model.feeds.zipIdx.map fun c => Feed.stage s.hist s.model.mics p c.2 c.1
      let t := s.setModel { s.model with feeds := feeds }
      if p.standby then t.complete else t.setProc (some { p with phase := .arbitrate, stageQueues := s.queues })
    else s
  | none => s

/-- A measurement is complete and its result is to be formed (R28). -/
def Feed.resultDue (f : Feed) : Bool := (f.acq == .seek || f.acq == .check) && decide (Config.measureBlocks ≤ f.counted)

/-- The check countdown of a LOCKED feed has reached 0 (R32). -/
def Feed.checkDue (f : Feed) : Bool := f.acq == .locked && f.countdown == 0

/-- Whether the result due decides a move (R29, R30). -/
def Feed.decidesMove (f : Feed) : Bool :=
  f.resultDue && validityOf f.acc == .valid && movesDelay f.b (newDelay (bestLag f.acc))

/-- A feed after its result (R28 to R30). -/
def Feed.takeResult (f : Feed) : Feed :=
  if f.resultDue then
    let g := { f.restart with lastLag := bestLag f.acc, lastValidity := validityOf f.acc }
    if validityOf f.acc = .valid then
      { g with acq := .locked, countdown := Config.checkBlocks,
               dueMove := if f.decidesMove then some (newDelay (bestLag f.acc)) else f.dueMove }
    else if f.acq = .seek then g
    else { g with acq := .locked, countdown := Config.checkBlocks }
  else f

/-- The event of a feed's result (R29, R30, R33). -/
def resultNotice (block : BlockNo) (n : Nat) (f : Feed) : List Notice :=
  let ev (e : Event) : List Notice := [{ dest := none, record := { block := block, event := e } }]
  if f.resultDue then
    let lag := bestLag f.acc
    if validityOf f.acc = .valid then
      if f.acq = .seek then ev (.bulkLocked n f.decidesMove (if f.decidesMove then newDelay lag else f.b))
      else if f.decidesMove then ev (.bulkMoved n f.b (newDelay lag))
      else []
    else ev (.bulkWeak n lag f.acq)
  else []

/-- Whether the search results of the alignment unit's stage may be taken now. -/
def State.resultsTurn (s : State) : Bool := s.inPhase .arbitrate

/-- Every result due is formed (R28). A move asks for clears of the paths open on its feed and puts their microphones in ACQUIRE at
once (R31, R129). The events of the feeds and of the microphones join the queues in any order, the microphones' in ascending
number (R132). -/
def State.bulkResult (s : State) : State :=
  if s.resultsTurn && s.model.feeds.any Feed.resultDue then
    let moved := fun f => (feedAt s.model.feeds f).decidesMove
    let paths := (openPaths s.model.paths).filter fun c => moved c.2.feed
    let onMic := fun m => paths.any fun c => c.2.mic == m
    let verdict := fun m => if onMic m then some (Conv.acquire, Cause.bulkMove) else none
    let mics := applyVerdicts verdict s.model.mics
    let start := match s.proc with
      | some p => p.stageQueues
      | none => s.queues
    let t := { s with
      model := { s.model with
        feeds := s.model.feeds.map Feed.takeResult
        mics := mics
        clearList := addAll s.model.clearList (paths.map Prod.fst) }
      queues := settleQueues s.model.paths s.model.paths mics start }
    t.postMerged
      ((s.model.feeds.zipIdx.map fun c => resultNotice s.blockNumber c.2 c.1) ++
        [verdictNotices s.blockNumber verdict s.model.mics])
  else s

/-- A LOCKED feed whose check countdown has reached 0 enters CHECK with the accumulators at zero (R32). -/
def State.checkExpiry (s : State) (f : Nat) : State :=
  if s.resultsTurn && decide (f < s.model.feeds.length) && (feedAt s.model.feeds f).checkDue then
    s.setModel { s.model with feeds := s.model.feeds.set f { (feedAt s.model.feeds f).restart with acq := .check } }
  else s

/-- Every countdown expiry still due. -/
def State.checkExpiries (s : State) : State := (List.range Config.feeds).foldl State.checkExpiry s

/-- Whether a result or a countdown expiry of the alignment unit's stage is still due. -/
def State.resultsPending (s : State) : Bool := s.model.feeds.any fun f => f.resultDue || f.checkDue

/-! ## Arbiter (07_the_update_arbiter) -/

/-- Whether a change set of either port is pending on a path (R94). -/
def State.pendingOnPath (s : State) (n : Nat) : Bool := (s.owner (.path n)).isSome

/-- Whether the windows of a path request in the block being processed (R93). -/
def pathRequests (s : State) (p : Proc) (n : Nat) (q : OpenPath) : Bool :=
  !q.frozen && !p.standby && p.excited.contains q.mic && (micAt s.model.mics q.mic).conv != .idle &&
    (feedAt s.model.feeds q.feed).active && p.feedLive && !s.model.clearList.contains n && !s.pendingOnPath n

/-- Whether a queue entry requests. -/
def entryRequests (s : State) (p : Proc) (e : QEntry) : Bool :=
  match windowAt s.model.paths e with
  | some c => pathRequests s p e.path c.1
  | none => false

/-- The length of the window an entry names. -/
def entryLength (s : State) (e : QEntry) : Nat :=
  match windowAt s.model.paths e with
  | some c => c.2.len
  | none => 0

/-- The scan of one queue (R111, R112): the windows granted in order, the remaining budget, and whether a FAIR scan stopped. -/
def scanQueue (req : QEntry → Bool) (len : QEntry → Nat) (scan : Scan) : Nat → List QEntry → List QEntry × Nat × Bool
  | left, [] => ([], left, false)
  | left, e :: es =>
    if req e then
      if len e ≤ left then
        let r := scanQueue req len scan (left - len e) es
        (e :: r.1, r.2)
      else match scan with
        | .fair => ([], left, true)
        | .greedy => scanQueue req len scan left es
    else scanQueue req len scan left es

/-- A queue after its scan: the granted windows go to the tail in the order granted (R113). -/
def requeue (granted queue : List QEntry) : List QEntry := (queue.filter fun e => !granted.contains e) ++ granted

/-- What the scan of the levels has done so far. -/
structure Arbitration where
  queues : List (List QEntry)
  granted : List QEntry
  left : Nat
  stopped : Bool
  deriving DecidableEq, Repr

/-- The scan of one level (R111 to R113); a level below a FAIR stop is left as it is. -/
def Arbitration.level (req : QEntry → Bool) (len : QEntry → Nat) (scan : Scan) (a : Arbitration) (l : Nat) : Arbitration :=
  if a.stopped then a
  else
    let q := a.queues.getD l []
    let r := scanQueue req len scan a.left q
    { queues := a.queues.set l (requeue r.1 q), granted := a.granted ++ r.1, left := r.2.1, stopped := r.2.2 }

/-- The scan of a block: levels 3, 2, 1, 0 (R111) with a budget of 16,384 taps (R110). -/
def arbitrate (s : State) (p : Proc) : Arbitration :=
  [3, 2, 1, 0].foldl (Arbitration.level (entryRequests s p) (entryLength s) s.globals.scan)
    { queues := s.queues, granted := [], left := Config.budget, stopped := false }

/-- The grant ages after a stage (R114). -/
def ageWindows (granted : List QEntry) (paths : List PathRec) : List PathRec :=
  paths.zipIdx.map fun c => match c.1 with
    | .opened p =>
      .opened { p with windows := p.windows.zipIdx.map fun w =>
        { w.1 with age := if granted.contains { path := c.2, index := w.2 } then 0 else runUp w.1.age } }
    | .free => .free
    | .pendingOpen m f => .pendingOpen m f

/-- The arbiter's stage (R110 to R115). -/
def State.arbiterStage (s : State) : State :=
  match s.proc with
  | some p =>
    if p.phase = .arbitrate && !s.resultsPending then
      let a := arbitrate s p
      { s with
        queues := a.queues
        model := { s.model with paths := ageWindows a.granted s.model.paths }
        proc := some { p with phase := .update, grants := a.granted } }
    else s
  | none => s

/-! ## Update engine (06_adaptation_arithmetic) -/

/-- The gradient of a tap at a delay (R96). -/
def gradient (s : State) (p : Proc) (q : OpenPath) (k : Nat) : Int :=
  let e := s.canc.errE.getD q.mic []
  let b := (feedAt s.model.feeds q.feed).b
  sumTo Config.blockFrames fun i => (e.getD i 0#16).toInt * refSample s.hist p.writesSince q.feed i (b + k)

/-- The new values of the taps of a granted window, by address (R97 to R100). -/
def windowUpdates (s : State) (p : Proc) (e : QEntry) : List (Nat × Coef) :=
  match windowAt s.model.paths e with
  | some (q, w) =>
    let code := stepCodeOf (micAt s.model.mics q.mic).conv q.fast q.slow
    let d := normaliser (feedAt s.model.feeds q.feed).energy q.totalTaps s.globals.delta
    w.taps.map fun t =>
      (t.2, updatedCoef (Memory.read s.model.coefs t.2) (increment code (gradient s p q t.1) d))
  | none => []

/-- The standby test (R150): every port whose grant is CONTROL has its vote set, and at least one vote is set. -/
def State.standbyTest (s : State) : Bool :=
  (s.ctl.p0.grant != .control || s.stager.p0.vote) && (s.ctl.p1.grant != .control || s.stager.p1.vote) &&
    (s.stager.p0.vote || s.stager.p1.vote)

/-- A running meter timer counts a block (R178). -/
def Meter.tick (m : Meter) : Meter := if m.running then { m with count := m.count - 1 } else m

/-- A running meter timer has reached 0 (R178). -/
def Meter.expired (m : Meter) : Bool := m.running && m.count == 0

/-- Whether a meter expiry is due. -/
def State.metersDue (s : State) : Bool := s.report.p0.meter.expired || s.report.p1.meter.expired

/-- STANDBY_ENTERED, carrying the block at whose end the part entered standby (R150). -/
def State.raiseEntered (s : State) : State := s.raise { block := s.blockNumber, event := .standbyEntered }

/-- Where the end of a processing stands after one of its events: with no meter expiry left, STANDBY_ENTERED is raised if it still is
to be, and the processing is complete; otherwise a free value says whether STANDBY_ENTERED comes before the next meter record
(R171, log 7). -/
def State.endStep (s : State) (p : Proc) (standbyDue : Bool) : State :=
  if s.metersDue then
    if standbyDue && Config.freeOrder s.freeCount then
      { s.raiseEntered with proc := some { p with phase := .meters false }, freeCount := s.freeCount + 1 }
    else
      { s with proc := some { p with phase := .meters standbyDue }, freeCount := if standbyDue then s.freeCount + 1 else s.freeCount }
  else (if standbyDue then s.raiseEntered else s).complete

/-- The taps of the granted windows take their new values together (R99 to R101). -/
def State.writeUpdates (s : State) (p : Proc) : State :=
  s.setModel { s.model with coefs := Memory.writeAll s.model.coefs (p.grants.flatMap (windowUpdates s p)) }

/-- The activity snapshot is refreshed (R81). -/
def State.refreshSnapshot (s : State) : State := s.setCanc { s.canc with snapshot := s.model.feeds.map Feed.active }

/-- The meter timers count the block (R178). -/
def State.tickMeters (s : State) : State :=
  { s with report := { p0 := { s.report.p0 with meter := s.report.p0.meter.tick },
                       p1 := { s.report.p1 with meter := s.report.p1.meter.tick } } }

/-- The part enters standby, or stays as it is (R150). -/
def State.enterIf (s : State) (enters : Bool) : State := { s with standby := s.standby || enters }

/-- Whether the part enters standby at the end of this block's processing (R150). -/
def State.enters (s : State) : Bool := !s.standby && s.standbyTest

/-- The update stage (R99 to R101) and the end of the block's processing: the snapshot (R81), the standby test (R150), and the meter
timers (R178). No run takes it at a STOPPED array port, where no processing is in progress (R48, R150, R178, log 35). -/
def State.updateStage (s : State) : State :=
  match s.proc with
  | some p =>
    if p.phase = .update then (((s.writeUpdates p).refreshSnapshot.tickMeters).enterIf s.enters).endStep p s.enters else s
  | none => s

/-- The entries of a METER record: one for each microphone in the mask, ascending (R178). -/
def meterEntries (mics : List Mic) (mask : MicMask) : List MeterEntry :=
  (mics.zipIdx.filter fun c => mask.getLsbD c.2).map fun c =>
    { mic := c.2, conv := c.1.conv, talk := c.1.talk, lastClass := c.1.lastClass, peakD := c.1.peakD, peakE := c.1.peakE }

/-- An expired meter timer reloads or stops (R178). -/
def Meter.reload (m : Meter) : Meter :=
  match m.mode with
  | .continuous => { m with count := m.period }
  | .oneShot => { m with running := false }

/-- An expired meter timer reloads or stops, and its record is given (R178). -/
def State.expireMeter (s : State) (q : Port) (block : BlockNo) : State :=
  (s.setReport q { s.report.get q with meter := (s.report.get q).meter.reload }).deliver q
    { block := block, event := .meter (meterEntries s.model.mics (s.report.get q).meter.mask) }

/-- A port's meter expiry (R178). -/
def State.meterExpiry (s : State) (q : Port) : State :=
  match s.proc with
  | some p =>
    match p.phase with
    | .meters standbyDue =>
      if (s.report.get q).meter.expired then (s.expireMeter q p.number).endStep p standbyDue else s
    | .expiring => s
    | .supervise => s
    | .align => s
    | .arbitrate => s
    | .update => s
  | none => s

/-! ## What is whole: a block start and the end of a processing (log 3), and a processing before the 64th write (log 4) -/

/-- A block start or an end of a processing that has begun is finished before anything else. -/
def State.settle (s : State) : State := (s.expireHolds.meterExpiry .p0).meterExpiry .p1

/-- Every stage still due of the block being processed, in their order (R13, R20). -/
def State.finishProcessing (s : State) : State :=
  (s.settle.supervisorStage.verdictSteps.alignmentStage.bulkResult.checkExpiries.arbiterStage.updateStage).settle

/-! ## Meanings -/

/-- HOLD EXPIRED (R145). -/
def execHoldExpired (s : State) : Host.Outcome State Fault Refusal := .next s.expireHolds

/-- SUPERVISOR STAGE (R119). -/
def execSupervisorStage (s : State) : Host.Outcome State Fault Refusal := .next s.supervisorStage

/-- RUN THRESHOLD (R126). -/
def execRunThreshold (m : Nat) (s : State) : Host.Outcome State Fault Refusal := .next (s.runThreshold m)

/-- MIC DIVERGED (R127). -/
def execMicDiverged (m : Nat) (s : State) : Host.Outcome State Fault Refusal := .next (s.micDiverged m)

/-- ALIGNMENT STAGE (R21). -/
def execAlignmentStage (s : State) : Host.Outcome State Fault Refusal := .next s.alignmentStage

/-- BULK RESULT (R28). -/
def execBulkResult (s : State) : Host.Outcome State Fault Refusal := .next s.bulkResult

/-- CHECK COUNTDOWN EXPIRY (R32). -/
def execCheckCountdownExpiry (f : Nat) (s : State) : Host.Outcome State Fault Refusal := .next (s.checkExpiry f)

/-- ARBITER STAGE (R111). -/
def execArbiterStage (s : State) : Host.Outcome State Fault Refusal := .next s.arbiterStage

/-- UPDATE STAGE (R99). -/
def execUpdateStage (s : State) : Host.Outcome State Fault Refusal := .next s.updateStage

/-- METER TIMER EXPIRY (R178). -/
def execMeterTimerExpiry (p : Port) (s : State) : Host.Outcome State Fault Refusal := .next (s.meterExpiry p)

end Sys2Proof.Machine
end

