-- ==== Sys2Proof/Machine/Audio.lean ====
section
/-! DEFINITION. The audio ports: feed frames, feed reads, array frames, the stop timer, frame syncs (01_audio_ports_samples_and_blocks). -/

namespace Sys2Proof.Machine

/-- A row of zeros, one sample per feed. -/
def zeroFeeds : List Sample := List.replicate Config.feeds 0#16

/-- The samples of the first `n` slots of a frame; a missing slot reads 0 (log 32). -/
def samplesOf (n : Nat) (slots : List Slot) : List Sample := (List.range n).map fun i => sampleOfSlot (slots.getD i 0#32)

/-! ## Feed port -/

/-- A feed frame arrives at the store (R5), whatever comes together with it: R9's table is not consulted, and a full store drops the
frame in the LOST state too (log 38). -/
def State.storeFeed (s : State) : FrameEnd → State
  | .faulted => s.countBoth .feedFrameFault
  | .wellFormed slots =>
    if s.feedPort.store.length < Config.storeFrames then
      s.setFeedPort { s.feedPort with store := s.feedPort.store ++ [samplesOf Config.feeds slots] }
    else s.countBoth .feedDrop

/-- A bit at the feed port: a frame that ends with it arrives (R2, R5). -/
def State.feedBit (s : State) (b : LineBit) : State :=
  let r := s.feedPort.framing.onBit Config.feedFrameBits s.feedPort.pin b
  let t := match r.2 with
    | some f => s.storeFeed f
    | none => s
  t.setFeedPort { t.feedPort with framing := r.1, pin := b.sync }

/-- A read that yields zeros spoils the block's feed-live mark (R11). -/
def State.spoilLive (s : State) : State := s.setArray { s.array with feedLive := false }

/-- The oldest frame leaves the store and becomes the last frame (R7, R8). -/
def State.takeOldest (s : State) (frame : List Sample) (rest : List (List Sample)) : State :=
  s.setFeedPort { s.feedPort with store := rest, state := .live, last := frame }

/-- One feed read, with the samples it yields (R7, R8, R11, R18), whatever comes together with it: a pending repeat leaves the store
alone at every fill, and a full store returns a LOST feed (log 38). -/
def State.feedRead (s : State) : State × List Sample :=
  match s.feedPort.state, s.feedPort.repeatMark, s.feedPort.store with
  | .live, true, _ =>
    ((s.setFeedPort { s.feedPort with repeatMark := false }).countBoth .feedRepeat, s.feedPort.last)
  | .live, false, frame :: rest => (s.takeOldest frame rest, frame)
  | .live, false, [] =>
    ((((s.setFeedPort { s.feedPort with state := .lost }).countBoth .feedLosses).raise
      { block := s.array.counter, event := .feedLost }).spoilLive, zeroFeeds)
  | .lost, _, [] => (s.spoilLive, zeroFeeds)
  | .lost, _, frame :: rest =>
    if Config.returnFill ≤ rest.length + 1 then
      ((s.takeOldest frame rest).raise { block := s.array.counter, event := .feedBack }, frame)
    else (s.spoilLive, zeroFeeds)

/-! ## Array port -/

/-- A STOPPED port resumes (R15, R18); a RUNNING one goes on. -/
def State.resume (s : State) : State :=
  match s.array.run with
  | .running => s
  | .stopped =>
    let t := s.raise { block := s.array.counter, event := .arrayResumed }
    { t with
      feedPort := { t.feedPort with store := t.feedPort.store.drop (t.feedPort.store.length - Config.returnFill) }
      array := { t.array with run := .running, feedLive := true, outBuf := List.replicate Config.blockFrames zeroRow } }

/-- The frame's row joins the partial block (R12). -/
def State.joinRow (s : State) : FrameEnd → State
  | .wellFormed slots => s.setArray { s.array with rows := s.array.rows ++ [samplesOf Config.mics slots] }
  | .faulted =>
    (s.setArray { s.array with rows := s.array.rows ++ [zeroRow], degraded := true }).countBoth .arrayFrameFault

/-- A processing whose 64th history write since its block start would now come is finished first (log 4). -/
def State.finishBeforeWrite (s : State) : State :=
  match s.proc with
  | some p => if Config.blockFrames ≤ p.writesSince + 1 then s.finishProcessing else s
  | none => s

/-- The feed read of a microphone frame, written to the histories (R7, R19). -/
def State.readFeed (s : State) : State := s.feedRead.1.writeHistories s.feedRead.2

/-- The stop timer starts again (R12). -/
def State.restartTimer (s : State) : State := s.setArray { s.array with stopTimer := true }

/-- A block that has its 64 rows is handed to the canceller at once (R12, R13). The sync that ends a faulted frame begins row 0 of the
next block, so a block start that waits for HOLD_EXPIRED goes on before that row (R16, log 3). -/
def State.handOff (s : State) (f : FrameEnd) : State :=
  if Config.blockFrames ≤ s.array.rows.length then
    match f with
    | .wellFormed _ => s.blockStart
    | .faulted => s.blockStart.expireHolds
  else s

/-- An array frame arrives (R12). -/
def State.arrayArrival (s : State) (f : FrameEnd) : State :=
  ((s.settle.finishBeforeWrite.restartTimer.resume.readFeed).joinRow f).handOff f

/-- The array receiver after a bit (R2). -/
def State.setReceiver (s : State) (framing : Framing) (pin : Bool) : State := s.setArray { s.array with framing := framing, pin := pin }

/-- ADOUT takes the row of the frame in progress, or is driven low in SEARCH (R4, R16). -/
def State.driveRow (s : State) : State := s.setArray s.array.drive

/-- A bit at the array port (R2): a frame that ends with it arrives (R12). Where a frame starts, a block start that waits for
HOLD_EXPIRED goes on first, so that the row driven is one of the block just taken (R16, log 3), and ADOUT takes its row (R4). -/
def State.arrayBit (s : State) (b : LineBit) : State :=
  let r := s.array.framing.onBit Config.arrayFrameBits s.array.pin b
  match r.2 with
  | some f => ((s.arrayArrival f).setReceiver r.1 b.sync).driveRow
  | none =>
    if !s.array.framing.busy && r.1.busy then (s.expireHolds.setReceiver r.1 b.sync).driveRow
    else s.setReceiver r.1 b.sync

/-- The port stops (R14): the partial block and the pending-repeat mark go, and the timer does not run again until a frame arrives. -/
def State.stopArray (s : State) : State :=
  let t := (s.countBoth .arrayStops).raise { block := s.array.counter, event := .arrayStopped }
  { t with
    feedPort := { t.feedPort with repeatMark := false }
    array := { t.array with run := .stopped, stopTimer := false, rows := [], degraded := false }.drive }

/-- A processing still due is finished, and none is left (log 35). -/
def State.endProcessing (s : State) : State := s.finishProcessing.setProc none

/-- The stop timer expires (R14); a timer that does not run cannot (log 11). The processing of the last block has ended before the port
stops, because none ends while it is STOPPED (R48, R150, R178, log 35). -/
def State.stopExpiry (s : State) : State :=
  match s.array.run, s.array.stopTimer with
  | .running, true => s.endProcessing.stopArray
  | _, _ => s

/-! ## Runs of bits -/

/-- The bits of a row of an audio port, received one after the other (R2, log 10). -/
def State.receive (s : State) (a : AudioPort) (bits : List LineBit) : State :=
  match a with
  | .feed => bits.foldl State.feedBit s
  | .array => bits.foldl State.arrayBit s

/-- A bit of a row of slots, counted from 1 as the receiver counts the bits of a frame, most significant first (R1, R4). -/
def rowBit (row : Option (List Slot)) (n : Nat) : Bool :=
  match row with
  | some l => (l.getD ((n - 1) / 32) 0#32).getLsbD (31 - (n - 1) % 32)
  | none => false

/-- The level that ADOUT carries at a bit (R4): the bit of the row of the frame that the bit belongs to, and low in SEARCH. -/
def State.adoutAt (s : State) (b : LineBit) : Bool :=
  match (s.arrayBit b).array.framing, s.array.framing with
  | .inFrame n _, _ => rowBit (s.arrayBit b).array.adout n
  | .search, .inFrame n _ => rowBit s.array.adout (n + 1)
  | .search, .search => false

/-! ## Meanings -/

/-- FEED FRAME ARRIVAL (R5). -/
def execFeedFrameArrival (bits : List LineBit) (s : State) : Host.Outcome State Fault Refusal := .next (s.receive .feed bits)

/-- ARRAY FRAME ARRIVAL (R12). -/
def execArrayFrameArrival (bits : List LineBit) (s : State) : Host.Outcome State Fault Refusal := .next (s.receive .array bits)

/-- STOP TIMER EXPIRY (R14). -/
def execStopTimerExpiry (s : State) : Host.Outcome State Fault Refusal := .next s.stopExpiry

/-- FRAME SYNC (R2). -/
def execFrameSync (a : PortBits) (s : State) : Host.Outcome State Fault Refusal := .next (s.receive a.port a.bits)

end Sys2Proof.Machine
end

