-- ==== Sys2Proof/Machine/Ports.lean ====
section
/-! DEFINITION. The control ports: how a write transaction ends in an answered message, and the transactions that carry none
(10_control_ports_and_requests, 10.1 to 10.3). -/

namespace Sys2Proof.Machine

/-- What an owner answers: a status and a response body. -/
structure Reply where
  status : Status
  body : List Byte
  deriving DecidableEq, Repr

/-- A refused request has an empty body (R157). -/
def Reply.refuse (st : Status) : Reply := { status := st, body := [] }

/-- An accepted request, with or without a clamp (R159). -/
def Reply.accept (clamped : Bool) (body : List Byte) : Reply :=
  { status := if clamped then .acceptedClamped else .accepted, body := body }

/-- Whether a request class is within a grant level (R158). -/
def Grant.allows (g : Grant) (cls : Grant) : Bool := decide (cls.code ≤ g.code)

/-- The checks of R156 that a message of a known kind can still fail, in their order, and then the owner. -/
def State.answer (s : State) (p : Port) (k : Kind) (body : List Byte) (owner : State → State × Reply) : State × Reply :=
  if Config.maxBody < body.length then (s, .refuse .malformed)
  else if !(s.ctl.get p).grant.allows k.grant then (s, .refuse .denied)
  else if !k.layoutOk body then (s, .refuse .malformed)
  else owner s

/-- The write transaction ends: the response replaces the slot's contents and the port returns to IDLE (R153, R154, R157). -/
def State.respond (s : State) (p : Port) (kind : Byte) (r : Reply) : State :=
  s.setCtl p { s.ctl.get p with trans := .idle, slot := { kind := kind, status := r.status, body := r.body } }

/-- A port's transaction ends with nothing taken. -/
def State.idlePort (s : State) (p : Port) : State := s.setCtl p { s.ctl.get p with trans := .idle }

/-- The end of a write transaction of a port that carries the whole bytes `bytes`: taken from RECEIVING when they continue the bytes
held, and not taken from IGNORING, which ends there (R153 to R155, log 12). -/
def State.endWrite (s : State) (p : Port) (bytes : List Byte) (taken : State → State) : State :=
  match (s.ctl.get p).trans with
  | .receiving held => if held.isPrefixOf bytes then taken s.settle else s
  | .ignoring _ => s.idlePort p
  | .idle => s
  | .sending _ => s

/-- A request of a kind, from a port, with a body, for an owner (R156, R157). -/
def State.request (s : State) (p : Port) (k : Kind) (body : List Byte) (owner : State → State × Reply) : State :=
  s.endWrite p (message k body) fun t =>
    let r := t.answer p k body owner
    r.1.respond p k.code r.2

/-- What the framing and kind checks answer to a message (R156), none when both pass. -/
def badMessage : List Byte → Option Status
  | kind :: len :: body =>
    if Config.maxBody < len.toNat then some .malformed
    else if body.length != len.toNat then some .malformed
    else if knownKind kind then none
    else some .unknownKind
  | [_] => some .malformed
  | [] => none

/-- A write transaction ends whose message fails the framing or the kind check (R156). A message that passes both is a request, and a
write that carries no byte is no message: neither is this command (log 12). -/
def State.badRequest (s : State) (p : Port) (bytes : List Byte) : State :=
  match badMessage bytes with
  | some st => s.endWrite p bytes fun t => t.respond p (bytes.headD 0#8) (.refuse st)
  | none => s

/-! ## Transactions -/

/-- A write transaction begins, with the bytes that have come so far. -/
def State.beginWrite (s : State) (p : Port) (early : List Byte) : State :=
  s.setCtl p { s.ctl.get p with trans := .receiving early }

/-- A read transaction begins: the slot is copied (R153, R154). -/
def State.beginRead (s : State) (p : Port) : State := s.setCtl p { s.ctl.get p with trans := .sending (s.ctl.get p).slot }

/-- A transaction the port will not act on. What CDO carries in it is a free value of its own, so the free values' index advances
(log 36). -/
def State.ignore (s : State) (p : Port) : State :=
  { s.setCtl p { s.ctl.get p with trans := .ignoring false } with freeCount := s.freeCount + 1 }

/-- Bytes held that a message still waits for its end with. -/
def Trans.holds : Trans → Bool
  | .receiving held => held != []
  | .idle => false
  | .sending _ => false
  | .ignoring _ => false

/-- A transaction opens (R153, R154). CSEL falls only at an IDLE port 0; a start condition ends what came before, but a write that
holds bytes ends in its request first (log 12). On port 0 the fall of CSEL and the whole first byte are one command, so that a
RESET PART from port 1 between the two finds port 0 IDLE (DESIGN CHOICE, log 33). -/
def State.begin (s : State) (o : Opening) (early : List Byte) : State :=
  match o with
  | .fourWire first =>
    if s.ctl.p0.trans = .idle then
      if first = some 0x3C#8 then s.beginWrite .p0 early
      else if first = some 0xC3#8 then s.beginRead .p0
      else s.ignore .p0
    else s
  | .twoWire addr read =>
    if s.ctl.p1.trans.holds then s
    else if addr ≠ s.twoWireAddr then s.idlePort .p1
    else if read then s.beginRead .p1
    else s.beginWrite .p1 early

/-- A transaction that carries no request ends (R153, R154); a write that holds bytes carries one. -/
def State.endEmpty (s : State) (p : Port) : State := if (s.ctl.get p).trans.holds then s else s.idlePort p

/-! ## What the ports' wires carry (R153, R154)

Each is a function of the transaction in progress: the bits of a byte are not commands (log 12). -/

/-- Byte `n` of a response as it is sent, with 0x00 past its end (R153, R154). -/
def Response.byteAt (r : Response) (n : Nat) : Byte := r.bytes.getD n 0#8

/-- Bit `k` of a byte on the wire, the most significant first (R153, R154). -/
def wireBit (b : Byte) (k : Nat) : Bool := b.getMsbD k

/-- What CDO carries in byte `n` of port 0's transaction, none while CSEL is high and CDO is not driven (R154). The first byte is byte
0. What it carries after the first byte of an ignored transaction that is no write is a free value (log 36). -/
def State.cdoByte (s : State) (n : Nat) : Option Byte :=
  match s.ctl.p0.trans with
  | .idle => none
  | .receiving _ => some 0#8
  | .sending copy => some (if n = 0 then 0#8 else copy.byteAt (n - 1))
  | .ignoring write => some (if n = 0 ∨ write = true then 0#8 else Config.ignoredOut s.freeCount n)

/-- What the part drives on TWD as byte `n` after the address byte of port 1's transaction, none while it leaves TWD high (R153). -/
def State.twdByte (s : State) (n : Nat) : Option Byte :=
  match s.ctl.p1.trans with
  | .idle => none
  | .receiving _ => none
  | .sending copy => some (copy.byteAt n)
  | .ignoring _ => none

/-- Whether port 1 acknowledges an address byte: only its own address (R153). -/
def State.acksAddress (s : State) (addr : BitVec 7) : Bool := addr == s.twoWireAddr

/-- Whether the part drives TWD low at the ninth clock of byte `n` after the address byte (R153). The rest of a write that RESET PART
dropped is acknowledged or not by a free value (log 37). -/
def State.acksByte (s : State) (n : Nat) : Bool :=
  match s.ctl.p1.trans with
  | .idle => false
  | .receiving _ => true
  | .sending _ => false
  | .ignoring _ => Config.ignoredAck s.freeCount n

end Sys2Proof.Machine
end

