-- ==== Sys2Proof/Machine/Reads.lean ====
section
/-! DEFINITION. The requests that report: IDENTIFY and the READ requests (R162, R73, R135, R38, R54, R175, R176, R55). -/

namespace Sys2Proof.Machine

/-- IDENTIFY (R162, R168). -/
def identifyBody (s : State) (p : Port) : List Byte :=
  le 2 0x2408 ++ [1#8, byte (portCode p), byte (s.ctl.get p).grant.code] ++ le 4 s.array.counter.toNat ++
    [flagByte s.standby, flagByte (s.stager.get p).hold]

def answerIdentify (p : Port) (_body : List Byte) (s : State) : State × Reply := (s, .accept false (identifyBody s p))

/-! ## READ PATH -/

/-- The pending kinds of a path's set, from bit 0: OPEN, CLOSE, WINDOWS, SETTINGS, TAPS, CLEAR (R170, log 16). -/
def PathChange.kinds (c : PathChange) : Nat :=
  (if c.opening.isSome then 1 else 0) + (if c.close then 2 else 0) + (if c.windows.isSome then 4 else 0) +
    (if c.base.isSome || c.fast.isSome || c.slow.isSome || c.frozen.isSome then 8 else 0) +
    (if c.taps.isEmpty then 0 else 16) + (if c.clear then 32 else 0)

/-- The pending kinds of whichever port's set is on a path. -/
def State.pendingKinds (s : State) (n : Nat) : Nat :=
  match s.owner (.path n) with
  | some p => (s.ownChange p (.path n)).pathPart.kinds
  | none => 0

/-- READ PATH of a path that is answered as OPEN (R73, R168); the clear due is the snapshot's (log 15). -/
def openPathBody (s : State) (n : Nat) (q : OpenPath) : List Byte :=
  [2#8, byte q.mic, byte q.feed, byte q.base, byte q.fast, byte q.slow, flagByte q.frozen, byte (pathLevel s.seen.mics q),
    byte (stepCodeOf (micAt s.seen.mics q.mic).conv q.fast q.slow), flagByte (s.seen.clearList.contains n),
    byte (ownerCode (s.owner (.path n))), byte (s.pendingKinds n)] ++
    le 2 q.totalTaps ++ [byte q.windows.length] ++ q.windows.flatMap fun w => le 2 w.start ++ le 2 w.len ++ le 2 w.age

/-- READ PATH of a path that is answered as PENDING_OPEN: 15 bytes, with the zero fields of R73. -/
def pendingPathBody (s : State) (n mic feed : Nat) : List Byte :=
  [1#8, byte mic, byte feed, 0#8, 0#8, 0#8, 0#8, 0#8, 0#8, 0#8, byte (ownerCode (s.owner (.path n))), byte (s.pendingKinds n),
    0#8, 0#8, 0#8]

/-- READ PATH (R73). -/
def answerReadPath (_p : Port) (body : List Byte) (s : State) : State × Reply :=
  let n := field body 0 1
  match pathAt s.model.paths n, pathAt s.seen.paths n with
  | .free, _ => (s, .refuse .noSuchObject)
  | .pendingOpen mic feed, _ => (s, .accept false (pendingPathBody s n mic feed))
  | .opened _, .opened q => (s, .accept false (openPathBody s n q))
  | .opened c, _ => (s, .accept false (pendingPathBody s n c.mic c.feed))

/-! ## READ MIC, READ REFERENCE -/

/-- READ MIC (R135, R168). -/
def micBody (s : State) (n : Nat) : List Byte :=
  let m := micAt s.seen.mics n
  [byte m.conv.code, byte m.talk.code, byte m.hangover, byte m.lastClass.code] ++ le 2 m.goodRun ++ le 2 m.poorRun ++
    [byte m.divCount] ++ le 2 (s.seen.gains.getD n Config.fullGain) ++ [byte m.theta, byte m.hang] ++ le 2 m.floor ++ le 2 m.peakD ++
    le 2 m.peakE ++ le 5 m.energyD ++ le 5 m.energyE ++ le 4 m.measBlock.toNat ++
    [byte (pathsOnMic s.seen.paths n).length, byte (ownerCode (s.owner (.mic n)))]

def answerReadMic (_p : Port) (body : List Byte) (s : State) : State × Reply :=
  let n := field body 0 1
  if Config.mics ≤ n then (s, .refuse .noSuchObject) else (s, .accept false (micBody s n))

/-- READ REFERENCE (R38, R168). -/
def referenceBody (s : State) (n : Nat) : List Byte :=
  let f := feedAt s.seen.feeds n
  [byte f.mode.code, byte f.acq.code] ++ le 2 f.b ++ le 2 f.manualDelay ++ le 6 f.actFloor ++ [byte f.probe, flagByte f.active] ++
    le 6 f.energy ++ le 2 f.peak ++ [byte f.counted] ++ le 2 f.countdown ++ le 2 f.lastLag ++
    [byte f.lastValidity.code, byte s.seen.captured.code, byte (ownerCode (s.owner (.feed n)))]

def answerReadReference (_p : Port) (body : List Byte) (s : State) : State × Reply :=
  let n := field body 0 1
  if Config.feeds ≤ n then (s, .refuse .noSuchObject) else (s, .accept false (referenceBody s n))

/-! ## READ TAPS -/

/-- The value READ TAPS shows at a delay of a window (R48, R54). -/
def seenTap (s : State) (w : Window) (k : Nat) : Coef :=
  match w.tapAddr k with
  | some a => Memory.read s.seen.coefs a
  | none => 0#24

/-- READ TAPS (R54, R168). -/
def tapsBody (s : State) (w : Window) (offset count : Nat) : List Byte :=
  let v := min count (w.len - offset)
  le 2 w.start ++ le 2 w.len ++ le 2 offset ++ [byte v] ++
    (List.range v).flatMap fun i => le 3 (seenTap s w (w.start + offset + i)).toNat

/-- A path that READ TAPS finds open: open when the read is taken, and open as of the last completed block processing (R54, R160). -/
def State.readablePath (s : State) (n : Nat) : Option OpenPath :=
  match pathAt s.model.paths n, pathAt s.seen.paths n with
  | .opened _, .opened q => some q
  | _, _ => none

def answerReadTaps (_p : Port) (body : List Byte) (s : State) : State × Reply :=
  let r := parseReadTaps body
  match s.readablePath r.path with
  | some q =>
    match q.windows[r.window]? with
    | some w => (s, .accept r.clamped (tapsBody s w r.offset r.count))
    | none => (s, .refuse .noSuchObject)
  | none => (s, .refuse .noSuchObject)

/-! ## READ EVENTS, READ COUNTERS, READ POOL -/

/-- The records taken from the head of a queue, at most `n` of them and at most `room` bytes, and those left (R175). -/
def takeRecords : Nat → Nat → List Record → List Record × List Record
  | n + 1, room, c :: q =>
    if c.bytes.length ≤ room then
      let r := takeRecords n (room - c.bytes.length) q
      (c :: r.1, r.2)
    else ([], c :: q)
  | _, _, q => ([], q)

/-- READ EVENTS (R175, R168). A count that is clamped is answered ACCEPTED_CLAMPED on an empty queue too, where R175 also says ACCEPTED
(DESIGN CHOICE, log 34). -/
def answerReadEvents (p : Port) (body : List Byte) (s : State) : State × Reply :=
  let most := field body 0 1
  let r := takeRecords (clampNat 1 8 most) Config.eventBytes (s.report.get p).queue
  (s.setReport p { s.report.get p with queue := r.2 },
   .accept (optClamped 1 0 1 8 most) ([byte r.2.length, byte r.1.length] ++ r.1.flatMap Record.bytes))

/-- The counters in the order of the response (R168). -/
def Counters.list (c : Counters) : List Counter :=
  [c.feedDrop, c.feedRepeat, c.feedLosses, c.feedFrameFault, c.arrayFrameFault, c.arrayStops, c.degradedBlocks, c.eventsLost]

/-- The overflow flags, bit i for the i-th counter (R168). -/
def flagsValue : List Counter → Nat
  | [] => 0
  | c :: cs => (if c.overflow then 1 else 0) + 2 * flagsValue cs

/-- READ COUNTERS (R176, R168). -/
def countersBody (c : Counters) : List Byte := c.list.flatMap (fun d => le 2 d.value.toNat) ++ [byte (flagsValue c.list)]

def answerReadCounters (p : Port) (_body : List Byte) (s : State) : State × Reply :=
  (s.setReport p { s.report.get p with counters := .reset }, .accept false (countersBody (s.report.get p).counters))

/-- READ POOL (R55, R168). -/
def poolBody (s : State) (p : Port) : List Byte :=
  le 2 (s.pool.segs.count .free) ++ le 2 (s.pool.segs.count (.reserved .p0)) ++ le 2 (s.pool.segs.count (.reserved .p1)) ++
    le 2 (s.pool.segs.count .inUse) ++ [byte (s.pool.paths.count .opened), byte (s.pool.paths.count .free)] ++ le 2 (s.stagingRoom p)

def answerReadPool (p : Port) (_body : List Byte) (s : State) : State × Reply := (s, .accept false (poolBody s p))

/-! ## Meanings -/

/-- IDENTIFY (R162). -/
def execIdentify (p : Port) (body : List Byte) (s : State) : Host.Outcome State Fault Refusal :=
  .next (s.request p .identify body (answerIdentify p body))

/-- READ PATH (R73). -/
def execReadPath (p : Port) (body : List Byte) (s : State) : Host.Outcome State Fault Refusal :=
  .next (s.request p .readPath body (answerReadPath p body))

/-- READ MIC (R135). -/
def execReadMic (p : Port) (body : List Byte) (s : State) : Host.Outcome State Fault Refusal :=
  .next (s.request p .readMic body (answerReadMic p body))

/-- READ REFERENCE (R38). -/
def execReadReference (p : Port) (body : List Byte) (s : State) : Host.Outcome State Fault Refusal :=
  .next (s.request p .readReference body (answerReadReference p body))

/-- READ TAPS (R54). -/
def execReadTaps (p : Port) (body : List Byte) (s : State) : Host.Outcome State Fault Refusal :=
  .next (s.request p .readTaps body (answerReadTaps p body))

/-- READ EVENTS (R175). -/
def execReadEvents (p : Port) (body : List Byte) (s : State) : Host.Outcome State Fault Refusal :=
  .next (s.request p .readEvents body (answerReadEvents p body))

/-- READ COUNTERS (R176). -/
def execReadCounters (p : Port) (body : List Byte) (s : State) : Host.Outcome State Fault Refusal :=
  .next (s.request p .readCounters body (answerReadCounters p body))

/-- READ POOL (R55). -/
def execReadPool (p : Port) (body : List Byte) (s : State) : Host.Outcome State Fault Refusal :=
  .next (s.request p .readPool body (answerReadPool p body))

end Sys2Proof.Machine
end

