-- ==== Sys2Proof/Machine/Tuning.lean ====
section
/-! DEFINITION. The TUNE requests: settings, ACQUIRE, holds, mutes (R133, R34, R70, R104, R37, R143, R144, R86), and the requests on a
port's own reports: METER, WATCH, EVENT ENABLE (R177, R179, R173). -/

namespace Sys2Proof.Machine

/-! ## Settings -/

/-- The fields of SET MIC put over pending ones (R139). -/
def MicChange.merge (c : MicChange) (r : SetMicReq) : MicChange :=
  { c with theta := r.theta.or c.theta, hang := r.hang.or c.hang, floor := r.floor.or c.floor }

/-- SET MIC (R133). -/
def answerSetMic (p : Port) (body : List Byte) (s : State) : State × Reply :=
  let r := parseSetMic body
  if Config.mics ≤ r.mic then (s, .refuse .noSuchObject)
  else if s.claimedByOther p (.mic r.mic) then (s, .refuse .pendingOther)
  else (s.stage p (.mic r.mic) (Change.mapMic fun c => c.merge r), .accept r.clamped [])

/-- The fields of SET REFERENCE put over pending ones; MANUAL removes a pending acquire (R34, R139). -/
def FeedChange.merge (c : FeedChange) (r : SetReferenceReq) : FeedChange :=
  { mode := r.mode.or c.mode, manualDelay := r.manualDelay.or c.manualDelay, actFloor := r.actFloor.or c.actFloor,
    probe := r.probe.or c.probe, acquire := c.acquire && r.mode != some .manual }

/-- Whether a SET REFERENCE names a probe microphone that does not exist (R34). -/
def SetReferenceReq.badProbe (r : SetReferenceReq) : Bool :=
  match r.probe with
  | some m => decide (Config.mics ≤ m)
  | none => false

/-- SET REFERENCE (R34). -/
def answerSetReference (p : Port) (body : List Byte) (s : State) : State × Reply :=
  let r := parseSetReference body
  if Config.feeds ≤ r.feed then (s, .refuse .noSuchObject)
  else if r.badProbe then (s, .refuse .noSuchObject)
  else if s.claimedByOther p (.feed r.feed) then (s, .refuse .pendingOther)
  else (s.stage p (.feed r.feed) (Change.mapFeed fun c => c.merge r), .accept r.clamped [])

/-- The settings of SET PATH put over pending ones (R139). -/
def PathChange.mergeSettings (c : PathChange) (r : SetPathReq) : PathChange :=
  { c with base := r.base.or c.base, fast := r.fast.or c.fast, slow := r.slow.or c.slow, frozen := r.frozen.or c.frozen }

/-- SET PATH (R70). -/
def answerSetPath (p : Port) (body : List Byte) (s : State) : State × Reply :=
  let r := parseSetPath body
  if pathAt s.model.paths r.path = .free then (s, .refuse .noSuchObject)
  else if s.claimedByOther p (.path r.path) then (s, .refuse .pendingOther)
  else if (s.ownChange p (.path r.path)).pathPart.close then (s, .refuse .noSuchObject)
  else (s.stage p (.path r.path) (Change.mapPath fun c => c.mergeSettings r), .accept r.clamped [])

/-- The fields of SET GLOBAL put over pending ones (R139). -/
def GlobalChange.merge (c : GlobalChange) (r : SetGlobalReq) : GlobalChange :=
  { c with delta := r.delta.or c.delta, scan := r.scan.or c.scan }

/-- The settings that the global object will have when a port's set applies (R106). -/
def globalBody (s : State) (p : Port) : List Byte :=
  let g := s.globals.applyChange (s.ownChange p .global).globalPart
  le 4 g.delta ++ [byte g.scan.code]

/-- SET GLOBAL (R104, R106). -/
def answerSetGlobal (p : Port) (body : List Byte) (s : State) : State × Reply :=
  let r := parseSetGlobal body
  if s.claimedByOther p .global then (s, .refuse .pendingOther)
  else
    let t := s.stage p .global (Change.mapGlobal fun c => c.merge r)
    (t, .accept r.clamped (globalBody t p))

/-- The mode a feed will have once a port's pending set applies (R37). -/
def State.plannedMode (s : State) (p : Port) (f : Nat) : FeedMode :=
  (s.ownChange p (.feed f)).feedPart.mode.getD (feedAt s.model.feeds f).mode

/-- ACQUIRE (R37). -/
def answerAcquire (p : Port) (body : List Byte) (s : State) : State × Reply :=
  let f := field body 0 1
  if Config.feeds ≤ f then (s, .refuse .noSuchObject)
  else if s.claimedByOther p (.feed f) then (s, .refuse .pendingOther)
  else if s.plannedMode p f = .manual then (s, .refuse .wrongMode)
  else (s.stage p (.feed f) (Change.mapFeed fun c => { c with acquire := true }), .accept false [])

/-! ## Holds and mutes -/

/-- The response to HOLD and RELEASE (R144, R168). -/
def stagerBody (g : Stager) : List Byte :=
  [flagByte g.hold, byte g.age, byte g.list.length] ++
    match g.list with
    | [] => []
    | c :: _ => le 4 c.acceptBlock.toNat

/-- HOLD (R143). -/
def Stager.startHold (g : Stager) : Stager := if g.hold then g else { g with hold := true, age := 0 }

/-- RELEASE (R144). -/
def Stager.release (g : Stager) : Stager := if g.hold then { g with hold := false, age := 0 } else g

def answerHold (p : Port) (_body : List Byte) (s : State) : State × Reply :=
  let g := (s.stager.get p).startHold
  (s.setStager p g, .accept false (stagerBody g))

def answerRelease (p : Port) (_body : List Byte) (s : State) : State × Reply :=
  let g := (s.stager.get p).release
  (s.setStager p g, .accept false (stagerBody g))

/-- A port's requested mask replaced (R86). -/
def State.setReqMask (s : State) (p : Port) (m : MicMask) : State := s.setCanc { s.canc with reqMask := s.canc.reqMask.set p m }

/-- The microphones in either port's requested mask (R86). -/
def State.combinedMask (s : State) : MicMask := s.canc.reqMask.p0 ||| s.canc.reqMask.p1

/-- MUTE (R86). -/
def answerMute (p : Port) (body : List Byte) (s : State) : State × Reply :=
  let t := s.setReqMask p (parseMask body 0)
  (t, .accept false (le 3 t.combinedMask.toNat))

/-! ## METER, WATCH, EVENT ENABLE -/

/-- A meter timer after METER (R177): started, or stopped by an action of stop or an empty mask. -/
def Meter.command (m : Meter) (r : MeterReq) : Meter :=
  if r.start && r.mask != 0#24 then
    { running := true, mode := r.mode, period := r.period, mask := r.mask, count := r.period }
  else { m with running := false }

/-- METER (R177). -/
def answerMeter (p : Port) (body : List Byte) (s : State) : State × Reply :=
  let r := parseMeter body
  (s.setReport p { s.report.get p with meter := (s.report.get p).meter.command r }, .accept r.clamped [])

/-- The largest number of a kind that carries a range (R179). -/
def WatchKind.top : WatchKind → Nat
  | .none => 0
  | .path => 127
  | .mic => 23
  | .feed => 7
  | .global => 0

/-- Whether a kind carries a range (R179). -/
def WatchKind.ranged : WatchKind → Bool
  | .none => false
  | .path => true
  | .mic => true
  | .feed => true
  | .global => false

/-- The slot that WATCH stores: clamped, then put in order (R179). -/
def watchOf (k : WatchKind) (first last : Nat) : Watch :=
  let a := min k.top first
  let b := min k.top last
  { kind := k, first := min a b, last := max a b }

/-- WATCH (R179); a clamp is reported for a kind that carries a range (log 19). -/
def answerWatch (p : Port) (body : List Byte) (s : State) : State × Reply :=
  let slot := field body 0 1
  let first := field body 2 1
  let last := field body 3 1
  match decide (slot ≤ 3), WatchKind.ofCode (field body 1 1) with
  | true, some k =>
    let w := watchOf k first last
    (s.setReport p { s.report.get p with watches := (s.report.get p).watches.set slot w },
     .accept (k.ranged && (decide (k.top < first) || decide (k.top < last)))
       [byte slot, byte k.code, byte w.first, byte w.last])
  | _, _ => (s, .refuse .noSuchObject)

/-- EVENT ENABLE (R173). -/
def answerEventEnable (p : Port) (body : List Byte) (s : State) : State × Reply :=
  let r := field body 0 1
  let f := field body 1 1
  (s.setReport p { s.report.get p with routineOn := clampNat 0 1 r == 1, faultOn := clampNat 0 1 f == 1 },
   .accept (optClamped 1 0 0 1 r || optClamped 1 0 0 1 f) [])

/-! ## Meanings -/

/-- SET MIC (R133). -/
def execSetMic (p : Port) (body : List Byte) (s : State) : Host.Outcome State Fault Refusal :=
  .next (s.request p .setMic body (answerSetMic p body))

/-- SET REFERENCE (R34). -/
def execSetReference (p : Port) (body : List Byte) (s : State) : Host.Outcome State Fault Refusal :=
  .next (s.request p .setReference body (answerSetReference p body))

/-- SET PATH (R70). -/
def execSetPath (p : Port) (body : List Byte) (s : State) : Host.Outcome State Fault Refusal :=
  .next (s.request p .setPath body (answerSetPath p body))

/-- SET GLOBAL (R104). -/
def execSetGlobal (p : Port) (body : List Byte) (s : State) : Host.Outcome State Fault Refusal :=
  .next (s.request p .setGlobal body (answerSetGlobal p body))

/-- ACQUIRE (R37). -/
def execAcquire (p : Port) (body : List Byte) (s : State) : Host.Outcome State Fault Refusal :=
  .next (s.request p .acquire body (answerAcquire p body))

/-- HOLD (R143). -/
def execHold (p : Port) (body : List Byte) (s : State) : Host.Outcome State Fault Refusal :=
  .next (s.request p .hold body (answerHold p body))

/-- RELEASE (R144). -/
def execRelease (p : Port) (body : List Byte) (s : State) : Host.Outcome State Fault Refusal :=
  .next (s.request p .release body (answerRelease p body))

/-- MUTE (R86). -/
def execMute (p : Port) (body : List Byte) (s : State) : Host.Outcome State Fault Refusal :=
  .next (s.request p .mute body (answerMute p body))

/-- METER (R177). -/
def execMeter (p : Port) (body : List Byte) (s : State) : Host.Outcome State Fault Refusal :=
  .next (s.request p .meter body (answerMeter p body))

/-- WATCH (R179). -/
def execWatch (p : Port) (body : List Byte) (s : State) : Host.Outcome State Fault Refusal :=
  .next (s.request p .watch body (answerWatch p body))

/-- EVENT ENABLE (R173). -/
def execEventEnable (p : Port) (body : List Byte) (s : State) : Host.Outcome State Fault Refusal :=
  .next (s.request p .eventEnable body (answerEventEnable p body))

end Sys2Proof.Machine
end

