-- ==== Sys2Proof/Machine/Structural.lean ====
section
/-! DEFINITION. The STRUCTURE requests: OPEN PATH, CLOSE PATH, SET WINDOWS, WRITE TAPS, CLEAR MODEL (R61, R64, R67, R49, R52). -/

namespace Sys2Proof.Machine

/-! ## OPEN PATH -/

/-- The lowest-numbered FREE record (R61). -/
def freeRecord (paths : List PathRec) : Option Nat := paths.findIdx? fun r => r == .free

/-- The part of a path's set that OPEN PATH makes. -/
def OpenPathReq.change (r : OpenPathReq) (segs : List Nat) (c : PathChange) : PathChange :=
  { c with
    opening := some { mic := r.mic, feed := r.feed, windows := sortGeoms r.windows, base := r.base, fast := r.fast, slow := r.slow }
    reservations := segs }

/-- An accepted OPEN PATH takes the record and the lowest free segments, and makes its set (R43, R61). -/
def State.openAt (s : State) (p : Port) (n : Nat) (r : OpenPathReq) : State :=
  let segs := (freePool s.model.segs).take (segmentsNeeded r.windows)
  ((s.markSegs (.reserved p) segs).markPath n (.pendingOpen r.mic r.feed)).stage p (.path n) (Change.mapPath (r.change segs))

/-- OPEN PATH (R61). -/
def answerOpenPath (p : Port) (body : List Byte) (s : State) : State × Reply :=
  let r := parseOpenPath body
  if Config.mics ≤ r.mic ∨ Config.feeds ≤ r.feed then (s, .refuse .noSuchObject)
  else if !validGeoms r.windows then (s, .refuse .badGeometry)
  else if pairHeld s.model.paths r.mic r.feed then (s, .refuse .duplicate)
  else match freeRecord s.model.paths with
    | none => (s, .refuse .tableFull)
    | some n =>
      if (freePool s.model.segs).length < segmentsNeeded r.windows then (s, .refuse .noSegments)
      else (s.openAt p n r, .accept r.clamped [byte n])

/-! ## CLOSE PATH -/

/-- A set replaced by one that carries the close alone, in its place (R64). -/
def closeInstead (n : Nat) (l : List ChangeSet) : List ChangeSet :=
  l.map fun c => if c.object = .path n then { c with change := .path n { PathChange.empty with close := true } } else c

/-- An accepted CLOSE PATH (R64). -/
def State.closeAt (s : State) (p : Port) (n : Nat) : State :=
  match s.ownSet p (.path n) with
  | none => s.stage p (.path n) (Change.mapPath fun c => { c with close := true })
  | some c =>
    let d := c.change.pathPart
    if d.opening.isSome then s.discard p (.path n)
    else if d.close then s
    else
      let t := s.markSegs .free d.reservations
      t.setStager p { t.stager.get p with list := closeInstead n (t.stager.get p).list }

/-- CLOSE PATH (R64). -/
def answerClosePath (p : Port) (body : List Byte) (s : State) : State × Reply :=
  let n := field body 0 1
  if pathAt s.model.paths n = .free then (s, .refuse .noSuchObject)
  else if s.claimedByOther p (.path n) then (s, .refuse .pendingOther)
  else (s.closeAt p n, .accept false [])

/-! ## SET WINDOWS -/

/-- The layout a path will have once a port's own set applies (R49, R67): the set's window list, else its open's, else the path's
current windows. -/
def State.plannedLayout (s : State) (p : Port) (n : Nat) : List Geom :=
  let c := (s.ownChange p (.path n)).pathPart
  match c.windows, c.opening, pathAt s.model.paths n with
  | some ws, _, _ => ws
  | none, some o, _ => o.windows
  | none, none, .opened q => q.geoms
  | none, none, .free => []
  | none, none, .pendingOpen _ _ => []

/-- The segments SET WINDOWS reserves: one for every delay block of the new layout that is not in the old one (R67). -/
def newBlocks (old new : List Geom) : Nat := ((layoutBlocks new).filter fun k => !(layoutBlocks old).contains k).length

/-- An accepted SET WINDOWS (R43, R67). -/
def State.reshapeAt (s : State) (p : Port) (n : Nat) (windows : List Geom) : State :=
  let segs := (freePool s.model.segs).take (newBlocks (s.plannedLayout p n) windows)
  (s.markSegs (.reserved p) segs).stage p (.path n) (Change.mapPath fun c =>
    { c with windows := some (sortGeoms windows), reservations := sortNats (c.reservations ++ segs) })

/-- SET WINDOWS (R67). -/
def answerSetWindows (p : Port) (body : List Byte) (s : State) : State × Reply :=
  let n := field body 0 1
  let windows := parseWindows (body.drop 2)
  if pathAt s.model.paths n = .free then (s, .refuse .noSuchObject)
  else if s.claimedByOther p (.path n) then (s, .refuse .pendingOther)
  else if (s.ownChange p (.path n)).pathPart.close then (s, .refuse .noSuchObject)
  else if !validGeoms windows then (s, .refuse .badGeometry)
  else if (freePool s.model.segs).length < newBlocks (s.plannedLayout p n) windows then (s, .refuse .noSegments)
  else (s.reshapeAt p n windows, .accept false [])

/-! ## WRITE TAPS -/

/-- A value staged for a delay: it replaces the one held for that tap, or joins (R50). -/
def stageTap (taps : List (Nat × Coef)) (t : Nat × Coef) : List (Nat × Coef) :=
  if taps.any fun c => c.1 == t.1 then taps.map fun c => if c.1 = t.1 then t else c else taps ++ [t]

/-- Values staged for consecutive delays (R49). -/
def stageTaps (taps : List (Nat × Coef)) (first : Nat) (values : List Coef) : List (Nat × Coef) :=
  (values.zipIdx.map fun v => (first + v.2, v.1)).foldl stageTap taps

/-- The places a WRITE TAPS needs: the taps its port does not yet hold for the path (R50). -/
def placesNeeded (taps : List (Nat × Coef)) (first count : Nat) : Nat :=
  ((List.range count).filter fun i => !taps.any fun c => c.1 == first + i).length

/-- WRITE TAPS (R49, R50). -/
def answerWriteTaps (p : Port) (body : List Byte) (s : State) : State × Reply :=
  let r := parseWriteTaps body
  let c := (s.ownChange p (.path r.path)).pathPart
  if r.values.length = 0 ∨ 64 < r.values.length then (s, .refuse .malformed)
  else if pathAt s.model.paths r.path = .free then (s, .refuse .noSuchObject)
  else if s.claimedByOther p (.path r.path) then (s, .refuse .pendingOther)
  else if c.close then (s, .refuse .noSuchObject)
  else match (s.plannedLayout p r.path)[r.window]? with
    | none => (s, .refuse .noSuchObject)
    | some g =>
      if g.len < r.offset + r.values.length then (s, .refuse .badGeometry)
      else if s.stagingRoom p < placesNeeded c.taps (g.start + r.offset) r.values.length then (s, .refuse .stagingFull)
      else
        (s.stage p (.path r.path) (Change.mapPath fun c => { c with taps := stageTaps c.taps (g.start + r.offset) r.values }),
         .accept false [])

/-! ## CLEAR MODEL -/

/-- The object of a scope, none where there is no such scope or object (R52). -/
def clearObject (paths : List PathRec) (scope number : Nat) : Option Object :=
  match scope with
  | 0 => some .global
  | 1 => if number < Config.mics then some (.mic number) else none
  | 2 => if pathAt paths number = .free then none else some (.path number)
  | _ => none

/-- The clear part of a set (R137). -/
def Change.addClear : Change → Change
  | .path n c => .path n { c with clear := true }
  | .mic n c => .mic n { c with clear := true }
  | .feed n c => .feed n c
  | .global c => .global { c with clear := true }

/-- CLEAR MODEL (R52). -/
def answerClearModel (p : Port) (body : List Byte) (s : State) : State × Reply :=
  match clearObject s.model.paths (field body 0 1) (field body 1 1) with
  | none => (s, .refuse .noSuchObject)
  | some o =>
    if s.claimedByOther p o then (s, .refuse .pendingOther)
    else (s.stage p o Change.addClear, .accept false [])

/-! ## Meanings -/

/-- OPEN PATH (R61). -/
def execOpenPath (p : Port) (body : List Byte) (s : State) : Host.Outcome State Fault Refusal :=
  .next (s.request p .openPath body (answerOpenPath p body))

/-- CLOSE PATH (R64). -/
def execClosePath (p : Port) (body : List Byte) (s : State) : Host.Outcome State Fault Refusal :=
  .next (s.request p .closePath body (answerClosePath p body))

/-- SET WINDOWS (R67). -/
def execSetWindows (p : Port) (body : List Byte) (s : State) : Host.Outcome State Fault Refusal :=
  .next (s.request p .setWindows body (answerSetWindows p body))

/-- WRITE TAPS (R49). -/
def execWriteTaps (p : Port) (body : List Byte) (s : State) : Host.Outcome State Fault Refusal :=
  .next (s.request p .writeTaps body (answerWriteTaps p body))

/-- CLEAR MODEL (R52). -/
def execClearModel (p : Port) (body : List Byte) (s : State) : Host.Outcome State Fault Refusal :=
  .next (s.request p .clearModel body (answerClearModel p body))

end Sys2Proof.Machine
end

