-- ==== Sys2Proof/Machine/Control.lean ====
section
/-! DEFINITION. ROUTE, STANDBY, WAKE and the resets (R172, R149, R151, R163, R164, R17). -/

namespace Sys2Proof.Machine

/-! ## ROUTE -/

/-- One entry of a ROUTE set in the table; a destination code above 3 is BOTH (R172). -/
def setRoute (routes : List Dest) (e : Nat × Nat) : List Dest := routes.set (e.1 - 1) (Dest.ofCode (min 3 e.2))

/-- ROUTE (R172). -/
def answerRoute (body : List Byte) (s : State) : State × Reply :=
  let es := parseRoute body
  if es.all fun e => routedCode e.1 then
    ({ s with routes := es.foldl setRoute s.routes }, .accept (es.any fun e => decide (3 < e.2)) [])
  else (s, .refuse .noSuchObject)

/-! ## STANDBY, WAKE -/

/-- The response to STANDBY and WAKE (R149, R168). -/
def standbyBody (s : State) : List Byte := [flagByte s.standby, flagByte s.stager.p0.vote, flagByte s.stager.p1.vote]

/-- A port's vote set (R149). -/
def State.vote (s : State) (p : Port) (v : Bool) : State := s.setStager p { s.stager.get p with vote := v }

/-- STANDBY (R149). -/
def answerStandby (p : Port) (s : State) : State × Reply :=
  let t := s.vote p true
  (t, .accept false (standbyBody t))

/-- WAKE clears both votes, and leaves standby at once if the part is in it (R151). -/
def State.wakeUp (s : State) : State :=
  let t := (s.vote .p0 false).vote .p1 false
  if t.standby then { t with standby := false }.raise { block := s.array.counter, event := .standbyLeft } else t

/-- WAKE (R151). -/
def answerWake (s : State) : State × Reply :=
  let t := s.wakeUp
  (t, .accept false (standbyBody t))

/-! ## Resets -/

/-- The first record of both queues after RESET PART (R163, R174). -/
def partResetRecord : Record := { block := 0#32, event := .partReset }

/-- How RESET PART meets the other port's transaction (R155). R155 says nothing of a port 0 whose CSEL is low while its first byte is
not yet whole; such a port is IDLE here and acts on its transaction afterwards (DESIGN CHOICE, log 33). -/
def Trans.afterResetPart : Trans → Trans
  | .idle => .idle
  | .receiving _ => .ignoring true
  | .sending copy => .sending copy
  | .ignoring write => .ignoring write

/-- A port at RESET PART: the slot holds NO_REQUEST and the grant stays (R155, R157, R163). -/
def Ctl.afterResetPart (c : Ctl) : Ctl := { trans := c.trans.afterResetPart, slot := Response.none, grant := c.grant }

/-- A port's reports after RESET PART (R174). -/
def Report.afterResetPart : Report := { Report.reset with queue := [partResetRecord] }

/-- RESET PART (R163): every owner at its reset values; the straps stay as latched. -/
def State.resetPart (s : State) : State :=
  { State.reset with
    pending := s.pending
    freeCount := s.freeCount
    twoWireAddr := s.twoWireAddr
    ctl := { p0 := s.ctl.p0.afterResetPart, p1 := s.ctl.p1.afterResetPart }
    report := { p0 := Report.afterResetPart, p1 := Report.afterResetPart } }

def answerResetPart (s : State) : State × Reply := (s.resetPart, .accept false [])

/-- A port's part of the stager after RESET PORT, once its sets are discarded (R147). -/
def Stager.afterResetPort (g : Stager) : Stager := { g with hold := false, age := 0, vote := false }

/-- RESET PORT (R164). -/
def State.resetPort (s : State) (p : Port) : State :=
  let t := s.discardAll p
  let u := t.setStager p (t.stager.get p).afterResetPort
  (u.setReqMask p 0#24).setReport p Report.reset

def answerResetPort (p : Port) (s : State) : State × Reply := (s.resetPort p, .accept false [])

/-- The two-wire address of the ADDR strap (R153). -/
def addressOf (high : Bool) : BitVec 7 := if high then 0x2D#7 else 0x2C#7

/-- POWER ON RESET (R6, R17, R42, R154, R155, R158): every owner at its power-on values, the straps latched. The queue of commands and
the free values' index are the model's own and stay (log 27). -/
def State.powerOn (s : State) (x : Straps) : State :=
  { State.reset with
    pending := s.pending
    freeCount := s.freeCount
    twoWireAddr := addressOf x.addrHigh
    ctl := { p0 := { Ctl.reset (Grant.ofStraps x.grant0A x.grant0B) with trans := if x.cselLow then .ignoring false else .idle }
             p1 := Ctl.reset (Grant.ofStraps x.grant1A x.grant1B) } }

/-! ## Meanings -/

/-- ROUTE (R172). -/
def execRoute (p : Port) (body : List Byte) (s : State) : Host.Outcome State Fault Refusal :=
  .next (s.request p .route body (answerRoute body))

/-- STANDBY (R149). -/
def execStandby (p : Port) (body : List Byte) (s : State) : Host.Outcome State Fault Refusal :=
  .next (s.request p .standby body (answerStandby p))

/-- WAKE (R151). -/
def execWake (p : Port) (body : List Byte) (s : State) : Host.Outcome State Fault Refusal :=
  .next (s.request p .wake body answerWake)

/-- RESET PART (R163). -/
def execResetPart (p : Port) (body : List Byte) (s : State) : Host.Outcome State Fault Refusal :=
  .next (s.request p .resetPart body answerResetPart)

/-- RESET PORT (R164). -/
def execResetPort (p : Port) (body : List Byte) (s : State) : Host.Outcome State Fault Refusal :=
  .next (s.request p .resetPort body (answerResetPort p))

/-- POWER ON RESET (R17). -/
def execPowerOnReset (x : Straps) (s : State) : Host.Outcome State Fault Refusal := .next (s.powerOn x)

/-- UNKNOWN KIND (R156). -/
def execUnknownKind (p : Port) (bytes : List Byte) (s : State) : Host.Outcome State Fault Refusal := .next (s.badRequest p bytes)

/-- TRANSACTION BEGIN (R153, R154). -/
def execTransactionBegin (o : Opening) (early : List Byte) (s : State) : Host.Outcome State Fault Refusal := .next (s.begin o early)

/-- TRANSACTION END NO REQUEST (R153, R154). -/
def execTransactionEndNoRequest (p : Port) (s : State) : Host.Outcome State Fault Refusal := .next (s.endEmpty p)

end Sys2Proof.Machine
end

