-- ==== Sys2Proof/Machine/Dispatch.lean ====
section
/-! DEFINITION. One arm per command: the meaning of each. -/

namespace Sys2Proof.Machine

def exec (i : Instr) (s : State) : Host.Outcome State Fault Refusal :=
  match i with
  | .powerOnReset x => Sys2Proof.Machine.execPowerOnReset x s
  | .feedFrameArrival bits => Sys2Proof.Machine.execFeedFrameArrival bits s
  | .arrayFrameArrival bits => Sys2Proof.Machine.execArrayFrameArrival bits s
  | .holdExpired => Sys2Proof.Machine.execHoldExpired s
  | .supervisorStage => Sys2Proof.Machine.execSupervisorStage s
  | .runThreshold m => Sys2Proof.Machine.execRunThreshold m s
  | .micDiverged m => Sys2Proof.Machine.execMicDiverged m s
  | .alignmentStage => Sys2Proof.Machine.execAlignmentStage s
  | .bulkResult => Sys2Proof.Machine.execBulkResult s
  | .checkCountdownExpiry f => Sys2Proof.Machine.execCheckCountdownExpiry f s
  | .arbiterStage => Sys2Proof.Machine.execArbiterStage s
  | .updateStage => Sys2Proof.Machine.execUpdateStage s
  | .meterTimerExpiry p => Sys2Proof.Machine.execMeterTimerExpiry p s
  | .stopTimerExpiry => Sys2Proof.Machine.execStopTimerExpiry s
  | .unknownKind p bytes => Sys2Proof.Machine.execUnknownKind p bytes s
  | .identify p body => Sys2Proof.Machine.execIdentify p body s
  | .readPath p body => Sys2Proof.Machine.execReadPath p body s
  | .readMic p body => Sys2Proof.Machine.execReadMic p body s
  | .readReference p body => Sys2Proof.Machine.execReadReference p body s
  | .readTaps p body => Sys2Proof.Machine.execReadTaps p body s
  | .readEvents p body => Sys2Proof.Machine.execReadEvents p body s
  | .readCounters p body => Sys2Proof.Machine.execReadCounters p body s
  | .readPool p body => Sys2Proof.Machine.execReadPool p body s
  | .setMic p body => Sys2Proof.Machine.execSetMic p body s
  | .setReference p body => Sys2Proof.Machine.execSetReference p body s
  | .setPath p body => Sys2Proof.Machine.execSetPath p body s
  | .setGlobal p body => Sys2Proof.Machine.execSetGlobal p body s
  | .acquire p body => Sys2Proof.Machine.execAcquire p body s
  | .hold p body => Sys2Proof.Machine.execHold p body s
  | .release p body => Sys2Proof.Machine.execRelease p body s
  | .mute p body => Sys2Proof.Machine.execMute p body s
  | .meter p body => Sys2Proof.Machine.execMeter p body s
  | .watch p body => Sys2Proof.Machine.execWatch p body s
  | .eventEnable p body => Sys2Proof.Machine.execEventEnable p body s
  | .openPath p body => Sys2Proof.Machine.execOpenPath p body s
  | .closePath p body => Sys2Proof.Machine.execClosePath p body s
  | .setWindows p body => Sys2Proof.Machine.execSetWindows p body s
  | .writeTaps p body => Sys2Proof.Machine.execWriteTaps p body s
  | .clearModel p body => Sys2Proof.Machine.execClearModel p body s
  | .route p body => Sys2Proof.Machine.execRoute p body s
  | .standby p body => Sys2Proof.Machine.execStandby p body s
  | .wake p body => Sys2Proof.Machine.execWake p body s
  | .resetPart p body => Sys2Proof.Machine.execResetPart p body s
  | .resetPort p body => Sys2Proof.Machine.execResetPort p body s
  | .frameSync a => Sys2Proof.Machine.execFrameSync a s
  | .transactionBegin o early => Sys2Proof.Machine.execTransactionBegin o early s
  | .transactionEndNoRequest p => Sys2Proof.Machine.execTransactionEndNoRequest p s

end Sys2Proof.Machine
end

