-- ==== Sys2Proof/Safety.lean ====
section
/-! DEFINITION. What stays true of the part's state in every step (the invariants that the statements use), and the words in which
they speak of requests. -/

namespace Sys2Proof.Machine

/-! ## Sizes -/

/-- The tables of the model have the sizes of 00_scope (R41, R56, R118, R74, R24). -/
def Model.Shaped (m : Model) : Prop :=
  m.segs.length = 1024 ∧ m.paths.length = 128 ∧ m.mics.length = 24 ∧ m.gains.length = 24 ∧ m.feeds.length = 8

/-- An event queue holds at most 32 records (R174), and there are four watch slots (R179). -/
def Report.Shaped (r : Report) : Prop := r.queue.length ≤ 32 ∧ r.watches.length = 4

/-- The feed store holds at most 32 frames of eight samples (R5, R6). -/
def FeedPort.Shaped (f : FeedPort) : Prop := f.store.length ≤ 32 ∧ (∀ x ∈ f.store, x.length = 8) ∧ f.last.length = 8

/-- The partial block holds at most 63 rows, and every row, of input, of the output buffer, or driven, has 24 places (R12, R16). -/
def ArrayPort.Shaped (a : ArrayPort) : Prop :=
  a.rows.length ≤ 63 ∧ (∀ x ∈ a.rows, x.length = 24) ∧ a.outBuf.length = 64 ∧ (∀ x ∈ a.outBuf, x.length = 24) ∧
    ∀ l, a.adout = some l → l.length = 24

/-- Every store, table, history and queue of the part has the size that the spec gives it. -/
def State.Shaped (s : State) : Prop :=
  s.feedPort.Shaped ∧ s.array.Shaped ∧ (s.hist.length = 8 ∧ ∀ h ∈ s.hist, h.length = 12288) ∧ s.model.Shaped ∧ s.seen.Shaped ∧
    (s.pool.segs.length = 1024 ∧ s.pool.paths.length = 128) ∧ s.queues.length = 4 ∧ s.routes.length = 11 ∧
    s.report.p0.Shaped ∧ s.report.p1.Shaped

/-! ## The tap store's canonical form -/

/-- The coefficients, and those that reads see, are in the memory's one canonical form. -/
def State.Canonical (s : State) : Prop := Memory.wf s.model.coefs ∧ Memory.wf s.seen.coefs

/-! ## Stops -/

/-- No processing is in progress while the array port is STOPPED (R48, R150, R178). -/
def State.StopsIdle (s : State) : Prop := s.array.run = .stopped → s.proc = none

/-! ## Claims -/

/-- The objects of a port's pending list. -/
def Stager.objects (g : Stager) : List Object := g.list.map ChangeSet.object

/-- An object has at most one pending change set (R138), and a path with a pending set is not FREE (R56, R137). -/
def State.Claimed (s : State) : Prop :=
  (s.stager.p0.objects ++ s.stager.p1.objects).Nodup ∧
    ∀ n, Object.path n ∈ s.stager.p0.objects ++ s.stager.p1.objects → pathAt s.model.paths n ≠ .free

/-! ## Requests -/

/-- The command that carries a request of a kind. -/
def Kind.command (k : Kind) (p : Port) (body : List Byte) : Instr :=
  match k with
  | .identify => .identify p body
  | .readPath => .readPath p body
  | .readMic => .readMic p body
  | .readReference => .readReference p body
  | .readTaps => .readTaps p body
  | .readEvents => .readEvents p body
  | .readCounters => .readCounters p body
  | .readPool => .readPool p body
  | .setMic => .setMic p body
  | .setReference => .setReference p body
  | .setPath => .setPath p body
  | .setGlobal => .setGlobal p body
  | .acquire => .acquire p body
  | .hold => .hold p body
  | .release => .release p body
  | .mute => .mute p body
  | .meter => .meter p body
  | .watch => .watch p body
  | .eventEnable => .eventEnable p body
  | .openPath => .openPath p body
  | .closePath => .closePath p body
  | .setWindows => .setWindows p body
  | .writeTaps => .writeTaps p body
  | .clearModel => .clearModel p body
  | .route => .route p body
  | .standby => .standby p body
  | .wake => .wake p body
  | .resetPart => .resetPart p body
  | .resetPort => .resetPort p body

/-- A port is receiving a write transaction whose bytes so far begin a message. -/
def State.Receives (s : State) (p : Port) (bytes : List Byte) : Prop :=
  ∃ held, (s.ctl.get p).trans = .receiving held ∧ held.isPrefixOf bytes = true

/-- A request that passes all four checks of R156: it is framed, of a kind of the table, within its port's grant, and laid out. -/
def State.Takes (s : State) (p : Port) (k : Kind) (body : List Byte) : Prop :=
  s.Receives p (message k body) ∧ body.length ≤ 250 ∧ k.grant.code ≤ (s.ctl.get p).grant.code ∧ k.layoutOk body = true

/-- A state in which a port's write transaction has just ended with an answer: the port is IDLE, its slot holds the response, and
nothing else differs. -/
def State.answered (s : State) (p : Port) (k : Kind) (status : Status) (body : List Byte) : State :=
  { s with
    ctl := s.ctl.set p
      { trans := .idle, slot := { kind := k.code, status := status, body := body }, grant := (s.ctl.get p).grant } }

/-! ## Block starts -/

/-- What the block start of block `p` does once `sets` are known to apply, from `u` to `t`.

The model is what the sets leave of it (`Model.applySets`), with the microphones' settings (R134) and then one change of convergence
state each: a microphone emptied goes to IDLE, one opened to ACQUIRE, and one cleared by a CLEAR MODEL, or by a set that changed the b
of a feed of one of its paths, to ACQUIRE unless it is IDLE; its runs become 0 (R66, R128, R130). A microphone that goes to IDLE has
its gain at full before the block is cancelled (R84), and the canceller then takes the block (R75 to R88). The global settings land
(R105), and the queue places settle last (R72).

The records given on top of those of `base` are the change stager's own (`own`), MIC_STATE for each change of state in ascending
microphone number (R132), and WATCH_HIT for each set that the other port's lowest-numbered covering slot sees, in the order of each
port's sets (R142, R180): each in the order its rule gives, and one against another, the two ports' records too, in any order (R171,
log 7). -/
def State.Lands (u t : State) (p : Proc) (sets : List ChangeSet) (own : Port → List Notice) (base : State) : Prop :=
  let m := u.model.applySets sets
  let emptied (k : Nat) : Bool := !(pathsOnMic u.model.paths k).isEmpty && (pathsOnMic m.paths k).isEmpty
  let opened (k : Nat) : Bool := sets.any fun c => c.change.pathPart.opening.any fun o => o.mic == k
  let cleared (k : Nat) : Bool := (pathsOnMic u.model.paths k).any fun c => namedByClear sets c.1 c.2
  let swung (k : Nat) : Bool := (pathsOnMic u.model.paths k).any fun c =>
    let f := feedAt u.model.feeds c.2.feed
    (landFeed sets c.2.feed f).b != f.dueMove.getD f.b
  let verdict (k : Nat) (a : Mic) : Option (Conv × Cause) :=
    if emptied k then some (.idle, .emptied)
    else if opened k then some (.acquire, .opened)
    else if a.conv = .idle then none
    else if cleared k then some (.acquire, .clearModel)
    else if swung k then some (.acquire, .bulkSet)
    else none
  let settled (k : Nat) (a : Mic) : Mic :=
    let d := (changeFor sets (.mic k)).micPart
    let b : Mic := { a with theta := d.theta.getD a.theta, hang := d.hang.getD a.hang, floor := d.floor.getD a.floor }
    match verdict k a with
    | some v => { b with conv := v.1, goodRun := 0, poorRun := 0, divCount := 0 }
    | none => b
  let gains := u.model.gains.zipIdx.map fun c => if emptied c.2 then 32767 else c.1
  let cancelled := { u with hist := t.hist, model := { t.model with gains := gains } }.cancelBlock p
  let record (e : Event) : Record := { block := p.number, event := e }
  let states : List Notice := u.model.mics.zipIdx.flatMap fun c =>
    match verdict c.2 c.1 with
    | some v => if c.1.conv = v.1 then [] else [{ dest := none, record := record (.micState c.2 c.1.conv v.1 v.2) }]
    | none => []
  let covers (w : Watch) (o : Object) : Bool :=
    match o with
    | .path n => w.kind == .path && decide (w.first ≤ n ∧ n ≤ w.last)
    | .mic n => w.kind == .mic && decide (w.first ≤ n ∧ n ≤ w.last)
    | .feed n => w.kind == .feed && decide (w.first ≤ n ∧ n ≤ w.last)
    | .global => w.kind == .global
  let hits (q : Port) : List Notice := (sets.filter fun c => c.port == q).flatMap fun c =>
    match (u.report.get (otherPort c.port)).watches.findIdx? fun w => covers w c.object with
    | some i => [{ dest := some (otherPort c.port), record := record (.watchHit c.object i c.port) }]
    | none => []
  t.model = { m with mics := u.model.mics.zipIdx.map fun c => settled c.2 c.1, gains := cancelled.model.gains } ∧
    t.canc = cancelled.canc ∧ t.array.outBuf = cancelled.array.outBuf ∧
    t.globals = { delta := (changeFor sets .global).globalPart.delta.getD u.globals.delta,
                  scan := (changeFor sets .global).globalPart.scan.getD u.globals.scan } ∧
    t.queues = settleQueues u.model.paths m.paths t.model.mics u.queues ∧
    ∃ l : List Notice, t.report = (l.foldl State.post base).report ∧ l.Perm (own .p0 ++ own .p1 ++ states ++ hits .p0 ++ hits .p1) ∧
      (own .p0).Sublist l ∧ (own .p1).Sublist l ∧ states.Sublist l ∧ (hits .p0).Sublist l ∧ (hits .p1).Sublist l

end Sys2Proof.Machine
end

