-- ==== Sys2Proof/WellFormed.lean ====
section
/-! DEFINITION. Which terms of `Instr` are commands the part can meet. -/

namespace Sys2Proof

/-- A frame begins and ends at a bit (R2), so a row of an audio port brings one or more. -/
def bitsWf (bits : List LineBit) : Bool := bits != []

/-- Only a write transaction holds bytes (R153, R154). -/
def Opening.isWrite : Opening → Bool
  | .fourWire first => first == some 0x3C#8
  | .twoWire _ read => !read

/-- A request body of more than 250 bytes cannot be framed (R156): such a write is the row UNKNOWN_KIND. -/
def bodyWf (body : List Byte) : Bool := body.length ≤ Config.maxBody

/-- The check of a command's operands. -/
def Instr.wf : Instr → Bool
  | .powerOnReset _ => true
  | .feedFrameArrival bits => bitsWf bits
  | .arrayFrameArrival bits => bitsWf bits
  | .holdExpired => true
  | .supervisorStage => true
  | .runThreshold m => m < Config.mics
  | .micDiverged m => m < Config.mics
  | .alignmentStage => true
  | .bulkResult => true
  | .checkCountdownExpiry f => f < Config.feeds
  | .arbiterStage => true
  | .updateStage => true
  | .meterTimerExpiry _ => true
  | .stopTimerExpiry => true
  | .unknownKind _ bytes => bytes != []
  | .identify _ b => bodyWf b
  | .readPath _ b => bodyWf b
  | .readMic _ b => bodyWf b
  | .readReference _ b => bodyWf b
  | .readTaps _ b => bodyWf b
  | .readEvents _ b => bodyWf b
  | .readCounters _ b => bodyWf b
  | .readPool _ b => bodyWf b
  | .setMic _ b => bodyWf b
  | .setReference _ b => bodyWf b
  | .setPath _ b => bodyWf b
  | .setGlobal _ b => bodyWf b
  | .acquire _ b => bodyWf b
  | .hold _ b => bodyWf b
  | .release _ b => bodyWf b
  | .mute _ b => bodyWf b
  | .meter _ b => bodyWf b
  | .watch _ b => bodyWf b
  | .eventEnable _ b => bodyWf b
  | .openPath _ b => bodyWf b
  | .closePath _ b => bodyWf b
  | .setWindows _ b => bodyWf b
  | .writeTaps _ b => bodyWf b
  | .clearModel _ b => bodyWf b
  | .route _ b => bodyWf b
  | .standby _ b => bodyWf b
  | .wake _ b => bodyWf b
  | .resetPart _ b => bodyWf b
  | .resetPort _ b => bodyWf b
  | .frameSync a => bitsWf a.bits
  | .transactionBegin o early => o.isWrite || early == []
  | .transactionEndNoRequest _ => true

end Sys2Proof
end

