-- ==== Sys2Proof/Certificates/Slice0/Obligations.lean ====
section
/-! DEFINITION. The statements about the part, for the provers. -/

open Sys2Proof Sys2Proof.Machine

/-! ## The queue of commands, and what every command does -/

/-- A step takes the command at the front of the queue and runs it on the state with the queue's rest. On an empty queue the part idles
(the model's choice, log 1). -/
def Obligations.StepRunsFrontCommand : Prop :=
  ∀ (c : Instr) (rest : List Instr) (s : State),
    step { s with pending := c :: rest } = exec c { s with pending := rest } ∧
      step { s with pending := [] } = .next { s with pending := [] }

/-- No command stops the part, and none touches the queue of commands. A command of the part's own processing that is not due changes
nothing (the model's choice, log 2; a stop timer's expiry: ArrayStopsAndResumes). -/
def Obligations.EveryCommandAnswersNext : Prop :=
  (∀ (c : Instr) (s : State), ∃ t, exec c s = .next t ∧ t.pending = s.pending) ∧
  ∀ s : State,
    let idle (c : Instr) : Prop := exec c s = .next s
    let phase := s.proc.map Proc.phase
    (phase ≠ some .expiring → idle .holdExpired) ∧
    (phase ≠ some .supervise → idle .supervisorStage) ∧
    (∀ m, s.verdictTurn m = false ∨ 8 ≤ (micAt s.model.mics m).divCount → idle (.runThreshold m)) ∧
    (∀ m, s.verdictTurn m = false ∨ (micAt s.model.mics m).divCount < 8 → idle (.micDiverged m)) ∧
    (phase ≠ some .align ∨ (s.proc.map Proc.standby = some false ∧ verdictsDue s.model.mics ≠ []) → idle .alignmentStage) ∧
    (phase ≠ some .arbitrate ∨ s.model.feeds.any Feed.resultDue = false → idle .bulkResult) ∧
    (∀ f, phase ≠ some .arbitrate ∨ s.model.feeds.length ≤ f ∨ (feedAt s.model.feeds f).acq ≠ .locked ∨
      (feedAt s.model.feeds f).countdown ≠ 0 → idle (.checkCountdownExpiry f)) ∧
    (phase ≠ some .arbitrate ∨ s.resultsPending = true → idle .arbiterStage) ∧
    (phase ≠ some .update → idle .updateStage) ∧
    (∀ q, (∀ due, phase ≠ some (.meters due)) ∨ (s.report.get q).meter.running = false ∨ (s.report.get q).meter.count ≠ 0 →
      idle (.meterTimerExpiry q))

/-- Every store, table, history and queue keeps the size the spec gives it. -/
def Obligations.SizesKeptByEveryStep : Prop :=
  ∀ s t : State, s.Shaped → step s = .next t → t.Shaped

/-- The tap store's memory keeps its canonical form. -/
def Obligations.TapStoreCanonicalInEveryStep : Prop :=
  ∀ s t : State, s.Canonical → step s = .next t → t.Canonical

/-- An object has at most one pending change set, of one port, and a path with a pending set is not FREE. -/
def Obligations.OneOwnerInEveryStep : Prop :=
  ∀ s t : State, s.Claimed → step s = .next t → t.Claimed

/-- The three invariants hold right after reset. -/
def Obligations.InvariantsHoldAtReset : Prop :=
  State.reset.Shaped ∧ State.reset.Canonical ∧ State.reset.Claimed

/-! ## Audio ports -/

/-- R3: the upper 24 bits of a slot divided by 256 and floored, for feed slots and for microphone slots, and zeros for a faulted array
frame. R4: an output sample leaves as o x 256 in the upper 24 bits over eight zero bits. -/
def Obligations.SlotsCarrySamples : Prop :=
  (∀ x : Slot, (sampleOfSlot x).toInt = (x.extractLsb' 8 24).toInt / 256) ∧
  (∀ o : Sample, ((slotOfSample o).extractLsb' 8 24).toInt = o.toInt * 256 ∧ (slotOfSample o).extractLsb' 0 8 = 0#8) ∧
  (∀ (s : State) (slots : List Slot), slots.length = 8 → s.feedPort.store.length < 32 →
    (s.storeFeed (.wellFormed slots)).feedPort.store = s.feedPort.store ++ [slots.map sampleOfSlot]) ∧
  (∀ (s : State) (slots : List Slot), slots.length = 24 →
    (s.joinRow (.wellFormed slots)).array.rows = s.array.rows ++ [slots.map sampleOfSlot]) ∧
  (∀ s : State, (s.joinRow .faulted).array.rows = s.array.rows ++ [List.replicate 24 0#16])

/-- R5: a feed frame that ends is discarded and counted when faulted, joins the store below 32 frames, and is dropped and counted at
32; nothing else differs but the receiver (R2: FrameSyncStartsFrame says which bit ends a frame, and with which eight slots, and that a
run of bits is received bit by bit). -/
def Obligations.FeedFrameArrives : Prop :=
  ∀ (s : State) (b : LineBit) (fr : Framing) (f : FrameEnd), s.feedPort.framing.onBit 256 s.feedPort.pin b = (fr, some f) →
    (f = .faulted → exec (.feedFrameArrival [b]) s = .next { s with
      feedPort := { s.feedPort with framing := fr, pin := b.sync }
      report := { p0 := s.report.p0.count .feedFrameFault, p1 := s.report.p1.count .feedFrameFault } }) ∧
    ∀ slots : List Slot, f = .wellFormed slots → slots.length = 8 ∧
      (s.feedPort.store.length < 32 →
        exec (.feedFrameArrival [b]) s = .next { s with
          feedPort := { s.feedPort with store := s.feedPort.store ++ [slots.map sampleOfSlot], framing := fr, pin := b.sync } }) ∧
      (32 ≤ s.feedPort.store.length →
        exec (.feedFrameArrival [b]) s = .next { s with
          feedPort := { s.feedPort with framing := fr, pin := b.sync }
          report := { p0 := s.report.p0.count .feedDrop, p1 := s.report.p1.count .feedDrop } })

/-- R2: how a receiver frames its input, bit by bit, on both ports and in all three rows that carry bits (log 10). A bit is a sync when
the pin is high and was low at the bit before. In SEARCH a sync starts a frame at bit 1, and any other bit is ignored. In a frame a
sync ends it as faulted and starts the next, the frame's last bit (256 or 768) ends it well formed, and any other bit is counted; so
from SEARCH the bits of n slots, the first of them a sync and the pin then held high for some bits or none, end a frame at the last bit
and at no other, with exactly these slots. R4, R16: a frame that starts drives the output row whose index is the frame's row (zeros
while the port is STOPPED, log 14), and ADOUT carries that row bit for bit, and is low in SEARCH. A block start that waits for
HOLD_EXPIRED goes on before a frame starts, so that the row is one of the block just taken (log 3). (A bit that ends a frame:
FeedFrameArrives, ArrayFrameJoinsRow.) -/
def Obligations.FrameSyncStartsFrame : Prop :=
  (∀ pin b, isSync pin b = true ↔ b.sync = true ∧ pin = false) ∧
  (∀ len pin b,
    (isSync pin b = false → Framing.search.onBit len pin b = (.search, none)) ∧
    (isSync pin b = true → Framing.search.onBit len pin b = (.inFrame 1 b.data.toNat, none)) ∧
    ∀ n d,
      (isSync pin b = true → (Framing.inFrame n d).onBit len pin b = (.inFrame 1 b.data.toNat, some .faulted)) ∧
      (isSync pin b = false → n + 1 < len → (Framing.inFrame n d).onBit len pin b = (.inFrame (n + 1) (2 * d + b.data.toNat), none)) ∧
      (isSync pin b = false → len ≤ n + 1 →
        (Framing.inFrame n d).onBit len pin b = (.search, some (.wellFormed (slotsOf (len / 32) (2 * d + b.data.toNat)))))) ∧
  (∀ (slots : List Slot) (high : Nat), slots ≠ [] → 1 ≤ high →
    let len := 32 * slots.length
    let bit (k : Nat) : LineBit := { sync := decide (k < high), data := (slots.getD (k / 32) 0#32).getLsbD (31 - k % 32) }
    let before (k : Nat) : Bool := decide (0 < k ∧ k - 1 < high)
    ∃ g : Nat → Framing, g 0 = .search ∧
      (∀ k < len - 1, (g k).onBit len (before k) (bit k) = (g (k + 1), none)) ∧
      (g (len - 1)).onBit len (before (len - 1)) (bit (len - 1)) = (.search, some (.wellFormed slots))) ∧
  (∀ s : State, exec (.feedFrameArrival []) s = .next s ∧ exec (.arrayFrameArrival []) s = .next s ∧
    (∀ (b c : LineBit) (bits : List LineBit),
      (∃ t, exec (.feedFrameArrival [b]) s = .next t ∧
        exec (.feedFrameArrival (b :: c :: bits)) s = exec (.feedFrameArrival (c :: bits)) t) ∧
      ∃ t, exec (.arrayFrameArrival [b]) s = .next t ∧
        exec (.arrayFrameArrival (b :: c :: bits)) s = exec (.arrayFrameArrival (c :: bits)) t) ∧
    ∀ bits, exec (.frameSync ⟨.feed, bits⟩) s = exec (.feedFrameArrival bits) s ∧
      exec (.frameSync ⟨.array, bits⟩) s = exec (.arrayFrameArrival bits) s) ∧
  (∀ (s : State) (b : LineBit) (fr : Framing), s.feedPort.framing.onBit 256 s.feedPort.pin b = (fr, none) →
    ∀ c ∈ [Instr.frameSync ⟨.feed, [b]⟩, .feedFrameArrival [b]],
      exec c s = .next { s with feedPort := { s.feedPort with framing := fr, pin := b.sync } }) ∧
  (∀ (s : State) (b : LineBit) (fr : Framing), s.array.framing.onBit 768 s.array.pin b = (fr, none) →
    ∀ c ∈ [Instr.frameSync ⟨.array, [b]⟩, .arrayFrameArrival [b]],
    (s.array.framing ≠ .search ∨ fr = .search →
      exec c s = .next { s with array := { s.array with framing := fr, pin := b.sync } }) ∧
    (s.array.framing = .search → fr ≠ .search →
      ∃ u, exec .holdExpired s = .next u ∧
        ((∀ p, s.proc = some p → p.phase ≠ .expiring) → u = s) ∧
        exec c s = .next { u with
          array := { u.array with
            framing := fr
            pin := b.sync
            adout := some ((if u.array.run = .stopped then List.replicate 24 0#16
              else u.array.outBuf.getD u.array.rows.length (List.replicate 24 0#16)).map slotOfSample) } })) ∧
  (∀ (s t : State) (b : LineBit), exec (.arrayFrameArrival [b]) s = .next t →
    (∀ n d, t.array.framing = .inFrame n d → s.adoutAt b = rowBit t.array.adout n) ∧
    (∀ n d, s.array.framing = .inFrame n d → t.array.framing = .search → s.adoutAt b = rowBit s.array.adout (n + 1)) ∧
    (s.array.framing = .search → t.array.framing = .search → s.adoutAt b = false)) ∧
  (∀ (row : List Slot) (i k : Nat), k < 32 → rowBit (some row) (32 * i + k + 1) = (row.getD i 0#32).getLsbD (31 - k)) ∧
  ∀ n, rowBit none n = false

/-- R7, R8, R11, R18: what one feed read yields and does, in each of its five cases. -/
def Obligations.FeedReadYields : Prop :=
  ∀ s : State,
    (s.feedPort.state = .live → s.feedPort.repeatMark = true →
      s.feedRead = (({ s with feedPort := { s.feedPort with repeatMark := false } }).countBoth .feedRepeat, s.feedPort.last)) ∧
    (∀ frame rest, s.feedPort.state = .live → s.feedPort.repeatMark = false → s.feedPort.store = frame :: rest →
      s.feedRead = ({ s with feedPort := { s.feedPort with store := rest, last := frame } }, frame)) ∧
    (s.feedPort.state = .live → s.feedPort.repeatMark = false → s.feedPort.store = [] →
      s.feedRead.2 = List.replicate 8 0#16 ∧
      s.feedRead.1 = { s with
        feedPort := { s.feedPort with state := .lost }
        array := { s.array with feedLive := false }
        report := ((s.countBoth .feedLosses).raise { block := s.array.counter, event := .feedLost }).report }) ∧
    (∀ frame rest, s.feedPort.state = .lost → s.feedPort.store = frame :: rest → 16 ≤ s.feedPort.store.length →
      s.feedRead.2 = frame ∧
      s.feedRead.1 = { s with
        feedPort := { s.feedPort with store := rest, state := .live, last := frame }
        report := (s.raise { block := s.array.counter, event := .feedBack }).report }) ∧
    (s.feedPort.state = .lost → s.feedPort.store.length < 16 →
      s.feedRead = ({ s with array := { s.array with feedLive := false } }, List.replicate 8 0#16))

/-- R2, R4, R12, R16, R19, R20: an array frame that does not complete the block. The stop timer restarts, a STOPPED port resumes, the feed
read is made and written to the histories (so the block being processed reads one write deeper), and then the row joins. A
well-formed frame leaves the receiver in SEARCH with ADOUT low; a faulted one ends at the sync of the next, whose row ADOUT carries
(which bit ends a frame, and with which slots: FrameSyncStartsFrame).
What a block start, an end of a processing, or a processing that the coming history write would overrun still lacks is finished first
(log 3, log 4). Nothing else changes. -/
def Obligations.ArrayFrameJoinsRow : Prop :=
  ∀ (s : State) (b : LineBit) (fr : Framing) (f : FrameEnd), s.array.framing.onBit 768 s.array.pin b = (fr, some f) →
    let u := s.settle.finishBeforeWrite
    let v := { u with array := { u.array with stopTimer := true } }.resume
    let r := v.feedRead
    let row := match f with
      | .wellFormed slots => slots.map sampleOfSlot
      | .faulted => List.replicate 24 0#16
    u.array.rows.length < 63 →
    exec (.arrayFrameArrival [b]) s = .next { u with
      feedPort := r.1.feedPort
      array :=
        { rows := u.array.rows ++ [row]
          counter := u.array.counter
          degraded := u.array.degraded || f == .faulted
          feedLive := r.1.array.feedLive
          run := .running
          stopTimer := true
          outBuf := v.array.outBuf
          framing := fr
          pin := b.sync
          adout := match f with
            | .wellFormed _ => none
            | .faulted => some ((v.array.outBuf.getD (u.array.rows.length + 1) (List.replicate 24 0#16)).map slotOfSample) }
      hist := u.hist.zipIdx.map fun c => r.2.getD c.2 0#16 :: c.1.take 12287
      proc := u.proc.map fun p => { p with writesSince := p.writesSince + 1 }
      report := if f = .faulted then (r.1.countBoth .arrayFrameFault).report else r.1.report }

/-- R10, R12, R13, R38, R145: the 64th row completes block j. A degraded block is counted, the slip check is made, and the block goes with
its rows, its degraded mark and its feed-live mark; the partial block is emptied, the marks begin anew, and the counter becomes j + 1,
after 4,294,967,295 becoming 0. Reads go on seeing what the last completed processing left (R160). At a block start at which a hold
expires, all else waits for HOLD_EXPIRED, or, after a faulted frame, whose end begins row 0 of the next block, goes on at once
(log 3). -/
def Obligations.SixtyFourthRowStartsBlock : Prop :=
  ∀ (s : State) (b : LineBit) (fr : Framing) (f : FrameEnd), s.array.framing.onBit 768 s.array.pin b = (fr, some f) →
    let u := s.settle.finishBeforeWrite
    let v := { u with array := { u.array with stopTimer := true } }.resume
    let r := v.feedRead
    let row := match f with
      | .wellFormed slots => slots.map sampleOfSlot
      | .faulted => List.replicate 24 0#16
    let degraded := u.array.degraded || f == .faulted
    let x := if f = .faulted then r.1.countBoth .arrayFrameFault else r.1
    let z := (if degraded then x.countBoth .degradedBlocks else x).slipCheck
    let hist := u.hist.zipIdx.map fun c => r.2.getD c.2 0#16 :: c.1.take 12287
    let block (ph : Phase) (queues : List (List QEntry)) : Proc :=
      { number := u.array.counter, rows := u.array.rows ++ [row], degraded := degraded, feedLive := r.1.array.feedLive,
        standby := u.standby, writesSince := 0, phase := ph, excited := [], grants := [], stageQueues := queues }
    let aged (g : Stager) : Stager := if g.hold then { g with age := g.age + 1 } else g
    let expires (g : Stager) : Prop := g.hold = true ∧ 249 ≤ g.age
    let waiting : State := { u with
      feedPort := z.feedPort
      array := { rows := [], counter := u.array.counter + 1#32, degraded := false, feedLive := true, run := .running,
                 stopTimer := true, outBuf := v.array.outBuf, framing := .search, pin := u.array.pin, adout := none }
      hist := hist
      model := { u.model with captured := r.1.feedPort.state }
      proc := some (block .expiring u.queues)
      stager := { p0 := aged u.stager.p0, p1 := aged u.stager.p1 }
      report := z.report }
    u.array.rows.length = 63 →
    (∃ t ph, exec (.arrayFrameArrival [b]) s = .next t ∧
      t.proc = some (block ph t.queues) ∧
      t.array.rows = [] ∧ t.array.degraded = false ∧ t.array.feedLive = true ∧ t.array.counter = u.array.counter + 1#32 ∧
      t.array.run = .running ∧ t.array.stopTimer = true ∧ t.feedPort = z.feedPort ∧ t.hist = hist ∧ t.seen = u.seen ∧
      t.model.captured = r.1.feedPort.state ∧ ∃ l : List Notice, t.report = (l.foldl State.post z).report) ∧
    (u.standby = false → expires u.stager.p0 ∨ expires u.stager.p1 →
      ((∃ slots, f = .wellFormed slots) → exec (.arrayFrameArrival [b]) s = .next { waiting with
        array := { waiting.array with pin := b.sync } }) ∧
      (f = .faulted → ∃ t, exec .holdExpired waiting = .next t ∧
        exec (.arrayFrameArrival [b]) s = .next { t with
          array := { t.array with
            framing := fr
            pin := b.sync
            adout := some ((t.array.outBuf.getD 0 (List.replicate 24 0#16)).map slotOfSample) } }))

/-- R14, R48, R150, R178: the stop timer's expiry at a RUNNING port whose timer runs (log 11). A processing in progress is finished
first, and none is left, because none ends while the port is STOPPED (log 35); then the expiry changes these fields and nothing else; ADOUT
carries zeros in a frame that is in progress then (log 14). At a port that is STOPPED, or whose timer does not run, there is none. In
no step does a part come to have a processing in progress at a STOPPED port. R15: what a resume does at a STOPPED port, before the
resuming frame's read. -/
def Obligations.ArrayStopsAndResumes : Prop :=
  (∀ s : State,
    let u := s.finishProcessing
    (s.array.run = .running → s.array.stopTimer = true →
      exec .stopTimerExpiry s = .next { u with
        proc := none
        feedPort := { u.feedPort with repeatMark := false }
        array :=
          { rows := []
            counter := u.array.counter
            degraded := false
            feedLive := u.array.feedLive
            run := .stopped
            stopTimer := false
            outBuf := u.array.outBuf
            framing := u.array.framing
            pin := u.array.pin
            adout := if u.array.framing = .search then none else some ((List.replicate 24 0#16).map slotOfSample) }
        report := ((u.countBoth .arrayStops).raise { block := u.array.counter, event := .arrayStopped }).report }) ∧
    (s.array.run = .stopped ∨ s.array.stopTimer = false → exec .stopTimerExpiry s = .next s) ∧
    (s.proc = none → u = s)) ∧
  State.reset.StopsIdle ∧
  (∀ s t : State, s.StopsIdle → step s = .next t → t.StopsIdle) ∧
  (∀ s : State, s.array.run = .stopped →
    s.resume = { s with
      report := (s.raise { block := s.array.counter, event := .arrayResumed }).report
      feedPort := { s.feedPort with store := s.feedPort.store.drop (s.feedPort.store.length - 16) }
      array := { s.array with
        run := .running, feedLive := true, outBuf := List.replicate 64 (List.replicate 24 0#16) } })

/-- R10: the slip check. -/
def Obligations.SlipCheckMovesOneFrame : Prop :=
  ∀ s : State,
    (s.feedPort.state = .lost → s.slipCheck = s) ∧
    (s.feedPort.state = .live → 24 < s.feedPort.store.length →
      s.slipCheck = { s with
        feedPort := { s.feedPort with store := s.feedPort.store.tail }
        report := { p0 := s.report.p0.count .feedDrop, p1 := s.report.p1.count .feedDrop } }) ∧
    (s.feedPort.state = .live → s.feedPort.store.length < 8 →
      s.slipCheck = { s with feedPort := { s.feedPort with repeatMark := true } }) ∧
    (s.feedPort.state = .live → 8 ≤ s.feedPort.store.length → s.feedPort.store.length ≤ 24 → s.slipCheck = s)

/-! ## Transactions and refusals at the ports -/

/-- R153, R154: how a transaction opens; and how one that carries no request (a read, an ignored one, or a write that holds no byte)
ends: the port returns to IDLE, its slot and its grant as they were. And what the wires carry: CDO is not driven while CSEL is high,
is 0x00 in the first byte and in a write, and then shifts out the copy of the slot, with 0x00 past its end; TWD carries the copy from
its first byte on, and the part acknowledges its own address and the bytes it receives, and no others. (What CDO carries in the
rest of an ignored transaction, and whether the rest of a write dropped by RESET PART is acknowledged, are free values, logs 36
and 37.) -/
def Obligations.TransactionsBeginAndEnd : Prop :=
  (∀ (s : State) (early : List Byte),
    (s.ctl.p0.trans = .idle →
      exec (.transactionBegin (.fourWire (some 0x3C#8)) early) s = .next { s with
        ctl := { s.ctl with p0 := { s.ctl.p0 with trans := .receiving early } } } ∧
      exec (.transactionBegin (.fourWire (some 0xC3#8)) []) s = .next { s with
        ctl := { s.ctl with p0 := { s.ctl.p0 with trans := .sending s.ctl.p0.slot } } } ∧
      ∀ first, first ≠ some 0x3C#8 → first ≠ some 0xC3#8 →
        exec (.transactionBegin (.fourWire first) []) s = .next { s with
          ctl := { s.ctl with p0 := { s.ctl.p0 with trans := .ignoring false } }
          freeCount := s.freeCount + 1 }) ∧
    (s.ctl.p1.trans.holds = false →
      exec (.transactionBegin (.twoWire s.twoWireAddr false) early) s = .next { s with
        ctl := { s.ctl with p1 := { s.ctl.p1 with trans := .receiving early } } } ∧
      exec (.transactionBegin (.twoWire s.twoWireAddr true) []) s = .next { s with
        ctl := { s.ctl with p1 := { s.ctl.p1 with trans := .sending s.ctl.p1.slot } } } ∧
      ∀ addr read, addr ≠ s.twoWireAddr →
        exec (.transactionBegin (.twoWire addr read) []) s = .next { s with
          ctl := { s.ctl with p1 := { s.ctl.p1 with trans := .idle } } })) ∧
  (∀ (s : State) (p : Port), (s.ctl.get p).trans.holds = false →
    exec (.transactionEndNoRequest p) s = .next { s with
      ctl := s.ctl.set p { trans := .idle, slot := (s.ctl.get p).slot, grant := (s.ctl.get p).grant } }) ∧
  (∀ (s : State) (n : Nat),
    let bytes (r : Response) : List Byte := [r.kind, byte r.status.code, byte r.body.length] ++ r.body
    (s.ctl.p0.trans = .idle → s.cdoByte n = none) ∧
    (s.ctl.p0.trans ≠ .idle → s.cdoByte 0 = some 0#8) ∧
    (∀ held, s.ctl.p0.trans = .receiving held → s.cdoByte n = some 0#8) ∧
    (∀ copy, s.ctl.p0.trans = .sending copy → s.cdoByte (n + 1) = some ((bytes copy).getD n 0#8)) ∧
    (s.ctl.p0.trans = .ignoring true → s.cdoByte n = some 0#8) ∧
    (∀ addr, s.acksAddress addr = true ↔ addr = s.twoWireAddr) ∧
    (s.ctl.p1.trans = .idle → s.twdByte n = none ∧ s.acksByte n = false) ∧
    (∀ held, s.ctl.p1.trans = .receiving held → s.twdByte n = none ∧ s.acksByte n = true) ∧
    (∀ copy, s.ctl.p1.trans = .sending copy → s.twdByte n = some ((bytes copy).getD n 0#8) ∧ s.acksByte n = false)) ∧
  (∀ (b : Byte) (k : Nat), k < 8 → wireBit b k = b.getLsbD (7 - k))

/-- R156, checks 1 and 2: a message that is not framed is answered MALFORMED, and a framed one of a kind outside the table
UNKNOWN_KIND, each with the first byte echoed and an empty body, and no owner's state changes (a block start or an end of a processing
that waits is finished first, log 3). -/
def Obligations.BadMessageAnswered : Prop :=
  ∀ (s : State) (p : Port) (bytes : List Byte), s.Receives p bytes → bytes ≠ [] →
    let answer (st : Status) : State := { s.settle with
      ctl := s.ctl.set p
        { trans := .idle, slot := { kind := bytes.headD 0#8, status := st, body := [] }, grant := (s.ctl.get p).grant } }
    ((bytes.length < 2 ∨ 250 < field bytes 1 1 ∨ bytes.length ≠ 2 + field bytes 1 1) →
      exec (.unknownKind p bytes) s = .next (answer .malformed)) ∧
    (2 ≤ bytes.length → field bytes 1 1 ≤ 250 → bytes.length = 2 + field bytes 1 1 →
      (∀ k : Kind, k.code ≠ bytes.headD 0#8) → exec (.unknownKind p bytes) s = .next (answer .unknownKind))

/-- R156, checks 3 and 4, and R155: a request above its port's grant is answered DENIED, one laid out wrongly MALFORMED, and no owner's
state changes; a transaction that the port is IGNORING ends with nothing taken. The clauses before are the tables: the code, the class
and the body length of every kind of request (R165), the codes of the statuses and the grants (R158), and the fields of a body, least
significant byte first (R166). -/
def Obligations.PortRefusesRequests : Prop :=
  (∀ e ∈ ([(.identify, 0x01#8, .observe, 0), (.readPath, 0x02#8, .observe, 1), (.readMic, 0x03#8, .observe, 1),
      (.readReference, 0x04#8, .observe, 1), (.readTaps, 0x05#8, .observe, 5), (.readEvents, 0x06#8, .observe, 1),
      (.readCounters, 0x07#8, .observe, 0), (.readPool, 0x08#8, .observe, 0), (.setMic, 0x10#8, .tune, 6),
      (.setReference, 0x11#8, .tune, 12), (.setPath, 0x12#8, .tune, 8), (.setGlobal, 0x13#8, .tune, 6),
      (.acquire, 0x14#8, .tune, 1), (.hold, 0x15#8, .tune, 0), (.release, 0x16#8, .tune, 0), (.mute, 0x17#8, .tune, 3),
      (.meter, 0x18#8, .observe, 7), (.watch, 0x19#8, .observe, 4), (.eventEnable, 0x1A#8, .observe, 2),
      (.closePath, 0x21#8, .structural, 1), (.clearModel, 0x24#8, .structural, 2), (.standby, 0x31#8, .control, 0),
      (.wake, 0x32#8, .control, 0), (.resetPart, 0x33#8, .control, 0), (.resetPort, 0x3F#8, .observe, 0)] :
        List (Kind × Byte × Grant × Nat)),
    e.1.code = e.2.1 ∧ e.1.grant = e.2.2.1 ∧ ∀ body, e.1.layoutOk body = true ↔ body.length = e.2.2.2) ∧
  (∀ e ∈ ([(.openPath, 0x20#8, .structural), (.setWindows, 0x22#8, .structural), (.writeTaps, 0x23#8, .structural),
      (.route, 0x30#8, .control)] : List (Kind × Byte × Grant)), e.1.code = e.2.1 ∧ e.1.grant = e.2.2) ∧
  (∀ body : List Byte,
    (Kind.openPath.layoutOk body = true ↔ body.length = 8 + 4 * field body 7 1) ∧
    (Kind.setWindows.layoutOk body = true ↔ body.length = 2 + 4 * field body 1 1) ∧
    (Kind.writeTaps.layoutOk body = true ↔ ∃ v, body.length = 4 + 3 * v) ∧
    (Kind.route.layoutOk body = true ↔ ∃ e, 1 ≤ e ∧ body.length = 2 * e) ∧
    ∀ off n, field body off 0 = 0 ∧ field body off (n + 1) = (body.getD off 0#8).toNat + 256 * field body (off + 1) n) ∧
  ([Status.accepted, .acceptedClamped, .noRequest, .malformed, .unknownKind, .denied, .noSuchObject, .badGeometry, .noSegments,
      .tableFull, .duplicate, .pendingOther, .stagingFull, .wrongMode].map Status.code =
    [0x00, 0x01, 0x10, 0x11, 0x12, 0x13, 0x14, 0x15, 0x16, 0x17, 0x18, 0x19, 0x1A, 0x1B]) ∧
  ([Grant.observe, .tune, .structural, .control].map Grant.code = [0, 1, 2, 3]) ∧
  ∀ (s : State) (p : Port) (k : Kind) (body : List Byte),
    (s.Receives p (message k body) → body.length ≤ 250 → (s.ctl.get p).grant.code < k.grant.code →
      exec (k.command p body) s = .next (s.settle.answered p k .denied [])) ∧
    (s.Receives p (message k body) → body.length ≤ 250 → k.grant.code ≤ (s.ctl.get p).grant.code → k.layoutOk body = false →
      exec (k.command p body) s = .next (s.settle.answered p k .malformed [])) ∧
    (∀ write, (s.ctl.get p).trans = .ignoring write →
      exec (k.command p body) s = .next { s with ctl := s.ctl.set p { s.ctl.get p with trans := .idle } })

/-! ## Requests that report -/

/-- R162: IDENTIFY. The clause before gives the port's number and a flag's byte. -/
def Obligations.IdentifyAnswers : Prop :=
  (portCode .p0 = 0 ∧ portCode .p1 = 1 ∧ flagByte false = 0#8 ∧ flagByte true = 1#8) ∧
  ∀ (s : State) (p : Port) (body : List Byte), s.Takes p .identify body →
    let u := s.settle
    exec (.identify p body) s = .next (u.answered p .identify .accepted
      ([0x08#8, 0x24#8, 1#8, byte (portCode p), byte (s.ctl.get p).grant.code] ++ le 4 u.array.counter.toNat ++
        [flagByte u.standby, flagByte (u.stager.get p).hold]))

/-- R135: READ MIC. -/
def Obligations.ReadMicAnswers : Prop :=
  ∀ (s : State) (p : Port) (body : List Byte), s.Takes p .readMic body →
    let u := s.settle
    let n := field body 0 1
    let m := micAt u.seen.mics n
    (24 ≤ n → exec (.readMic p body) s = .next (u.answered p .readMic .noSuchObject [])) ∧
    (n < 24 → exec (.readMic p body) s = .next (u.answered p .readMic .accepted
      ([byte m.conv.code, byte m.talk.code, byte m.hangover, byte m.lastClass.code] ++ le 2 m.goodRun ++ le 2 m.poorRun ++
        [byte m.divCount] ++ le 2 (u.seen.gains.getD n 32767) ++ [byte m.theta, byte m.hang] ++ le 2 m.floor ++
        le 2 m.peakD ++ le 2 m.peakE ++ le 5 m.energyD ++ le 5 m.energyE ++ le 4 m.measBlock.toNat ++
        [byte (pathsOnMic u.seen.paths n).length, byte (ownerCode (u.owner (.mic n)))])))

/-- R38: READ REFERENCE. -/
def Obligations.ReadReferenceAnswers : Prop :=
  ∀ (s : State) (p : Port) (body : List Byte), s.Takes p .readReference body →
    let u := s.settle
    let n := field body 0 1
    let f := feedAt u.seen.feeds n
    (8 ≤ n → exec (.readReference p body) s = .next (u.answered p .readReference .noSuchObject [])) ∧
    (n < 8 → exec (.readReference p body) s = .next (u.answered p .readReference .accepted
      ([byte f.mode.code, byte f.acq.code] ++ le 2 f.b ++ le 2 f.manualDelay ++ le 6 f.actFloor ++
        [byte f.probe, flagByte f.active] ++ le 6 f.energy ++ le 2 f.peak ++ [byte f.counted] ++ le 2 f.countdown ++
        le 2 f.lastLag ++ [byte f.lastValidity.code, byte u.seen.captured.code, byte (ownerCode (u.owner (.feed n)))])))

/-- R73: READ PATH. The clear due is the one left by the last completed block processing (log 15). The clauses before say what the
pending owner and the pending kinds are: the port whose set is on the object, and one bit for each part that its set on the path
carries, from bit 0 OPEN, CLOSE, WINDOWS, SETTINGS, TAPS, CLEAR (R170; an OPEN's own windows and settings show as OPEN alone, and a set
with no part shows 0, log 16). -/
def Obligations.ReadPathAnswers : Prop :=
  (∀ u : State, u.Claimed → ∀ q, ∀ c ∈ (u.stager.get q).list, u.owner c.object = some q ∧
    ∀ n d, c.change = .path n d →
      let settings := d.base.isSome || d.fast.isSome || d.slow.isSome || d.frozen.isSome
      ∀ i, (u.pendingKinds n).testBit i =
        [d.opening.isSome, d.close, d.windows.isSome, settings, decide (d.taps ≠ []), d.clear].getD i false) ∧
  (∀ (u : State) (o : Object), (∀ q, ∀ c ∈ (u.stager.get q).list, c.object ≠ o) →
    u.owner o = none ∧ ∀ n, o = .path n → u.pendingKinds n = 0) ∧
  ([none, some Port.p0, some .p1].map ownerCode = [0, 1, 2]) ∧
  ∀ (s : State) (p : Port) (body : List Byte), s.Takes p .readPath body →
    let u := s.settle
    let n := field body 0 1
    let owner := byte (ownerCode (u.owner (.path n)))
    let kinds := byte (u.pendingKinds n)
    let pending (mic feed : Nat) : List Byte := [1#8, byte mic, byte feed] ++ List.replicate 7 0#8 ++ [owner, kinds, 0#8, 0#8, 0#8]
    (pathAt u.model.paths n = .free → exec (.readPath p body) s = .next (u.answered p .readPath .noSuchObject [])) ∧
    (∀ mic feed, pathAt u.model.paths n = .pendingOpen mic feed →
      exec (.readPath p body) s = .next (u.answered p .readPath .accepted (pending mic feed))) ∧
    (∀ c, pathAt u.model.paths n = .opened c → (∀ q, pathAt u.seen.paths n ≠ .opened q) →
      exec (.readPath p body) s = .next (u.answered p .readPath .accepted (pending c.mic c.feed))) ∧
    (∀ c q, pathAt u.model.paths n = .opened c → pathAt u.seen.paths n = .opened q →
      exec (.readPath p body) s = .next (u.answered p .readPath .accepted
        ([2#8, byte q.mic, byte q.feed, byte q.base, byte q.fast, byte q.slow, flagByte q.frozen,
          byte (pathLevel u.seen.mics q), byte (stepCodeOf (micAt u.seen.mics q.mic).conv q.fast q.slow),
          flagByte (u.seen.clearList.contains n), owner, kinds] ++ le 2 q.totalTaps ++ [byte q.windows.length] ++
          q.windows.flatMap fun w => le 2 w.start ++ le 2 w.len ++ le 2 w.age)))

/-- R54: READ TAPS. -/
def Obligations.ReadTapsAnswers : Prop :=
  ∀ (s : State) (p : Port) (body : List Byte), s.Takes p .readTaps body →
    let u := s.settle
    let n := field body 0 1
    let offset := field body 2 2
    let sent := field body 4 1
    let status : Status := if sent < 1 ∨ 64 < sent then .acceptedClamped else .accepted
    let refused := exec (.readTaps p body) s = .next (u.answered p .readTaps .noSuchObject [])
    ((∀ c, pathAt u.model.paths n ≠ .opened c) → refused) ∧
    ((∀ q, pathAt u.seen.paths n ≠ .opened q) → refused) ∧
    (∀ q, pathAt u.seen.paths n = .opened q → q.windows.length ≤ field body 1 1 → refused) ∧
    (∀ c q w, pathAt u.model.paths n = .opened c → pathAt u.seen.paths n = .opened q → q.windows[field body 1 1]? = some w →
      let v := min (max 1 (min 64 sent)) (w.len - offset)
      exec (.readTaps p body) s = .next (u.answered p .readTaps status
        (le 2 w.start ++ le 2 w.len ++ le 2 offset ++ [byte v] ++
          (List.range v).flatMap fun i => le 3 (seenTap u w (w.start + offset + i)).toNat)))

/-- R175: READ EVENTS takes records from the head of the queue, as many as the count, the queue and 248 bytes allow, and no fewer. A
clamped count is answered ACCEPTED_CLAMPED on an empty queue too (the model's choice, log 34). The clauses before give the bytes of a
record of each kind: kind, class, block, object kind, object id, detail length, detail, and a METER record's entry count and entries
(R169), with the codes of the fields (R170), least significant byte first (R166). -/
def Obligations.ReadEventsTakesRecords : Prop :=
  (∀ b : BlockNo,
    let bytes (e : Event) : List Byte := ({ block := b, event := e } : Record).bytes
    let spells (kind cls : Byte) (object detail : List Byte) : List Byte :=
      [kind, cls] ++ le 4 b.toNat ++ object ++ [byte detail.length] ++ detail
    let bare := [0#8, 0#8]
    (∀ m old new cause, bytes (.micState m old new cause) =
      spells 0x01#8 0#8 [2#8, byte m] [byte old.code, byte new.code, byte cause.code]) ∧
    (∀ m before n, bytes (.micDiverged m before n) = spells 0x02#8 1#8 [2#8, byte m] [byte before.code, byte n]) ∧
    (∀ f moved b, bytes (.bulkLocked f moved b) = spells 0x03#8 0#8 [3#8, byte f] ([if moved then 1#8 else 0#8] ++ le 2 b)) ∧
    (∀ f old new, bytes (.bulkMoved f old new) = spells 0x04#8 0#8 [3#8, byte f] (le 2 old ++ le 2 new)) ∧
    (∀ f lag formedIn, bytes (.bulkWeak f lag formedIn) = spells 0x05#8 0#8 [3#8, byte f] (le 2 lag ++ [byte formedIn.code])) ∧
    bytes .feedLost = spells 0x06#8 1#8 bare [] ∧ bytes .feedBack = spells 0x07#8 0#8 bare [] ∧
    bytes .arrayStopped = spells 0x08#8 1#8 bare [] ∧ bytes .arrayResumed = spells 0x09#8 0#8 bare [] ∧
    bytes .standbyEntered = spells 0x0A#8 0#8 bare [] ∧ bytes .standbyLeft = spells 0x0B#8 0#8 bare [] ∧
    (∀ n, bytes (.applied n) = spells 0x10#8 0#8 bare [byte n]) ∧
    (∀ o slot origin, bytes (.watchHit o slot origin) = spells 0x11#8 0#8
      (match o with
        | .path n => [1#8, byte n]
        | .mic n => [2#8, byte n]
        | .feed n => [3#8, byte n]
        | .global => [4#8, 0#8])
      [byte slot, if origin = .p0 then 0#8 else 1#8]) ∧
    (∀ es, bytes (.meter es) = spells 0x12#8 0#8 bare [] ++ [byte es.length] ++ es.flatMap fun e =>
      [byte e.mic, byte e.conv.code, byte e.talk.code, byte e.lastClass.code] ++ le 2 e.peakD ++ le 2 e.peakE) ∧
    (∀ n, bytes (.holdExpired n) = spells 0x13#8 1#8 bare [byte n]) ∧
    bytes .partReset = spells 0x14#8 0#8 bare []) ∧
  (∀ n v, le 0 v = [] ∧ le (n + 1) v = byte v :: le n (v / 256) ∧ (byte v).toNat = v % 256) ∧
  ([Conv.idle, .acquire, .converged, .recover].map Conv.code = [0, 1, 2, 3] ∧
    [Talk.clear, .talk].map Talk.code = [0, 1] ∧
    [Quality.none, .good, .fair, .poor].map Quality.code = [0, 1, 2, 3] ∧
    [Cause.opened, .emptied, .goodRun, .poorRun, .diverged, .clearModel, .bulkMove, .bulkSet].map Cause.code =
      [0, 1, 2, 3, 4, 5, 6, 7] ∧
    [Acq.manual, .seek, .locked, .check].map Acq.code = [0, 1, 2, 3] ∧
    [FeedMode.manual, .auto].map FeedMode.code = [0, 1] ∧
    [Validity.none, .valid, .weak].map Validity.code = [0, 1, 2] ∧
    [FeedState.live, .lost].map FeedState.code = [0, 1] ∧
    [Scan.fair, .greedy].map Scan.code = [0, 1]) ∧
  ∀ (s : State) (p : Port) (body : List Byte), s.Takes p .readEvents body →
    let u := s.settle
    let sent := field body 0 1
    let bytesOf (l : List Record) : Nat := (l.map fun c => c.bytes.length).sum
    ∃ taken rest, (u.report.get p).queue = taken ++ rest ∧
      taken.length ≤ max 1 (min 8 sent) ∧ bytesOf taken ≤ 248 ∧
      (∀ c more, rest = c :: more → taken.length = max 1 (min 8 sent) ∨ 248 < bytesOf (taken ++ [c])) ∧
      exec (.readEvents p body) s = .next
        ({ u with report := u.report.set p { u.report.get p with queue := rest } }.answered p .readEvents
          (if sent < 1 ∨ 8 < sent then .acceptedClamped else .accepted)
          ([byte rest.length, byte taken.length] ++ taken.flatMap Record.bytes))

/-- R176: READ COUNTERS answers the port's eight counters and their flags, and then sets its own copies to 0. -/
def Obligations.ReadCountersClearsOwnCopies : Prop :=
  ∀ (s : State) (p : Port) (body : List Byte), s.Takes p .readCounters body →
    let u := s.settle
    let c := (u.report.get p).counters
    let zero : Counter := { value := 0#16, overflow := false }
    let bit (d : Counter) (i : Nat) : Nat := if d.overflow then 2 ^ i else 0
    exec (.readCounters p body) s = .next
      ({ u with report := u.report.set p { u.report.get p with
          counters := { feedDrop := zero, feedRepeat := zero, feedLosses := zero, feedFrameFault := zero, arrayFrameFault := zero,
                        arrayStops := zero, degradedBlocks := zero, eventsLost := zero } } }.answered p .readCounters .accepted
        (le 2 c.feedDrop.value.toNat ++ le 2 c.feedRepeat.value.toNat ++ le 2 c.feedLosses.value.toNat ++
          le 2 c.feedFrameFault.value.toNat ++ le 2 c.arrayFrameFault.value.toNat ++ le 2 c.arrayStops.value.toNat ++
          le 2 c.degradedBlocks.value.toNat ++ le 2 c.eventsLost.value.toNat ++
          [byte (bit c.feedDrop 0 + bit c.feedRepeat 1 + bit c.feedLosses 2 + bit c.feedFrameFault 3 + bit c.arrayFrameFault 4 +
            bit c.arrayStops 5 + bit c.degradedBlocks 6 + bit c.eventsLost 7)]))

/-- R55: READ POOL. In a part whose tables have their sizes, the four segment counts total 1,024. The clause before says which state of
a record it counts. -/
def Obligations.ReadPoolCounts : Prop :=
  (PathRec.free.status = .free ∧ (∀ mic feed, (PathRec.pendingOpen mic feed).status = .pendingOpen) ∧
    ∀ q, (PathRec.opened q).status = .opened) ∧
  ∀ (s : State) (p : Port) (body : List Byte), s.Takes p .readPool body →
    let u := s.settle
    let segs (x : SegState) : Nat := u.pool.segs.count x
    exec (.readPool p body) s = .next (u.answered p .readPool .accepted
      (le 2 (segs .free) ++ le 2 (segs (.reserved .p0)) ++ le 2 (segs (.reserved .p1)) ++ le 2 (segs .inUse) ++
        [byte (u.pool.paths.count .opened), byte (u.pool.paths.count .free)] ++
        le 2 (2048 - ((u.stager.get p).list.map fun c => c.change.pathPart.taps.length).sum))) ∧
    (s.Shaped → segs .free + segs (.reserved .p0) + segs (.reserved .p1) + segs .inUse = 1024)

/-- R160: what reads see changes when a block's processing completes, and at a reset, and by nothing else. Whatever the command, other
than POWER_ON_RESET and RESET PART (and bit by bit for a run of bits at the array port, FrameSyncStartsFrame), what reads see stays, or a processing that was in progress has completed and reads see the state it
left: at a stage, or in what the command finished first (logs 3, 4 and 35). So an array frame that finishes no processing changes nothing
of it, nor does its block start, nor does a request. The clauses before say what is finished first: settling is HOLD_EXPIRED and
the two meter expiries, and does nothing where no block start waits and no meter expiry is due, so when no processing is in progress;
finishing a processing is every command of its stages in their order, those not due changing nothing (EveryCommandAnswersNext); and
a processing is finished before a history write exactly when 63 or more have come since its block start (logs 3, 4 and 35). -/
def Obligations.ReadsSeeLastCompletedBlock : Prop :=
  (∀ s : State,
    let run (t : State) (c : Instr) : State :=
      match exec c t with
      | .next u => u
      | .fault _ => t
      | .refused _ => t
    let settling : List Instr := [.holdExpired, .meterTimerExpiry .p0, .meterTimerExpiry .p1]
    let stages : List Instr := [.supervisorStage] ++ ((List.range 24).flatMap fun m => [.micDiverged m, .runThreshold m]) ++
      [.alignmentStage, .bulkResult] ++ (List.range 8).map Instr.checkCountdownExpiry ++ [.arbiterStage, .updateStage]
    s.settle = settling.foldl run s ∧
    ((∀ p, s.proc = some p → p.phase ≠ .expiring ∧
      ∀ due q, p.phase = .meters due → (s.report.get q).meter.running = true → (s.report.get q).meter.count ≠ 0) → s.settle = s) ∧
    (s.proc = none → s.settle = s) ∧
    s.finishProcessing = (settling ++ stages ++ settling).foldl run s ∧
    (∀ p, s.proc = some p → 63 ≤ p.writesSince → s.finishBeforeWrite = s.finishProcessing) ∧
    ((∀ p, s.proc = some p → p.writesSince < 63) → s.finishBeforeWrite = s)) ∧
  (∀ (c : Instr) (s t : State), (∀ x, c ≠ .powerOnReset x) → (∀ p body, c ≠ .resetPart p body) →
    (∀ b b' bits, c ≠ .arrayFrameArrival (b :: b' :: bits) ∧ c ≠ .frameSync ⟨.array, b :: b' :: bits⟩) → exec c s = .next t →
    t.seen = s.seen ∨ (s.proc ≠ none ∧
      ((t.proc = none ∧ t.seen = t.model) ∨ t.seen = s.settle.seen ∨ t.seen = s.settle.finishBeforeWrite.seen))) ∧
  (∀ s : State,
    let u := s.settle
    let v := s.settle.finishBeforeWrite
    (u.seen = s.seen ∨ (s.proc ≠ none ∧ u.proc = none ∧ u.seen = u.model)) ∧
    (v.seen = s.seen ∨ (s.proc ≠ none ∧ v.proc = none ∧ v.seen = v.model))) ∧
  (∀ (s t : State) (b : LineBit), s.settle.finishBeforeWrite.seen = s.seen → exec (.arrayFrameArrival [b]) s = .next t →
    t.seen = s.seen) ∧
  (∀ (s t : State) (p : Port) (k : Kind) (body : List Byte), k ≠ .resetPart → s.settle.seen = s.seen →
    exec (k.command p body) s = .next t → t.seen = s.seen)

/-! ## Staged requests -/

/-- R137, R139: a staged request merges into its port's set on the object, which keeps its place and its acceptance block, or makes a
new set at the tail, whose acceptance block is the number of the block being collected. The clauses before say what a new set starts
from (its object, and no part), how a request's fields are written into a set, what of a set a later request reads, and which set of
a port is the one on an object. -/
def Obligations.StagingJoinsOrMerges : Prop :=
  (∀ n, Change.empty (.path n) = .path n
      { opening := none, close := false, windows := none, base := none, fast := none, slow := none, frozen := none, taps := [],
        clear := false, reservations := [] } ∧
    Change.empty (.mic n) = .mic n { theta := none, hang := none, floor := none, clear := false } ∧
    Change.empty (.feed n) = .feed n { mode := none, manualDelay := none, actFloor := none, probe := none, acquire := false } ∧
    Change.empty .global = .global { delta := none, scan := none, clear := false }) ∧
  ((∀ f n c, Change.mapPath f (.path n c) = .path n (f c)) ∧ (∀ f n c, Change.mapMic f (.mic n c) = .mic n (f c)) ∧
    (∀ f n c, Change.mapFeed f (.feed n c) = .feed n (f c)) ∧ ∀ f c, Change.mapGlobal f (.global c) = .global (f c)) ∧
  ((∀ n c, (Change.path n c).pathPart = c ∧ (Change.path n c).object = .path n) ∧
    (∀ n c, (Change.mic n c).micPart = c ∧ (Change.mic n c).object = .mic n) ∧
    (∀ n c, (Change.feed n c).feedPart = c ∧ (Change.feed n c).object = .feed n) ∧
    ∀ c, (Change.global c).globalPart = c ∧ (Change.global c).object = .global) ∧
  (otherPort .p0 = .p1 ∧ otherPort .p1 = .p0) ∧
  (∀ (s : State) (p : Port) (o : Object),
    (s.ownSet p o = none ↔ ∀ c ∈ (s.stager.get p).list, c.change.object ≠ o) ∧
    (∀ c, s.ownSet p o = some c → c ∈ (s.stager.get p).list ∧ c.change.object = o ∧ s.ownChange p o = c.change) ∧
    (s.ownSet p o = none → s.ownChange p o = .empty o)) ∧
  ∀ (s : State) (p : Port) (o : Object) (f : Change → Change),
    (s.ownSet p o = none →
      s.stage p o f = { s with stager := s.stager.set p { s.stager.get p with
        list := (s.stager.get p).list ++ [{ port := p, acceptBlock := s.array.counter, change := f (.empty o) }] } }) ∧
    (∀ before c after, (s.stager.get p).list = before ++ c :: after → c.object = o →
      (∀ d ∈ before ++ after, d.object ≠ o) →
      s.stage p o f = { s with stager := s.stager.set p { s.stager.get p with
        list := before ++ { c with change := f c.change } :: after } })

/-- R133: SET MIC. -/
def Obligations.SetMicStaged : Prop :=
  ∀ (s : State) (p : Port) (body : List Byte), s.Takes p .setMic body →
    let u := s.settle
    let m := field body 0 1
    let fl := field body 1 1
    let theta := field body 2 1
    let hang := field body 3 1
    let floor := field body 4 2
    let clamped := fl.testBit 0 = true ∧ (theta < 1 ∨ 64 < theta) ∨ fl.testBit 1 = true ∧ 31 < hang ∨
      fl.testBit 2 = true ∧ 32767 < floor
    exec (.setMic p body) s = .next (
      if 24 ≤ m then u.answered p .setMic .noSuchObject []
      else if (u.ownSet (otherPort p) (.mic m)).isSome then u.answered p .setMic .pendingOther []
      else (u.stage p (.mic m) (Change.mapMic fun c => { c with
          theta := if fl.testBit 0 then some (max 1 (min 64 theta)) else c.theta
          hang := if fl.testBit 1 then some (min 31 hang) else c.hang
          floor := if fl.testBit 2 then some (min 32767 floor) else c.floor })).answered p .setMic
        (if clamped then .acceptedClamped else .accepted) [])

/-- R34: SET REFERENCE. -/
def Obligations.SetReferenceStaged : Prop :=
  ∀ (s : State) (p : Port) (body : List Byte), s.Takes p .setReference body →
    let u := s.settle
    let f := field body 0 1
    let fl := field body 1 1
    let mode := field body 2 1
    let delay := field body 3 2
    let floor := field body 5 6
    let probe := field body 11 1
    let clamped := fl.testBit 0 = true ∧ 1 < mode ∨ fl.testBit 1 = true ∧ 2047 < delay ∨
      fl.testBit 2 = true ∧ (floor < 1 ∨ 1099511627776 < floor)
    exec (.setReference p body) s = .next (
      if 8 ≤ f then u.answered p .setReference .noSuchObject []
      else if fl.testBit 3 = true ∧ 24 ≤ probe then u.answered p .setReference .noSuchObject []
      else if (u.ownSet (otherPort p) (.feed f)).isSome then u.answered p .setReference .pendingOther []
      else (u.stage p (.feed f) (Change.mapFeed fun c =>
          { mode := if fl.testBit 0 then some (if mode = 0 then .manual else .auto) else c.mode
            manualDelay := if fl.testBit 1 then some (min 2047 delay) else c.manualDelay
            actFloor := if fl.testBit 2 then some (max 1 (min 1099511627776 floor)) else c.actFloor
            probe := if fl.testBit 3 then some probe else c.probe
            acquire := if fl.testBit 0 = true ∧ mode = 0 then false else c.acquire })).answered p .setReference
        (if clamped then .acceptedClamped else .accepted) [])

/-- R70: SET PATH. -/
def Obligations.SetPathStaged : Prop :=
  ∀ (s : State) (p : Port) (body : List Byte), s.Shaped → s.Takes p .setPath body →
    let u := s.settle
    let n := field body 0 1
    let fl := field body 1 1
    let base := field body 2 1
    let fast := field body 3 2
    let slow := field body 5 2
    let frozen := field body 7 1
    let clamped := fl.testBit 0 = true ∧ 3 < base ∨ fl.testBit 1 = true ∧ (fast < 1 ∨ 255 < fast) ∨
      fl.testBit 2 = true ∧ (slow < 1 ∨ 255 < slow) ∨ fl.testBit 3 = true ∧ 1 < frozen
    exec (.setPath p body) s = .next (
      if 127 < n ∨ pathAt u.model.paths n = .free then u.answered p .setPath .noSuchObject []
      else if (u.ownSet (otherPort p) (.path n)).isSome then u.answered p .setPath .pendingOther []
      else if (u.ownChange p (.path n)).pathPart.close then u.answered p .setPath .noSuchObject []
      else (u.stage p (.path n) (Change.mapPath fun c => { c with
          base := if fl.testBit 0 then some (min 3 base) else c.base
          fast := if fl.testBit 1 then some (max 1 (min 255 fast)) else c.fast
          slow := if fl.testBit 2 then some (max 1 (min 255 slow)) else c.slow
          frozen := if fl.testBit 3 then some (decide (1 ≤ frozen)) else c.frozen })).answered p .setPath
        (if clamped then .acceptedClamped else .accepted) [])

/-- R104, R106: SET GLOBAL, answered with the settings that the global object will have when the set applies. -/
def Obligations.SetGlobalStaged : Prop :=
  ∀ (s : State) (p : Port) (body : List Byte), s.Takes p .setGlobal body →
    let u := s.settle
    let fl := field body 0 1
    let delta := field body 1 4
    let scan := field body 5 1
    let clamped := fl.testBit 0 = true ∧ (delta < 1 ∨ 16777216 < delta) ∨ fl.testBit 1 = true ∧ 1 < scan
    let old := (u.ownChange p .global).globalPart
    let newDelta := if fl.testBit 0 then some (max 1 (min 16777216 delta)) else old.delta
    let newScan := if fl.testBit 1 then some (if scan = 0 then Scan.fair else Scan.greedy) else old.scan
    exec (.setGlobal p body) s = .next (
      if (u.ownSet (otherPort p) .global).isSome then u.answered p .setGlobal .pendingOther []
      else (u.stage p .global (Change.mapGlobal fun c => { c with
          delta := if fl.testBit 0 then some (max 1 (min 16777216 delta)) else c.delta
          scan := if fl.testBit 1 then some (if scan = 0 then .fair else .greedy) else c.scan })).answered p .setGlobal
        (if clamped then .acceptedClamped else .accepted)
        (le 4 (newDelta.getD u.globals.delta) ++ [byte (newScan.getD u.globals.scan).code]))

/-- R37: ACQUIRE. -/
def Obligations.AcquireStaged : Prop :=
  ∀ (s : State) (p : Port) (body : List Byte), s.Takes p .acquire body →
    let u := s.settle
    let f := field body 0 1
    exec (.acquire p body) s = .next (
      if 8 ≤ f then u.answered p .acquire .noSuchObject []
      else if (u.ownSet (otherPort p) (.feed f)).isSome then u.answered p .acquire .pendingOther []
      else if (u.ownChange p (.feed f)).feedPart.mode.getD (feedAt u.model.feeds f).mode = .manual then
        u.answered p .acquire .wrongMode []
      else (u.stage p (.feed f) (Change.mapFeed fun c => { c with acquire := true })).answered p .acquire .accepted [])

/-- R61, R43: OPEN PATH takes the lowest-numbered FREE record and the lowest-numbered free segments, and stages the open. R59: which
window lists are valid, and their order. R60: which pairs of a microphone and a feed are held. R43, R55, R58: segments that change
state at an acceptance or a discard, and a record that does, change it in the tables and in what READ POOL counts, and nothing else
changes. -/
def Obligations.OpenPathStaged : Prop :=
  (∀ l : List Geom,
    (validGeoms l = true ↔ 1 ≤ l.length ∧ l.length ≤ 4 ∧
      (∀ g ∈ l, g.start % 64 = 0 ∧ g.len % 64 = 0 ∧ 64 ≤ g.len ∧ g.start + g.len ≤ 8192) ∧
      l.Pairwise fun g h => g.start + g.len ≤ h.start ∨ h.start + h.len ≤ g.start) ∧
    (sortGeoms l).Perm l ∧ (sortGeoms l).Pairwise fun g h => g.start ≤ h.start) ∧
  (∀ segs : List SegState,
    (freePool segs).Pairwise (· < ·) ∧ ∀ i, i ∈ freePool segs ↔ segs[i]? = some .free) ∧
  (parseWindows [] = [] ∧ ∀ (a b c d : Byte) (rest : List Byte), parseWindows (a :: b :: c :: d :: rest) =
    { start := a.toNat + 256 * b.toNat, len := c.toNat + 256 * d.toNat } :: parseWindows rest) ∧
  (∀ (paths : List PathRec) (mic feed : Nat), pairHeld paths mic feed = true ↔
    .pendingOpen mic feed ∈ paths ∨ ∃ q, .opened q ∈ paths ∧ q.mic = mic ∧ q.feed = feed) ∧
  (∀ (s : State) (st : SegState) (l : List Nat),
    let t := s.markSegs st l
    t = { s with model := { s.model with segs := t.model.segs }, pool := { s.pool with segs := t.pool.segs } } ∧
    (∀ i, t.model.segs[i]? = if i < s.model.segs.length ∧ i ∈ l then some st else s.model.segs[i]?) ∧
    (∀ i, t.pool.segs[i]? = if i < s.pool.segs.length ∧ i ∈ l then some st else s.pool.segs[i]?)) ∧
  (∀ (s : State) (n : Nat) (r : PathRec),
    let t := s.markPath n r
    t = { s with model := { s.model with paths := t.model.paths }, pool := { s.pool with paths := t.pool.paths } } ∧
    (∀ i, t.model.paths[i]? = if i < s.model.paths.length ∧ i = n then some r else s.model.paths[i]?) ∧
    (∀ i, t.pool.paths[i]? = if i < s.pool.paths.length ∧ i = n then some r.status else s.pool.paths[i]?)) ∧
  ∀ (s : State) (p : Port) (body : List Byte), s.Takes p .openPath body →
    let u := s.settle
    let mic := field body 0 1
    let feed := field body 1 1
    let base := field body 2 1
    let fast := field body 3 2
    let slow := field body 5 2
    let windows := parseWindows (body.drop 8)
    let need := (windows.map Geom.len).sum / 64
    let segs := (freePool u.model.segs).take need
    let clamped := 3 < base ∨ fast < 1 ∨ 255 < fast ∨ slow < 1 ∨ 255 < slow
    let refused (st : Status) : State := u.answered p .openPath st []
    let opening : OpenPart :=
      { mic := mic, feed := feed, windows := sortGeoms windows, base := min 3 base, fast := max 1 (min 255 fast),
        slow := max 1 (min 255 slow) }
    (24 ≤ mic ∨ 8 ≤ feed → exec (.openPath p body) s = .next (refused .noSuchObject)) ∧
    (mic < 24 → feed < 8 → validGeoms windows = false → exec (.openPath p body) s = .next (refused .badGeometry)) ∧
    (mic < 24 → feed < 8 → validGeoms windows = true → pairHeld u.model.paths mic feed = true →
      exec (.openPath p body) s = .next (refused .duplicate)) ∧
    (mic < 24 → feed < 8 → validGeoms windows = true → pairHeld u.model.paths mic feed = false →
      (∀ r ∈ u.model.paths, r ≠ .free) → exec (.openPath p body) s = .next (refused .tableFull)) ∧
    (∀ n, mic < 24 → feed < 8 → validGeoms windows = true → pairHeld u.model.paths mic feed = false →
      n < u.model.paths.length → pathAt u.model.paths n = .free → (∀ k < n, pathAt u.model.paths k ≠ .free) →
      ((freePool u.model.segs).length < need → exec (.openPath p body) s = .next (refused .noSegments)) ∧
      (need ≤ (freePool u.model.segs).length →
        exec (.openPath p body) s = .next
          ((((u.markSegs (.reserved p) segs).markPath n (.pendingOpen mic feed)).stage p (.path n)
            (Change.mapPath fun c => { c with opening := some opening, reservations := segs })).answered p .openPath
              (if clamped then .acceptedClamped else .accepted) [byte n])))

/-- R64: CLOSE PATH, by what its port has pending on the path. -/
def Obligations.ClosePathActs : Prop :=
  ∀ (s : State) (p : Port) (body : List Byte), s.Shaped → s.Takes p .closePath body →
    let u := s.settle
    let n := field body 0 1
    let done (t : State) : State := t.answered p .closePath .accepted []
    let closed (d : ChangeSet) : ChangeSet :=
      if d.object = .path n then { d with change := .path n { PathChange.empty with close := true } } else d
    (127 < n ∨ pathAt u.model.paths n = .free →
      exec (.closePath p body) s = .next (u.answered p .closePath .noSuchObject [])) ∧
    (n ≤ 127 → pathAt u.model.paths n ≠ .free → (u.ownSet (otherPort p) (.path n)).isSome = true →
      exec (.closePath p body) s = .next (u.answered p .closePath .pendingOther [])) ∧
    (n ≤ 127 → pathAt u.model.paths n ≠ .free → (u.ownSet (otherPort p) (.path n)).isSome = false →
      (u.ownSet p (.path n) = none →
        exec (.closePath p body) s = .next (done (u.stage p (.path n) (Change.mapPath fun c => { c with close := true })))) ∧
      (∀ c, u.ownSet p (.path n) = some c → c.change.pathPart.opening.isSome = true →
        let t := (u.markSegs .free c.change.pathPart.reservations).markPath n .free
        exec (.closePath p body) s = .next (done { t with
          stager := u.stager.set p { u.stager.get p with list := (u.stager.get p).list.filter fun d => d.object != .path n } })) ∧
      (∀ c, u.ownSet p (.path n) = some c → c.change.pathPart.opening = none → c.change.pathPart.close = true →
        exec (.closePath p body) s = .next (done u)) ∧
      (∀ c, u.ownSet p (.path n) = some c → c.change.pathPart.opening = none → c.change.pathPart.close = false →
        exec (.closePath p body) s = .next (done { u.markSegs .free c.change.pathPart.reservations with
          stager := u.stager.set p { u.stager.get p with list := (u.stager.get p).list.map closed } })))

/-- R67, R43: SET WINDOWS reserves one segment for every delay block of the new layout that is not in the old one: the window list of the
port's own set, if it carries a SET WINDOWS or an OPEN PATH, and otherwise the path's current windows. The set's reservations stay ascending.
(Which lists are valid, and their order, and what a reservation marks: OpenPathStaged.) -/
def Obligations.SetWindowsStaged : Prop :=
  (∀ l : List Nat, (sortNats l).Perm l ∧ (sortNats l).Pairwise (· ≤ ·)) ∧
  (∀ (s : State) (p : Port) (n : Nat),
    let d := (s.ownChange p (.path n)).pathPart
    (∀ l, d.windows = some l → s.plannedLayout p n = l) ∧
    (∀ o, d.windows = none → d.opening = some o → s.plannedLayout p n = o.windows) ∧
    (∀ q, d.windows = none → d.opening = none → pathAt s.model.paths n = .opened q →
      s.plannedLayout p n = q.windows.map fun w => { start := w.start, len := w.len })) ∧
  (∀ (l : List Geom) (k : Nat),
    k ∈ layoutBlocks l ↔ ∃ g ∈ l, g.start / 64 ≤ k ∧ k < g.start / 64 + g.len / 64) ∧
  ∀ (s : State) (p : Port) (body : List Byte), s.Shaped → s.Takes p .setWindows body →
    let u := s.settle
    let n := field body 0 1
    let windows := parseWindows (body.drop 2)
    let need := ((layoutBlocks windows).filter fun k => !(layoutBlocks (u.plannedLayout p n)).contains k).length
    let segs := (freePool u.model.segs).take need
    exec (.setWindows p body) s = .next (
      if 127 < n ∨ pathAt u.model.paths n = .free then u.answered p .setWindows .noSuchObject []
      else if (u.ownSet (otherPort p) (.path n)).isSome then u.answered p .setWindows .pendingOther []
      else if (u.ownChange p (.path n)).pathPart.close then u.answered p .setWindows .noSuchObject []
      else if validGeoms windows = false then u.answered p .setWindows .badGeometry []
      else if (freePool u.model.segs).length < need then u.answered p .setWindows .noSegments []
      else ((u.markSegs (.reserved p) segs).stage p (.path n) (Change.mapPath fun c => { c with
          windows := some (sortGeoms windows), reservations := sortNats (c.reservations ++ segs) })).answered p .setWindows
        .accepted [])

/-- R49, R50: WRITE TAPS. A value is three bytes of 24-bit two's complement, least significant first (R166). A value staged for a delay
that the set already writes takes the place of the old one, and any other joins the set's list (R50). -/
def Obligations.WriteTapsStaged : Prop :=
  (parseValues [] = [] ∧ ∀ (a b c : Byte) (rest : List Byte), parseValues (a :: b :: c :: rest) = (c ++ b ++ a) :: parseValues rest) ∧
  (∀ (l : List (Nat × Coef)) (t : Nat × Coef),
    ((∃ c ∈ l, c.1 = t.1) → stageTap l t = l.map fun c => if c.1 = t.1 then t else c) ∧
    ((∀ c ∈ l, c.1 ≠ t.1) → stageTap l t = l ++ [t])) ∧
  ∀ (s : State) (p : Port) (body : List Byte), s.Shaped → s.Takes p .writeTaps body →
    let u := s.settle
    let n := field body 0 1
    let index := field body 1 1
    let offset := field body 2 2
    let values := parseValues (body.drop 4)
    let refused (st : Status) : State := u.answered p .writeTaps st []
    let held := (u.ownChange p (.path n)).pathPart.taps
    let used := ((u.stager.get p).list.map fun c => c.change.pathPart.taps.length).sum
    exec (.writeTaps p body) s = .next (
      if values.length = 0 ∨ 64 < values.length then refused .malformed
      else if 127 < n ∨ pathAt u.model.paths n = .free then refused .noSuchObject
      else if (u.ownSet (otherPort p) (.path n)).isSome then refused .pendingOther
      else if (u.ownChange p (.path n)).pathPart.close then refused .noSuchObject
      else match (u.plannedLayout p n)[index]? with
        | none => refused .noSuchObject
        | some w =>
          if w.len < offset + values.length then refused .badGeometry
          else if 2048 - used <
              ((List.range values.length).filter fun i => !held.any fun c => c.1 == w.start + offset + i).length then
            refused .stagingFull
          else (u.stage p (.path n) (Change.mapPath fun c => { c with
              taps := (values.zipIdx.map fun v => (w.start + offset + v.2, v.1)).foldl stageTap c.taps })).answered p .writeTaps
            .accepted [])

/-- R52: CLEAR MODEL. -/
def Obligations.ClearModelStaged : Prop :=
  ∀ (s : State) (p : Port) (body : List Byte), s.Shaped → s.Takes p .clearModel body →
    let u := s.settle
    let scope := field body 0 1
    let n := field body 1 1
    let refused (st : Status) := exec (.clearModel p body) s = .next (u.answered p .clearModel st [])
    let stages (o : Object) (f : Change → Change) :=
      ((u.ownSet (otherPort p) o).isSome = true → refused .pendingOther) ∧
      ((u.ownSet (otherPort p) o).isSome = false →
        exec (.clearModel p body) s = .next ((u.stage p o f).answered p .clearModel .accepted []))
    (2 < scope → refused .noSuchObject) ∧
    (scope = 0 → stages .global (Change.mapGlobal fun c => { c with clear := true })) ∧
    (scope = 1 → 24 ≤ n → refused .noSuchObject) ∧
    (scope = 1 → n < 24 → stages (.mic n) (Change.mapMic fun c => { c with clear := true })) ∧
    (scope = 2 → (127 < n ∨ pathAt u.model.paths n = .free) → refused .noSuchObject) ∧
    (scope = 2 → n ≤ 127 → pathAt u.model.paths n ≠ .free →
      stages (.path n) (Change.mapPath fun c => { c with clear := true }))

/-! ## Prompt requests -/

/-- R143, R144: HOLD and RELEASE, answered with the hold flag, the age, the number of pending sets, and the acceptance block of the
oldest when there is one. -/
def Obligations.HoldAndRelease : Prop :=
  ∀ (s : State) (p : Port) (body : List Byte),
    let u := s.settle
    let g := u.stager.get p
    let answer (h : Stager) : List Byte := [flagByte h.hold, byte h.age, byte h.list.length] ++
      (match h.list with
        | [] => []
        | c :: _ => le 4 c.acceptBlock.toNat)
    let with_ (h : Stager) : State := { u with stager := u.stager.set p h }
    let held := if g.hold then g else { g with hold := true, age := 0 }
    let released := if g.hold then { g with hold := false, age := 0 } else g
    (s.Takes p .hold body → exec (.hold p body) s = .next ((with_ held).answered p .hold .accepted (answer held))) ∧
    (s.Takes p .release body →
      exec (.release p body) s = .next ((with_ released).answered p .release .accepted (answer released)))

/-- R86: MUTE replaces its port's requested mask, and answers the microphones in either port's. -/
def Obligations.MuteReplacesMask : Prop :=
  ∀ (s : State) (p : Port) (body : List Byte), s.Takes p .mute body →
    let u := s.settle
    let mask := BitVec.ofNat 24 (field body 0 3)
    exec (.mute p body) s = .next
      ({ u with canc := { u.canc with reqMask := u.canc.reqMask.set p mask } }.answered p .mute .accepted
        (le 3 (mask ||| u.canc.reqMask.get (otherPort p)).toNat))

/-- R177: METER. A clamp that goes with an empty mask is still reported (log 18). -/
def Obligations.MeterStartsOrStops : Prop :=
  ∀ (s : State) (p : Port) (body : List Byte), s.Takes p .meter body →
    let u := s.settle
    let action := field body 0 1
    let mode := field body 1 1
    let period := field body 2 2
    let mask := BitVec.ofNat 24 (field body 4 3)
    let with_ (m : Meter) : State := { u with report := u.report.set p { u.report.get p with meter := m } }
    let clamped := 1 < action ∨ 1 < mode ∨ period < 1
    exec (.meter p body) s = .next (
      if action = 0 then (with_ { (u.report.get p).meter with running := false }).answered p .meter .accepted []
      else (with_ (if mask = 0#24 then { (u.report.get p).meter with running := false }
          else { running := true, mode := if mode = 0 then .oneShot else .continuous, period := max 1 period, mask := mask,
                 count := max 1 period })).answered p .meter
        (if clamped then .acceptedClamped else .accepted) [])

/-- R179: WATCH. For the kinds none and global no clamp is reported (log 19). -/
def Obligations.WatchStoresSlot : Prop :=
  ∀ (s : State) (p : Port) (body : List Byte), s.Takes p .watch body →
    let u := s.settle
    let slot := field body 0 1
    let code := field body 1 1
    let first := field body 2 1
    let last := field body 3 1
    let stores (k : WatchKind) (top : Nat) (status : Status) :=
      let a := min top first
      let b := min top last
      exec (.watch p body) s = .next
        ({ u with report := u.report.set p { u.report.get p with
            watches := (u.report.get p).watches.set slot { kind := k, first := min a b, last := max a b } } }.answered p .watch status
          [byte slot, byte code, byte (min a b), byte (max a b)])
    let ranged (k : WatchKind) (top : Nat) :=
      stores k top (if top < first ∨ top < last then .acceptedClamped else .accepted)
    (3 < slot ∨ 4 < code → exec (.watch p body) s = .next (u.answered p .watch .noSuchObject [])) ∧
    (slot ≤ 3 → code = 0 → stores .none 0 .accepted) ∧
    (slot ≤ 3 → code = 1 → ranged .path 127) ∧
    (slot ≤ 3 → code = 2 → ranged .mic 23) ∧
    (slot ≤ 3 → code = 3 → ranged .feed 7) ∧
    (slot ≤ 3 → code = 4 → stores .global 0 .accepted)

/-- R173: EVENT ENABLE. -/
def Obligations.EventEnableSets : Prop :=
  ∀ (s : State) (p : Port) (body : List Byte), s.Takes p .eventEnable body →
    let u := s.settle
    let r := field body 0 1
    let f := field body 1 1
    exec (.eventEnable p body) s = .next
      ({ u with report := u.report.set p { u.report.get p with
          routineOn := decide (1 ≤ r), faultOn := decide (1 ≤ f) } }.answered p .eventEnable
        (if 1 < r ∨ 1 < f then .acceptedClamped else .accepted) [])

/-- R172: ROUTE checks every kind before it changes any entry, and then takes its list in order. An entry is an event kind and a
destination, one byte each. -/
def Obligations.RouteSetsTable : Prop :=
  (parseRoute [] = [] ∧ ∀ (a b : Byte) (rest : List Byte), parseRoute (a :: b :: rest) = (a.toNat, b.toNat) :: parseRoute rest) ∧
  ∀ (s : State) (p : Port) (body : List Byte), s.Takes p .route body →
    let u := s.settle
    let es := parseRoute body
    ((∃ e ∈ es, e.1 < 1 ∨ 11 < e.1) → exec (.route p body) s = .next (u.answered p .route .noSuchObject [])) ∧
    ((∀ e ∈ es, 1 ≤ e.1 ∧ e.1 ≤ 11) →
      exec (.route p body) s = .next
        ({ u with routes := es.foldl (fun (r : List Dest) (e : Nat × Nat) => r.set (e.1 - 1)
            (match e.2 with
              | 0 => Dest.none
              | 1 => Dest.port0
              | 2 => Dest.port1
              | _ => Dest.both)) u.routes }.answered p .route
          (if ∃ e ∈ es, 3 < e.2 then .acceptedClamped else .accepted) []))

/-- R149, R151: STANDBY sets its port's vote; WAKE clears both votes and, in standby, leaves it at once and raises STANDBY_LEFT with the
block counter. -/
def Obligations.StandbyAndWake : Prop :=
  ∀ (s : State) (p : Port) (body : List Byte),
    let u := s.settle
    let voted : State := { u with stager := u.stager.set p { u.stager.get p with vote := true } }
    let cleared : State := { u with
      stager := { p0 := { u.stager.p0 with vote := false }, p1 := { u.stager.p1 with vote := false } } }
    (s.Takes p .standby body →
      exec (.standby p body) s = .next (voted.answered p .standby .accepted
        [flagByte u.standby, flagByte voted.stager.p0.vote, flagByte voted.stager.p1.vote])) ∧
    (s.Takes p .wake body → u.standby = false →
      exec (.wake p body) s = .next (cleared.answered p .wake .accepted [0#8, 0#8, 0#8])) ∧
    (s.Takes p .wake body → u.standby = true →
      exec (.wake p body) s = .next
        ({ cleared with
            standby := false
            report := (cleared.raise { block := u.array.counter, event := .standbyLeft }).report }.answered p .wake .accepted
          [0#8, 0#8, 0#8]))

/-! ## Resets -/

/-- R163, R155, R157: RESET PART. Every owner is at its reset values (R6, R17, R24, R42, R58, R74, R105, R107, R118, R137, R149, R172 to
R179); the grants and the two-wire address stay; each queue holds PART_RESET; the other port's slot holds NO_REQUEST, a write it was
receiving is ignored, and a read it was sending goes on. The queue of commands and the free values' index stay (log 27), and a
stopped meter timer's mode, period and count (log 9) and an empty watch slot's range (log 17) are the model's own. That a port 0 whose
first byte is not yet whole counts as IDLE, and stays so, is the model's choice too (log 33). -/
def Obligations.ResetPartResets : Prop :=
  ∀ (s : State) (p : Port) (body : List Byte), s.Takes p .resetPart body →
    let q := otherPort p
    let record : Record := { block := 0#32, event := .partReset }
    let other : Ctl :=
      { trans := match (s.ctl.get q).trans with
          | .receiving _ => .ignoring true
          | .idle => .idle
          | .sending copy => .sending copy
          | .ignoring write => .ignoring write
        slot := { kind := 0#8, status := .noRequest, body := [] }
        grant := (s.ctl.get q).grant }
    let own : Ctl :=
      { trans := .idle, slot := { kind := 0x33#8, status := .accepted, body := [] }, grant := (s.ctl.get p).grant }
    exec (.resetPart p body) s = .next { State.reset with
      pending := s.pending
      freeCount := s.settle.freeCount
      twoWireAddr := s.twoWireAddr
      ctl := (s.ctl.set q other).set p own
      report := { p0 := { Report.reset with queue := [record] }, p1 := { Report.reset with queue := [record] } } }

/-- R164, R147, R44: RESET PORT. The port's sets are discarded: their reserved segments are FREE, their pending opens too, in the tables
and in what READ POOL counts (R55), and no other segment and no other record changes. A stopped meter timer's mode, period and count
(log 9) and an empty watch slot's range (log 17) are the model's own. -/
def Obligations.ResetPortDiscards : Prop :=
  ∀ (s : State) (p : Port) (body : List Byte), s.Shaped → s.Takes p .resetPort body →
    let u := s.settle
    let sets := (u.stager.get p).list
    ∃ t, exec (.resetPort p body) s = .next t ∧
      t.stager = u.stager.set p { list := [], hold := false, age := 0, vote := false } ∧
      t.canc = { u.canc with reqMask := u.canc.reqMask.set p 0#24 } ∧
      t.report = u.report.set p Report.reset ∧
      t.ctl = s.ctl.set p
        { trans := .idle, slot := { kind := 0x3F#8, status := .accepted, body := [] }, grant := (s.ctl.get p).grant } ∧
      (∀ i < 1024, t.model.segs[i]? =
        if ∃ c ∈ sets, i ∈ c.change.pathPart.reservations then some .free else u.model.segs[i]?) ∧
      (∀ n, pathAt t.model.paths n =
        if ∃ c ∈ sets, c.object = .path n ∧ c.change.pathPart.opening.isSome = true then .free else pathAt u.model.paths n) ∧
      (∀ i < 1024, t.pool.segs[i]? =
        if ∃ c ∈ sets, i ∈ c.change.pathPart.reservations then some .free else u.pool.segs[i]?) ∧
      (∀ n < 128, t.pool.paths[n]? =
        if ∃ c ∈ sets, c.object = .path n ∧ c.change.pathPart.opening.isSome = true then some .free else u.pool.paths[n]?) ∧
      t = { u with stager := t.stager, canc := t.canc, report := t.report, ctl := t.ctl, pool := t.pool,
                   model := { u.model with segs := t.model.segs, paths := t.model.paths } }

/-- R2, R6, R17, R24, R42, R58, R74, R105, R107, R118, R137, R143, R149, R154, R155, R157, R158, R172 to R179: what a power-on reset leaves,
whatever came before, with the straps as latched. The queue of commands and the free values' index stay (log 27), and a stopped meter
timer's mode, period and count (log 9) and an empty watch slot's range (log 17) are the model's own. -/
def Obligations.PowerOnResetLeaves : Prop :=
  (∀ a b : Bool, (Grant.ofStraps a b).code = (if a then 1 else 0) + (if b then 2 else 0)) ∧
  ∀ (s : State) (x : Straps), ∃ t, exec (.powerOnReset x) s = .next t ∧
    t.feedPort = { store := [], state := .lost, last := List.replicate 8 0#16, repeatMark := false, framing := .search,
                   pin := false } ∧
    t.array = { rows := [], counter := 0#32, degraded := false, feedLive := true, run := .running, stopTimer := true,
                outBuf := List.replicate 64 (List.replicate 24 0#16), framing := .search, pin := false, adout := none } ∧
    t.hist = List.replicate 8 (List.replicate 12288 0#16) ∧
    (∀ a, Memory.read t.model.coefs a = 0#24) ∧ t.model.segs = List.replicate 1024 .free ∧
    t.model.paths = List.replicate 128 .free ∧ t.model.clearList = [] ∧
    t.model.mics = List.replicate 24
      { conv := .idle, talk := .clear, hangover := 0, goodRun := 0, poorRun := 0, divCount := 0, lastClass := .none, theta := 16,
        hang := 8, floor := 32767, peakD := 0, peakE := 0, energyD := 0, energyE := 0, measBlock := 0#32 } ∧
    t.model.gains = List.replicate 24 32767 ∧
    t.model.feeds = List.replicate 8
      { mode := .manual, acq := .manual, b := 0, manualDelay := 0, actFloor := 1048576, probe := 0, acc := List.replicate 256 0,
        counted := 0, countdown := 0, lastLag := 0, lastValidity := .none, dueMove := none, energy := 0, peak := 0,
        active := false } ∧
    t.model.captured = .lost ∧ t.seen = t.model ∧
    t.pool = { segs := List.replicate 1024 .free, paths := List.replicate 128 .free } ∧ t.queues = [[], [], [], []] ∧
    t.globals = { delta := 65536, scan := .fair } ∧
    t.canc.reqMask = ⟨0#24, 0#24⟩ ∧ t.canc.mask = ⟨0#24, 0#24⟩ ∧ t.canc.snapshot = List.replicate 8 false ∧
    t.canc.errD = List.replicate 24 (List.replicate 64 0#16) ∧ t.canc.errE = List.replicate 24 (List.replicate 64 0#16) ∧
    t.proc = none ∧ t.stager.p0 = { list := [], hold := false, age := 0, vote := false } ∧ t.stager.p1 = t.stager.p0 ∧
    t.standby = false ∧
    t.ctl.p0 = { trans := if x.cselLow then .ignoring false else .idle, slot := { kind := 0#8, status := .noRequest, body := [] },
                 grant := Grant.ofStraps x.grant0A x.grant0B } ∧
    t.ctl.p1 = { trans := .idle, slot := { kind := 0#8, status := .noRequest, body := [] },
                 grant := Grant.ofStraps x.grant1A x.grant1B } ∧
    t.twoWireAddr = (if x.addrHigh then 0x2D#7 else 0x2C#7) ∧ t.routes = List.replicate 11 .both ∧
    t.report.p0.queue = [] ∧ t.report.p0.routineOn = true ∧ t.report.p0.faultOn = true ∧
    t.report.p0.counters =
      { feedDrop := ⟨0#16, false⟩, feedRepeat := ⟨0#16, false⟩, feedLosses := ⟨0#16, false⟩, feedFrameFault := ⟨0#16, false⟩,
        arrayFrameFault := ⟨0#16, false⟩, arrayStops := ⟨0#16, false⟩, degradedBlocks := ⟨0#16, false⟩,
        eventsLost := ⟨0#16, false⟩ } ∧
    t.report.p0.meter.running = false ∧ t.report.p0.meter.mask = 0#24 ∧
    t.report.p0.watches = List.replicate 4 { kind := .none, first := 0, last := 0 } ∧ t.report.p1 = t.report.p0 ∧
    t.pending = s.pending ∧ t.freeCount = s.freeCount

/-! ## Block starts -/

/-- R140, R142, R145: a hold whose age has reached 250 ends at the block start that waits for it (log 3), and the block start goes on: every
set of a port that is not holding now applies and leaves its list, and HOLD_EXPIRED comes before APPLIED of the same port. What lands,
what it does to the microphones, the canceller's work on the block and the records are as `State.Lands` says (R66, R72, R84, R128, R130,
R134, R180). -/
def Obligations.HoldExpiryEndsHold : Prop :=
  ∀ (s : State) (p : Proc), s.proc = some p → p.phase = .expiring →
    let ends (g : Stager) : Bool := g.hold && decide (250 ≤ g.age)
    let after (g : Stager) : Stager :=
      if ends g then { g with hold := false, age := 0, list := [] } else if g.hold then g else { g with list := [] }
    let sets (g : Stager) : List ChangeSet := if g.hold && !ends g then [] else g.list
    let all := sets s.stager.p0 ++ sets s.stager.p1
    let record (e : Event) : Record := { block := p.number, event := e }
    let own (q : Port) : List Notice :=
      (if ends (s.stager.get q) then [{ dest := some q, record := record (.holdExpired (sets (s.stager.get q)).length) }] else []) ++
        (if (sets (s.stager.get q)).length = 0 then []
          else [{ dest := some q, record := record (.applied (sets (s.stager.get q)).length) }])
    ∃ t, exec .holdExpired s = .next t ∧
      t.stager = { p0 := after s.stager.p0, p1 := after s.stager.p1 } ∧
      State.Lands s t p all own s ∧
      t.proc = some { p with phase := if p.standby then .align else .supervise, stageQueues := t.queues } ∧
      t.model.captured = s.model.captured ∧
      t.canc.mask = s.canc.reqMask ∧ t.canc.reqMask = s.canc.reqMask ∧ t.canc.snapshot = s.canc.snapshot ∧
      t.array.adout = (if s.array.framing = .search then none
        else some ((if s.array.run = .stopped then List.replicate 24 0#16
          else t.array.outBuf.getD s.array.rows.length (List.replicate 24 0#16)).map slotOfSample)) ∧
      t = { s with
        model := t.model
        globals := t.globals
        queues := t.queues
        stager := t.stager
        canc := t.canc
        array := { s.array with outBuf := t.array.outBuf, adout := t.array.adout }
        proc := t.proc
        report := t.report
        freeCount := t.freeCount }

/-- R31, R35 to R38, R46, R66, R71, R72, R84, R85, R108, R128, R130, R132, R134, R140 to R142, R180: what lands at the block start of the 64th
row when no hold expires at it. Every set of a port that is not holding applies and leaves its list, a holding port's list stays and
its hold ages by one outside standby, and the feed port's state after the frame's read is captured; then what lands, what it does to
the microphones, the canceller's work on the block and the records are as `State.Lands` says. What is unfinished is finished first
(logs 3 and 4). The clauses before say which set an object has, how a feed, a path's settings and the level queues take what lands. -/
def Obligations.BlockStartLandsSets : Prop :=
  (∀ (sets : List ChangeSet) (o : Object),
    (∀ c, (sets.map ChangeSet.object).Nodup → c ∈ sets → c.object = o → changeFor sets o = c.change) ∧
    ((∀ c ∈ sets, c.object ≠ o) → changeFor sets o = .empty o)) ∧
  (∀ (sets : List ChangeSet) (n : Nat) (f : Feed),
    let c := (changeFor sets (.feed n)).feedPart
    let toAuto := c.mode = some .auto ∧ f.mode = .manual
    let toManual := c.mode = some .manual ∧ f.mode = .auto
    let mode := c.mode.getD f.mode
    let restarts := c.acquire = true ∨ toAuto ∨ toManual ∨
      (c.probe.getD f.probe ≠ f.probe ∧ (f.acq = .seek ∨ f.acq = .check))
    landFeed sets n f = { f with
      mode := mode
      acq := if c.acquire = true ∨ toAuto then .seek else if toManual then .manual else f.acq
      b := match c.manualDelay with
        | some d => if mode = .manual then d else f.dueMove.getD f.b
        | none => if toManual then f.manualDelay else f.dueMove.getD f.b
      manualDelay := c.manualDelay.getD f.manualDelay
      actFloor := c.actFloor.getD f.actFloor
      probe := c.probe.getD f.probe
      acc := if restarts then List.replicate 256 0 else f.acc
      counted := if restarts then 0 else f.counted
      countdown := if c.acquire = true ∨ toAuto ∨ toManual then 0 else f.countdown
      dueMove := none }) ∧
  (∀ (m : Model) (sets : List ChangeSet), m.landSettings sets = { m with
    feeds := m.feeds.zipIdx.map fun c => landFeed sets c.2 c.1
    mics := m.mics.zipIdx.map fun c =>
      let d := (changeFor sets (.mic c.2)).micPart
      { c.1 with theta := d.theta.getD c.1.theta, hang := d.hang.getD c.1.hang, floor := d.floor.getD c.1.floor }
    paths := m.paths.zipIdx.map fun c =>
      let d := (changeFor sets (.path c.2)).pathPart
      match c.1 with
      | .opened p => .opened { p with base := d.base.getD p.base, fast := d.fast.getD p.fast, slow := d.slow.getD p.slow,
                                      frozen := d.frozen.getD p.frozen }
      | .pendingOpen mic feed => .pendingOpen mic feed
      | .free => .free }) ∧
  (∀ (mics : List Mic) (q : OpenPath), (micAt mics q.mic).conv ≠ .idle →
    pathLevel mics q = if (micAt mics q.mic).conv = .recover then 3
      else if (micAt mics q.mic).conv = .acquire then min 3 (q.base + 1) else q.base) ∧
  (∀ (old new : List PathRec) (mics : List Mic) (queues : List (List QEntry)),
    (settleQueues old new mics queues).length = 4 ∧
    ∀ level < 4, (settleQueues old new mics queues)[level]? = some (settleQueue old new mics level (queues.getD level []))) ∧
  (∀ (old new : List PathRec) (mics : List Mic) (level : Nat) (queue : List QEntry),
    let at_ (e : QEntry) : Prop := ∃ q w, windowAt new e = some (q, w) ∧ pathLevel mics q = level
    ∃ kept joined, settleQueue old new mics level queue = kept ++ joined ∧
      kept = (queue.filterMap (carriedEntry old new)).filter (fun e => entryLevel new mics e == some level) ∧
      (∀ e, entryLevel new mics e = some level ↔ at_ e) ∧ (∀ e ∈ kept, at_ e) ∧ (∀ e, e ∈ joined ↔ at_ e ∧ e ∉ kept) ∧
      joined.Pairwise (fun d e => d.path < e.path ∨ (d.path = e.path ∧ d.index < e.index))) ∧
  (∀ (old new : List PathRec) (e : QEntry),
    (∀ e', carriedEntry old new e = some e' → e'.path = e.path ∧ ∃ p w q v, windowAt old e = some (p, w) ∧
      windowAt new e' = some (q, v) ∧ v.start = w.start ∧ v.len = w.len) ∧
    (∀ p w q v i, windowAt old e = some (p, w) → windowAt new { path := e.path, index := i } = some (q, v) → v.start = w.start →
      v.len = w.len → carriedEntry old new e ≠ none)) ∧
  ∀ (s : State) (b : LineBit) (fr : Framing) (f : FrameEnd), s.array.framing.onBit 768 s.array.pin b = (fr, some f) →
    let u := s.settle.finishBeforeWrite
    let v := { u with array := { u.array with stopTimer := true } }.resume
    let r := v.feedRead
    let row := match f with
      | .wellFormed slots => slots.map sampleOfSlot
      | .faulted => List.replicate 24 0#16
    let degraded := u.array.degraded || f == .faulted
    let x := if f = .faulted then r.1.countBoth .arrayFrameFault else r.1
    let z := (if degraded then x.countBoth .degradedBlocks else x).slipCheck
    let after (g : Stager) : Stager :=
      if g.hold then (if u.standby then g else { g with age := g.age + 1 }) else { g with list := [] }
    let sets (g : Stager) : List ChangeSet := if g.hold then [] else g.list
    let own (q : Port) : List Notice :=
      if (sets (u.stager.get q)).length = 0 then []
      else [{ dest := some q, record := { block := u.array.counter, event := .applied (sets (u.stager.get q)).length } }]
    u.array.rows.length = 63 →
    (u.standby = true ∨ ((u.stager.p0.hold = true → u.stager.p0.age < 249) ∧ (u.stager.p1.hold = true → u.stager.p1.age < 249))) →
    ∃ t q, exec (.arrayFrameArrival [b]) s = .next t ∧ t.proc = some q ∧
      q = { number := u.array.counter, rows := u.array.rows ++ [row], degraded := degraded, feedLive := r.1.array.feedLive,
            standby := u.standby, writesSince := 0, phase := if u.standby then .align else .supervise, excited := [], grants := [],
            stageQueues := t.queues } ∧
      t.stager = { p0 := after u.stager.p0, p1 := after u.stager.p1 } ∧
      State.Lands { u with model := { u.model with captured := r.1.feedPort.state } } t q
        (sets u.stager.p0 ++ sets u.stager.p1) own z ∧
      t.model.captured = r.1.feedPort.state ∧
      t.canc.mask = u.canc.reqMask ∧ t.canc.reqMask = u.canc.reqMask ∧ t.canc.snapshot = u.canc.snapshot ∧
      t.hist = (u.hist.zipIdx.map fun c => r.2.getD c.2 0#16 :: c.1.take 12287) ∧
      t.array =
        { rows := []
          counter := u.array.counter + 1#32
          degraded := false
          feedLive := true
          run := .running
          stopTimer := true
          outBuf := t.array.outBuf
          framing := fr
          pin := b.sync
          adout := match f with
            | .wellFormed _ => none
            | .faulted => some ((t.array.outBuf.getD 0 (List.replicate 24 0#16)).map slotOfSample) } ∧
      t = { u with
        feedPort := z.feedPort
        array := t.array
        hist := t.hist
        model := t.model
        queues := t.queues
        globals := t.globals
        canc := t.canc
        proc := t.proc
        stager := t.stager
        report := t.report
        freeCount := t.freeCount }

/-- R75 to R88: the canceller takes a block. A muted microphone sends zeros. In standby the input goes out and nothing else is touched;
outside it an IDLE microphone's input goes out, and any other's error at the gain after each sample's step, toward the floor in
force when the microphone is CLEAR and one of its feeds was active, else toward full gain. -/
def Obligations.CancellerCancelsBlock : Prop :=
  ∀ (s : State) (p : Proc),
    let t := s.cancelBlock p
    let muted (m : Nat) : Bool := s.canc.reqMask.p0.getLsbD m || s.canc.reqMask.p1.getLsbD m
    let out (m i : Nat) : Sample := (t.array.outBuf.getD i []).getD m 0#16
    let acc (m i : Nat) : Int :=
      ((pathsOnMic s.model.paths m).map fun c => (c.2.windows.map fun w => (w.taps.map fun k =>
        (Memory.read s.model.coefs k.2).toInt *
          histAt s.hist c.2.feed (p.writesSince + (63 - i) + ((feedAt s.model.feeds c.2.feed).b + k.1))).sum).sum).sum
    let target (m : Nat) : Nat :=
      if (micAt s.model.mics m).talk = .clear ∧
          ((pathsOnMic s.model.paths m).any fun c => s.canc.snapshot.getD c.2.feed false) = true then
        (micAt s.model.mics m).floor
      else 32767
    (∀ m < 24, ∀ i < 64, muted m = true → out m i = 0#16) ∧
    (p.standby = true → t.model.gains = s.model.gains ∧ t.canc.errD = s.canc.errD ∧ t.canc.errE = s.canc.errE ∧
      ∀ m < 24, ∀ i < 64, muted m = false → out m i = inputAt p.rows m i) ∧
    (p.standby = false → ∀ m < 24, ∃ e : Nat → Sample, ∃ g : Nat → Nat,
      let idle := (micAt s.model.mics m).conv = .idle
      g 0 = s.model.gains.getD m 32767 ∧ t.model.gains.getD m 32767 = g 64 ∧
      ∀ i < 64,
        e i = (if idle then inputAt p.rows m i else errorOf (inputAt p.rows m i) (acc m i)) ∧
        (t.canc.errD.getD m []).getD i 0#16 = inputAt p.rows m i ∧ (t.canc.errE.getD m []).getD i 0#16 = e i ∧
        g (i + 1) = (if idle then g i else rampGain (target m) (g i)) ∧
        (muted m = false → out m i = if idle then inputAt p.rows m i else residualOut (e i) (g (i + 1)))) ∧
    t = { s with
      model := { s.model with gains := t.model.gains }
      canc := { s.canc with mask := s.canc.reqMask, errD := t.canc.errD, errE := t.canc.errE }
      array := { s.array with outBuf := t.array.outBuf, adout := t.array.adout } }

/-- R45, R46, R47, R51, R53, R62, R65, R68, R69: the steps of a block start on the tap store, taken after the settings in the order
clears, closes, reshapes and opens, tap writes. The clear step zeroes the segments of the open paths that are on
the clear list, named by a CLEAR MODEL, or on a feed whose b a set changed, and nothing else, and empties the list. A close zeroes
and frees the path's segments. A reshape and an open lay out the windows of the set's list: a delay block in both layouts keeps its
segment, a new one takes the next reserved segment in ascending order, the segments of dropped ones are zeroed and FREE, and the
reserved segments left over are FREE; a window of the same start and length keeps its grant age, any other starts at 0. A tap write
replaces the coefficients of the delays that the path's windows cover, and nothing else. A set without a close, without an open or a
window list for an open path, or without taps for an open path, changes nothing in that step. (Reservations that are too few for the
new delay blocks, and a delay written twice, occur in no run, log 31.) R40: the clauses before say which address a delay of a window
has, coefficient k mod 64 of the segment that backs delay block k / 64, in what the stages read and write and in what READ TAPS shows
(R48, R54), which delay blocks a path's segments back, its total taps (R57), and which paths are OPEN, and open on a microphone. -/
def Obligations.BlockStartStepsOnTapStore : Prop :=
  (∀ (u : State) (w : Window), w.start % 64 = 0 → w.len = 64 * w.segs.length →
    w.taps.map Prod.fst = (List.range w.len).map (w.start + ·) ∧
    (∀ k a, (k, a) ∈ w.taps ↔ w.tapAddr k = some a) ∧
    (∀ i j seg, w.segs[i]? = some seg → j < 64 → w.tapAddr (w.start + 64 * i + j) = some (seg * 64 + j)) ∧
    (∀ k, k < w.start ∨ w.start + w.len ≤ k → w.tapAddr k = none) ∧
    (∀ k a, w.tapAddr k = some a → seenTap u w k = Memory.read u.seen.coefs a)) ∧
  (∀ (q : OpenPath) (k : Nat),
    (∀ a, q.tapAddr k = some a → ∃ w ∈ q.windows, w.tapAddr k = some a) ∧
    (q.tapAddr k = none ↔ ∀ w ∈ q.windows, w.tapAddr k = none) ∧
    q.totalTaps = (q.windows.map Window.len).sum ∧ q.segs = q.windows.flatMap Window.segs ∧
    ∀ seg, (k, seg) ∈ q.backing ↔ ∃ w ∈ q.windows, ∃ i < w.len / 64, k = w.start / 64 + i ∧ w.segs[i]? = some seg) ∧
  (∀ paths : List PathRec,
    ((openPaths paths).map Prod.fst).Pairwise (· < ·) ∧
    (∀ n q, (n, q) ∈ openPaths paths ↔ paths[n]? = some (.opened q)) ∧
    ∀ m, pathsOnMic paths m = (openPaths paths).filter fun c => c.2.mic == m) ∧
  (∀ (m : Model) (sets : List ChangeSet), m.applySets sets =
    sets.foldl Model.tapStep (sets.foldl Model.shapeStep (sets.foldl Model.closeStep ((m.landSettings sets).clearStep sets
      fun f => (landFeed sets f (feedAt m.feeds f)).b != (feedAt m.feeds f).dueMove.getD (feedAt m.feeds f).b)))) ∧
  (∀ (sets : List ChangeSet) (n : Nat) (q : OpenPath), namedByClear sets n q = true ↔
    (changeFor sets .global).globalPart.clear = true ∨ (changeFor sets (.mic q.mic)).micPart.clear = true ∨
      (changeFor sets (.path n)).pathPart.clear = true) ∧
  (∀ (m : Model) (sets : List ChangeSet) (moved : Nat → Bool) (a : Nat),
    let cleared := ∃ c ∈ openPaths m.paths,
      (c.1 ∈ m.clearList ∨ namedByClear sets c.1 c.2 = true ∨ moved c.2.feed = true) ∧ a / 64 ∈ c.2.segs
    (cleared → Memory.read (m.clearStep sets moved).coefs a = 0#24) ∧
    (¬ cleared → Memory.read (m.clearStep sets moved).coefs a = Memory.read m.coefs a) ∧
    m.clearStep sets moved = { m with coefs := (m.clearStep sets moved).coefs, clearList := [] }) ∧
  (∀ (m : Model) (c : ChangeSet) (n : Nat) (d : PathChange) (q : OpenPath), c.change = .path n d → d.close = true →
    pathAt m.paths n = .opened q → n < m.paths.length →
    (∀ a, Memory.read (m.closeStep c).coefs a = if a / 64 ∈ q.segs then 0#24 else Memory.read m.coefs a) ∧
    (∀ i < m.segs.length, (m.closeStep c).segs[i]? = if i ∈ q.segs then some .free else m.segs[i]?) ∧
    (∀ k, pathAt (m.closeStep c).paths k = if k = n then .free else pathAt m.paths k)) ∧
  (∀ (m : Model) (c : ChangeSet),
    m.closeStep c = { m with
      coefs := (m.closeStep c).coefs, segs := (m.closeStep c).segs, paths := (m.closeStep c).paths } ∧
    m.shapeStep c = { m with
      coefs := (m.shapeStep c).coefs, segs := (m.shapeStep c).segs, paths := (m.shapeStep c).paths } ∧
    m.tapStep c = { m with coefs := (m.tapStep c).coefs } ∧
    ((∀ n d q, c.change = .path n d → pathAt m.paths n = .opened q → d.close = false) → m.closeStep c = m) ∧
    ((∀ n d, c.change = .path n d →
      d.opening = none ∧ ∀ q, pathAt m.paths n = .opened q → d.windows = none) → m.shapeStep c = m) ∧
    ((∀ n d q, c.change = .path n d → pathAt m.paths n = .opened q → d.taps = []) → m.tapStep c = m)) ∧
  (∀ (m : Model) (c : ChangeSet) (n : Nat) (d : PathChange) (q : OpenPath) (layout : List Geom), c.change = .path n d →
    n < m.paths.length →
    ((∃ o, d.opening = some o ∧ layout = d.windows.getD o.windows ∧
        q = { mic := o.mic, feed := o.feed, windows := [], base := d.base.getD o.base, fast := d.fast.getD o.fast,
              slow := d.slow.getD o.slow, frozen := d.frozen.getD false }) ∨
      (d.opening = none ∧ d.windows = some layout ∧ pathAt m.paths n = .opened q)) →
    let blocks := layoutBlocks layout
    let dropped := (q.backing.filter fun c => !blocks.contains c.1).map Prod.snd
    let fresh := blocks.filter fun k => !(q.backing.map Prod.fst).contains k
    fresh.length ≤ d.reservations.length →
    let t := m.shapeStep c
    ∃ ws, pathAt t.paths n = .opened { q with windows := ws } ∧
      (ws.map fun w => ({ start := w.start, len := w.len } : Geom)) = layout ∧
      (({ q with windows := ws } : OpenPath).backing.map Prod.fst = blocks) ∧
      (∀ b : Nat × Nat, b ∈ ({ q with windows := ws } : OpenPath).backing → b ∈ q.backing ∨
        (b.1 ∉ q.backing.map Prod.fst ∧ ∃ i : Nat, fresh[i]? = some b.1 ∧ d.reservations[i]? = some b.2)) ∧
      (∀ w ∈ ws, (∃ a ∈ q.windows, a.start = w.start ∧ a.len = w.len ∧ w.age = a.age) ∨
        ((∀ a ∈ q.windows, a.start = w.start → a.len ≠ w.len) ∧ w.age = 0)) ∧
      (∀ a, Memory.read t.coefs a = if a / 64 ∈ dropped then 0#24 else Memory.read m.coefs a) ∧
      (∀ i < m.segs.length, t.segs[i]? =
        if i ∈ d.reservations.drop fresh.length then some .free
        else if i ∈ d.reservations.take fresh.length then some .inUse
        else if i ∈ dropped then some .free else m.segs[i]?) ∧
      (∀ k, k ≠ n → pathAt t.paths k = pathAt m.paths k) ∧
      t = { m with coefs := t.coefs, segs := t.segs, paths := t.paths }) ∧
  (∀ (m : Model) (c : ChangeSet) (n : Nat) (d : PathChange) (q : OpenPath), Memory.wf m.coefs → c.change = .path n d →
    pathAt m.paths n = .opened q →
    let writes := d.taps.filterMap fun t => (q.tapAddr t.1).map fun a => (a, t.2)
    (writes.map Prod.fst).Nodup →
    (∀ w ∈ writes, Memory.read (m.tapStep c).coefs w.1 = w.2) ∧
    (∀ a, (∀ w ∈ writes, w.1 ≠ a) → Memory.read (m.tapStep c).coefs a = Memory.read m.coefs a) ∧
    m.tapStep c = { m with coefs := (m.tapStep c).coefs })

/-! ## Stages of a block's processing -/

/-- R119 to R125: the supervisor's stage evaluates every microphone: its measures, its talk state (not in a degraded block), whether the
block is excited for it, and, if it is, its class and its runs. Convergence states and settings stay. The clauses before say what
peak_x, an active feed, an energy and a peak are (R120, R121, R123). -/
def Obligations.SupervisorEvaluates : Prop :=
  (∀ (s : State) (m : Nat),
    let peak (c : Nat × OpenPath) : Nat := (feedAt s.model.feeds c.2.feed).peak
    (∀ c ∈ pathsOnMic s.model.paths m, peak c ≤ peakX s m) ∧
    (peakX s m = 0 ∨ ∃ c ∈ pathsOnMic s.model.paths m, peak c = peakX s m) ∧
    (anyFeedActive s m = true ↔ ∃ c ∈ pathsOnMic s.model.paths m, (feedAt s.model.feeds c.2.feed).active = true)) ∧
  (∀ l : List Sample,
    energyOf l = (l.map fun x => x.toInt.natAbs * x.toInt.natAbs).sum ∧ (∀ x ∈ l, x.toInt.natAbs ≤ peakOf l) ∧
    (peakOf l = 0 ∨ ∃ x ∈ l, x.toInt.natAbs = peakOf l)) ∧
  ∀ (s : State) (p : Proc), s.proc = some p → p.phase = .supervise →
    ∃ t q, exec .supervisorStage s = .next t ∧ t.proc = some q ∧
      t = { s with model := { s.model with mics := t.model.mics }, proc := some q } ∧
      q = { p with phase := .align, excited := q.excited, stageQueues := s.queues } ∧
      ∀ m < s.model.mics.length,
        let a := micAt s.model.mics m
        let b := micAt t.model.mics m
        let d := s.canc.errD.getD m []
        let e := s.canc.errE.getD m []
        let talks := a.theta * peakX s m < 16 * b.peakD
        let excited := p.degraded = false ∧ b.talk = .clear ∧ anyFeedActive s m = true
        (m ∈ q.excited ↔ excited) ∧
        b.peakD = peakOf d ∧ b.peakE = peakOf e ∧ b.energyD = energyOf d ∧ b.energyE = energyOf e ∧ b.measBlock = p.number ∧
        (p.degraded = true → b.talk = a.talk ∧ b.hangover = a.hangover) ∧
        (p.degraded = false → talks → b.talk = .talk ∧ b.hangover = a.hang) ∧
        (p.degraded = false → ¬ talks → a.hangover = 0 → b.talk = .clear ∧ b.hangover = 0) ∧
        (p.degraded = false → ¬ talks → 0 < a.hangover → b.talk = a.talk ∧ b.hangover = a.hangover - 1) ∧
        (¬ excited → b.lastClass = a.lastClass ∧ b.goodRun = a.goodRun ∧ b.poorRun = a.poorRun ∧ b.divCount = a.divCount) ∧
        (excited → 32 * b.energyE ≤ b.energyD →
          b.lastClass = .good ∧ b.goodRun = min (a.goodRun + 1) 65535 ∧ b.poorRun = 0 ∧ b.divCount = 0) ∧
        (excited → 4 * b.energyE ≤ b.energyD → b.energyD < 32 * b.energyE →
          b.lastClass = .fair ∧ b.goodRun = 0 ∧ b.poorRun = 0 ∧ b.divCount = 0) ∧
        (excited → b.energyD < 4 * b.energyE → b.energyE ≤ 4 * b.energyD →
          b.lastClass = .poor ∧ b.goodRun = 0 ∧ b.poorRun = min (a.poorRun + 1) 65535 ∧ b.divCount = 0) ∧
        (excited → 4 * b.energyD < b.energyE →
          b.lastClass = .poor ∧ b.goodRun = 0 ∧ b.poorRun = min (a.poorRun + 1) 65535 ∧ b.divCount = a.divCount + 1) ∧
        b.conv = a.conv ∧ b.theta = a.theta ∧ b.hang = a.hang ∧ b.floor = a.floor

/-- R126, R127, R130: a run that reaches its threshold, and a divergence count that reaches 8, at the microphone whose turn it is (in
ascending number, log 5). Its runs become 0, MIC_STATE is raised when the state changes, and the windows settle from their places at
the start of the stage (log 6); a divergence also puts the microphone's paths on the clear list and raises MIC_DIVERGED. The clause
before says whose turn it is: after the supervisor's stage of a block cancelled outside standby, the lowest-numbered microphone for
which step 5 is due; and that the clear list holds a path at most once (R47). -/
def Obligations.SupervisorVerdicts : Prop :=
  let due (a : Mic) : Prop := 8 ≤ a.divCount ∨ ((a.conv = .acquire ∨ a.conv = .recover) ∧ 4 ≤ a.goodRun) ∨
    (a.conv = .converged ∧ 25 ≤ a.poorRun)
  (∀ mics : List Mic, verdictsDue mics = [] ↔ ∀ m < mics.length, ¬ due (micAt mics m)) ∧
  (∀ (s : State) (m : Nat), s.verdictTurn m = true ↔
    (∃ p, s.proc = some p ∧ p.phase = .align ∧ p.standby = false) ∧ m < s.model.mics.length ∧ due (micAt s.model.mics m) ∧
      ∀ k < m, ¬ due (micAt s.model.mics k)) ∧
  (∀ (l new : List Nat), l <+: addAll l new ∧ (l.Nodup → (addAll l new).Nodup) ∧ ∀ n, n ∈ addAll l new ↔ n ∈ l ∨ n ∈ new) ∧
  ∀ (s : State) (p : Proc) (m : Nat), s.proc = some p → s.verdictTurn m = true →
    let mic := micAt s.model.mics m
    let mine := (pathsOnMic s.model.paths m).map Prod.fst
    let mics (c : Conv) := s.model.mics.set m { mic with conv := c, goodRun := 0, poorRun := 0, divCount := 0 }
    let goes (c : Conv) : State := { s with
      model := { s.model with mics := mics c }
      queues := settleQueues s.model.paths s.model.paths (mics c) p.stageQueues }
    let cleared : State := { goes .acquire with model := { (goes .acquire).model with clearList := addAll s.model.clearList mine } }
    let record (e : Event) : Record := { block := p.number, event := e }
    (mic.divCount < 8 → mic.conv = .acquire → 4 ≤ mic.goodRun →
      exec (.runThreshold m) s = .next ((goes .converged).raise (record (.micState m .acquire .converged .goodRun)))) ∧
    (mic.divCount < 8 → mic.conv = .converged → 25 ≤ mic.poorRun →
      exec (.runThreshold m) s = .next ((goes .recover).raise (record (.micState m .converged .recover .poorRun)))) ∧
    (mic.divCount < 8 → mic.conv = .recover → 4 ≤ mic.goodRun →
      exec (.runThreshold m) s = .next ((goes .converged).raise (record (.micState m .recover .converged .goodRun)))) ∧
    (8 ≤ mic.divCount → mic.conv = .acquire →
      exec (.micDiverged m) s = .next (cleared.raise (record (.micDiverged m .acquire mine.length)))) ∧
    (8 ≤ mic.divCount → mic.conv ≠ .acquire →
      exec (.micDiverged m) s = .next
        ((cleared.raise (record (.micState m mic.conv .acquire .diverged))).raise
          (record (.micDiverged m mic.conv mine.length))))

/-- R21, R26, R27, R32, R39: the alignment unit's stage recomputes the measures of every feed, counts the block for the searches it is
fit for, and takes one from each check countdown. A block cancelled in standby has no later stage, and reads and READ POOL see its
state (R55, R160). No processing is in progress at a STOPPED array port (ArrayStopsAndResumes, log 35). -/
def Obligations.AlignmentStageMeasures : Prop :=
  (∀ (s : State) (p : Proc), s.proc = some p → p.phase = .align → (p.standby = true ∨ verdictsDue s.model.mics = []) →
    ∃ t, exec .alignmentStage s = .next t ∧
      (p.standby = true → t.proc = none ∧ t.seen = t.model ∧
        t.pool = { segs := t.model.segs, paths := t.model.paths.map PathRec.status }) ∧
      (p.standby = false → t.proc = some { p with phase := .arbitrate, stageQueues := s.queues } ∧ t.seen = s.seen ∧
        t.pool = s.pool) ∧
      t.model = { s.model with feeds := t.model.feeds } ∧ t.model.feeds.length = s.model.feeds.length ∧
      t = { s with model := t.model, proc := t.proc, seen := t.seen, pool := t.pool } ∧
      ∀ f < s.model.feeds.length,
        let a := feedAt s.model.feeds f
        let b := feedAt t.model.feeds f
        let x := ((s.hist.getD f []).drop (p.writesSince + a.b)).take 1024
        let counted := (a.acq = .seek ∨ a.acq = .check) ∧ p.standby = false ∧ b.active = true ∧
          (micAt s.model.mics a.probe).talk = .clear ∧ p.degraded = false ∧ p.feedLive = true
        b.energy = (x.map fun v => v.toInt.natAbs * v.toInt.natAbs).sum ∧
        (∀ v ∈ x, v.toInt.natAbs ≤ b.peak) ∧ (b.peak = 0 ∨ ∃ v ∈ x, v.toInt.natAbs = b.peak) ∧
        (b.active = true ↔ a.actFloor ≤ b.energy) ∧
        (counted → b.counted = a.counted + 1 ∧
          ∀ i < a.acc.length, b.acc.getD i 0 = a.acc.getD i 0 + sumTo 64 fun n =>
            (inputAt p.rows a.probe n).toInt * histAt s.hist f (p.writesSince + (63 - n) + 8 * i)) ∧
        (¬ counted → b.counted = a.counted ∧ b.acc = a.acc) ∧
        (a.acq = .locked → p.standby = false → b.countdown = a.countdown - 1) ∧
        (a.acq ≠ .locked ∨ p.standby = true → b.countdown = a.countdown) ∧
        b = { a with energy := b.energy, peak := b.peak, active := b.active, acc := b.acc, counted := b.counted,
                     countdown := b.countdown }) ∧
  (∀ (s : State) (p : Proc) (f : Nat), s.proc = some p → p.phase = .arbitrate → f < s.model.feeds.length →
    (feedAt s.model.feeds f).acq = .locked → (feedAt s.model.feeds f).countdown = 0 →
    exec (.checkCountdownExpiry f) s = .next { s with
      model := { s.model with feeds := s.model.feeds.set f { feedAt s.model.feeds f with
        acq := .check, acc := List.replicate 256 0, counted := 0 } } })

/-- R28 to R31, R33, R129: the results of the searches that have their 64 counted blocks, and their events: BULK_LOCKED for a valid one
formed in SEEK, BULK_MOVED for a move decided in CHECK, BULK_WEAK for a weak one, and MIC_STATE for each microphone that a move sends
to ACQUIRE from another state, in ascending microphone number (R132); the order is free else (logs 7 and 20). -/
def Obligations.BulkResultForms : Prop :=
  (∀ a : Feed, (a.resultDue = true ↔ (a.acq = .seek ∨ a.acq = .check) ∧ 64 ≤ a.counted) ∧ bestLag a.acc % 8 = 0) ∧
  ∀ (s : State) (p : Proc), s.proc = some p → p.phase = .arbitrate → s.model.feeds.any Feed.resultDue = true →
    let moves (f : Nat) : Bool := (feedAt s.model.feeds f).decidesMove
    let moved := (openPaths s.model.paths).filter fun c => moves c.2.feed
    let events (n : Nat) (a : Feed) : List Event :=
      let lag := bestLag a.acc
      let far := 16 < (lag - 64) - a.b ∨ 16 < a.b - (lag - 64)
      if ¬ ((a.acq = .seek ∨ a.acq = .check) ∧ 64 ≤ a.counted) then []
      else if 4 * (a.acc.map Int.natAbs).sum ≤ (a.acc.getD (lag / 8) 0).natAbs * 256 then
        if a.acq = .seek then [.bulkLocked n (decide far) (if far then lag - 64 else a.b)]
        else if far then [.bulkMoved n a.b (lag - 64)]
        else []
      else [.bulkWeak n lag a.acq]
    let states : List Notice := s.model.mics.zipIdx.flatMap fun c =>
      if (∃ d ∈ moved, d.2.mic = c.2) ∧ c.1.conv ≠ .acquire then
        [{ dest := none, record := { block := p.number, event := .micState c.2 c.1.conv .acquire .bulkMove } }]
      else []
    ∃ t, exec .bulkResult s = .next t ∧
      (∀ f < s.model.feeds.length,
        let a := feedAt s.model.feeds f
        let b := feedAt t.model.feeds f
        let due := (a.acq = .seek ∨ a.acq = .check) ∧ 64 ≤ a.counted
        let lag := bestLag a.acc
        let peak := (a.acc.getD (lag / 8) 0).natAbs
        let valid := 4 * (a.acc.map Int.natAbs).sum ≤ peak * 256
        let far := 16 < (lag - 64) - a.b ∨ 16 < a.b - (lag - 64)
        (∀ c ∈ a.acc, c.natAbs ≤ peak) ∧ (∀ i < lag / 8, (a.acc.getD i 0).natAbs < peak) ∧
        (moves f = true ↔ due ∧ valid ∧ far) ∧
        (¬ due → b = a) ∧
        (due → b = { a with
          acc := List.replicate 256 0
          counted := 0
          lastLag := lag
          lastValidity := if valid then .valid else .weak
          acq := if ¬ valid ∧ a.acq = .seek then .seek else .locked
          countdown := if ¬ valid ∧ a.acq = .seek then a.countdown else 4096
          dueMove := if valid ∧ far then some (lag - 64) else a.dueMove })) ∧
      (∀ n, n ∈ t.model.clearList ↔ n ∈ s.model.clearList ∨ ∃ c ∈ moved, c.1 = n) ∧
      (∀ m < s.model.mics.length, micAt t.model.mics m =
        if ∃ c ∈ moved, c.2.mic = m then
          { micAt s.model.mics m with conv := .acquire, goodRun := 0, poorRun := 0, divCount := 0 }
        else micAt s.model.mics m) ∧
      (∃ l : List Notice, t.report = (l.foldl State.post s).report ∧ states.Sublist l ∧
        l.Perm ((s.model.feeds.zipIdx.flatMap fun c =>
            (events c.2 c.1).map fun e => { dest := none, record := { block := p.number, event := e } }) ++ states)) ∧
      t.queues = settleQueues s.model.paths s.model.paths t.model.mics p.stageQueues ∧
      t = { s with
        model := { s.model with feeds := t.model.feeds, mics := t.model.mics, clearList := t.model.clearList }
        queues := t.queues
        report := t.report
        freeCount := t.freeCount }

/-- R93, R110 to R114: the arbiter's stage. The levels are scanned from 3 to 0 with a budget of 16,384 taps; a window that does not request
is passed over, one that fits is granted, and one that does not fit stops a FAIR scan and is passed over in a GREEDY one; granted
windows go to the tail; a FAIR stop leaves the levels below as they are; every window not granted ages by one, up to 65,535, and the
records that are not OPEN stay. -/
def Obligations.ArbiterGrantsWithinBudget : Prop :=
  (∀ (req : QEntry → Bool) (len : QEntry → Nat) (scan : Scan) (left : Nat) (e : QEntry) (es : List QEntry),
    scanQueue req len scan left [] = ([], left, false) ∧
    (req e = false → scanQueue req len scan left (e :: es) = scanQueue req len scan left es) ∧
    (req e = true → len e ≤ left → scanQueue req len scan left (e :: es) =
      (e :: (scanQueue req len scan (left - len e) es).1, (scanQueue req len scan (left - len e) es).2)) ∧
    (req e = true → left < len e → scanQueue req len .fair left (e :: es) = ([], left, true)) ∧
    (req e = true → left < len e → scanQueue req len .greedy left (e :: es) = scanQueue req len .greedy left es)) ∧
  (∀ granted queue : List QEntry, requeue granted queue = (queue.filter fun e => !granted.contains e) ++ granted) ∧
  (∀ (req : QEntry → Bool) (len : QEntry → Nat) (scan : Scan) (a : Arbitration) (l : Nat),
    let queue := a.queues.getD l []
    let r := scanQueue req len scan a.left queue
    (a.stopped = true → a.level req len scan l = a) ∧
    (a.stopped = false → a.level req len scan l =
      { queues := a.queues.set l (requeue r.1 queue), granted := a.granted ++ r.1, left := r.2.1, stopped := r.2.2 })) ∧
  (∀ (paths : List PathRec) (e : QEntry) (q : OpenPath) (w : Window),
    windowAt paths e = some (q, w) ↔ pathAt paths e.path = .opened q ∧ q.windows[e.index]? = some w) ∧
  (∀ (s : State) (p : Proc) (e : QEntry),
    (∀ q w, windowAt s.model.paths e = some (q, w) →
      entryRequests s p e = pathRequests s p e.path q ∧ entryLength s e = w.len) ∧
    (windowAt s.model.paths e = none → entryRequests s p e = false ∧ entryLength s e = 0)) ∧
  (∀ s : State, s.resultsPending = true ↔ ∃ a ∈ s.model.feeds,
    ((a.acq = .seek ∨ a.acq = .check) ∧ 64 ≤ a.counted) ∨ (a.acq = .locked ∧ a.countdown = 0)) ∧
  (∀ (s : State) (p : Proc) (n : Nat) (q : OpenPath), pathRequests s p n q = true ↔
    q.frozen = false ∧ p.standby = false ∧ q.mic ∈ p.excited ∧ (micAt s.model.mics q.mic).conv ≠ .idle ∧
      (feedAt s.model.feeds q.feed).active = true ∧ p.feedLive = true ∧ n ∉ s.model.clearList ∧ s.owner (.path n) = none) ∧
  (∀ (s : State) (p : Proc), s.proc = some p → p.phase = .arbitrate → s.resultsPending = false →
    let a := [3, 2, 1, 0].foldl (Arbitration.level (entryRequests s p) (entryLength s) s.globals.scan)
      { queues := s.queues, granted := [], left := 16384, stopped := false }
    ∃ t, exec .arbiterStage s = .next t ∧ t.queues = a.queues ∧
      t.proc = some { p with phase := .update, grants := a.granted } ∧
      (∀ e ∈ a.granted, entryRequests s p e = true) ∧ (a.granted.map (entryLength s)).sum ≤ 16384 ∧
      (∀ n q, pathAt s.model.paths n = .opened q → n < s.model.paths.length →
        pathAt t.model.paths n = .opened { q with windows := q.windows.zipIdx.map fun w =>
          { w.1 with age := if { path := n, index := w.2 } ∈ a.granted then 0 else min (w.1.age + 1) 65535 } }) ∧
      (∀ n : Nat, (∀ q, s.model.paths[n]? ≠ some (.opened q)) → t.model.paths[n]? = s.model.paths[n]?) ∧
      t = { s with queues := t.queues, proc := t.proc, model := { s.model with paths := t.model.paths } })

/-- R48, R81, R92, R96 to R101, R150, R160, R178: the update stage. Where no two granted taps share an address (no segment backs two windows,
R41), every tap of a granted window takes its old value plus its increment, clamped, and every other address keeps its value (the clause before says
which addresses are written: those of the granted windows' taps); the snapshot takes the active flags, the meter timers count, and the part enters standby when the votes say so. With no meter expiry due,
STANDBY_ENTERED is raised if the part enters standby, and the processing is complete; otherwise the meter expiries come next, and
STANDBY_ENTERED joins before or among them (R171, log 7). No processing is in progress at a STOPPED
array port (R48, R150, R178; ArrayStopsAndResumes, log 35). -/
def Obligations.UpdateStageWrites : Prop :=
  (∀ (s : State) (p : Proc) (e : QEntry),
    (∀ q w, windowAt s.model.paths e = some (q, w) → (windowUpdates s p e).map Prod.fst = w.taps.map Prod.snd) ∧
    (windowAt s.model.paths e = none → windowUpdates s p e = [])) ∧
  ∀ (s : State) (p : Proc), s.proc = some p → p.phase = .update →
    let votes := s.stager.p0.vote || s.stager.p1.vote
    let agree := (s.ctl.p0.grant != .control || s.stager.p0.vote) && (s.ctl.p1.grant != .control || s.stager.p1.vote)
    let tick (m : Meter) : Meter := if m.running then { m with count := m.count - 1 } else m
    let ticked : PerPort Report := { p0 := { s.report.p0 with meter := tick s.report.p0.meter },
                                     p1 := { s.report.p1 with meter := tick s.report.p1.meter } }
    let enters := !s.standby && votes && agree
    let raised := ({ s with report := ticked }.raise { block := p.number, event := .standbyEntered }).report
    let due := ∃ q, (ticked.get q).meter.running = true ∧ (ticked.get q).meter.count = 0
    ∃ t, exec .updateStage s = .next t ∧
      (Memory.wf s.model.coefs → ((p.grants.flatMap (windowUpdates s p)).map Prod.fst).Nodup →
        (∀ e ∈ p.grants, ∀ q w, windowAt s.model.paths e = some (q, w) → ∀ k a, (k, a) ∈ w.taps →
          let b := (feedAt s.model.feeds q.feed).b
          let g := sumTo 64 fun i => ((s.canc.errE.getD q.mic []).getD i 0#16).toInt *
            histAt s.hist q.feed (p.writesSince + (63 - i) + (b + k))
          let c := stepCodeOf (micAt s.model.mics q.mic).conv q.fast q.slow
          let d := (feedAt s.model.feeds q.feed).energy * q.totalTaps / 1024 + s.globals.delta
          Memory.read t.model.coefs a = updatedCoef (Memory.read s.model.coefs a) (roundDiv (c * g * 512) d)) ∧
        (∀ a, (∀ w ∈ p.grants.flatMap (windowUpdates s p), w.1 ≠ a) → Memory.read t.model.coefs a = Memory.read s.model.coefs a)) ∧
      t.model = { s.model with coefs := t.model.coefs } ∧
      t.canc = { s.canc with snapshot := s.model.feeds.map Feed.active } ∧
      t.standby = (s.standby || (votes && agree)) ∧
      (∀ q, (t.report.get q).meter = tick (s.report.get q).meter) ∧
      (¬ due → t.report = (if enters then raised else ticked) ∧ t.proc = none ∧ t.seen = t.model ∧
        t.pool = { segs := t.model.segs, paths := t.model.paths.map PathRec.status }) ∧
      (due → t.seen = s.seen ∧ t.pool = s.pool ∧
        ((t.report = ticked ∧ t.proc = some { p with phase := .meters enters }) ∨
          (enters = true ∧ t.report = raised ∧ t.proc = some { p with phase := .meters false }))) ∧
      t = { s with
        model := t.model
        canc := t.canc
        standby := t.standby
        report := t.report
        proc := t.proc
        seen := t.seen
        pool := t.pool
        freeCount := t.freeCount }

/-- R178, R150, R160: a meter timer that has reached 0 at the end of a processing reloads or stops, and its record goes to its own port.
With no other expiry left, STANDBY_ENTERED is raised if it still is to be at this end, and the processing is complete; with one left,
it joins before or after that one (R171, log 7). None is in progress at a STOPPED array port (ArrayStopsAndResumes,
log 35). -/
def Obligations.MeterExpiryReports : Prop :=
  ∀ (s : State) (p : Proc) (q : Port) (due : Bool), s.proc = some p → p.phase = .meters due →
    (s.report.get q).meter.running = true → (s.report.get q).meter.count = 0 →
    let m := (s.report.get q).meter
    let entries := (s.model.mics.zipIdx.filter fun c => m.mask.getLsbD c.2).map fun c =>
      ({ mic := c.2, conv := c.1.conv, talk := c.1.talk, lastClass := c.1.lastClass, peakD := c.1.peakD, peakE := c.1.peakE } :
        MeterEntry)
    let m' := match m.mode with
      | .continuous => { m with count := m.period }
      | .oneShot => { m with running := false }
    let u : State := { s with
      report := s.report.set q (({ s.report.get q with meter := m' } : Report).join { block := p.number, event := .meter entries }) }
    let raised := (u.raise { block := p.number, event := .standbyEntered }).report
    let more := ∃ r, (u.report.get r).meter.running = true ∧ (u.report.get r).meter.count = 0
    ∃ t, exec (.meterTimerExpiry q) s = .next t ∧
      (¬ more → t.report = (if due then raised else u.report) ∧ t.proc = none ∧ t.seen = s.model ∧
        t.pool = { segs := s.model.segs, paths := s.model.paths.map PathRec.status }) ∧
      (more → t.seen = s.seen ∧ t.pool = s.pool ∧
        ((t.report = u.report ∧ t.proc = some { p with phase := .meters due }) ∨
          (due = true ∧ t.report = raised ∧ t.proc = some { p with phase := .meters false }))) ∧
      (t.report.get q).meter = m' ∧
      t = { s with report := t.report, proc := t.proc, seen := t.seen, pool := t.pool, freeCount := t.freeCount }

/-! ## Arithmetic and records -/

/-- R77, R78, R82, R83, R97, R99, R100: the part's arithmetic. A quotient is rounded to nearest, with exact halves taken away from
zero. R98, R131: a path's step code, by its microphone's convergence state. R19, R20: which sample of a history and of a block is read;
a sum is exact. -/
def Obligations.ArithmeticIsExact : Prop :=
  (∀ (a : Int) (d : Nat), 0 < d → 2 * (a - roundDiv a d * d).natAbs ≤ d ∧
    (2 * (a - roundDiv a d * d).natAbs = d → a.natAbs ≤ (roundDiv a d).natAbs * d)) ∧
  (∀ (d : Sample) (acc : Int), (errorOf d acc).toInt = max (-32768) (min 32767 (d.toInt - roundDiv acc 8388608))) ∧
  (∀ target r : Nat,
    (r < target → rampGain target r = r + min 256 (target - r)) ∧ (target ≤ r → rampGain target r = r - min 256 (r - target))) ∧
  (∀ (e : Sample) (r : Nat), r ≤ 32767 → (residualOut e r).toInt = roundDiv (e.toInt * r) 32768) ∧
  (∀ energy taps delta : Nat, normaliser energy taps delta = energy * taps / 1024 + delta) ∧
  (∀ (c : Nat) (g : Int) (d : Nat), increment c g d = roundDiv (c * g * 512) d) ∧
  (∀ (w : Coef) (d : Int), (updatedCoef w d).toInt = max (-8388608) (min 8388607 (w.toInt + d))) ∧
  (∀ fast slow : Nat, stepCodeOf .acquire fast slow = fast ∧ stepCodeOf .converged fast slow = slow ∧
    stepCodeOf .recover fast slow = fast) ∧
  (∀ (hist : List (List Sample)) (f depth : Nat), histAt hist f depth = ((hist.getD f []).getD depth 0#16).toInt) ∧
  (∀ (rows : List (List Sample)) (m i : Nat), inputAt rows m i = (rows.getD i []).getD m 0#16) ∧
  (∀ g : Nat → Int, sumTo 0 g = 0 ∧ ∀ n, sumTo (n + 1) g = sumTo n g + g n)

/-- R169 to R174, R176: where a record goes (a kind that names its port goes there, every other where the routing table sends
it), what stops it, when a port's alert line is asserted, and what a full queue and a full counter do. A counted cause raises its own
counter by one, in a port's copy, and nothing else. The kinds of class FAULT are MIC_DIVERGED, FEED_LOST, ARRAY_STOPPED and
HOLD_EXPIRED (11.1), and the first two bytes of a record are its kind and its class (R169). -/
def Obligations.RecordsJoinQueues : Prop :=
  (∀ e : Event, e.isFault = true ↔ e.code = 0x02 ∨ e.code = 0x06 ∨ e.code = 0x08 ∨ e.code = 0x13) ∧
  (∀ c : Record, c.bytes.take 2 = [byte c.event.code, flagByte c.event.isFault]) ∧
  (∀ (r : Report) (c : Record),
    (c.event = .partReset → r.passes c.event = true) ∧
    (c.event ≠ .partReset → r.passes c.event = if c.event.isFault then r.faultOn else r.routineOn) ∧
    (r.passes c.event = false → r.join c = r) ∧
    (r.passes c.event = true → r.queue.length < 32 → r.join c = { r with queue := r.queue ++ [c] }) ∧
    (r.passes c.event = true → 32 ≤ r.queue.length →
      r.join c = { r with counters := { r.counters with eventsLost := r.counters.eventsLost.bump } })) ∧
  (∀ (s : State) (p : Port), s.alert p = true ↔ (s.report.get p).queue ≠ []) ∧
  (∀ r : Report,
    let with_ (c : Counters) : Report := { r with counters := c }
    r.count .feedDrop = with_ { r.counters with feedDrop := r.counters.feedDrop.bump } ∧
    r.count .feedRepeat = with_ { r.counters with feedRepeat := r.counters.feedRepeat.bump } ∧
    r.count .feedLosses = with_ { r.counters with feedLosses := r.counters.feedLosses.bump } ∧
    r.count .feedFrameFault = with_ { r.counters with feedFrameFault := r.counters.feedFrameFault.bump } ∧
    r.count .arrayFrameFault = with_ { r.counters with arrayFrameFault := r.counters.arrayFrameFault.bump } ∧
    r.count .arrayStops = with_ { r.counters with arrayStops := r.counters.arrayStops.bump } ∧
    r.count .degradedBlocks = with_ { r.counters with degradedBlocks := r.counters.degradedBlocks.bump } ∧
    r.count .eventsLost = with_ { r.counters with eventsLost := r.counters.eventsLost.bump }) ∧
  (∀ (s : State) (i : CounterId),
    s.countBoth i = { s with report := { p0 := s.report.p0.count i, p1 := s.report.p1.count i } }) ∧
  (∀ c : Counter, c.bump.value = c.value + 1#16 ∧ (c.bump.overflow = true ↔ c.overflow = true ∨ c.value = 65535#16)) ∧
  (∀ (s : State) (c : Record), let d := s.routes.getD (c.event.code - 1) .both
    (d = .none → s.raise c = s) ∧
    (d = .port0 → s.raise c = { s with report := { s.report with p0 := s.report.p0.join c } }) ∧
    (d = .port1 → s.raise c = { s with report := { s.report with p1 := s.report.p1.join c } }) ∧
    (d = .both → s.raise c = { s with report := { p0 := s.report.p0.join c, p1 := s.report.p1.join c } })) ∧
  (∀ (s : State) (c : Record),
    s.post { dest := some .p0, record := c } = { s with report := { s.report with p0 := s.report.p0.join c } } ∧
    s.post { dest := some .p1, record := c } = { s with report := { s.report with p1 := s.report.p1.join c } } ∧
    s.post { dest := none, record := c } = s.raise c)
end

