-- ==== Sys2Proof/Laws/Arithmetic.lean ====
section
/-! SUPPORT. The rounding of the part's quotients, and how far a quotient can lie from zero. -/

namespace Sys2Proof.Machine

/-- The rounding of magnitudes: at most half a divisor away, and an exact half goes up. -/
theorem roundMagnitude (n d : Nat) (hd : 0 < d) :
    2 * ((n : Int) - (((2 * n + d) / (2 * d) * d : Nat) : Int)).natAbs ≤ d ∧
      (2 * ((n : Int) - (((2 * n + d) / (2 * d) * d : Nat) : Int)).natAbs = d → n ≤ (2 * n + d) / (2 * d) * d) := by
  have h1 := Nat.div_add_mod (2 * n + d) (2 * d)
  have h2 := Nat.mod_lt (2 * n + d) (show 0 < 2 * d by omega)
  rw [show 2 * d * ((2 * n + d) / (2 * d)) = 2 * ((2 * n + d) / (2 * d) * d) by ring] at h1
  generalize (2 * n + d) % (2 * d) = r at *
  generalize (2 * n + d) / (2 * d) * d = x at *
  omega

theorem roundDiv_natAbs (a : Int) (d : Nat) : (roundDiv a d).natAbs = (2 * a.natAbs + d) / (2 * d) := by
  unfold roundDiv
  dsimp only
  split <;> simp only [Int.natAbs_neg, Int.natAbs_natCast]

/-- A quotient's magnitude is at most any bound that its dividend's magnitude gives. -/
theorem roundDiv_le {a : Int} {d b : Nat} (hd : 0 < d) (h : a.natAbs ≤ b * d) : (roundDiv a d).natAbs ≤ b := by
  rw [roundDiv_natAbs]
  refine Nat.le_of_lt_succ (Nat.div_lt_of_lt_mul ?_)
  have e : 2 * d * (b + 1) = 2 * (b * d) + 2 * d := by ring
  show 2 * a.natAbs + d < 2 * d * (b + 1)
  rw [e]
  omega

/-- A clamped value read back from its 16 bits. -/
theorem sat16_toInt (a : Int) : (sat16 a).toInt = max (-32768) (min 32767 a) := by
  unfold sat16 clampInt
  rw [BitVec.toInt_ofInt, Int.bmod_eq_of_le] <;> omega

/-- A clamped coefficient read back from its 24 bits (R100). -/
theorem clampCoef_toInt (a : Int) : (clampCoef a).toInt = max (-8388608) (min 8388607 a) := by
  unfold clampCoef clampInt
  rw [BitVec.toInt_ofInt, Int.bmod_eq_of_le] <;> omega

end Sys2Proof.Machine
end

