-- ==== Sys2Proof/Laws/State.lean ====
section
/-! SUPPORT. What each update of one part of the state leaves in each field: one lemma per field per update. -/

namespace Sys2Proof.Machine

@[simp] theorem PerPort.get_p0 {α : Type} (v : PerPort α) : v.get .p0 = v.p0 := rfl
@[simp] theorem PerPort.get_p1 {α : Type} (v : PerPort α) : v.get .p1 = v.p1 := rfl
@[simp] theorem PerPort.set_p0 {α : Type} (v : PerPort α) (a : α) : v.set .p0 a = { v with p0 := a } := rfl
@[simp] theorem PerPort.set_p1 {α : Type} (v : PerPort α) (a : α) : v.set .p1 a = { v with p1 := a } := rfl

@[simp] theorem PerPort.get_set_same {α : Type} (v : PerPort α) (p : Port) (a : α) : (v.set p a).get p = a := by
  cases p <;> rfl

@[simp] theorem PerPort.get_set_other {α : Type} (v : PerPort α) (p : Port) (a : α) :
    (v.set p a).get (otherPort p) = v.get (otherPort p) := by
  cases p <;> rfl

@[simp] theorem PerPort.set_get {α : Type} (v : PerPort α) (p : Port) : v.set p (v.get p) = v := by cases p <;> rfl

@[simp] theorem PerPort.set_set {α : Type} (v : PerPort α) (p : Port) (a b : α) : (v.set p a).set p b = v.set p b := by
  cases p <;> rfl

@[simp] theorem otherPort_otherPort (p : Port) : otherPort (otherPort p) = p := by cases p <;> rfl

theorem otherPort_ne (p : Port) : otherPort p ≠ p := by cases p <;> decide

@[simp] theorem State.setCtl_pending (s : State) (p : Port) (c : Ctl) : (s.setCtl p c).pending = s.pending := rfl
@[simp] theorem State.setCtl_feedPort (s : State) (p : Port) (c : Ctl) : (s.setCtl p c).feedPort = s.feedPort := rfl
@[simp] theorem State.setCtl_array (s : State) (p : Port) (c : Ctl) : (s.setCtl p c).array = s.array := rfl
@[simp] theorem State.setCtl_hist (s : State) (p : Port) (c : Ctl) : (s.setCtl p c).hist = s.hist := rfl
@[simp] theorem State.setCtl_model (s : State) (p : Port) (c : Ctl) : (s.setCtl p c).model = s.model := rfl
@[simp] theorem State.setCtl_seen (s : State) (p : Port) (c : Ctl) : (s.setCtl p c).seen = s.seen := rfl
@[simp] theorem State.setCtl_pool (s : State) (p : Port) (c : Ctl) : (s.setCtl p c).pool = s.pool := rfl
@[simp] theorem State.setCtl_queues (s : State) (p : Port) (c : Ctl) : (s.setCtl p c).queues = s.queues := rfl
@[simp] theorem State.setCtl_globals (s : State) (p : Port) (c : Ctl) : (s.setCtl p c).globals = s.globals := rfl
@[simp] theorem State.setCtl_canc (s : State) (p : Port) (c : Ctl) : (s.setCtl p c).canc = s.canc := rfl
@[simp] theorem State.setCtl_proc (s : State) (p : Port) (c : Ctl) : (s.setCtl p c).proc = s.proc := rfl
@[simp] theorem State.setCtl_stager (s : State) (p : Port) (c : Ctl) : (s.setCtl p c).stager = s.stager := rfl
@[simp] theorem State.setCtl_standby (s : State) (p : Port) (c : Ctl) : (s.setCtl p c).standby = s.standby := rfl
@[simp] theorem State.setCtl_ctl (s : State) (p : Port) (c : Ctl) : (s.setCtl p c).ctl = s.ctl.set p c := rfl
@[simp] theorem State.setCtl_twoWireAddr (s : State) (p : Port) (c : Ctl) : (s.setCtl p c).twoWireAddr = s.twoWireAddr := rfl
@[simp] theorem State.setCtl_routes (s : State) (p : Port) (c : Ctl) : (s.setCtl p c).routes = s.routes := rfl
@[simp] theorem State.setCtl_report (s : State) (p : Port) (c : Ctl) : (s.setCtl p c).report = s.report := rfl
@[simp] theorem State.setCtl_freeCount (s : State) (p : Port) (c : Ctl) : (s.setCtl p c).freeCount = s.freeCount := rfl

@[simp] theorem State.setStager_pending (s : State) (p : Port) (g : Stager) : (s.setStager p g).pending = s.pending := rfl
@[simp] theorem State.setStager_feedPort (s : State) (p : Port) (g : Stager) : (s.setStager p g).feedPort = s.feedPort := rfl
@[simp] theorem State.setStager_array (s : State) (p : Port) (g : Stager) : (s.setStager p g).array = s.array := rfl
@[simp] theorem State.setStager_hist (s : State) (p : Port) (g : Stager) : (s.setStager p g).hist = s.hist := rfl
@[simp] theorem State.setStager_model (s : State) (p : Port) (g : Stager) : (s.setStager p g).model = s.model := rfl
@[simp] theorem State.setStager_seen (s : State) (p : Port) (g : Stager) : (s.setStager p g).seen = s.seen := rfl
@[simp] theorem State.setStager_pool (s : State) (p : Port) (g : Stager) : (s.setStager p g).pool = s.pool := rfl
@[simp] theorem State.setStager_queues (s : State) (p : Port) (g : Stager) : (s.setStager p g).queues = s.queues := rfl
@[simp] theorem State.setStager_globals (s : State) (p : Port) (g : Stager) : (s.setStager p g).globals = s.globals := rfl
@[simp] theorem State.setStager_canc (s : State) (p : Port) (g : Stager) : (s.setStager p g).canc = s.canc := rfl
@[simp] theorem State.setStager_proc (s : State) (p : Port) (g : Stager) : (s.setStager p g).proc = s.proc := rfl
@[simp] theorem State.setStager_stager (s : State) (p : Port) (g : Stager) : (s.setStager p g).stager = s.stager.set p g := rfl
@[simp] theorem State.setStager_standby (s : State) (p : Port) (g : Stager) : (s.setStager p g).standby = s.standby := rfl
@[simp] theorem State.setStager_ctl (s : State) (p : Port) (g : Stager) : (s.setStager p g).ctl = s.ctl := rfl
@[simp] theorem State.setStager_twoWireAddr (s : State) (p : Port) (g : Stager) : (s.setStager p g).twoWireAddr = s.twoWireAddr := rfl
@[simp] theorem State.setStager_routes (s : State) (p : Port) (g : Stager) : (s.setStager p g).routes = s.routes := rfl
@[simp] theorem State.setStager_report (s : State) (p : Port) (g : Stager) : (s.setStager p g).report = s.report := rfl
@[simp] theorem State.setStager_freeCount (s : State) (p : Port) (g : Stager) : (s.setStager p g).freeCount = s.freeCount := rfl

@[simp] theorem State.setReport_pending (s : State) (p : Port) (r : Report) : (s.setReport p r).pending = s.pending := rfl
@[simp] theorem State.setReport_feedPort (s : State) (p : Port) (r : Report) : (s.setReport p r).feedPort = s.feedPort := rfl
@[simp] theorem State.setReport_array (s : State) (p : Port) (r : Report) : (s.setReport p r).array = s.array := rfl
@[simp] theorem State.setReport_hist (s : State) (p : Port) (r : Report) : (s.setReport p r).hist = s.hist := rfl
@[simp] theorem State.setReport_model (s : State) (p : Port) (r : Report) : (s.setReport p r).model = s.model := rfl
@[simp] theorem State.setReport_seen (s : State) (p : Port) (r : Report) : (s.setReport p r).seen = s.seen := rfl
@[simp] theorem State.setReport_pool (s : State) (p : Port) (r : Report) : (s.setReport p r).pool = s.pool := rfl
@[simp] theorem State.setReport_queues (s : State) (p : Port) (r : Report) : (s.setReport p r).queues = s.queues := rfl
@[simp] theorem State.setReport_globals (s : State) (p : Port) (r : Report) : (s.setReport p r).globals = s.globals := rfl
@[simp] theorem State.setReport_canc (s : State) (p : Port) (r : Report) : (s.setReport p r).canc = s.canc := rfl
@[simp] theorem State.setReport_proc (s : State) (p : Port) (r : Report) : (s.setReport p r).proc = s.proc := rfl
@[simp] theorem State.setReport_stager (s : State) (p : Port) (r : Report) : (s.setReport p r).stager = s.stager := rfl
@[simp] theorem State.setReport_standby (s : State) (p : Port) (r : Report) : (s.setReport p r).standby = s.standby := rfl
@[simp] theorem State.setReport_ctl (s : State) (p : Port) (r : Report) : (s.setReport p r).ctl = s.ctl := rfl
@[simp] theorem State.setReport_twoWireAddr (s : State) (p : Port) (r : Report) : (s.setReport p r).twoWireAddr = s.twoWireAddr := rfl
@[simp] theorem State.setReport_routes (s : State) (p : Port) (r : Report) : (s.setReport p r).routes = s.routes := rfl
@[simp] theorem State.setReport_report (s : State) (p : Port) (r : Report) : (s.setReport p r).report = s.report.set p r := rfl
@[simp] theorem State.setReport_freeCount (s : State) (p : Port) (r : Report) : (s.setReport p r).freeCount = s.freeCount := rfl

@[simp] theorem State.setModel_pending (s : State) (m : Model) : (s.setModel m).pending = s.pending := rfl
@[simp] theorem State.setModel_feedPort (s : State) (m : Model) : (s.setModel m).feedPort = s.feedPort := rfl
@[simp] theorem State.setModel_array (s : State) (m : Model) : (s.setModel m).array = s.array := rfl
@[simp] theorem State.setModel_hist (s : State) (m : Model) : (s.setModel m).hist = s.hist := rfl
@[simp] theorem State.setModel_model (s : State) (m : Model) : (s.setModel m).model = m := rfl
@[simp] theorem State.setModel_seen (s : State) (m : Model) : (s.setModel m).seen = s.seen := rfl
@[simp] theorem State.setModel_pool (s : State) (m : Model) : (s.setModel m).pool = s.pool := rfl
@[simp] theorem State.setModel_queues (s : State) (m : Model) : (s.setModel m).queues = s.queues := rfl
@[simp] theorem State.setModel_globals (s : State) (m : Model) : (s.setModel m).globals = s.globals := rfl
@[simp] theorem State.setModel_canc (s : State) (m : Model) : (s.setModel m).canc = s.canc := rfl
@[simp] theorem State.setModel_proc (s : State) (m : Model) : (s.setModel m).proc = s.proc := rfl
@[simp] theorem State.setModel_stager (s : State) (m : Model) : (s.setModel m).stager = s.stager := rfl
@[simp] theorem State.setModel_standby (s : State) (m : Model) : (s.setModel m).standby = s.standby := rfl
@[simp] theorem State.setModel_ctl (s : State) (m : Model) : (s.setModel m).ctl = s.ctl := rfl
@[simp] theorem State.setModel_twoWireAddr (s : State) (m : Model) : (s.setModel m).twoWireAddr = s.twoWireAddr := rfl
@[simp] theorem State.setModel_routes (s : State) (m : Model) : (s.setModel m).routes = s.routes := rfl
@[simp] theorem State.setModel_report (s : State) (m : Model) : (s.setModel m).report = s.report := rfl
@[simp] theorem State.setModel_freeCount (s : State) (m : Model) : (s.setModel m).freeCount = s.freeCount := rfl

@[simp] theorem State.setProc_pending (s : State) (p : Option Proc) : (s.setProc p).pending = s.pending := rfl
@[simp] theorem State.setProc_feedPort (s : State) (p : Option Proc) : (s.setProc p).feedPort = s.feedPort := rfl
@[simp] theorem State.setProc_array (s : State) (p : Option Proc) : (s.setProc p).array = s.array := rfl
@[simp] theorem State.setProc_hist (s : State) (p : Option Proc) : (s.setProc p).hist = s.hist := rfl
@[simp] theorem State.setProc_model (s : State) (p : Option Proc) : (s.setProc p).model = s.model := rfl
@[simp] theorem State.setProc_seen (s : State) (p : Option Proc) : (s.setProc p).seen = s.seen := rfl
@[simp] theorem State.setProc_pool (s : State) (p : Option Proc) : (s.setProc p).pool = s.pool := rfl
@[simp] theorem State.setProc_queues (s : State) (p : Option Proc) : (s.setProc p).queues = s.queues := rfl
@[simp] theorem State.setProc_globals (s : State) (p : Option Proc) : (s.setProc p).globals = s.globals := rfl
@[simp] theorem State.setProc_canc (s : State) (p : Option Proc) : (s.setProc p).canc = s.canc := rfl
@[simp] theorem State.setProc_proc (s : State) (p : Option Proc) : (s.setProc p).proc = p := rfl
@[simp] theorem State.setProc_stager (s : State) (p : Option Proc) : (s.setProc p).stager = s.stager := rfl
@[simp] theorem State.setProc_standby (s : State) (p : Option Proc) : (s.setProc p).standby = s.standby := rfl
@[simp] theorem State.setProc_ctl (s : State) (p : Option Proc) : (s.setProc p).ctl = s.ctl := rfl
@[simp] theorem State.setProc_twoWireAddr (s : State) (p : Option Proc) : (s.setProc p).twoWireAddr = s.twoWireAddr := rfl
@[simp] theorem State.setProc_routes (s : State) (p : Option Proc) : (s.setProc p).routes = s.routes := rfl
@[simp] theorem State.setProc_report (s : State) (p : Option Proc) : (s.setProc p).report = s.report := rfl
@[simp] theorem State.setProc_freeCount (s : State) (p : Option Proc) : (s.setProc p).freeCount = s.freeCount := rfl

@[simp] theorem State.setQueues_pending (s : State) (q : List (List QEntry)) : (s.setQueues q).pending = s.pending := rfl
@[simp] theorem State.setQueues_feedPort (s : State) (q : List (List QEntry)) : (s.setQueues q).feedPort = s.feedPort := rfl
@[simp] theorem State.setQueues_array (s : State) (q : List (List QEntry)) : (s.setQueues q).array = s.array := rfl
@[simp] theorem State.setQueues_hist (s : State) (q : List (List QEntry)) : (s.setQueues q).hist = s.hist := rfl
@[simp] theorem State.setQueues_model (s : State) (q : List (List QEntry)) : (s.setQueues q).model = s.model := rfl
@[simp] theorem State.setQueues_seen (s : State) (q : List (List QEntry)) : (s.setQueues q).seen = s.seen := rfl
@[simp] theorem State.setQueues_pool (s : State) (q : List (List QEntry)) : (s.setQueues q).pool = s.pool := rfl
@[simp] theorem State.setQueues_queues (s : State) (q : List (List QEntry)) : (s.setQueues q).queues = q := rfl
@[simp] theorem State.setQueues_globals (s : State) (q : List (List QEntry)) : (s.setQueues q).globals = s.globals := rfl
@[simp] theorem State.setQueues_canc (s : State) (q : List (List QEntry)) : (s.setQueues q).canc = s.canc := rfl
@[simp] theorem State.setQueues_proc (s : State) (q : List (List QEntry)) : (s.setQueues q).proc = s.proc := rfl
@[simp] theorem State.setQueues_stager (s : State) (q : List (List QEntry)) : (s.setQueues q).stager = s.stager := rfl
@[simp] theorem State.setQueues_standby (s : State) (q : List (List QEntry)) : (s.setQueues q).standby = s.standby := rfl
@[simp] theorem State.setQueues_ctl (s : State) (q : List (List QEntry)) : (s.setQueues q).ctl = s.ctl := rfl
@[simp] theorem State.setQueues_twoWireAddr (s : State) (q : List (List QEntry)) : (s.setQueues q).twoWireAddr = s.twoWireAddr := rfl
@[simp] theorem State.setQueues_routes (s : State) (q : List (List QEntry)) : (s.setQueues q).routes = s.routes := rfl
@[simp] theorem State.setQueues_report (s : State) (q : List (List QEntry)) : (s.setQueues q).report = s.report := rfl
@[simp] theorem State.setQueues_freeCount (s : State) (q : List (List QEntry)) : (s.setQueues q).freeCount = s.freeCount := rfl

@[simp] theorem State.setArray_pending (s : State) (a : ArrayPort) : (s.setArray a).pending = s.pending := rfl
@[simp] theorem State.setArray_feedPort (s : State) (a : ArrayPort) : (s.setArray a).feedPort = s.feedPort := rfl
@[simp] theorem State.setArray_array (s : State) (a : ArrayPort) : (s.setArray a).array = a := rfl
@[simp] theorem State.setArray_hist (s : State) (a : ArrayPort) : (s.setArray a).hist = s.hist := rfl
@[simp] theorem State.setArray_model (s : State) (a : ArrayPort) : (s.setArray a).model = s.model := rfl
@[simp] theorem State.setArray_seen (s : State) (a : ArrayPort) : (s.setArray a).seen = s.seen := rfl
@[simp] theorem State.setArray_pool (s : State) (a : ArrayPort) : (s.setArray a).pool = s.pool := rfl
@[simp] theorem State.setArray_queues (s : State) (a : ArrayPort) : (s.setArray a).queues = s.queues := rfl
@[simp] theorem State.setArray_globals (s : State) (a : ArrayPort) : (s.setArray a).globals = s.globals := rfl
@[simp] theorem State.setArray_canc (s : State) (a : ArrayPort) : (s.setArray a).canc = s.canc := rfl
@[simp] theorem State.setArray_proc (s : State) (a : ArrayPort) : (s.setArray a).proc = s.proc := rfl
@[simp] theorem State.setArray_stager (s : State) (a : ArrayPort) : (s.setArray a).stager = s.stager := rfl
@[simp] theorem State.setArray_standby (s : State) (a : ArrayPort) : (s.setArray a).standby = s.standby := rfl
@[simp] theorem State.setArray_ctl (s : State) (a : ArrayPort) : (s.setArray a).ctl = s.ctl := rfl
@[simp] theorem State.setArray_twoWireAddr (s : State) (a : ArrayPort) : (s.setArray a).twoWireAddr = s.twoWireAddr := rfl
@[simp] theorem State.setArray_routes (s : State) (a : ArrayPort) : (s.setArray a).routes = s.routes := rfl
@[simp] theorem State.setArray_report (s : State) (a : ArrayPort) : (s.setArray a).report = s.report := rfl
@[simp] theorem State.setArray_freeCount (s : State) (a : ArrayPort) : (s.setArray a).freeCount = s.freeCount := rfl

@[simp] theorem State.setFeedPort_pending (s : State) (f : FeedPort) : (s.setFeedPort f).pending = s.pending := rfl
@[simp] theorem State.setFeedPort_feedPort (s : State) (f : FeedPort) : (s.setFeedPort f).feedPort = f := rfl
@[simp] theorem State.setFeedPort_array (s : State) (f : FeedPort) : (s.setFeedPort f).array = s.array := rfl
@[simp] theorem State.setFeedPort_hist (s : State) (f : FeedPort) : (s.setFeedPort f).hist = s.hist := rfl
@[simp] theorem State.setFeedPort_model (s : State) (f : FeedPort) : (s.setFeedPort f).model = s.model := rfl
@[simp] theorem State.setFeedPort_seen (s : State) (f : FeedPort) : (s.setFeedPort f).seen = s.seen := rfl
@[simp] theorem State.setFeedPort_pool (s : State) (f : FeedPort) : (s.setFeedPort f).pool = s.pool := rfl
@[simp] theorem State.setFeedPort_queues (s : State) (f : FeedPort) : (s.setFeedPort f).queues = s.queues := rfl
@[simp] theorem State.setFeedPort_globals (s : State) (f : FeedPort) : (s.setFeedPort f).globals = s.globals := rfl
@[simp] theorem State.setFeedPort_canc (s : State) (f : FeedPort) : (s.setFeedPort f).canc = s.canc := rfl
@[simp] theorem State.setFeedPort_proc (s : State) (f : FeedPort) : (s.setFeedPort f).proc = s.proc := rfl
@[simp] theorem State.setFeedPort_stager (s : State) (f : FeedPort) : (s.setFeedPort f).stager = s.stager := rfl
@[simp] theorem State.setFeedPort_standby (s : State) (f : FeedPort) : (s.setFeedPort f).standby = s.standby := rfl
@[simp] theorem State.setFeedPort_ctl (s : State) (f : FeedPort) : (s.setFeedPort f).ctl = s.ctl := rfl
@[simp] theorem State.setFeedPort_twoWireAddr (s : State) (f : FeedPort) : (s.setFeedPort f).twoWireAddr = s.twoWireAddr := rfl
@[simp] theorem State.setFeedPort_routes (s : State) (f : FeedPort) : (s.setFeedPort f).routes = s.routes := rfl
@[simp] theorem State.setFeedPort_report (s : State) (f : FeedPort) : (s.setFeedPort f).report = s.report := rfl
@[simp] theorem State.setFeedPort_freeCount (s : State) (f : FeedPort) : (s.setFeedPort f).freeCount = s.freeCount := rfl

@[simp] theorem State.setCanc_pending (s : State) (c : Canceller) : (s.setCanc c).pending = s.pending := rfl
@[simp] theorem State.setCanc_feedPort (s : State) (c : Canceller) : (s.setCanc c).feedPort = s.feedPort := rfl
@[simp] theorem State.setCanc_array (s : State) (c : Canceller) : (s.setCanc c).array = s.array := rfl
@[simp] theorem State.setCanc_hist (s : State) (c : Canceller) : (s.setCanc c).hist = s.hist := rfl
@[simp] theorem State.setCanc_model (s : State) (c : Canceller) : (s.setCanc c).model = s.model := rfl
@[simp] theorem State.setCanc_seen (s : State) (c : Canceller) : (s.setCanc c).seen = s.seen := rfl
@[simp] theorem State.setCanc_pool (s : State) (c : Canceller) : (s.setCanc c).pool = s.pool := rfl
@[simp] theorem State.setCanc_queues (s : State) (c : Canceller) : (s.setCanc c).queues = s.queues := rfl
@[simp] theorem State.setCanc_globals (s : State) (c : Canceller) : (s.setCanc c).globals = s.globals := rfl
@[simp] theorem State.setCanc_canc (s : State) (c : Canceller) : (s.setCanc c).canc = c := rfl
@[simp] theorem State.setCanc_proc (s : State) (c : Canceller) : (s.setCanc c).proc = s.proc := rfl
@[simp] theorem State.setCanc_stager (s : State) (c : Canceller) : (s.setCanc c).stager = s.stager := rfl
@[simp] theorem State.setCanc_standby (s : State) (c : Canceller) : (s.setCanc c).standby = s.standby := rfl
@[simp] theorem State.setCanc_ctl (s : State) (c : Canceller) : (s.setCanc c).ctl = s.ctl := rfl
@[simp] theorem State.setCanc_twoWireAddr (s : State) (c : Canceller) : (s.setCanc c).twoWireAddr = s.twoWireAddr := rfl
@[simp] theorem State.setCanc_routes (s : State) (c : Canceller) : (s.setCanc c).routes = s.routes := rfl
@[simp] theorem State.setCanc_report (s : State) (c : Canceller) : (s.setCanc c).report = s.report := rfl
@[simp] theorem State.setCanc_freeCount (s : State) (c : Canceller) : (s.setCanc c).freeCount = s.freeCount := rfl

@[simp] theorem State.setPool_pending (s : State) (v : PoolView) : (s.setPool v).pending = s.pending := rfl
@[simp] theorem State.setPool_feedPort (s : State) (v : PoolView) : (s.setPool v).feedPort = s.feedPort := rfl
@[simp] theorem State.setPool_array (s : State) (v : PoolView) : (s.setPool v).array = s.array := rfl
@[simp] theorem State.setPool_hist (s : State) (v : PoolView) : (s.setPool v).hist = s.hist := rfl
@[simp] theorem State.setPool_model (s : State) (v : PoolView) : (s.setPool v).model = s.model := rfl
@[simp] theorem State.setPool_seen (s : State) (v : PoolView) : (s.setPool v).seen = s.seen := rfl
@[simp] theorem State.setPool_pool (s : State) (v : PoolView) : (s.setPool v).pool = v := rfl
@[simp] theorem State.setPool_queues (s : State) (v : PoolView) : (s.setPool v).queues = s.queues := rfl
@[simp] theorem State.setPool_globals (s : State) (v : PoolView) : (s.setPool v).globals = s.globals := rfl
@[simp] theorem State.setPool_canc (s : State) (v : PoolView) : (s.setPool v).canc = s.canc := rfl
@[simp] theorem State.setPool_proc (s : State) (v : PoolView) : (s.setPool v).proc = s.proc := rfl
@[simp] theorem State.setPool_stager (s : State) (v : PoolView) : (s.setPool v).stager = s.stager := rfl
@[simp] theorem State.setPool_standby (s : State) (v : PoolView) : (s.setPool v).standby = s.standby := rfl
@[simp] theorem State.setPool_ctl (s : State) (v : PoolView) : (s.setPool v).ctl = s.ctl := rfl
@[simp] theorem State.setPool_twoWireAddr (s : State) (v : PoolView) : (s.setPool v).twoWireAddr = s.twoWireAddr := rfl
@[simp] theorem State.setPool_routes (s : State) (v : PoolView) : (s.setPool v).routes = s.routes := rfl
@[simp] theorem State.setPool_report (s : State) (v : PoolView) : (s.setPool v).report = s.report := rfl
@[simp] theorem State.setPool_freeCount (s : State) (v : PoolView) : (s.setPool v).freeCount = s.freeCount := rfl

end Sys2Proof.Machine
end

