-- ==== Sys2Proof/Laws/Report.lean ====
section
/-! SUPPORT. What the report unit's operations can do: only the reports change, and they keep their sizes. -/

namespace Sys2Proof.Machine

/-- Counting touches nothing but the reports. -/
theorem State.countBoth_eq (s : State) (i : CounterId) :
    s.countBoth i = { s with report := { p0 := s.report.p0.count i, p1 := s.report.p1.count i } } := rfl

/-- A delivery touches nothing but the report of its port. -/
theorem State.deliver_eq (s : State) (p : Port) (c : Record) :
    s.deliver p c = { s with report := s.report.set p ((s.report.get p).join c) } := rfl

/-- A routed event touches nothing but the reports. -/
theorem State.raise_eq (s : State) (c : Record) : ∃ r, s.raise c = { s with report := r } := by
  unfold State.raise
  split <;> exact ⟨_, rfl⟩

theorem State.post_eq (s : State) (n : Notice) : ∃ r, s.post n = { s with report := r } := by
  unfold State.post
  split
  · exact ⟨_, rfl⟩
  · exact s.raise_eq _

theorem State.foldl_post_eq (l : List Notice) (s : State) : ∃ r, l.foldl State.post s = { s with report := r } := by
  induction l generalizing s with
  | nil => exact ⟨s.report, rfl⟩
  | cons n l ih =>
    obtain ⟨r, h⟩ := s.post_eq n
    obtain ⟨r', h'⟩ := ih { s with report := r }
    exact ⟨r', by rw [List.foldl_cons, h, h']⟩

/-- Records of several owners raised at one moment touch nothing but the reports and the free values' index. -/
theorem State.postMerged_eq (s : State) (ls : List (List Notice)) :
    ∃ r n, s.postMerged ls = { s with report := r, freeCount := n } := by
  obtain ⟨r, h⟩ := State.foldl_post_eq (mergeAll s.freeCount ls) s
  exact ⟨r, s.freeCount + mergeCost ls, by simp only [State.postMerged, h]⟩

/-! ## Field by field -/

/-- A routed event, with the reports it leaves. -/
theorem State.raise_frame (s : State) (c : Record) : s.raise c = { s with report := (s.raise c).report } := by
  obtain ⟨r, h⟩ := s.raise_eq c
  rw [h]

/-- Several records, with the reports they leave. -/
theorem State.foldl_post_frame (s : State) (l : List Notice) :
    l.foldl State.post s = { s with report := (l.foldl State.post s).report } := by
  obtain ⟨r, h⟩ := State.foldl_post_eq l s
  rw [h]

@[simp] theorem State.countBoth_pending (s : State) (i : CounterId) : (s.countBoth i).pending = s.pending := rfl
@[simp] theorem State.countBoth_feedPort (s : State) (i : CounterId) : (s.countBoth i).feedPort = s.feedPort := rfl
@[simp] theorem State.countBoth_array (s : State) (i : CounterId) : (s.countBoth i).array = s.array := rfl
@[simp] theorem State.countBoth_hist (s : State) (i : CounterId) : (s.countBoth i).hist = s.hist := rfl
@[simp] theorem State.countBoth_model (s : State) (i : CounterId) : (s.countBoth i).model = s.model := rfl
@[simp] theorem State.countBoth_seen (s : State) (i : CounterId) : (s.countBoth i).seen = s.seen := rfl
@[simp] theorem State.countBoth_pool (s : State) (i : CounterId) : (s.countBoth i).pool = s.pool := rfl
@[simp] theorem State.countBoth_queues (s : State) (i : CounterId) : (s.countBoth i).queues = s.queues := rfl
@[simp] theorem State.countBoth_globals (s : State) (i : CounterId) : (s.countBoth i).globals = s.globals := rfl
@[simp] theorem State.countBoth_canc (s : State) (i : CounterId) : (s.countBoth i).canc = s.canc := rfl
@[simp] theorem State.countBoth_proc (s : State) (i : CounterId) : (s.countBoth i).proc = s.proc := rfl
@[simp] theorem State.countBoth_stager (s : State) (i : CounterId) : (s.countBoth i).stager = s.stager := rfl
@[simp] theorem State.countBoth_standby (s : State) (i : CounterId) : (s.countBoth i).standby = s.standby := rfl
@[simp] theorem State.countBoth_ctl (s : State) (i : CounterId) : (s.countBoth i).ctl = s.ctl := rfl
@[simp] theorem State.countBoth_twoWireAddr (s : State) (i : CounterId) : (s.countBoth i).twoWireAddr = s.twoWireAddr := rfl
@[simp] theorem State.countBoth_routes (s : State) (i : CounterId) : (s.countBoth i).routes = s.routes := rfl
@[simp] theorem State.countBoth_freeCount (s : State) (i : CounterId) : (s.countBoth i).freeCount = s.freeCount := rfl

@[simp] theorem State.raise_pending (s : State) (c : Record) : (s.raise c).pending = s.pending := by rw [State.raise_frame]
@[simp] theorem State.raise_feedPort (s : State) (c : Record) : (s.raise c).feedPort = s.feedPort := by rw [State.raise_frame]
@[simp] theorem State.raise_array (s : State) (c : Record) : (s.raise c).array = s.array := by rw [State.raise_frame]
@[simp] theorem State.raise_hist (s : State) (c : Record) : (s.raise c).hist = s.hist := by rw [State.raise_frame]
@[simp] theorem State.raise_model (s : State) (c : Record) : (s.raise c).model = s.model := by rw [State.raise_frame]
@[simp] theorem State.raise_seen (s : State) (c : Record) : (s.raise c).seen = s.seen := by rw [State.raise_frame]
@[simp] theorem State.raise_pool (s : State) (c : Record) : (s.raise c).pool = s.pool := by rw [State.raise_frame]
@[simp] theorem State.raise_queues (s : State) (c : Record) : (s.raise c).queues = s.queues := by rw [State.raise_frame]
@[simp] theorem State.raise_globals (s : State) (c : Record) : (s.raise c).globals = s.globals := by rw [State.raise_frame]
@[simp] theorem State.raise_canc (s : State) (c : Record) : (s.raise c).canc = s.canc := by rw [State.raise_frame]
@[simp] theorem State.raise_proc (s : State) (c : Record) : (s.raise c).proc = s.proc := by rw [State.raise_frame]
@[simp] theorem State.raise_stager (s : State) (c : Record) : (s.raise c).stager = s.stager := by rw [State.raise_frame]
@[simp] theorem State.raise_standby (s : State) (c : Record) : (s.raise c).standby = s.standby := by rw [State.raise_frame]
@[simp] theorem State.raise_ctl (s : State) (c : Record) : (s.raise c).ctl = s.ctl := by rw [State.raise_frame]
@[simp] theorem State.raise_twoWireAddr (s : State) (c : Record) : (s.raise c).twoWireAddr = s.twoWireAddr := by rw [State.raise_frame]
@[simp] theorem State.raise_routes (s : State) (c : Record) : (s.raise c).routes = s.routes := by rw [State.raise_frame]
@[simp] theorem State.raise_freeCount (s : State) (c : Record) : (s.raise c).freeCount = s.freeCount := by rw [State.raise_frame]

@[simp] theorem State.foldl_post_pending (l : List Notice) (s : State) : (l.foldl State.post s).pending = s.pending := by
  rw [State.foldl_post_frame]
@[simp] theorem State.foldl_post_feedPort (l : List Notice) (s : State) : (l.foldl State.post s).feedPort = s.feedPort := by
  rw [State.foldl_post_frame]
@[simp] theorem State.foldl_post_array (l : List Notice) (s : State) : (l.foldl State.post s).array = s.array := by
  rw [State.foldl_post_frame]
@[simp] theorem State.foldl_post_hist (l : List Notice) (s : State) : (l.foldl State.post s).hist = s.hist := by
  rw [State.foldl_post_frame]
@[simp] theorem State.foldl_post_model (l : List Notice) (s : State) : (l.foldl State.post s).model = s.model := by
  rw [State.foldl_post_frame]
@[simp] theorem State.foldl_post_seen (l : List Notice) (s : State) : (l.foldl State.post s).seen = s.seen := by
  rw [State.foldl_post_frame]
@[simp] theorem State.foldl_post_pool (l : List Notice) (s : State) : (l.foldl State.post s).pool = s.pool := by
  rw [State.foldl_post_frame]
@[simp] theorem State.foldl_post_queues (l : List Notice) (s : State) : (l.foldl State.post s).queues = s.queues := by
  rw [State.foldl_post_frame]
@[simp] theorem State.foldl_post_globals (l : List Notice) (s : State) : (l.foldl State.post s).globals = s.globals := by
  rw [State.foldl_post_frame]
@[simp] theorem State.foldl_post_canc (l : List Notice) (s : State) : (l.foldl State.post s).canc = s.canc := by
  rw [State.foldl_post_frame]
@[simp] theorem State.foldl_post_proc (l : List Notice) (s : State) : (l.foldl State.post s).proc = s.proc := by
  rw [State.foldl_post_frame]
@[simp] theorem State.foldl_post_stager (l : List Notice) (s : State) : (l.foldl State.post s).stager = s.stager := by
  rw [State.foldl_post_frame]
@[simp] theorem State.foldl_post_standby (l : List Notice) (s : State) : (l.foldl State.post s).standby = s.standby := by
  rw [State.foldl_post_frame]
@[simp] theorem State.foldl_post_ctl (l : List Notice) (s : State) : (l.foldl State.post s).ctl = s.ctl := by
  rw [State.foldl_post_frame]
@[simp] theorem State.foldl_post_twoWireAddr (l : List Notice) (s : State) : (l.foldl State.post s).twoWireAddr = s.twoWireAddr := by
  rw [State.foldl_post_frame]
@[simp] theorem State.foldl_post_routes (l : List Notice) (s : State) : (l.foldl State.post s).routes = s.routes := by
  rw [State.foldl_post_frame]
@[simp] theorem State.foldl_post_freeCount (l : List Notice) (s : State) : (l.foldl State.post s).freeCount = s.freeCount := by
  rw [State.foldl_post_frame]

/-- What a record does to the reports depends on the reports and the routing table alone. -/
theorem State.raise_report_congr {s t : State} (c : Record) (h1 : s.report = t.report) (h2 : s.routes = t.routes) :
    (s.raise c).report = (t.raise c).report := by
  unfold State.raise State.destOf State.deliver State.setReport
  rw [h2]
  split <;> simp [h1]

@[simp] theorem Report.join_meter (r : Report) (c : Record) : (r.join c).meter = r.meter := by
  unfold Report.join
  split
  · split <;> rfl
  · rfl

@[simp] theorem Report.join_watches (r : Report) (c : Record) : (r.join c).watches = r.watches := by
  unfold Report.join
  split
  · split <;> rfl
  · rfl

/-- A routed event leaves the meter timers and the watch slots as they are. -/
theorem State.raise_timers (s : State) (c : Record) (p : Port) :
    ((s.raise c).report.get p).meter = (s.report.get p).meter ∧
      ((s.raise c).report.get p).watches = (s.report.get p).watches := by
  unfold State.raise State.deliver State.setReport
  split <;> cases p <;> simp

/-! ## Sizes -/

@[simp] theorem Report.count_queue (r : Report) (i : CounterId) : (r.count i).queue = r.queue := rfl
@[simp] theorem Report.count_watches (r : Report) (i : CounterId) : (r.count i).watches = r.watches := rfl

theorem Report.Shaped.count {r : Report} (h : r.Shaped) (i : CounterId) : (r.count i).Shaped := h

/-- A record joins a queue of fewer than 32 records or is dropped: a queue never grows beyond 32 (R174). -/
theorem Report.Shaped.join {r : Report} (h : r.Shaped) (c : Record) : (r.join c).Shaped := by
  unfold Report.join
  split
  · split
    · rename_i hq
      exact ⟨by simp only [List.length_append, List.length_singleton, Config.queueRecords] at hq ⊢; omega, h.2⟩
    · exact h.count _
  · exact h

/-- Both ports' reports have their sizes. -/
def State.ReportsShaped (s : State) : Prop := s.report.p0.Shaped ∧ s.report.p1.Shaped

theorem State.ReportsShaped.countBoth {s : State} (h : s.ReportsShaped) (i : CounterId) : (s.countBoth i).ReportsShaped :=
  ⟨h.1.count i, h.2.count i⟩

theorem State.ReportsShaped.deliver {s : State} (h : s.ReportsShaped) (p : Port) (c : Record) : (s.deliver p c).ReportsShaped := by
  cases p
  · exact ⟨h.1.join c, h.2⟩
  · exact ⟨h.1, h.2.join c⟩

theorem State.ReportsShaped.raise {s : State} (h : s.ReportsShaped) (c : Record) : (s.raise c).ReportsShaped := by
  unfold State.raise
  split
  · exact h
  · exact h.deliver _ c
  · exact h.deliver _ c
  · exact (h.deliver _ c).deliver _ c

theorem State.ReportsShaped.post {s : State} (h : s.ReportsShaped) (n : Notice) : (s.post n).ReportsShaped := by
  unfold State.post
  split
  · exact h.deliver _ _
  · exact h.raise _

theorem State.ReportsShaped.foldl_post {s : State} (h : s.ReportsShaped) (l : List Notice) :
    (l.foldl State.post s).ReportsShaped := by
  induction l generalizing s with
  | nil => exact h
  | cons n l ih => exact ih (h.post n)

theorem State.ReportsShaped.postMerged {s : State} (h : s.ReportsShaped) (ls : List (List Notice)) :
    (s.postMerged ls).ReportsShaped := h.foldl_post _

/-! ## Merges of several owners' records -/

/-- A merge holds the members of both lists and nothing else. -/
theorem mergeFree_perm {α : Type} (fuel k : Nat) (xs ys : List α) : (mergeFree fuel k xs ys).Perm (xs ++ ys) := by
  induction fuel generalizing k xs ys with
  | zero => cases xs <;> cases ys <;> exact List.Perm.refl _
  | succ n ih =>
    cases xs with
    | nil => cases ys <;> exact List.Perm.refl _
    | cons x xs =>
      cases ys with
      | nil => exact List.Perm.refl _
      | cons y ys =>
        simp only [mergeFree]
        split
        · exact (ih (k + 1) xs (y :: ys)).cons x
        · exact ((ih (k + 1) (x :: xs) ys).cons y).trans List.perm_middle.symm

theorem mergeAll_perm {α : Type} (k : Nat) (ls : List (List α)) : (mergeAll k ls).Perm ls.flatten := by
  induction ls generalizing k with
  | nil => exact List.Perm.refl _
  | cons l ls ih =>
    simp only [mergeAll, List.flatten_cons]
    exact (mergeFree_perm _ _ _ _).trans ((ih _).append_left l)

end Sys2Proof.Machine
end

