-- ==== Sys2Proof/Laws/Processing.lean ====
section
/-! SUPPORT. What a block start and the stages of a processing can change: the fields each leaves alone. -/

namespace Sys2Proof.Machine

/-- Two states that agree on everything a processing never touches: the queue of commands, the feed port, the histories, the standby
state aside, the control ports, the two-wire address, the routing table and the array port's run state. -/
structure Kept (s t : State) : Prop where
  pending : t.pending = s.pending
  hist : t.hist = s.hist
  ctl : t.ctl = s.ctl
  twoWireAddr : t.twoWireAddr = s.twoWireAddr
  routes : t.routes = s.routes
  run : t.array.run = s.array.run

theorem Kept.refl (s : State) : Kept s s := ⟨rfl, rfl, rfl, rfl, rfl, rfl⟩

theorem Kept.trans {s t u : State} (h : Kept s t) (k : Kept t u) : Kept s u :=
  ⟨k.1.trans h.1, k.2.trans h.2, k.3.trans h.3, k.4.trans h.4, k.5.trans h.5, k.6.trans h.6⟩

theorem Kept.after {s t u : State} (k : Kept t u) (h : Kept s t) : Kept s u := h.trans k

theorem Kept.raise (s : State) (c : Record) : Kept s (s.raise c) := by
  obtain ⟨r, h⟩ := s.raise_eq c
  rw [h]; exact ⟨rfl, rfl, rfl, rfl, rfl, rfl⟩

theorem Kept.foldl_post (s : State) (l : List Notice) : Kept s (l.foldl State.post s) := by
  obtain ⟨r, h⟩ := State.foldl_post_eq l s
  rw [h]; exact ⟨rfl, rfl, rfl, rfl, rfl, rfl⟩

theorem Kept.postMerged (s : State) (ls : List (List Notice)) : Kept s (s.postMerged ls) := by
  obtain ⟨r, n, h⟩ := s.postMerged_eq ls
  rw [h]; exact ⟨rfl, rfl, rfl, rfl, rfl, rfl⟩

/-! ## Block start -/

theorem Kept.cancelBlock (s : State) (p : Proc) : Kept s (s.cancelBlock p) := by
  unfold State.cancelBlock
  by_cases h : p.standby <;> simp only [h] <;> exact ⟨rfl, rfl, rfl, rfl, rfl, rfl⟩

theorem Kept.landBlock (s : State) (p : Proc) (e : PerPort Bool) : Kept s (s.landBlock p e) := by
  have h1 : Kept s s.landSets := ⟨rfl, rfl, rfl, rfl, rfl, rfl⟩
  have h2 := h1.trans (Kept.cancelBlock s.landSets p)
  have h3 : Kept s ((s.landSets.cancelBlock p).startStages p) := h2.trans ⟨rfl, rfl, rfl, rfl, rfl, rfl⟩
  exact h3.trans (Kept.postMerged _ _)

theorem Kept.expireHolds (s : State) : Kept s s.expireHolds := by
  unfold State.expireHolds
  split
  · split
    · exact Kept.after (Kept.landBlock s.endHolds _ _) ⟨rfl, rfl, rfl, rfl, rfl, rfl⟩
    all_goals exact Kept.refl s
  · exact Kept.refl s

theorem Kept.slipCheck (s : State) : Kept s s.slipCheck := by
  unfold State.slipCheck
  dsimp only
  split
  · exact Kept.refl s
  · split
    · exact ⟨rfl, rfl, rfl, rfl, rfl, rfl⟩
    · split
      · exact ⟨rfl, rfl, rfl, rfl, rfl, rfl⟩
      · exact Kept.refl s

theorem Kept.countDegraded (s : State) : Kept s s.countDegraded := by
  unfold State.countDegraded
  split
  · exact ⟨rfl, rfl, rfl, rfl, rfl, rfl⟩
  · exact Kept.refl s

theorem Kept.takeBlock (s : State) : Kept s s.takeBlock := ⟨rfl, rfl, rfl, rfl, rfl, rfl⟩

theorem Kept.landUnlessHeld (s : State) (p : Proc) : Kept s (s.landUnlessHeld p) := by
  unfold State.landUnlessHeld
  split
  · exact Kept.refl s
  · exact Kept.landBlock _ _ _

theorem Kept.blockStart (s : State) : Kept s s.blockStart :=
  (((Kept.countDegraded s).trans (Kept.slipCheck _)).trans (Kept.takeBlock _)).trans (Kept.landUnlessHeld _ _)

/-! ## Stages -/

theorem Kept.supervisorStage (s : State) : Kept s s.supervisorStage := by
  unfold State.supervisorStage
  split
  · split
    · exact ⟨rfl, rfl, rfl, rfl, rfl, rfl⟩
    · exact Kept.refl s
  · exact Kept.refl s

theorem Kept.runThreshold (s : State) (m : Nat) : Kept s (s.runThreshold m) := by
  unfold State.runThreshold
  dsimp only
  split
  · exact Kept.after (Kept.foldl_post _ _) ⟨rfl, rfl, rfl, rfl, rfl, rfl⟩
  · exact Kept.refl s

theorem Kept.micDiverged (s : State) (m : Nat) : Kept s (s.micDiverged m) := by
  unfold State.micDiverged
  dsimp only
  split
  · exact Kept.after (Kept.foldl_post _ _) ⟨rfl, rfl, rfl, rfl, rfl, rfl⟩
  · exact Kept.refl s

theorem Kept.foldl {α : Type} (f : State → α → State) (h : ∀ s a, Kept s (f s a)) (l : List α) (s : State) :
    Kept s (l.foldl f s) := by
  induction l generalizing s with
  | nil => exact Kept.refl s
  | cons a l ih => exact (h s a).trans (ih _)

theorem Kept.verdictSteps (s : State) : Kept s s.verdictSteps :=
  Kept.foldl _ (fun s m => (Kept.micDiverged s m).trans (Kept.runThreshold _ m)) _ s

theorem Kept.complete (s : State) : Kept s s.complete := ⟨rfl, rfl, rfl, rfl, rfl, rfl⟩

theorem Kept.alignmentStage (s : State) : Kept s s.alignmentStage := by
  unfold State.alignmentStage
  split
  · split
    · dsimp only
      split <;> exact ⟨rfl, rfl, rfl, rfl, rfl, rfl⟩
    · exact Kept.refl s
  · exact Kept.refl s

theorem Kept.bulkResult (s : State) : Kept s s.bulkResult := by
  unfold State.bulkResult
  dsimp only
  split
  · exact Kept.after (Kept.postMerged _ _) ⟨rfl, rfl, rfl, rfl, rfl, rfl⟩
  · exact Kept.refl s

theorem Kept.checkExpiry (s : State) (f : Nat) : Kept s (s.checkExpiry f) := by
  unfold State.checkExpiry
  split
  · exact ⟨rfl, rfl, rfl, rfl, rfl, rfl⟩
  · exact Kept.refl s

theorem Kept.checkExpiries (s : State) : Kept s s.checkExpiries := Kept.foldl _ Kept.checkExpiry _ s

theorem Kept.arbiterStage (s : State) : Kept s s.arbiterStage := by
  unfold State.arbiterStage
  split
  · split
    · exact ⟨rfl, rfl, rfl, rfl, rfl, rfl⟩
    · exact Kept.refl s
  · exact Kept.refl s

theorem Kept.endStep (s : State) (p : Proc) (b : Bool) : Kept s (s.endStep p b) := by
  unfold State.endStep
  split
  · split
    · exact (Kept.raise s _).trans ⟨rfl, rfl, rfl, rfl, rfl, rfl⟩
    · exact ⟨rfl, rfl, rfl, rfl, rfl, rfl⟩
  · split
    · exact (Kept.raise s _).trans (Kept.complete _)
    · exact Kept.complete s

theorem Kept.updateStage (s : State) : Kept s s.updateStage := by
  unfold State.updateStage
  split
  · split
    · exact Kept.after (Kept.endStep _ _ _) ⟨rfl, rfl, rfl, rfl, rfl, rfl⟩
    · exact Kept.refl s
  · exact Kept.refl s

theorem Kept.expireMeter (s : State) (q : Port) (b : BlockNo) : Kept s (s.expireMeter q b) := ⟨rfl, rfl, rfl, rfl, rfl, rfl⟩

theorem Kept.meterExpiry (s : State) (q : Port) : Kept s (s.meterExpiry q) := by
  unfold State.meterExpiry
  split
  · split
    · split
      · exact Kept.after (Kept.endStep _ _ _) (Kept.expireMeter s q _)
      · exact Kept.refl s
    all_goals exact Kept.refl s
  · exact Kept.refl s

/-- Settling what is whole leaves the queue of commands, the histories, the control ports and the routing table alone. -/
theorem Kept.settle (s : State) : Kept s s.settle :=
  ((Kept.expireHolds s).trans (Kept.meterExpiry _ _)).trans (Kept.meterExpiry _ _)

theorem Kept.finishProcessing (s : State) : Kept s s.finishProcessing := by
  unfold State.finishProcessing
  exact (((((((((Kept.settle s).trans (Kept.supervisorStage _)).trans (Kept.verdictSteps _)).trans
    (Kept.alignmentStage _)).trans (Kept.bulkResult _)).trans (Kept.checkExpiries _)).trans (Kept.arbiterStage _)).trans
    (Kept.updateStage _))).trans (Kept.settle _)

@[simp] theorem State.settle_pending (s : State) : s.settle.pending = s.pending := (Kept.settle s).pending
@[simp] theorem State.settle_ctl (s : State) : s.settle.ctl = s.ctl := (Kept.settle s).ctl
@[simp] theorem State.settle_hist (s : State) : s.settle.hist = s.hist := (Kept.settle s).hist
@[simp] theorem State.settle_routes (s : State) : s.settle.routes = s.routes := (Kept.settle s).routes
@[simp] theorem State.settle_twoWireAddr (s : State) : s.settle.twoWireAddr = s.twoWireAddr := (Kept.settle s).twoWireAddr

/-- No hold is left to expire when no block start waits for it (R145). -/
theorem State.expireHolds_of_landed (s : State) (h : ∀ p, s.proc = some p → p.phase ≠ .expiring) : s.expireHolds = s := by
  unfold State.expireHolds
  split
  · rename_i p hp
    split
    · rename_i hph
      exact absurd hph (h p hp)
    all_goals rfl
  · rfl

/-- Nothing is left to settle when no block start waits for its holds and no end of a processing has begun. -/
theorem State.settle_of_quiet (s : State) (h : ∀ p, s.proc = some p → p.phase ≠ .expiring ∧ ∀ d, p.phase ≠ .meters d) :
    s.settle = s := by
  have he : s.expireHolds = s := s.expireHolds_of_landed fun p hp => (h p hp).1
  have hm (q : Port) : s.meterExpiry q = s := by
    unfold State.meterExpiry
    split
    · rename_i p hp
      split
      · rename_i d hph
        exact absurd hph ((h p hp).2 d)
      all_goals rfl
    · rfl
  rw [State.settle, he, hm, hm]

/-! ## The end of a processing -/

/-- A meter expiry is due exactly when a running timer stands at 0 (R178). -/
theorem State.metersDue_iff (s : State) :
    s.metersDue = true ↔ ∃ q, (s.report.get q).meter.running = true ∧ (s.report.get q).meter.count = 0 := by
  constructor
  · intro h
    simp only [State.metersDue, Meter.expired, Bool.or_eq_true, Bool.and_eq_true, beq_iff_eq] at h
    rcases h with h | h
    · exact ⟨.p0, h⟩
    · exact ⟨.p1, h⟩
  · rintro ⟨q, h⟩
    cases q <;> simp_all [State.metersDue, Meter.expired]

/-- What one event of an end of a processing leaves: with no meter expiry left, STANDBY_ENTERED if it is still due, and the processing
complete; otherwise the next expiry, with STANDBY_ENTERED before it or still due (R150, R160, R178, log 7). -/
theorem State.endStep_cases (s : State) (p : Proc) (due : Bool) :
    let raised := (s.raiseEntered).report
    (s.metersDue = false → s.endStep p due = { s with
      report := if due then raised else s.report
      seen := s.model
      pool := { segs := s.model.segs, paths := s.model.paths.map PathRec.status }
      proc := none }) ∧
    (s.metersDue = true → ∃ n,
      s.endStep p due = { s with proc := some { p with phase := .meters due }, freeCount := n } ∨
      (due = true ∧ s.endStep p due = { s with report := raised, proc := some { p with phase := .meters false }, freeCount := n })) := by
  intro raised
  refine ⟨fun h => ?_, fun h => ?_⟩
  · simp only [State.endStep, h, Bool.false_eq_true, if_false, State.complete]
    cases due
    · rfl
    · simp only [if_true, raised, State.raiseEntered]
      rw [State.raise_frame]
  · simp only [State.endStep, h, if_true]
    split
    · rename_i hd
      refine ⟨s.freeCount + 1, Or.inr ⟨by simp_all, ?_⟩⟩
      simp only [raised, State.raiseEntered]
      rw [State.raise_frame]
    · exact ⟨_, Or.inl rfl⟩

/-! ## The results of the searches -/

/-- The events of a feed's result (R29, R30, R33). -/
theorem resultNotice_eq (block : BlockNo) (n : Nat) (a : Feed) :
    let lag := bestLag a.acc
    let far := 16 < (lag - 64) - a.b ∨ 16 < a.b - (lag - 64)
    let events : List Event :=
      if ¬ ((a.acq = .seek ∨ a.acq = .check) ∧ 64 ≤ a.counted) then []
      else if 4 * (a.acc.map Int.natAbs).sum ≤ (a.acc.getD (lag / 8) 0).natAbs * 256 then
        if a.acq = .seek then [.bulkLocked n (decide far) (if far then lag - 64 else a.b)]
        else if far then [.bulkMoved n a.b (lag - 64)]
        else []
      else [.bulkWeak n lag a.acq]
    resultNotice block n a = events.map fun e => { dest := none, record := { block := block, event := e } } := by
  intro lag far events
  have hd : a.resultDue = true ↔ ((a.acq = .seek ∨ a.acq = .check) ∧ 64 ≤ a.counted) := by
    simp only [Feed.resultDue, Bool.and_eq_true, Bool.or_eq_true, beq_iff_eq, decide_eq_true_eq]
    exact Iff.rfl
  have hlag : lag / 8 = peakIndexFrom 0 0 0 a.acc := by
    show 8 * peakIndexFrom 0 0 0 a.acc / 8 = _
    omega
  have hv : validityOf a.acc = .valid ↔ 4 * (a.acc.map Int.natAbs).sum ≤ (a.acc.getD (lag / 8) 0).natAbs * 256 := by
    rw [hlag]; unfold validityOf; dsimp only; split <;> simp_all
  have hf : movesDelay a.b (newDelay lag) = decide far := by
    have h : 16 < max a.b (lag - 64) - min a.b (lag - 64) ↔ far := by simp only [far]; omega
    exact decide_eq_decide.mpr h
  by_cases h1 : a.resultDue = true
  · by_cases h2 : validityOf a.acc = .valid
    · have hm : a.decidesMove = decide far := by
        unfold Feed.decidesMove; rw [h1, h2, hf]; rfl
      have e : events = if a.acq = .seek then [.bulkLocked n (decide far) (if far then lag - 64 else a.b)]
          else if far then [.bulkMoved n a.b (lag - 64)] else [] := by
        simp only [events]; rw [if_neg (not_not_intro (hd.mp h1)), if_pos (hv.mp h2)]
      rw [e]
      unfold resultNotice
      simp only [h1, h2, if_true, hm, decide_eq_true_eq]
      by_cases h3 : a.acq = .seek
      · simp only [h3, if_true]; rfl
      · simp only [h3, if_false]
        by_cases h4 : far
        · simp only [h4, if_true]; rfl
        · simp only [h4, if_false]; rfl
    · have e : events = [.bulkWeak n lag a.acq] := by
        simp only [events]; rw [if_neg (not_not_intro (hd.mp h1)), if_neg (fun h => h2 (hv.mpr h))]
      rw [e]; unfold resultNotice; simp only [h1, h2, if_true, if_false]; rfl
  · have e : events = [] := by simp only [events]; rw [if_pos (fun h => h1 (hd.mpr h))]
    rw [e]; unfold resultNotice; simp only [h1, Bool.false_eq_true, if_false]; rfl

/-! ## Whose turn step 5 is (R126, R127, R132) -/

/-- Step 5 is due for a microphone. -/
theorem Mic.verdictDue_iff (a : Mic) : a.verdictDue = true ↔
    8 ≤ a.divCount ∨ ((a.conv = .acquire ∨ a.conv = .recover) ∧ 4 ≤ a.goodRun) ∨
    (a.conv = .converged ∧ 25 ≤ a.poorRun) := by
  unfold Mic.verdictDue Mic.runDue Mic.divergeDue
  by_cases h : 8 ≤ a.divCount
  · simp [h]
  · cases hc : a.conv <;> simp [h]

/-- The microphones for which step 5 is due. -/
theorem mem_verdictsDue (mics : List Mic) (m : Nat) :
    m ∈ verdictsDue mics ↔ m < mics.length ∧ (micAt mics m).verdictDue = true := by
  have h : m ∈ verdictsDue mics ↔ ∃ a, mics[m]? = some a ∧ a.verdictDue = true := by
    unfold verdictsDue
    simp [List.mem_map, List.mem_filter, List.mem_zipIdx_iff_getElem?]
  rw [h]
  unfold micAt
  rw [List.getD_eq_getElem?_getD]
  constructor
  · rintro ⟨a, h, e⟩
    exact ⟨(List.getElem?_eq_some_iff.mp h).1, by rw [h]; exact e⟩
  · rintro ⟨h, e⟩
    rw [List.getElem?_eq_getElem h] at e ⊢
    exact ⟨_, rfl, e⟩

/-- They stand in ascending number. -/
theorem verdictsDue_sorted (mics : List Mic) : (verdictsDue mics).Pairwise (· < ·) := by
  unfold verdictsDue
  rw [List.pairwise_map]
  refine List.Pairwise.filter _ ?_
  have : (mics.zipIdx.map Prod.snd).Pairwise (· < ·) := by
    rw [List.zipIdx_map_snd]; exact List.pairwise_lt_range'
  exact List.pairwise_map.mp this

/-- The alignment unit's stage, when it is due: the feeds, and then the next stage, or in standby the end of the processing. -/
theorem State.alignmentStage_eq (s : State) (p : Proc) (hp : s.proc = some p) (hph : p.phase = .align)
    (hv : p.standby = true ∨ verdictsDue s.model.mics = []) :
    s.alignmentStage =
      let feeds := s.model.feeds.zipIdx.map fun c => Feed.stage s.hist s.model.mics p c.2 c.1
      let t := s.setModel { s.model with feeds := feeds }
      if p.standby then t.complete else t.setProc (some { p with phase := .arbitrate, stageQueues := s.queues }) := by
  have hn : s.verdictsPending p = false := by
    unfold State.verdictsPending
    rcases hv with hv | hv <;> simp [hv]
  unfold State.alignmentStage
  rw [hp]; dsimp only
  rw [hn, hph]; rfl

end Sys2Proof.Machine
end

