-- ==== Sys2Proof/Laws/Audio.lean ====
section
/-! SUPPORT. What the audio ports' operations leave: feed reads and resumes field by field, the samples of a frame, and an array frame up
to its row. -/

namespace Sys2Proof.Machine

/-! ## Feed reads -/

/-- A feed read touches the feed port, the feed-live mark and the reports (R7, R8, R11). -/
theorem State.feedRead_frame (s : State) : s.feedRead.1 = { s with
    feedPort := s.feedRead.1.feedPort
    array := { s.array with feedLive := s.feedRead.1.array.feedLive }
    report := s.feedRead.1.report } := by
  unfold State.feedRead State.takeOldest State.spoilLive
  split
  · rfl
  · rfl
  · rw [State.raise_frame]; rfl
  · rfl
  · split
    · rw [State.raise_frame]; rfl
    · rfl

@[simp] theorem State.feedRead_pending (s : State) : s.feedRead.1.pending = s.pending := by rw [State.feedRead_frame]
@[simp] theorem State.feedRead_hist (s : State) : s.feedRead.1.hist = s.hist := by rw [State.feedRead_frame]
@[simp] theorem State.feedRead_model (s : State) : s.feedRead.1.model = s.model := by rw [State.feedRead_frame]
@[simp] theorem State.feedRead_seen (s : State) : s.feedRead.1.seen = s.seen := by rw [State.feedRead_frame]
@[simp] theorem State.feedRead_pool (s : State) : s.feedRead.1.pool = s.pool := by rw [State.feedRead_frame]
@[simp] theorem State.feedRead_queues (s : State) : s.feedRead.1.queues = s.queues := by rw [State.feedRead_frame]
@[simp] theorem State.feedRead_globals (s : State) : s.feedRead.1.globals = s.globals := by rw [State.feedRead_frame]
@[simp] theorem State.feedRead_canc (s : State) : s.feedRead.1.canc = s.canc := by rw [State.feedRead_frame]
@[simp] theorem State.feedRead_proc (s : State) : s.feedRead.1.proc = s.proc := by rw [State.feedRead_frame]
@[simp] theorem State.feedRead_stager (s : State) : s.feedRead.1.stager = s.stager := by rw [State.feedRead_frame]
@[simp] theorem State.feedRead_standby (s : State) : s.feedRead.1.standby = s.standby := by rw [State.feedRead_frame]
@[simp] theorem State.feedRead_ctl (s : State) : s.feedRead.1.ctl = s.ctl := by rw [State.feedRead_frame]
@[simp] theorem State.feedRead_twoWireAddr (s : State) : s.feedRead.1.twoWireAddr = s.twoWireAddr := by rw [State.feedRead_frame]
@[simp] theorem State.feedRead_routes (s : State) : s.feedRead.1.routes = s.routes := by rw [State.feedRead_frame]
@[simp] theorem State.feedRead_freeCount (s : State) : s.feedRead.1.freeCount = s.freeCount := by rw [State.feedRead_frame]
@[simp] theorem State.feedRead_array_rows (s : State) : s.feedRead.1.array.rows = s.array.rows := by rw [State.feedRead_frame]
@[simp] theorem State.feedRead_array_counter (s : State) : s.feedRead.1.array.counter = s.array.counter := by rw [State.feedRead_frame]
@[simp] theorem State.feedRead_array_degraded (s : State) : s.feedRead.1.array.degraded = s.array.degraded := by rw [State.feedRead_frame]
@[simp] theorem State.feedRead_array_run (s : State) : s.feedRead.1.array.run = s.array.run := by rw [State.feedRead_frame]
@[simp] theorem State.feedRead_array_stopTimer (s : State) : s.feedRead.1.array.stopTimer = s.array.stopTimer := by
  rw [State.feedRead_frame]
@[simp] theorem State.feedRead_array_outBuf (s : State) : s.feedRead.1.array.outBuf = s.array.outBuf := by rw [State.feedRead_frame]
@[simp] theorem State.feedRead_array_framing (s : State) : s.feedRead.1.array.framing = s.array.framing := by rw [State.feedRead_frame]
@[simp] theorem State.feedRead_array_pin (s : State) : s.feedRead.1.array.pin = s.array.pin := by rw [State.feedRead_frame]
@[simp] theorem State.feedRead_array_adout (s : State) : s.feedRead.1.array.adout = s.array.adout := by rw [State.feedRead_frame]

/-! ## Resumes -/

/-- A resume touches the feed port, the run state, the feed-live mark, the output buffer and the reports (R15). -/
theorem State.resume_frame (s : State) : s.resume = { s with
    feedPort := s.resume.feedPort
    array := { s.array with run := .running, feedLive := s.resume.array.feedLive, outBuf := s.resume.array.outBuf }
    report := s.resume.report } := by
  unfold State.resume
  split
  · rename_i h
    rw [← h]
  · dsimp only
    rw [State.raise_frame]

@[simp] theorem State.resume_pending (s : State) : s.resume.pending = s.pending := by rw [State.resume_frame]
@[simp] theorem State.resume_hist (s : State) : s.resume.hist = s.hist := by rw [State.resume_frame]
@[simp] theorem State.resume_model (s : State) : s.resume.model = s.model := by rw [State.resume_frame]
@[simp] theorem State.resume_seen (s : State) : s.resume.seen = s.seen := by rw [State.resume_frame]
@[simp] theorem State.resume_pool (s : State) : s.resume.pool = s.pool := by rw [State.resume_frame]
@[simp] theorem State.resume_queues (s : State) : s.resume.queues = s.queues := by rw [State.resume_frame]
@[simp] theorem State.resume_globals (s : State) : s.resume.globals = s.globals := by rw [State.resume_frame]
@[simp] theorem State.resume_canc (s : State) : s.resume.canc = s.canc := by rw [State.resume_frame]
@[simp] theorem State.resume_proc (s : State) : s.resume.proc = s.proc := by rw [State.resume_frame]
@[simp] theorem State.resume_stager (s : State) : s.resume.stager = s.stager := by rw [State.resume_frame]
@[simp] theorem State.resume_standby (s : State) : s.resume.standby = s.standby := by rw [State.resume_frame]
@[simp] theorem State.resume_ctl (s : State) : s.resume.ctl = s.ctl := by rw [State.resume_frame]
@[simp] theorem State.resume_twoWireAddr (s : State) : s.resume.twoWireAddr = s.twoWireAddr := by rw [State.resume_frame]
@[simp] theorem State.resume_routes (s : State) : s.resume.routes = s.routes := by rw [State.resume_frame]
@[simp] theorem State.resume_freeCount (s : State) : s.resume.freeCount = s.freeCount := by rw [State.resume_frame]
@[simp] theorem State.resume_array_rows (s : State) : s.resume.array.rows = s.array.rows := by rw [State.resume_frame]
@[simp] theorem State.resume_array_counter (s : State) : s.resume.array.counter = s.array.counter := by rw [State.resume_frame]
@[simp] theorem State.resume_array_degraded (s : State) : s.resume.array.degraded = s.array.degraded := by rw [State.resume_frame]
@[simp] theorem State.resume_array_stopTimer (s : State) : s.resume.array.stopTimer = s.array.stopTimer := by rw [State.resume_frame]
@[simp] theorem State.resume_array_framing (s : State) : s.resume.array.framing = s.array.framing := by rw [State.resume_frame]
@[simp] theorem State.resume_array_pin (s : State) : s.resume.array.pin = s.array.pin := by rw [State.resume_frame]
@[simp] theorem State.resume_array_adout (s : State) : s.resume.array.adout = s.array.adout := by rw [State.resume_frame]
@[simp] theorem State.resume_array_run (s : State) : s.resume.array.run = .running := by rw [State.resume_frame]

/-! ## Frames -/

/-- The samples of a frame of the right size (R3). -/
theorem samplesOf_eq (slots : List Slot) {n : Nat} (h : slots.length = n) : samplesOf n slots = slots.map sampleOfSlot := by
  subst h
  apply List.ext_getElem
  · simp [samplesOf]
  · intro i h1 h2
    have h3 : i < slots.length := by simpa using h2
    simp [samplesOf, List.getD_eq_getElem?_getD, List.getElem?_eq_getElem h3]

/-- How a frame can end with a bit: well formed at its last bit, with every slot, and the receiver searches; faulted at a sync, which
begins the next frame (R2). -/
theorem Framing.onBit_ends {len : Nat} {pin : Bool} {b : LineBit} {g fr : Framing} {f : FrameEnd} (h : g.onBit len pin b = (fr, some f)) :
    (f = .faulted ∧ isSync pin b = true ∧ fr = .inFrame 1 b.data.toNat) ∨
      ∃ slots, f = .wellFormed slots ∧ slots.length = len / 32 ∧ isSync pin b = false ∧ fr = .search := by
  unfold Framing.onBit at h
  split at h
  · split at h <;> cases h
  · split at h
    · rename_i hs
      cases h
      exact Or.inl ⟨rfl, hs, rfl⟩
    · rename_i hs
      split at h
      · cases h
      · cases h
        exact Or.inr ⟨_, rfl, by simp [slotsOf], by simpa using hs, rfl⟩

/-- A frame that ends with a bit has its 24 slots, if it is well formed (R1). -/
theorem Framing.onBit_slots {pin : Bool} {b : LineBit} {g fr : Framing} {f : FrameEnd}
    (h : g.onBit Config.arrayFrameBits pin b = (fr, some f)) : ∀ slots, f = .wellFormed slots → slots.length = 24 := by
  intro slots e
  rcases Framing.onBit_ends h with ⟨e', _⟩ | ⟨l, e', hl, _⟩
  · rw [e'] at e; cases e
  · rw [e'] at e; cases e; exact hl

/-- A frame ends only at a receiver that is in one (R2). -/
theorem Framing.onBit_busy {len : Nat} {pin : Bool} {b : LineBit} {g fr : Framing} {f : FrameEnd} (h : g.onBit len pin b = (fr, some f)) :
    g.busy = true := by
  cases g with
  | search => cases hs : isSync pin b <;> simp [Framing.onBit, hs] at h
  | inFrame n d => rfl

/-- What a bit at the feed port does (R2, R5). -/
theorem State.feedBit_cases (s : State) (b : LineBit) :
    let r := s.feedPort.framing.onBit Config.feedFrameBits s.feedPort.pin b
    (r.2 = none → s.feedBit b = s.setFeedPort { s.feedPort with framing := r.1, pin := b.sync }) ∧
      ∀ f, r.2 = some f → s.feedBit b = (s.storeFeed f).setFeedPort { (s.storeFeed f).feedPort with framing := r.1, pin := b.sync } := by
  intro r
  refine ⟨fun h => ?_, fun f h => ?_⟩ <;> (unfold State.feedBit; dsimp only; rw [show (s.feedPort.framing.onBit _ _ b).2 = _ from h])

/-- A bit at the feed port touches the feed port and the reports (R5). -/
theorem State.feedBit_frame (s : State) (b : LineBit) :
    s.feedBit b = { s with feedPort := (s.feedBit b).feedPort, report := (s.feedBit b).report } := by
  obtain ⟨h0, h1⟩ := s.feedBit_cases b
  cases e : (s.feedPort.framing.onBit Config.feedFrameBits s.feedPort.pin b).2 with
  | none => rw [h0 e]; rfl
  | some f =>
    rw [h1 f e]
    cases f with
    | faulted => rfl
    | wellFormed slots => unfold State.storeFeed; dsimp only; split <;> rfl

/-- What a bit at the array port does: it only moves the receiver, or it starts a frame, or one arrives with it (R2, R12, R16). -/
theorem State.arrayBit_cases (s : State) (b : LineBit) :
    let r := s.array.framing.onBit Config.arrayFrameBits s.array.pin b
    (r.2 = none → s.array.framing = .search → isSync s.array.pin b = true →
      s.arrayBit b = (s.expireHolds.setReceiver (.inFrame 1 b.data.toNat) b.sync).driveRow) ∧
    (r.2 = none → s.array.framing ≠ .search ∨ isSync s.array.pin b = false → s.arrayBit b = s.setReceiver r.1 b.sync) ∧
    ∀ f, r.2 = some f → s.arrayBit b = ((s.arrayArrival f).setReceiver r.1 b.sync).driveRow := by
  intro r
  refine ⟨fun h h1 h2 => ?_, fun h h1 => ?_, fun f h => ?_⟩
  · unfold State.arrayBit Framing.onBit
    simp [h1, h2, Framing.busy]
  · unfold State.arrayBit
    dsimp only
    rw [show (s.array.framing.onBit _ _ b).2 = _ from h]
    dsimp only
    rw [if_neg]
    intro hh
    cases hf : s.array.framing with
    | inFrame n d => rw [hf] at hh; cases hh
    | search =>
      rcases h1 with h1 | h1
      · exact h1 hf
      · rw [hf] at hh; simp [Framing.onBit, h1, Framing.busy] at hh
  · unfold State.arrayBit
    dsimp only
    rw [show (s.array.framing.onBit _ _ b).2 = _ from h]

/-- The receiver set after a bit, with ADOUT as it then is (R4, R16). -/
theorem State.setReceiver_driveRow (s : State) (fr : Framing) (pin : Bool) : (s.setReceiver fr pin).driveRow = { s with
    array := { s.array with
      framing := fr
      pin := pin
      adout := if fr.busy then
        some ((if s.array.run = .stopped then zeroRow else s.array.outBuf.getD s.array.rows.length zeroRow).map slotOfSample)
        else none } } := rfl

/-! ## The bits of slots -/

/-- The number that the first so many bits of a stream spell, the first bit the most significant (R1). -/
def bitsNat (d : Nat → Bool) : Nat → Nat
  | 0 => 0
  | k + 1 => 2 * bitsNat d k + (d k).toNat

theorem bitsNat_div (d : Nat → Bool) (k j : Nat) : bitsNat d (k + j) / 2 ^ j = bitsNat d k := by
  induction j with
  | zero => simp
  | succ j ih =>
    have h : (2 * bitsNat d (k + j) + (d (k + j)).toNat) / 2 = bitsNat d (k + j) := by cases d (k + j) <;> simp; omega
    rw [show k + (j + 1) = k + j + 1 by omega, bitsNat, Nat.pow_succ, Nat.mul_comm (2 ^ j), ← Nat.div_div_eq_div_mul, h, ih]

theorem bitsNat_testBit (d : Nat → Bool) (k t : Nat) (h : t < k) : (bitsNat d k).testBit t = d (k - 1 - t) := by
  have hd := bitsNat_div d (k - t) t
  rw [show k - t + t = k by omega] at hd
  rw [Nat.testBit_eq_decide_div_mod_eq, hd, show k - t = (k - 1 - t) + 1 by omega, bitsNat]
  cases d (k - 1 - t) <;> simp

/-- The bits of a row of slots spell these slots (R1). -/
theorem slotsOf_bitsNat (slots : List Slot) :
    slotsOf slots.length (bitsNat (fun k => (slots.getD (k / 32) 0#32).getLsbD (31 - k % 32)) (32 * slots.length)) = slots := by
  unfold slotsOf
  apply List.ext_getElem (by simp)
  intro i h1 h2
  simp only [List.getElem_map, List.getElem_range]
  rw [show 32 * slots.length = 32 * (i + 1) + 32 * (slots.length - 1 - i) by omega, bitsNat_div]
  apply BitVec.eq_of_getLsbD_eq
  intro t ht
  rw [BitVec.getLsbD_ofNat, bitsNat_testBit _ _ _ (by omega)]
  have e1 : (32 * (i + 1) - 1 - t) / 32 = i := by omega
  have e2 : 31 - (32 * (i + 1) - 1 - t) % 32 = t := by omega
  simp [e1, e2, ht, h2]

/-! ## Runs of bits -/

/-- A property that every bit of a port keeps is kept by a run of bits. -/
theorem State.receive_keeps {P : State → Prop} (hf : ∀ s b, P s → P (s.feedBit b)) (ha : ∀ s b, P s → P (s.arrayBit b)) (s : State)
    (a : AudioPort) (bits : List LineBit) (h : P s) : P (s.receive a bits) := by
  unfold State.receive
  cases a with
  | feed =>
    induction bits generalizing s with
    | nil => exact h
    | cons b bits ih => exact ih _ (hf s b h)
  | array =>
    induction bits generalizing s with
    | nil => exact h
    | cons b bits ih => exact ih _ (ha s b h)

/-- An array frame up to its row: the stop timer, the resume, the feed read and the write to the histories (R12, R19). -/
theorem State.readFeed_eq (u : State) :
    let v := u.restartTimer.resume
    let r := v.feedRead
    v.readFeed = { u with
      feedPort := r.1.feedPort
      array := { u.array with feedLive := r.1.array.feedLive, run := .running, stopTimer := true, outBuf := v.array.outBuf }
      hist := u.hist.zipIdx.map fun c => r.2.getD c.2 0#16 :: c.1.take 12287
      proc := u.proc.map fun p => { p with writesSince := p.writesSince + 1 }
      report := r.1.report } := by
  intro v r
  have h : v.readFeed = v.feedRead.1.writeHistories v.feedRead.2 := rfl
  rw [h, State.writeHistories, State.feedRead_frame]
  simp [v, r, State.restartTimer, Config.historyLength]

end Sys2Proof.Machine
end

