-- ==== Sys2Proof/Laws/Shapes.lean ====
section
/-! SUPPORT. The sizes of the part's stores, tables, histories and queues: each operation keeps them. -/

namespace Sys2Proof.Machine

/-! ## Lists -/

@[simp] theorem setSegs_length (st : SegState) (l : List Nat) (g : List SegState) : (setSegs st l g).length = g.length := by
  unfold setSegs
  induction l generalizing g with
  | nil => rfl
  | cons i l ih => rw [List.foldl_cons, ih, List.length_set]

@[simp] theorem settleQueues_length (old new : List PathRec) (mics : List Mic) (q : List (List QEntry)) :
    (settleQueues old new mics q).length = 4 := by
  simp [settleQueues]

@[simp] theorem applyVerdicts_length (v : Nat → Option (Conv × Cause)) (mics : List Mic) :
    (applyVerdicts v mics).length = mics.length := by
  simp [applyVerdicts]

@[simp] theorem idleGains_length (v : Nat → Option (Conv × Cause)) (g : List Nat) : (idleGains v g).length = g.length := by
  simp [idleGains]

@[simp] theorem ageWindows_length (g : List QEntry) (paths : List PathRec) : (ageWindows g paths).length = paths.length := by
  simp [ageWindows]

@[simp] theorem samplesOf_length (n : Nat) (l : List Slot) : (samplesOf n l).length = n := by simp [samplesOf]

@[simp] theorem zeroRow_length : zeroRow.length = 24 := by simp [zeroRow, Config.mics]

@[simp] theorem zeroFeeds_length : zeroFeeds.length = 8 := by simp [zeroFeeds, Config.feeds]

theorem outputBlock_length (s : State) (p : Proc) : (outputBlock s p).length = 64 := by
  simp [outputBlock, rowsOfColumns, Config.blockFrames]

theorem outputBlock_row {s : State} {p : Proc} {r : List Sample} (h : r ∈ outputBlock s p) : r.length = 24 := by
  simp only [outputBlock, rowsOfColumns, List.mem_map] at h
  obtain ⟨i, _, rfl⟩ := h
  simp [Config.mics]

/-! ## The model's tables -/

theorem Model.Shaped.landSettings {m : Model} (h : m.Shaped) (sets : List ChangeSet) : (m.landSettings sets).Shaped := by
  obtain ⟨h1, h2, h3, h4, h5⟩ := h
  exact ⟨h1, by simpa [Model.landSettings] using h2, by simpa [Model.landSettings] using h3, h4,
    by simpa [Model.landSettings] using h5⟩

theorem Model.Shaped.release {m : Model} (h : m.Shaped) (l : List Nat) : (m.release l).Shaped :=
  ⟨by simpa [Model.release] using h.1, h.2⟩

theorem Model.Shaped.closeStep {m : Model} (h : m.Shaped) (c : ChangeSet) : (m.closeStep c).Shaped := by
  unfold Model.closeStep
  split
  · split
    · obtain ⟨h1, h2, h3⟩ := h.release (OpenPath.segs _)
      exact ⟨h1, by simpa using h.2.1, h3⟩
    · exact h
  all_goals exact h

theorem Model.Shaped.layOut {m : Model} (h : m.Shaped) (n : Nat) (p : OpenPath) (old : List Window) (g : List Geom)
    (r : List Nat) : (m.layOut n p old g r).Shaped := by
  obtain ⟨h1, h2, h3⟩ := h
  exact ⟨by simpa [Model.layOut, Model.release] using h1, by simpa [Model.layOut, Model.release] using h2, h3⟩

theorem Model.Shaped.shapeStep {m : Model} (h : m.Shaped) (c : ChangeSet) : (m.shapeStep c).Shaped := by
  unfold Model.shapeStep
  split
  · split
    · exact h.layOut _ _ _ _ _
    · exact h.layOut _ _ _ _ _
    · exact h
  all_goals exact h

theorem Model.Shaped.tapStep {m : Model} (h : m.Shaped) (c : ChangeSet) : (m.tapStep c).Shaped := by
  unfold Model.tapStep
  split
  · split <;> exact h
  all_goals exact h

theorem Model.Shaped.foldl {f : Model → ChangeSet → Model} (hf : ∀ m c, m.Shaped → (f m c).Shaped) {m : Model} (h : m.Shaped)
    (sets : List ChangeSet) : (sets.foldl f m).Shaped := by
  induction sets generalizing m with
  | nil => exact h
  | cons c l ih => exact ih (hf m c h)

theorem Model.Shaped.applySets {m : Model} (h : m.Shaped) (sets : List ChangeSet) : (m.applySets sets).Shaped := by
  unfold Model.applySets
  refine Model.Shaped.foldl (fun m c h => h.tapStep c) ?_ sets
  refine Model.Shaped.foldl (fun m c h => h.shapeStep c) ?_ sets
  refine Model.Shaped.foldl (fun m c h => h.closeStep c) ?_ sets
  exact h.landSettings sets

theorem State.landedModel_shaped {s : State} (h : s.model.Shaped) : s.landedModel.Shaped := by
  obtain ⟨h1, h2, h3, h4, h5⟩ := h.applySets s.applying
  exact ⟨h1, h2, by simpa [State.landedModel] using h3, by simpa [State.landedModel] using h4, h5⟩

/-! ## The whole state: reports -/

theorem State.Shaped.reports {s : State} (h : s.Shaped) : s.ReportsShaped := h.2.2.2.2.2.2.2.2

theorem State.Shaped.withReports {s : State} (h : s.Shaped) {r : PerPort Report} {n : Nat} (hr : r.p0.Shaped ∧ r.p1.Shaped) :
    { s with report := r, freeCount := n }.Shaped :=
  ⟨h.1, h.2.1, h.2.2.1, h.2.2.2.1, h.2.2.2.2.1, h.2.2.2.2.2.1, h.2.2.2.2.2.2.1, h.2.2.2.2.2.2.2.1, hr⟩

theorem State.Shaped.countBoth {s : State} (h : s.Shaped) (i : CounterId) : (s.countBoth i).Shaped :=
  h.withReports (h.reports.countBoth i)

theorem State.Shaped.deliver {s : State} (h : s.Shaped) (p : Port) (c : Record) : (s.deliver p c).Shaped :=
  h.withReports (h.reports.deliver p c)

theorem State.Shaped.raise {s : State} (h : s.Shaped) (c : Record) : (s.raise c).Shaped := by
  have hr := h.reports.raise c
  obtain ⟨r, e⟩ := s.raise_eq c
  rw [e] at hr ⊢
  exact h.withReports hr

theorem State.Shaped.foldl_post {s : State} (h : s.Shaped) (l : List Notice) : (l.foldl State.post s).Shaped := by
  have hr := h.reports.foldl_post l
  obtain ⟨r, e⟩ := State.foldl_post_eq l s
  rw [e] at hr ⊢
  exact h.withReports hr

theorem State.Shaped.postMerged {s : State} (h : s.Shaped) (ls : List (List Notice)) : (s.postMerged ls).Shaped := by
  have hr := h.reports.postMerged ls
  obtain ⟨r, n, e⟩ := s.postMerged_eq ls
  rw [e] at hr ⊢
  exact h.withReports hr

/-- A report whose queue and watches are those of a report that has its sizes has its sizes. -/
theorem Report.Shaped.of_same {r r' : Report} (h : r.Shaped) (hq : r'.queue = r.queue) (hw : r'.watches = r.watches) :
    r'.Shaped := ⟨hq ▸ h.1, hw ▸ h.2⟩

theorem State.Shaped.setReport {s : State} (h : s.Shaped) (p : Port) {r : Report} (hr : r.Shaped) : (s.setReport p r).Shaped := by
  refine h.withReports ?_
  cases p
  · exact ⟨hr, h.reports.2⟩
  · exact ⟨h.reports.1, hr⟩

theorem State.Shaped.report_get {s : State} (h : s.Shaped) (p : Port) : (s.report.get p).Shaped := by
  cases p
  · exact h.reports.1
  · exact h.reports.2

/-! ## The whole state: other parts -/

theorem State.Shaped.setModel {s : State} (h : s.Shaped) {m : Model} (hm : m.Shaped) : (s.setModel m).Shaped :=
  ⟨h.1, h.2.1, h.2.2.1, hm, h.2.2.2.2⟩

theorem State.Shaped.setArray {s : State} (h : s.Shaped) {a : ArrayPort} (ha : a.Shaped) : (s.setArray a).Shaped :=
  ⟨h.1, ha, h.2.2⟩

theorem State.Shaped.setFeedPort {s : State} (h : s.Shaped) {f : FeedPort} (hf : f.Shaped) : (s.setFeedPort f).Shaped :=
  ⟨hf, h.2⟩

theorem State.Shaped.setProc {s : State} (h : s.Shaped) (p : Option Proc) : (s.setProc p).Shaped := h

theorem State.Shaped.setCtl {s : State} (h : s.Shaped) (p : Port) (c : Ctl) : (s.setCtl p c).Shaped := h

theorem State.Shaped.setStager {s : State} (h : s.Shaped) (p : Port) (g : Stager) : (s.setStager p g).Shaped := h

theorem ArrayPort.Shaped.drive {a : ArrayPort} (h : a.Shaped) : a.drive.Shaped := by
  refine ⟨h.1, h.2.1, h.2.2.1, h.2.2.2.1, ?_⟩
  intro l hl
  simp only [ArrayPort.drive, ArrayPort.driven] at hl
  split at hl
  · simp only [Option.some.injEq] at hl
    rw [← hl, List.length_map]
    split
    · simp
    · rw [List.getD_eq_getElem?_getD]
      cases hr : a.outBuf[a.rows.length]? with
      | none => simp
      | some r => exact h.2.2.2.1 r (List.mem_of_getElem? hr)
  · cases hl

theorem State.Shaped.cancelBlock {s : State} (h : s.Shaped) (p : Proc) : (s.cancelBlock p).Shaped := by
  have ha (t : State) (out : List (List Sample)) (ht : t.Shaped) (ho : out.length = 64) (hr : ∀ r ∈ out, r.length = 24) :
      (t.setArray ({ t.array with outBuf := out }.drive)).Shaped :=
    ht.setArray (ArrayPort.Shaped.drive ⟨ht.2.1.1, ht.2.1.2.1, ho, hr, ht.2.1.2.2.2.2⟩)
  unfold State.cancelBlock
  refine ha _ _ ?_ (outputBlock_length _ p) (fun r hr => outputBlock_row hr)
  split
  · exact h
  · obtain ⟨h1, h2, h3, h4, h5⟩ := h.2.2.2.1
    exact ⟨h.1, h.2.1, h.2.2.1, ⟨h1, h2, h3, by simp [Config.mics], h5⟩, h.2.2.2.2⟩

theorem State.Shaped.landSets {s : State} (h : s.Shaped) : s.landSets.Shaped :=
  ⟨h.1, h.2.1, h.2.2.1, State.landedModel_shaped h.2.2.2.1, h.2.2.2.2.1, h.2.2.2.2.2.1, settleQueues_length _ _ _ _,
    h.2.2.2.2.2.2.2⟩

theorem State.Shaped.landBlock {s : State} (h : s.Shaped) (p : Proc) (e : PerPort Bool) : (s.landBlock p e).Shaped :=
  ((h.landSets.cancelBlock p).setProc _).postMerged _

theorem State.Shaped.expireHolds {s : State} (h : s.Shaped) : s.expireHolds.Shaped := by
  unfold State.expireHolds
  split
  · split
    · have h1 : s.endHolds.Shaped := h
      exact h1.landBlock _ _
    all_goals exact h
  · exact h

/-- The slip check touches the feed port and the counters only (R10). -/
theorem State.slipCheck_eq (s : State) : ∃ f r, s.slipCheck = { s with feedPort := f, report := r } ∧
    (s.feedPort.Shaped → f.Shaped) ∧ (s.ReportsShaped → r.p0.Shaped ∧ r.p1.Shaped) := by
  unfold State.slipCheck
  dsimp only
  split
  · exact ⟨s.feedPort, s.report, rfl, id, id⟩
  · split
    · refine ⟨_, _, rfl, fun h => ⟨?_, fun x hx => h.2.1 x (List.mem_of_mem_tail hx), h.2.2⟩, fun h => h.countBoth .feedDrop⟩
      have h1 := h.1
      have h2 : s.feedPort.store.tail.length ≤ 32 := by simp only [List.length_tail]; omega
      exact h2
    · split
      · exact ⟨_, s.report, rfl, id, id⟩
      · exact ⟨s.feedPort, s.report, rfl, id, id⟩

theorem State.Shaped.slipCheck {s : State} (h : s.Shaped) : s.slipCheck.Shaped := by
  obtain ⟨f, r, e, hf, hr⟩ := s.slipCheck_eq
  rw [e]
  have h1 : (s.setFeedPort f).Shaped := h.setFeedPort (hf h.1)
  exact h1.withReports (hr h.reports)

theorem State.countDegraded_eq (s : State) : ∃ r, s.countDegraded = { s with report := r } ∧
    (s.ReportsShaped → r.p0.Shaped ∧ r.p1.Shaped) := by
  unfold State.countDegraded
  split
  · exact ⟨_, rfl, fun h => h.countBoth .degradedBlocks⟩
  · exact ⟨s.report, rfl, id⟩

theorem State.Shaped.blockStart {s : State} (h : s.Shaped) : s.blockStart.Shaped := by
  have h1 : s.countDegraded.Shaped := by
    unfold State.countDegraded
    split
    · exact h.countBoth _
    · exact h
  have h2 := h1.slipCheck
  have h3 : s.countDegraded.slipCheck.takeBlock.Shaped :=
    ⟨h2.1, ⟨by simp [State.takeBlock], by simp [State.takeBlock], h2.2.1.2.2⟩, h2.2.2⟩
  show (s.countDegraded.slipCheck.takeBlock.landUnlessHeld _).Shaped
  unfold State.landUnlessHeld
  split
  · exact h3
  · exact h3.landBlock _ _

/-! ## Stages -/

theorem State.Shaped.supervisorStage {s : State} (h : s.Shaped) : s.supervisorStage.Shaped := by
  unfold State.supervisorStage
  split
  · split
    · obtain ⟨h1, h2, h3, h4, h5⟩ := h.2.2.2.1
      exact ⟨h.1, h.2.1, h.2.2.1, ⟨h1, h2, by simpa using h3, h4, h5⟩, h.2.2.2.2⟩
    · exact h
  · exact h

theorem State.Shaped.enterConv {s : State} (h : s.Shaped) (m : Nat) (c : Conv) : (s.enterConv m c).Shaped := by
  obtain ⟨h1, h2, h3, h4, h5⟩ := h.2.2.2.1
  exact ⟨h.1, h.2.1, h.2.2.1, ⟨h1, h2, by simpa [State.enterConv] using h3, h4, h5⟩, h.2.2.2.2.1, h.2.2.2.2.2.1,
    settleQueues_length _ _ _ _, h.2.2.2.2.2.2.2⟩

theorem State.Shaped.runThreshold {s : State} (h : s.Shaped) (m : Nat) : (s.runThreshold m).Shaped := by
  unfold State.runThreshold
  dsimp only
  split
  · exact (h.enterConv _ _).foldl_post _
  · exact h

theorem State.Shaped.micDiverged {s : State} (h : s.Shaped) (m : Nat) : (s.micDiverged m).Shaped := by
  unfold State.micDiverged
  dsimp only
  split
  · have ha (l : List Nat) : (s.askClears l).Shaped := ⟨h.1, h.2.1, h.2.2.1, h.2.2.2.1, h.2.2.2.2⟩
    exact ((ha _).enterConv m .acquire).foldl_post _
  · exact h

theorem State.Shaped.foldl {α : Type} {f : State → α → State} (hf : ∀ s a, s.Shaped → (f s a).Shaped) {s : State} (h : s.Shaped)
    (l : List α) : (l.foldl f s).Shaped := by
  induction l generalizing s with
  | nil => exact h
  | cons a l ih => exact ih (hf s a h)

theorem State.Shaped.verdictSteps {s : State} (h : s.Shaped) : s.verdictSteps.Shaped :=
  State.Shaped.foldl (fun _ m h => (h.micDiverged m).runThreshold m) h _

theorem State.Shaped.complete {s : State} (h : s.Shaped) : s.complete.Shaped :=
  ⟨h.1, h.2.1, h.2.2.1, h.2.2.2.1, h.2.2.2.1, ⟨h.2.2.2.1.1, by simpa [State.complete] using h.2.2.2.1.2.1⟩, h.2.2.2.2.2.2⟩

theorem State.Shaped.alignmentStage {s : State} (h : s.Shaped) : s.alignmentStage.Shaped := by
  unfold State.alignmentStage
  split
  · split
    · dsimp only
      obtain ⟨h1, h2, h3, h4, h5⟩ := h.2.2.2.1
      have hm (fs : List Feed) (hf : fs.length = 8) : (s.setModel { s.model with feeds := fs }).Shaped :=
        State.Shaped.setModel h ⟨h1, h2, h3, h4, hf⟩
      split
      · exact (hm _ (by simpa using h5)).complete
      · exact (hm _ (by simpa using h5)).setProc _
    · exact h
  · exact h

theorem State.Shaped.bulkResult {s : State} (h : s.Shaped) : s.bulkResult.Shaped := by
  unfold State.bulkResult
  dsimp only
  split
  · obtain ⟨h1, h2, h3, h4, h5⟩ := h.2.2.2.1
    refine State.Shaped.postMerged ?_ _
    exact ⟨h.1, h.2.1, h.2.2.1, ⟨h1, h2, by simpa using h3, h4, by simpa using h5⟩, h.2.2.2.2.1, h.2.2.2.2.2.1,
      settleQueues_length _ _ _ _, h.2.2.2.2.2.2.2⟩
  · exact h

theorem State.Shaped.checkExpiry {s : State} (h : s.Shaped) (f : Nat) : (s.checkExpiry f).Shaped := by
  unfold State.checkExpiry
  split
  · obtain ⟨h1, h2, h3, h4, h5⟩ := h.2.2.2.1
    exact h.setModel ⟨h1, h2, h3, h4, by simpa using h5⟩
  · exact h

theorem State.Shaped.checkExpiries {s : State} (h : s.Shaped) : s.checkExpiries.Shaped :=
  State.Shaped.foldl (fun _ f h => h.checkExpiry f) h _

theorem Arbitration.level_queues_length (req : QEntry → Bool) (len : QEntry → Nat) (scan : Scan) (a : Arbitration) (l : Nat) :
    (a.level req len scan l).queues.length = a.queues.length := by
  unfold Arbitration.level
  split
  · rfl
  · simp

theorem arbitrate_queues_length (s : State) (p : Proc) : (arbitrate s p).queues.length = s.queues.length := by
  simp only [arbitrate, List.foldl_cons, List.foldl_nil, Arbitration.level_queues_length]

theorem State.Shaped.arbiterStage {s : State} (h : s.Shaped) : s.arbiterStage.Shaped := by
  unfold State.arbiterStage
  split
  · split
    · obtain ⟨h1, h2, h3, h4, h5⟩ := h.2.2.2.1
      exact ⟨h.1, h.2.1, h.2.2.1, ⟨h1, by simpa using h2, h3, h4, h5⟩, h.2.2.2.2.1, h.2.2.2.2.2.1,
        (arbitrate_queues_length s _).trans h.2.2.2.2.2.2.1, h.2.2.2.2.2.2.2⟩
    · exact h
  · exact h

theorem State.Shaped.endStep {s : State} (h : s.Shaped) (p : Proc) (b : Bool) : (s.endStep p b).Shaped := by
  unfold State.endStep
  split
  · split
    · exact h.raise _
    · exact h
  · split
    · exact (h.raise _).complete
    · exact h.complete

theorem State.Shaped.tickMeters {s : State} (h : s.Shaped) : s.tickMeters.Shaped :=
  h.withReports ⟨h.reports.1.of_same rfl rfl, h.reports.2.of_same rfl rfl⟩

theorem State.Shaped.updateStage {s : State} (h : s.Shaped) : s.updateStage.Shaped := by
  unfold State.updateStage
  split
  · split
    · rename_i p _ _
      have h1 : (s.writeUpdates p).Shaped := h.setModel h.2.2.2.1
      have h2 : (s.writeUpdates p).refreshSnapshot.Shaped := h1
      have h3 : ((s.writeUpdates p).refreshSnapshot.tickMeters.enterIf s.enters).Shaped := h2.tickMeters
      exact h3.endStep _ _
    · exact h
  · exact h

theorem State.Shaped.expireMeter {s : State} (h : s.Shaped) (q : Port) (b : BlockNo) : (s.expireMeter q b).Shaped := by
  have h1 : ({ s.report.get q with meter := (s.report.get q).meter.reload } : Report).Shaped := (h.report_get q).of_same rfl rfl
  exact (h.setReport q h1).deliver q _

theorem State.Shaped.meterExpiry {s : State} (h : s.Shaped) (q : Port) : (s.meterExpiry q).Shaped := by
  unfold State.meterExpiry
  split
  · split
    · split
      · exact (h.expireMeter q _).endStep _ _
      · exact h
    all_goals exact h
  · exact h

theorem State.Shaped.settle {s : State} (h : s.Shaped) : s.settle.Shaped := (h.expireHolds.meterExpiry .p0).meterExpiry .p1

theorem State.Shaped.finishProcessing {s : State} (h : s.Shaped) : s.finishProcessing.Shaped :=
  (h.settle.supervisorStage.verdictSteps.alignmentStage.bulkResult.checkExpiries.arbiterStage.updateStage).settle

/-! ## Audio ports -/

theorem State.Shaped.feedBit {s : State} (h : s.Shaped) (b : LineBit) : (s.feedBit b).Shaped := by
  have hs (f : FrameEnd) : (s.storeFeed f).Shaped := by
    unfold State.storeFeed
    split
    · exact h.countBoth _
    · split
      · rename_i hlt
        refine h.setFeedPort ⟨?_, ?_, h.1.2.2⟩
        · simp only [List.length_append, List.length_singleton, Config.storeFrames] at hlt ⊢; omega
        · intro x hx
          rcases List.mem_append.mp hx with hx | hx
          · exact h.1.2.1 x hx
          · rw [List.mem_singleton.mp hx]; simp [Config.feeds]
      · exact h.countBoth _
  obtain ⟨h0, h1⟩ := s.feedBit_cases b
  cases e : (s.feedPort.framing.onBit Config.feedFrameBits s.feedPort.pin b).2 with
  | none => rw [h0 e]; exact h.setFeedPort h.1
  | some f => rw [h1 f e]; exact (hs f).setFeedPort (hs f).1

theorem State.Shaped.takeOldest {s : State} (h : s.Shaped) {frame : List Sample} {rest : List (List Sample)}
    (e : s.feedPort.store = frame :: rest) : (s.takeOldest frame rest).Shaped := by
  have h1 := h.1
  unfold FeedPort.Shaped at h1
  rw [e] at h1
  refine h.setFeedPort ⟨?_, fun x hx => h1.2.1 x (List.mem_cons_of_mem _ hx), h1.2.1 frame List.mem_cons_self⟩
  have := h1.1
  simp only [List.length_cons] at this ⊢; omega

theorem State.Shaped.spoilLive {s : State} (h : s.Shaped) : s.spoilLive.Shaped := h.setArray h.2.1

theorem State.Shaped.feedRead {s : State} (h : s.Shaped) : s.feedRead.1.Shaped := by
  unfold State.feedRead
  split
  · have hl : (s.setFeedPort { s.feedPort with repeatMark := false }).Shaped := ⟨h.1, h.2⟩
    exact hl.countBoth _
  · rename_i e; exact h.takeOldest e
  · have hl : (s.setFeedPort { s.feedPort with state := .lost }).Shaped := ⟨h.1, h.2⟩
    exact ((hl.countBoth _).raise _).spoilLive
  · exact h.spoilLive
  · rename_i e
    split
    · exact (h.takeOldest e).raise _
    · exact h.spoilLive

theorem State.Shaped.writeHistories {s : State} (h : s.Shaped) (l : List Sample) : (s.writeHistories l).Shaped := by
  refine ⟨h.1, h.2.1, ⟨by simpa [State.writeHistories] using h.2.2.1.1, ?_⟩, h.2.2.2⟩
  intro x hx
  simp only [State.writeHistories, List.mem_map] at hx
  obtain ⟨c, hc, rfl⟩ := hx
  have := h.2.2.1.2 c.1 (by
    obtain ⟨i, hi⟩ := List.mem_iff_getElem?.mp hc
    rw [List.getElem?_zipIdx] at hi
    cases hh : s.hist[i]? with
    | none => simp [hh] at hi
    | some y =>
      simp [hh] at hi
      rw [← hi]; exact List.mem_of_getElem? hh)
  simp [Config.historyLength, this]

theorem State.Shaped.resume {s : State} (h : s.Shaped) : s.resume.Shaped := by
  unfold State.resume
  split
  · exact h
  · have ht := h.raise { block := s.array.counter, event := .arrayResumed }
    dsimp only
    refine ⟨⟨?_, fun x hx => ht.1.2.1 x (List.mem_of_mem_drop hx), ht.1.2.2⟩, ?_, ht.2.2⟩
    · have := ht.1.1
      simp only [List.length_drop]; omega
    · refine ⟨ht.2.1.1, ht.2.1.2.1, by simp [Config.blockFrames], ?_, ht.2.1.2.2.2.2⟩
      intro x hx
      rw [(List.mem_replicate.mp hx).2]; simp

/-- The sizes with room for the row that completes a block: the partial block holds at most 64 rows. -/
def State.ShapedFull (s : State) : Prop :=
  s.array.rows.length ≤ 64 ∧ { s with array := { s.array with rows := [] } }.Shaped ∧ ∀ x ∈ s.array.rows, x.length = 24

theorem State.Shaped.joinRow {s : State} (h : s.Shaped) (f : FrameEnd) : (s.joinRow f).ShapedFull := by
  have hr (r : List Sample) (hl : r.length = 24) : ∀ x ∈ s.array.rows ++ [r], x.length = 24 := by
    intro x hx
    rcases List.mem_append.mp hx with hx | hx
    · exact h.2.1.2.1 x hx
    · rw [List.mem_singleton.mp hx]; exact hl
  have hn (r : List Sample) : (s.array.rows ++ [r]).length ≤ 64 := by
    have := h.2.1.1
    simp only [List.length_append, List.length_singleton]; omega
  have he : { s with array := { s.array with rows := [] } }.Shaped :=
    ⟨h.1, ⟨by simp, by simp, h.2.1.2.2⟩, h.2.2⟩
  unfold State.joinRow
  split
  · exact ⟨hn _, he, hr _ (by simp [Config.mics])⟩
  · exact ⟨hn _, he.countBoth .arrayFrameFault, hr _ (by simp)⟩

theorem State.ShapedFull.handOff {s : State} (h : s.ShapedFull) (f : FrameEnd) : (s.handOff f).Shaped := by
  unfold State.handOff
  split
  · suffices hb : s.blockStart.Shaped by
      split
      · exact hb
      · exact hb.expireHolds
    obtain ⟨-, h, -⟩ := h
    obtain ⟨r1, e1, hr1⟩ := s.countDegraded_eq
    obtain ⟨f, r2, e2, hf, hr2⟩ := s.countDegraded.slipCheck_eq
    have hr3 := hr2 (by rw [e1]; exact hr1 h.reports)
    have hf3 : f.Shaped := hf (by rw [e1]; exact h.1)
    have h3 : s.countDegraded.slipCheck.takeBlock.Shaped := by
      rw [e2, e1]
      exact ⟨hf3, ⟨by simp [State.takeBlock], by simp [State.takeBlock], h.2.1.2.2⟩, h.2.2.1, h.2.2.2.1, h.2.2.2.2.1,
        h.2.2.2.2.2.1, h.2.2.2.2.2.2.1, h.2.2.2.2.2.2.2.1, hr3⟩
    show (s.countDegraded.slipCheck.takeBlock.landUnlessHeld _).Shaped
    unfold State.landUnlessHeld
    split
    · exact h3
    · exact h3.landBlock _ _
  · rename_i hlt
    obtain ⟨_, h2, h3⟩ := h
    refine ⟨h2.1, ⟨?_, h3, h2.2.1.2.2⟩, h2.2.2⟩
    simp only [Config.blockFrames] at hlt; omega

theorem State.Shaped.arrayArrival {s : State} (h : s.Shaped) (f : FrameEnd) : (s.arrayArrival f).Shaped := by
  have h1 : s.settle.finishBeforeWrite.Shaped := by
    unfold State.finishBeforeWrite
    split
    · split
      · exact h.settle.finishProcessing
      · exact h.settle
    · exact h.settle
  have h2 : s.settle.finishBeforeWrite.restartTimer.Shaped := h1.setArray h1.2.1
  have h3 : s.settle.finishBeforeWrite.restartTimer.resume.readFeed.Shaped := (h2.resume.feedRead).writeHistories _
  exact (h3.joinRow f).handOff f

theorem State.Shaped.setReceiver {s : State} (h : s.Shaped) (framing : Framing) (pin : Bool) : (s.setReceiver framing pin).Shaped :=
  h.setArray h.2.1

theorem State.Shaped.driveRow {s : State} (h : s.Shaped) : s.driveRow.Shaped := h.setArray (ArrayPort.Shaped.drive h.2.1)

theorem State.Shaped.arrayBit {s : State} (h : s.Shaped) (b : LineBit) : (s.arrayBit b).Shaped := by
  unfold State.arrayBit
  dsimp only
  split
  · exact ((h.arrayArrival _).setReceiver _ _).driveRow
  · split
    · exact (h.expireHolds.setReceiver _ _).driveRow
    · exact h.setReceiver _ _

/-- The bits of an audio port keep the sizes. -/
theorem State.Shaped.receive {s : State} (h : s.Shaped) (a : AudioPort) (bits : List LineBit) : (s.receive a bits).Shaped :=
  State.receive_keeps (P := State.Shaped) (fun _ b h => h.feedBit b) (fun _ b h => h.arrayBit b) s a bits h

theorem State.Shaped.stopArray {s : State} (h : s.Shaped) : s.stopArray.Shaped := by
  have ht := (h.countBoth .arrayStops).raise { block := s.array.counter, event := .arrayStopped }
  unfold State.stopArray
  exact ⟨ht.1, ArrayPort.Shaped.drive ⟨by simp, by simp, ht.2.1.2.2⟩, ht.2.2⟩

theorem State.Shaped.endProcessing {s : State} (h : s.Shaped) : s.endProcessing.Shaped := h.finishProcessing.setProc none

theorem State.Shaped.stopExpiry {s : State} (h : s.Shaped) : s.stopExpiry.Shaped := by
  unfold State.stopExpiry
  split
  · exact h.endProcessing.stopArray
  · exact h

end Sys2Proof.Machine
end

