-- ==== Sys2Proof/Laws/Requests.lean ====
section
/-! SUPPORT. What a request does at its port: refused, ignored, or handed to its owner; and what the operations of the change stager
can do. -/

namespace Sys2Proof.Machine

/-! ## The port -/

theorem State.endWrite_receives {s : State} {p : Port} {bytes : List Byte} (h : s.Receives p bytes) (f : State → State) :
    s.endWrite p bytes f = f s.settle := by
  obtain ⟨held, h1, h2⟩ := h
  simp only [State.endWrite, h1, h2, if_true]

theorem State.request_receives {s : State} {p : Port} {k : Kind} {body : List Byte} (h : s.Receives p (message k body))
    (owner : State → State × Reply) :
    s.request p k body owner =
      (s.settle.answer p k body owner).1.respond p k.code (s.settle.answer p k body owner).2 :=
  State.endWrite_receives h _

theorem State.answer_takes {s : State} {p : Port} {k : Kind} {body : List Byte} (h : s.Takes p k body)
    (owner : State → State × Reply) : s.settle.answer p k body owner = owner s.settle := by
  obtain ⟨_, h1, h2, h3⟩ := h
  have e1 : ¬ Config.maxBody < body.length := by simp only [Config.maxBody]; omega
  simp only [State.answer, e1, if_false, State.settle_ctl, Grant.allows, h2, h3, decide_true, Bool.not_true, Bool.false_eq_true]

/-- A request that passes the port's checks: its owner's answer, from the state with nothing left to settle. -/
theorem State.request_takes {s : State} {p : Port} {k : Kind} {body : List Byte} (h : s.Takes p k body)
    (owner : State → State × Reply) :
    s.request p k body owner = (owner s.settle).1.respond p k.code (owner s.settle).2 := by
  rw [State.request_receives h.1, State.answer_takes h]

/-- A response touches nothing but its port. -/
theorem State.respond_eq (s : State) (p : Port) (k : Kind) (r : Reply) :
    s.respond p k.code r = s.answered p k r.status r.body := rfl

/-- What a request can do, whatever its port's state: nothing, end the port's transaction, or answer. -/
theorem State.request_cases (s : State) (p : Port) (k : Kind) (body : List Byte) (owner : State → State × Reply) :
    s.request p k body owner = s ∨ s.request p k body owner = s.idlePort p ∨
      (∃ st, s.request p k body owner = s.settle.respond p k.code (.refuse st)) ∨
      s.request p k body owner = (owner s.settle).1.respond p k.code (owner s.settle).2 := by
  unfold State.request State.endWrite
  split
  · split
    · simp only [State.answer]
      split
      · exact Or.inr (Or.inr (Or.inl ⟨_, rfl⟩))
      · split
        · exact Or.inr (Or.inr (Or.inl ⟨_, rfl⟩))
        · split
          · exact Or.inr (Or.inr (Or.inl ⟨_, rfl⟩))
          · exact Or.inr (Or.inr (Or.inr rfl))
    · exact Or.inl rfl
  · exact Or.inr (Or.inl rfl)
  · exact Or.inl rfl
  · exact Or.inl rfl

theorem State.Shaped.respond {s : State} (h : s.Shaped) (p : Port) (k : Byte) (r : Reply) : (s.respond p k r).Shaped := h

theorem State.Shaped.idlePort {s : State} (h : s.Shaped) (p : Port) : (s.idlePort p).Shaped := h

/-- A request keeps the sizes if its owner does. -/
theorem State.Shaped.request {s : State} (h : s.Shaped) (p : Port) (k : Kind) (body : List Byte) {owner : State → State × Reply}
    (ho : ∀ t, t.Shaped → (owner t).1.Shaped) : (s.request p k body owner).Shaped := by
  rcases s.request_cases p k body owner with e | e | ⟨st, e⟩ | e <;> rw [e]
  · exact h
  · exact h.idlePort p
  · exact h.settle.respond _ _ _
  · exact (ho _ h.settle).respond _ _ _

theorem State.Shaped.badRequest {s : State} (h : s.Shaped) (p : Port) (bytes : List Byte) : (s.badRequest p bytes).Shaped := by
  unfold State.badRequest
  split
  · unfold State.endWrite
    split
    · split
      · exact h.settle.respond _ _ _
      · exact h
    · exact h.idlePort p
    · exact h
    · exact h
  · exact h

/-! ## The change stager -/

theorem State.stage_eq (s : State) (p : Port) (o : Object) (f : Change → Change) :
    s.stage p o f =
      { s with
        stager := s.stager.set p
          { s.stager.get p with list := stageInto p s.array.counter o f (s.stager.get p).list } } := rfl

theorem State.Shaped.stage {s : State} (h : s.Shaped) (p : Port) (o : Object) (f : Change → Change) : (s.stage p o f).Shaped := h

theorem State.Shaped.markSegs {s : State} (h : s.Shaped) (st : SegState) (l : List Nat) : (s.markSegs st l).Shaped := by
  obtain ⟨h1, h2⟩ := h.2.2.2.1
  exact ⟨h.1, h.2.1, h.2.2.1, ⟨by simpa [State.markSegs] using h1, h2⟩, h.2.2.2.2.1,
    ⟨by simpa [State.markSegs] using h.2.2.2.2.2.1.1, h.2.2.2.2.2.1.2⟩, h.2.2.2.2.2.2⟩

theorem State.Shaped.markPath {s : State} (h : s.Shaped) (n : Nat) (r : PathRec) : (s.markPath n r).Shaped := by
  obtain ⟨h1, h2, h3⟩ := h.2.2.2.1
  exact ⟨h.1, h.2.1, h.2.2.1, ⟨h1, by simpa [State.markPath] using h2, h3⟩, h.2.2.2.2.1,
    ⟨h.2.2.2.2.2.1.1, by simpa [State.markPath] using h.2.2.2.2.2.1.2⟩, h.2.2.2.2.2.2⟩

theorem State.Shaped.returnSet {s : State} (h : s.Shaped) (c : ChangeSet) : (s.returnSet c).Shaped := by
  unfold State.returnSet
  dsimp only
  split
  · split
    · exact (h.markSegs _ _).markPath _ _
    · exact h.markSegs _ _
  all_goals exact h.markSegs _ _

theorem State.Shaped.discard {s : State} (h : s.Shaped) (p : Port) (o : Object) : (s.discard p o).Shaped := by
  unfold State.discard
  split
  · exact h
  · exact (h.returnSet _).setStager _ _

theorem State.Shaped.discardAll {s : State} (h : s.Shaped) (p : Port) : (s.discardAll p).Shaped :=
  (State.Shaped.foldl (fun _ c h => h.returnSet c) h _).setStager _ _

/-! ## Owners that only read or only stage -/

theorem State.Shaped.openAt {s : State} (h : s.Shaped) (p : Port) (n : Nat) (r : OpenPathReq) : (s.openAt p n r).Shaped :=
  ((h.markSegs _ _).markPath _ _).stage _ _ _

theorem State.Shaped.closeAt {s : State} (h : s.Shaped) (p : Port) (n : Nat) : (s.closeAt p n).Shaped := by
  unfold State.closeAt
  split
  · exact h.stage _ _ _
  · dsimp only
    split
    · exact h.discard _ _
    · split
      · exact h
      · exact (h.markSegs _ _).setStager _ _

theorem State.Shaped.reshapeAt {s : State} (h : s.Shaped) (p : Port) (n : Nat) (w : List Geom) : (s.reshapeAt p n w).Shaped :=
  (h.markSegs _ _).stage _ _ _

theorem takeRecords_length (n room : Nat) (q : List Record) : (takeRecords n room q).2.length ≤ q.length := by
  induction n generalizing room q with
  | zero => simp [takeRecords]
  | succ n ih =>
    cases q with
    | nil => simp [takeRecords]
    | cons c q =>
      simp only [takeRecords]
      split
      · exact Nat.le_succ_of_le (ih _ _)
      · exact Nat.le_refl _

/-- The records taken and those left are the queue, in order (R175). -/
theorem takeRecords_append (n room : Nat) (q : List Record) : (takeRecords n room q).1 ++ (takeRecords n room q).2 = q := by
  induction n generalizing room q with
  | zero => simp [takeRecords]
  | succ n ih =>
    cases q with
    | nil => simp [takeRecords]
    | cons c q =>
      simp only [takeRecords]
      split
      · simp only [List.cons_append, ih]
      · rfl

@[simp] theorem foldl_setRoute_length (l : List (Nat × Nat)) (r : List Dest) : (l.foldl setRoute r).length = r.length := by
  induction l generalizing r with
  | nil => rfl
  | cons e l ih => rw [List.foldl_cons, ih, setRoute, List.length_set]

theorem State.Shaped.vote {s : State} (h : s.Shaped) (p : Port) (v : Bool) : (s.vote p v).Shaped := h

theorem State.Shaped.wakeUp {s : State} (h : s.Shaped) : s.wakeUp.Shaped := by
  have h1 : ((s.vote .p0 false).vote .p1 false).Shaped := h
  unfold State.wakeUp
  dsimp only
  split
  · have h2 : { ((s.vote .p0 false).vote .p1 false) with standby := false }.Shaped := h1
    exact h2.raise _
  · exact h1

theorem Report.reset_shaped : Report.reset.Shaped := ⟨by simp [Report.reset], by simp [Report.reset]⟩

theorem Model.reset_shaped : Model.reset.Shaped :=
  ⟨List.length_replicate, List.length_replicate, List.length_replicate, List.length_replicate, List.length_replicate⟩

theorem State.reset_shaped : State.reset.Shaped := by
  refine ⟨⟨by simp [State.reset, FeedPort.reset], by simp [State.reset, FeedPort.reset],
      by simp [State.reset, FeedPort.reset, Config.feeds]⟩, ⟨by simp [State.reset, ArrayPort.reset],
      by simp [State.reset, ArrayPort.reset], by simp [State.reset, ArrayPort.reset, Config.blockFrames], ?_,
      by simp [State.reset, ArrayPort.reset]⟩, ⟨by simp [State.reset, Config.feeds], ?_⟩, Model.reset_shaped, Model.reset_shaped,
    ⟨List.length_replicate, List.length_replicate⟩,
    by simp [State.reset], by simp [State.reset], Report.reset_shaped, Report.reset_shaped⟩
  · intro x hx
    simp only [State.reset, ArrayPort.reset, List.mem_replicate] at hx
    rw [hx.2]; simp
  · intro x hx
    simp only [State.reset, List.mem_replicate] at hx
    rw [hx.2, List.length_replicate]; rfl

/-- A state made of the reset values but for the fields whose sizes are free. -/
theorem State.Shaped.of_reset {s : State} (h1 : s.feedPort = .reset) (h2 : s.array = .reset) (h3 : s.hist = State.reset.hist)
    (h4 : s.model = .reset) (h5 : s.seen = .reset) (h6 : s.pool = .reset) (h7 : s.queues = [[], [], [], []])
    (h8 : s.routes = List.replicate 11 .both) (h9 : s.report.p0.Shaped) (h10 : s.report.p1.Shaped) : s.Shaped := by
  have h := State.reset_shaped
  refine ⟨h1 ▸ h.1, h2 ▸ h.2.1, h3 ▸ h.2.2.1, h4 ▸ h.2.2.2.1, h5 ▸ h.2.2.2.2.1, h6 ▸ h.2.2.2.2.2.1, ?_, ?_, h9, h10⟩
  · rw [h7]; rfl
  · rw [h8]; simp

theorem State.resetPart_shaped (s : State) : s.resetPart.Shaped :=
  State.Shaped.of_reset rfl rfl rfl rfl rfl rfl rfl rfl
    ⟨by simp [State.resetPart, Report.afterResetPart], Report.reset_shaped.2⟩
    ⟨by simp [State.resetPart, Report.afterResetPart], Report.reset_shaped.2⟩

theorem State.powerOn_shaped (s : State) (x : Straps) : (s.powerOn x).Shaped :=
  State.Shaped.of_reset rfl rfl rfl rfl rfl rfl rfl rfl Report.reset_shaped Report.reset_shaped

theorem State.Shaped.resetPort {s : State} (h : s.Shaped) (p : Port) : (s.resetPort p).Shaped := by
  have h1 := h.discardAll p
  have h2 : (((s.discardAll p).setStager p ((s.discardAll p).stager.get p).afterResetPort).setReqMask p 0#24).Shaped := h1
  exact h2.setReport p Report.reset_shaped

end Sys2Proof.Machine
end

