-- ==== Sys2Proof/Laws/Claims.lean ====
section
/-! SUPPORT. One pending change set per object (R138): what the operations of the change stager and the block start do to claims. -/

namespace Sys2Proof.Machine

/-- Claims depend on the objects of the pending lists and on which records are FREE. -/
theorem State.Claimed.of_same {s t : State} (h : s.Claimed) (h0 : t.stager.p0.objects = s.stager.p0.objects)
    (h1 : t.stager.p1.objects = s.stager.p1.objects)
    (hp : ∀ n, pathAt s.model.paths n ≠ .free → pathAt t.model.paths n ≠ .free) : t.Claimed := by
  obtain ⟨hn, hf⟩ := h
  refine ⟨by rw [h0, h1]; exact hn, fun n hm => hp n (hf n ?_)⟩
  rw [h0, h1] at hm
  exact hm

/-- Claims go with the pending lists and the path table. -/
theorem State.Claimed.of_eq {s t : State} (h : s.Claimed) (h0 : t.stager = s.stager) (h1 : t.model.paths = s.model.paths) :
    t.Claimed := h.of_same (by rw [h0]) (by rw [h0]) (fun n hn => by rw [h1]; exact hn)

/-! ## The path table -/

theorem pathAt_set_same {paths : List PathRec} {n : Nat} {r : PathRec} (h : n < paths.length) : pathAt (paths.set n r) n = r := by
  simp [pathAt, List.getD_eq_getElem?_getD, h]

theorem pathAt_set_other (paths : List PathRec) {n k : Nat} (r : PathRec) (h : k ≠ n) :
    pathAt (paths.set n r) k = pathAt paths k := by
  simp only [pathAt, List.getD_eq_getElem?_getD, List.getElem?_set_ne (Ne.symm h)]

theorem lt_of_pathAt_ne_free {paths : List PathRec} {n : Nat} (h : pathAt paths n ≠ .free) : n < paths.length := by
  rcases Nat.lt_or_ge n paths.length with hl | hl
  · exact hl
  · exact absurd (by simp [pathAt, List.getD_eq_getElem?_getD, List.getElem?_eq_none hl]) h

/-- A map over the table that keeps records that are not FREE so. -/
theorem pathAt_mapIdx_ne_free {paths : List PathRec} (f : PathRec × Nat → PathRec)
    (hf : ∀ r n, r ≠ .free → f (r, n) ≠ .free) {n : Nat} (h : pathAt paths n ≠ .free) :
    pathAt (paths.zipIdx.map f) n ≠ .free := by
  have hl := lt_of_pathAt_ne_free h
  have e1 : pathAt paths n = paths[n] := by simp [pathAt, List.getD_eq_getElem?_getD, hl]
  have e2 : pathAt (paths.zipIdx.map f) n = f (paths[n], n) := by
    simp [pathAt, List.getD_eq_getElem?_getD, hl]
  rw [e2]
  rw [e1] at h
  exact hf _ _ h

theorem ageWindows_ne_free (g : List QEntry) {paths : List PathRec} {n : Nat} (h : pathAt paths n ≠ .free) :
    pathAt (ageWindows g paths) n ≠ .free := by
  refine pathAt_mapIdx_ne_free _ ?_ h
  intro r k hr
  cases r with
  | free => exact absurd rfl hr
  | pendingOpen a b => intro hx; cases hx
  | opened q => intro hx; cases hx

/-! ## Staging -/

/-- A change that keeps its object. -/
def KeepsObject (f : Change → Change) : Prop := ∀ c, (f c).object = c.object

theorem keepsObject_mapPath (f : PathChange → PathChange) : KeepsObject (Change.mapPath f) := by intro c; cases c <;> rfl
theorem keepsObject_mapMic (f : MicChange → MicChange) : KeepsObject (Change.mapMic f) := by intro c; cases c <;> rfl
theorem keepsObject_mapFeed (f : FeedChange → FeedChange) : KeepsObject (Change.mapFeed f) := by intro c; cases c <;> rfl
theorem keepsObject_mapGlobal (f : GlobalChange → GlobalChange) : KeepsObject (Change.mapGlobal f) := by intro c; cases c <;> rfl
theorem keepsObject_addClear : KeepsObject Change.addClear := by intro c; cases c <;> rfl

theorem Change.empty_object (o : Object) : (Change.empty o).object = o := by cases o <;> rfl

/-- The objects of a pending list after a request is staged: the same, or one more at the tail that was not there. -/
theorem stageInto_objects (p : Port) (b : BlockNo) (o : Object) {f : Change → Change} (hf : KeepsObject f) (l : List ChangeSet) :
    (o ∈ l.map ChangeSet.object ∧ (stageInto p b o f l).map ChangeSet.object = l.map ChangeSet.object) ∨
      (o ∉ l.map ChangeSet.object ∧ (stageInto p b o f l).map ChangeSet.object = l.map ChangeSet.object ++ [o]) := by
  unfold stageInto
  split
  · rename_i h
    refine Or.inl ⟨?_, ?_⟩
    · obtain ⟨c, hc, ho⟩ := List.any_eq_true.mp h
      exact List.mem_map.mpr ⟨c, hc, by simpa using ho⟩
    · rw [List.map_map]
      apply List.map_congr_left
      intro c _
      simp only [Function.comp]
      split
      · exact hf c.change
      · rfl
  · rename_i h
    refine Or.inr ⟨?_, ?_⟩
    · intro hm
      obtain ⟨c, hc, ho⟩ := List.mem_map.mp hm
      exact h (List.any_eq_true.mpr ⟨c, hc, by simpa using ho⟩)
    · rw [List.map_append]
      simp only [List.map_cons, List.map_nil, ChangeSet.object, hf (Change.empty o), Change.empty_object]

theorem State.mem_objects_of_ownSet {s : State} {p : Port} {o : Object} (h : (s.ownSet p o).isSome = true) :
    o ∈ (s.stager.get p).objects := by
  obtain ⟨c, hc⟩ := Option.isSome_iff_exists.mp h
  have h1 := List.find?_some hc
  exact List.mem_map.mpr ⟨c, List.mem_of_find?_eq_some hc, by simpa using h1⟩

theorem State.ownSet_isSome_of_mem {s : State} {p : Port} {o : Object} (h : o ∈ (s.stager.get p).objects) :
    (s.ownSet p o).isSome = true := by
  obtain ⟨c, hc, ho⟩ := List.mem_map.mp h
  rw [State.ownSet, List.find?_isSome]
  exact ⟨c, hc, by simpa using ho⟩

/-- A pending set is the one its port holds on its object. -/
theorem State.Claimed.ownSet {u : State} (hc : u.Claimed) {q : Port} {c : ChangeSet} (h : c ∈ (u.stager.get q).list) :
    u.ownSet q c.object = some c := by
  have hn : (u.stager.get q).objects.Nodup := by
    have := hc.1
    rw [List.nodup_append] at this
    cases q
    · exact this.1
    · exact this.2.1
  unfold State.ownSet
  unfold Stager.objects at hn
  revert hn h
  generalize (u.stager.get q).list = l
  intro h hn
  induction l with
  | nil => cases h
  | cons d l ih =>
    rw [List.map_cons, List.nodup_cons] at hn
    rcases List.mem_cons.mp h with e | e
    · subst e; rw [List.find?_cons_of_pos (by simp)]
    · rw [List.find?_cons_of_neg]
      · exact ih e hn.2
      · intro he
        exact hn.1 ((beq_iff_eq.mp he) ▸ List.mem_map_of_mem e)

/-- A port without a set on an object holds none. -/
theorem State.ownSet_eq_none {u : State} {q : Port} {o : Object} (h : ∀ c ∈ (u.stager.get q).list, c.object ≠ o) :
    u.ownSet q o = none := by
  unfold State.ownSet
  rw [List.find?_eq_none]
  intro c hc he
  exact h c hc (beq_iff_eq.mp he)

/-- The pending owner of an object is the port whose set is on it (R138). -/
theorem State.Claimed.owner {u : State} (hc : u.Claimed) {q : Port} {c : ChangeSet} (h : c ∈ (u.stager.get q).list) :
    u.owner c.object = some q := by
  have h1 := hc.ownSet h
  cases q with
  | p0 => unfold State.owner; rw [h1]; rfl
  | p1 =>
    have h0 : u.ownSet .p0 c.object = none := by
      refine State.ownSet_eq_none fun d hd he => ?_
      have hn := hc.1
      rw [List.nodup_append] at hn
      exact hn.2.2 _ (List.mem_map_of_mem hd) _ (List.mem_map_of_mem h) he
    unfold State.owner; rw [h0, h1]; rfl

/-- The claim rule's test tells whether the object is in the other port's list. -/
theorem State.claimedByOther_iff {s : State} {p : Port} {o : Object} :
    s.claimedByOther p o = true ↔ o ∈ (s.stager.get (otherPort p)).objects :=
  ⟨State.mem_objects_of_ownSet, State.ownSet_isSome_of_mem⟩

/-- Both lists of objects, a port's own first. -/
def State.objectsFrom (s : State) (p : Port) : List Object := (s.stager.get p).objects ++ (s.stager.get (otherPort p)).objects

theorem State.claimed_iff_from (s : State) (p : Port) :
    s.Claimed ↔ (s.objectsFrom p).Nodup ∧ ∀ n, Object.path n ∈ s.objectsFrom p → pathAt s.model.paths n ≠ .free := by
  cases p
  · exact Iff.rfl
  · simp only [State.Claimed, State.objectsFrom, otherPort, PerPort.get_p0, PerPort.get_p1]
    have hp : (s.stager.p1.objects ++ s.stager.p0.objects).Perm (s.stager.p0.objects ++ s.stager.p1.objects) :=
      List.perm_append_comm
    rw [hp.nodup_iff]
    simp only [hp.mem_iff]

/-- A staged request keeps the claims when the other port does not own its object, and a path it names is not FREE. -/
theorem State.Claimed.stage {s : State} (h : s.Claimed) (p : Port) (o : Object) {f : Change → Change} (hf : KeepsObject f)
    (hc : o ∉ (s.stager.get (otherPort p)).objects) (hp : ∀ n, o = .path n → pathAt s.model.paths n ≠ .free) :
    (s.stage p o f).Claimed := by
  rw [State.claimed_iff_from _ p] at h ⊢
  obtain ⟨hn, hfr⟩ := h
  have e : (s.stage p o f).objectsFrom p =
      (stageInto p s.array.counter o f (s.stager.get p).list).map ChangeSet.object ++ (s.stager.get (otherPort p)).objects := by
    simp [State.objectsFrom, State.stage, Stager.objects]
  have em : (s.stage p o f).model = s.model := rfl
  rw [e, em]
  rcases stageInto_objects p s.array.counter o hf (s.stager.get p).list with ⟨_, he⟩ | ⟨ho, he⟩ <;> rw [he]
  · exact ⟨hn, hfr⟩
  · refine ⟨?_, ?_⟩
    · simp only [State.objectsFrom] at hn
      rw [List.append_assoc, List.nodup_append]
      have hn' := List.nodup_append.mp hn
      refine ⟨hn'.1, ?_, ?_⟩
      · rw [List.singleton_append, List.nodup_cons]
        exact ⟨hc, hn'.2.1⟩
      · intro a ha b hb
        rcases List.mem_append.mp hb with hb | hb
        · rw [List.mem_singleton.mp hb]
          rintro rfl
          exact ho ha
        · exact hn'.2.2 a ha b hb
    · intro n hm
      rcases List.mem_append.mp hm with hm | hm
      · rcases List.mem_append.mp hm with hm | hm
        · exact hfr n (List.mem_append_left _ hm)
        · exact hp n (List.mem_singleton.mp hm).symm
      · exact hfr n (List.mem_append_right _ hm)

/-! ## Discards -/

theorem State.returnSet_stager (s : State) (c : ChangeSet) : (s.returnSet c).stager = s.stager := by
  unfold State.returnSet
  dsimp only
  split
  · split <;> rfl
  all_goals rfl

/-- Giving back a set frees at most the record of its own path. -/
theorem State.returnSet_ne_free {s : State} {c : ChangeSet} {n : Nat} (hc : c.object ≠ .path n)
    (h : pathAt s.model.paths n ≠ .free) : pathAt (s.returnSet c).model.paths n ≠ .free := by
  obtain ⟨p, b, ch⟩ := c
  cases ch with
  | path k d =>
    have hk : n ≠ k := fun e => hc (by rw [e]; rfl)
    simp only [State.returnSet]
    split
    · show pathAt (s.model.paths.set k .free) n ≠ .free
      rw [pathAt_set_other _ _ hk]; exact h
    · exact h
  | mic k d => exact h
  | feed k d => exact h
  | global d => exact h

theorem State.foldl_returnSet_stager (l : List ChangeSet) (s : State) : (l.foldl State.returnSet s).stager = s.stager := by
  induction l generalizing s with
  | nil => rfl
  | cons c l ih => rw [List.foldl_cons, ih, State.returnSet_stager]

theorem State.foldl_returnSet_ne_free {l : List ChangeSet} {s : State} {n : Nat} (hc : ∀ c ∈ l, c.object ≠ .path n)
    (h : pathAt s.model.paths n ≠ .free) : pathAt (l.foldl State.returnSet s).model.paths n ≠ .free := by
  induction l generalizing s with
  | nil => exact h
  | cons c l ih =>
    exact ih (fun d hd => hc d (List.mem_cons_of_mem _ hd)) (State.returnSet_ne_free (hc c List.mem_cons_self) h)

/-- Discarding every set of a port keeps the other port's claims (R147). -/
theorem State.Claimed.discardAll {s : State} (h : s.Claimed) (p : Port) : (s.discardAll p).Claimed := by
  rw [State.claimed_iff_from _ p] at h ⊢
  obtain ⟨hn, hf⟩ := h
  have e : (s.discardAll p).objectsFrom p = (s.stager.get (otherPort p)).objects := by
    simp [State.objectsFrom, State.discardAll, Stager.objects, State.foldl_returnSet_stager]
  rw [e]
  have hn' := List.nodup_append.mp hn
  refine ⟨hn'.2.1, fun n hm => ?_⟩
  have em : (s.discardAll p).model = ((s.stager.get p).list.foldl State.returnSet s).model := rfl
  rw [em]
  refine State.foldl_returnSet_ne_free (fun c hc ho => ?_) (hf n (List.mem_append_right _ hm))
  exact hn'.2.2 _ (List.mem_map.mpr ⟨c, hc, ho⟩) _ hm rfl

theorem filter_map_sublist (l : List ChangeSet) (f : ChangeSet → Bool) :
    ((l.filter f).map ChangeSet.object).Sublist (l.map ChangeSet.object) := List.filter_sublist.map _

/-- Discarding a port's set on an object keeps every other claim (R44, R64). -/
theorem State.Claimed.discard {s : State} (h : s.Claimed) (p : Port) (o : Object) : (s.discard p o).Claimed := by
  unfold State.discard
  split
  · exact h
  · rename_i c hc
    have hco : c.object = o := by simpa using List.find?_some hc
    have hcm : o ∈ (s.stager.get p).objects := State.mem_objects_of_ownSet (by rw [hc]; rfl)
    rw [State.claimed_iff_from _ p] at h ⊢
    obtain ⟨hn, hf⟩ := h
    have e : ((s.returnSet c).setStager p
        { (s.returnSet c).stager.get p with
          list := ((s.returnSet c).stager.get p).list.filter fun d => d.object != o }).objectsFrom p =
        ((s.stager.get p).list.filter fun d => d.object != o).map ChangeSet.object ++ (s.stager.get (otherPort p)).objects := by
      simp [State.objectsFrom, Stager.objects, State.returnSet_stager]
    dsimp only
    rw [e]
    refine ⟨?_, fun n hm => ?_⟩
    · exact hn.sublist ((filter_map_sublist _ _).append (List.Sublist.refl _))
    · have hm' : Object.path n ∈ s.objectsFrom p ∧ Object.path n ≠ o := by
        rcases List.mem_append.mp hm with hm | hm
        · obtain ⟨d, hd, hdo⟩ := List.mem_map.mp hm
          have hd' := List.mem_filter.mp hd
          refine ⟨List.mem_append_left _ (List.mem_map.mpr ⟨d, hd'.1, hdo⟩), ?_⟩
          rw [← hdo]
          simpa using hd'.2
        · refine ⟨List.mem_append_right _ hm, fun ho => ?_⟩
          exact (List.nodup_append.mp hn).2.2 o hcm _ hm ho.symm
      show pathAt (s.returnSet c).model.paths n ≠ .free
      exact State.returnSet_ne_free (fun he => hm'.2 (by rw [← hco, he])) (hf n hm'.1)

/-! ## Block start -/

/-- Laying out a path puts its record in OPEN and leaves the others. -/
theorem Model.layOut_ne_free {m : Model} (k : Nat) (q : OpenPath) (old : List Window) (g : List Geom) (r : List Nat) {n : Nat}
    (h : pathAt m.paths n ≠ .free) : pathAt (m.layOut k q old g r).paths n ≠ .free := by
  have hl := lt_of_pathAt_ne_free h
  have e (q' : OpenPath) : pathAt (m.paths.set k (.opened q')) n ≠ .free := by
    by_cases hk : n = k
    · subst hk
      rw [pathAt_set_same hl]
      intro hx; cases hx
    · rw [pathAt_set_other _ _ hk]; exact h
  exact e _

theorem Model.shapeStep_ne_free {m : Model} (c : ChangeSet) {n : Nat} (h : pathAt m.paths n ≠ .free) :
    pathAt (m.shapeStep c).paths n ≠ .free := by
  unfold Model.shapeStep
  split
  · split
    · exact Model.layOut_ne_free _ _ _ _ _ h
    · exact Model.layOut_ne_free _ _ _ _ _ h
    · exact h
  all_goals exact h

theorem Model.closeStep_ne_free {m : Model} {c : ChangeSet} {n : Nat} (hc : c.object ≠ .path n)
    (h : pathAt m.paths n ≠ .free) : pathAt (m.closeStep c).paths n ≠ .free := by
  unfold Model.closeStep
  split
  · rename_i k d hd
    have hk : n ≠ k := fun e => hc (by rw [e, ChangeSet.object, hd]; rfl)
    split
    · show pathAt (m.paths.set k .free) n ≠ .free
      rw [pathAt_set_other _ _ hk]; exact h
    · exact h
  all_goals exact h

theorem Model.tapStep_paths (m : Model) (c : ChangeSet) : (m.tapStep c).paths = m.paths := by
  unfold Model.tapStep
  split
  · split <;> rfl
  all_goals rfl

/-- A record that is not FREE and that no applying set is about is not FREE after the sets have applied (R65). -/
theorem Model.applySets_ne_free {m : Model} {sets : List ChangeSet} {n : Nat} (hc : ∀ c ∈ sets, c.object ≠ .path n)
    (h : pathAt m.paths n ≠ .free) : pathAt (m.applySets sets).paths n ≠ .free := by
  have h1 : pathAt (m.landSettings sets).paths n ≠ .free := by
    refine pathAt_mapIdx_ne_free _ ?_ h
    intro r k hr
    cases r with
    | free => exact absurd rfl hr
    | pendingOpen a b => intro hx; cases hx
    | opened q => intro hx; cases hx
  have hclose (l : List ChangeSet) (hl : ∀ c ∈ l, c.object ≠ .path n) (m : Model) (hm : pathAt m.paths n ≠ .free) :
      pathAt (l.foldl Model.closeStep m).paths n ≠ .free := by
    induction l generalizing m with
    | nil => exact hm
    | cons c l ih =>
      exact ih (fun d hd => hl d (List.mem_cons_of_mem _ hd)) _ (Model.closeStep_ne_free (hl c List.mem_cons_self) hm)
  have hshape (l : List ChangeSet) (m : Model) (hm : pathAt m.paths n ≠ .free) :
      pathAt (l.foldl Model.shapeStep m).paths n ≠ .free := by
    induction l generalizing m with
    | nil => exact hm
    | cons c l ih => exact ih _ (Model.shapeStep_ne_free c hm)
  have htap (l : List ChangeSet) (m : Model) : (l.foldl Model.tapStep m).paths = m.paths := by
    induction l generalizing m with
    | nil => rfl
    | cons c l ih => rw [List.foldl_cons, ih, Model.tapStep_paths]
  unfold Model.applySets
  dsimp only
  rw [htap]
  exact hshape _ _ (hclose _ hc _ h1)

theorem Stager.applied_objects (g : Stager) : g.applied.objects = if g.hold then g.objects else [] := by
  unfold Stager.applied Stager.objects
  split <;> rfl

theorem mem_applyingOf {g : Stager} {c : ChangeSet} (h : c ∈ applyingOf g) : g.hold = false ∧ c ∈ g.list := by
  unfold applyingOf at h
  cases hh : g.hold
  · simp [hh] at h; exact ⟨rfl, h⟩
  · simp [hh] at h

/-- What lands at a block start keeps the claims of the ports that hold (R140). -/
theorem State.Claimed.landSets {s : State} (h : s.Claimed) : s.landSets.Claimed := by
  obtain ⟨hn, hf⟩ := h
  have hn' := List.nodup_append.mp hn
  have e : s.landSets.stager.p0.objects ++ s.landSets.stager.p1.objects =
      (if s.stager.p0.hold then s.stager.p0.objects else []) ++ (if s.stager.p1.hold then s.stager.p1.objects else []) := by
    simp only [State.landSets, Stager.applied_objects]
  unfold State.Claimed
  rw [e]
  refine ⟨?_, fun n hm => ?_⟩
  · refine hn.sublist (List.Sublist.append ?_ ?_) <;> split <;> simp
  · show pathAt s.landedModel.paths n ≠ .free
    have hmem : Object.path n ∈ s.stager.p0.objects ++ s.stager.p1.objects := by
      rcases List.mem_append.mp hm with hm | hm
      · split at hm
        · exact List.mem_append_left _ hm
        · cases hm
      · split at hm
        · exact List.mem_append_right _ hm
        · cases hm
    have ha : ∀ c ∈ s.applying, c.object ≠ .path n := by
      intro c hc ho
      rcases List.mem_append.mp hc with hc | hc
      · obtain ⟨hh, hcl⟩ := mem_applyingOf hc
        simp only [hh, Bool.false_eq_true, if_false, List.nil_append] at hm
        split at hm
        · exact hn'.2.2 _ (List.mem_map.mpr ⟨c, hcl, ho⟩) _ hm rfl
        · cases hm
      · obtain ⟨hh, hcl⟩ := mem_applyingOf hc
        simp only [hh, Bool.false_eq_true, if_false, List.append_nil] at hm
        split at hm
        · exact hn'.2.2 _ hm _ (List.mem_map.mpr ⟨c, hcl, ho⟩) rfl
        · cases hm
    exact Model.applySets_ne_free ha (hf n hmem)

end Sys2Proof.Machine
end

