-- ==== Sys2Proof/Laws/Landing.lean ====
section
/-! SUPPORT. What the canceller, the applying sets and the records of a block start can do: which parts of the state each leaves alone, and
the residual stage step by step. -/

namespace Sys2Proof.Machine

/-! ## Records -/

/-- What a record does to the reports depends on the reports and the routing table alone. -/
theorem State.post_report_congr {s t : State} (n : Notice) (h1 : s.report = t.report) (h2 : s.routes = t.routes) :
    (s.post n).report = (t.post n).report := by
  unfold State.post State.raise State.destOf State.deliver State.setReport
  rw [h2]
  split
  · simp [h1]
  · split <;> simp [h1]

@[simp] theorem State.post_routes (s : State) (n : Notice) : (s.post n).routes = s.routes := by
  obtain ⟨r, h⟩ := s.post_eq n
  rw [h]

theorem State.foldl_post_report_congr (l : List Notice) {s t : State} (h1 : s.report = t.report) (h2 : s.routes = t.routes) :
    (l.foldl State.post s).report = (l.foldl State.post t).report := by
  induction l generalizing s t with
  | nil => exact h1
  | cons n l ih => exact ih (State.post_report_congr n h1 h2) (by rw [State.post_routes, State.post_routes, h2])

/-- A merge keeps each list's own order (R171). -/
theorem mergeFree_sublist {α : Type} (fuel k : Nat) (xs ys : List α) :
    xs.Sublist (mergeFree fuel k xs ys) ∧ ys.Sublist (mergeFree fuel k xs ys) := by
  induction fuel generalizing k xs ys with
  | zero => cases xs <;> cases ys <;> simp [mergeFree]
  | succ n ih =>
    cases xs with
    | nil => cases ys <;> simp [mergeFree]
    | cons x xs =>
      cases ys with
      | nil => simp [mergeFree]
      | cons y ys =>
        simp only [mergeFree]
        split
        · exact ⟨(ih (k + 1) xs (y :: ys)).1.cons_cons x, (ih (k + 1) xs (y :: ys)).2.cons x⟩
        · exact ⟨(ih (k + 1) (x :: xs) ys).1.cons y, (ih (k + 1) (x :: xs) ys).2.cons_cons y⟩

theorem mergeAll_sublist {α : Type} (k : Nat) (ls : List (List α)) : ∀ l ∈ ls, l.Sublist (mergeAll k ls) := by
  induction ls generalizing k with
  | nil => intro l h; cases h
  | cons l ls ih =>
    intro x hx
    simp only [mergeAll]
    rcases List.mem_cons.mp hx with rfl | hx
    · exact (mergeFree_sublist _ _ _ _).1
    · exact (ih _ x hx).trans (mergeFree_sublist _ _ _ _).2

/-- Records raised at one moment: the free values choose the order, and the reports take the records in it. -/
theorem State.postMerged_report (s : State) (ls : List (List Notice)) :
    (s.postMerged ls).report = ((mergeAll s.freeCount ls).foldl State.post s).report := rfl

/-! ## The canceller -/

/-- The canceller changes the gains, the masks in force, the error record, the output buffer and what ADOUT drives. -/
theorem State.cancelBlock_eq (s : State) (p : Proc) :
    ∃ g a b o d, s.cancelBlock p = { s with
      model := { s.model with gains := g }
      canc := { s.canc with mask := s.canc.reqMask, errD := a, errE := b }
      array := { s.array with outBuf := o, adout := d } } := by
  by_cases hs : p.standby = true <;> simp only [State.cancelBlock, hs, State.setCanc, State.setArray, ArrayPort.drive] <;>
    exact ⟨_, _, _, _, _, rfl⟩

/-- The gain before the n-th sample of a run (R82). -/
def gainBefore (target r : Nat) : Nat → Nat
  | 0 => r
  | n + 1 => rampGain target (gainBefore target r n)

theorem gainBefore_shift (target r n : Nat) : gainBefore target (rampGain target r) n = gainBefore target r (n + 1) := by
  induction n with
  | zero => rfl
  | succ n ih => rw [gainBefore, ih]; rfl

/-- The gain that a run of errors leaves (R82). -/
theorem residualRun_fst (target r : Nat) (l : List Sample) : (residualRun target r l).1 = gainBefore target r l.length := by
  induction l generalizing r with
  | nil => rfl
  | cons e es ih => simp only [residualRun, ih, List.length_cons, gainBefore_shift]

/-- Each output sample takes the gain after its own step (R82, R83). -/
theorem residualRun_snd (target r : Nat) (l : List Sample) (i : Nat) (h : i < l.length) :
    (residualRun target r l).2.getD i 0#16 = residualOut (l.getD i 0#16) (gainBefore target r (i + 1)) := by
  induction l generalizing r i with
  | nil => exact absurd h (Nat.not_lt_zero _)
  | cons e es ih =>
    cases i with
    | zero => rfl
    | succ i =>
      simp only [residualRun, List.getD_cons_succ, ih (rampGain target r) i (Nat.lt_of_succ_lt_succ h), gainBefore_shift]

/-! ## The applying sets -/

/-- The tap store's steps leave the microphones, gains and feeds alone. -/
structure SameUnits (m n : Model) : Prop where
  mics : n.mics = m.mics
  gains : n.gains = m.gains
  feeds : n.feeds = m.feeds
  captured : n.captured = m.captured

theorem SameUnits.refl (m : Model) : SameUnits m m := ⟨rfl, rfl, rfl, rfl⟩

theorem SameUnits.trans {l m n : Model} (h : SameUnits l m) (k : SameUnits m n) : SameUnits l n :=
  ⟨k.1.trans h.1, k.2.trans h.2, k.3.trans h.3, k.4.trans h.4⟩

theorem SameUnits.closeStep (m : Model) (c : ChangeSet) : SameUnits m (m.closeStep c) := by
  unfold Model.closeStep
  split
  · split <;> exact ⟨rfl, rfl, rfl, rfl⟩
  all_goals exact SameUnits.refl m

theorem SameUnits.shapeStep (m : Model) (c : ChangeSet) : SameUnits m (m.shapeStep c) := by
  unfold Model.shapeStep
  split
  · split <;> exact ⟨rfl, rfl, rfl, rfl⟩
  all_goals exact SameUnits.refl m

theorem SameUnits.tapStep (m : Model) (c : ChangeSet) : SameUnits m (m.tapStep c) := by
  unfold Model.tapStep
  split
  · split <;> exact ⟨rfl, rfl, rfl, rfl⟩
  all_goals exact SameUnits.refl m

theorem SameUnits.foldl {f : Model → ChangeSet → Model} (hf : ∀ m c, SameUnits m (f m c)) (l : List ChangeSet) (m : Model) :
    SameUnits m (l.foldl f m) := by
  induction l generalizing m with
  | nil => exact SameUnits.refl m
  | cons c l ih => exact (hf m c).trans (ih _)

/-- After the four steps the microphones, gains and feeds are those that the settings left (R46, R141). -/
theorem Model.applySets_units (m : Model) (sets : List ChangeSet) : SameUnits (m.landSettings sets) (m.applySets sets) := by
  have h0 : SameUnits (m.landSettings sets)
      ((m.landSettings sets).clearStep sets fun f => setMovedFeed sets f (feedAt m.feeds f)) := ⟨rfl, rfl, rfl, rfl⟩
  exact ((h0.trans (SameUnits.foldl SameUnits.closeStep sets _)).trans (SameUnits.foldl SameUnits.shapeStep sets _)).trans
    (SameUnits.foldl SameUnits.tapStep sets _)

/-- The feed port's state captured at a block start is not touched by what lands (R38). -/
theorem Model.applySets_captured (m : Model) (sets : List ChangeSet) : (m.applySets sets).captured = m.captured :=
  (Model.applySets_units m sets).captured

/-- The settings of a microphone after a block start (R134). -/
theorem State.landedModel_settings (s : State) {m : Nat} (hm : m < s.model.mics.length) :
    let c := (changeFor s.applying (.mic m)).micPart
    (micAt s.landedModel.mics m).theta = c.theta.getD (micAt s.model.mics m).theta ∧
      (micAt s.landedModel.mics m).hang = c.hang.getD (micAt s.model.mics m).hang ∧
      (micAt s.landedModel.mics m).floor = c.floor.getD (micAt s.model.mics m).floor := by
  simp only [State.landedModel, applyVerdicts, micAt, (Model.applySets_units _ _).mics, Model.landSettings]
  simp only [List.getD_eq_getElem?_getD, List.getElem?_map, List.getElem?_zipIdx, List.getElem?_eq_getElem hm, Option.map_some,
    Option.getD_some, Nat.zero_add]
  split <;> simp [Mic.enter, Mic.applyChange]

/-! ## Holds at a block start -/

/-- What a port's hold that may expire leaves to apply (R140, R145). -/
theorem applyingOf_endHold (g : Stager) : applyingOf g.endHold = if g.hold && !g.expires then [] else g.list := by
  by_cases h1 : g.hold = true <;> by_cases h2 : 250 ≤ g.age <;>
    simp [applyingOf, Stager.endHold, Stager.expires, Config.holdLimit, h1, h2]

/-- A port's part of the stager after a block start at which its hold may have expired (R140, R145). -/
theorem Stager.endHold_applied (g : Stager) :
    g.endHold.applied =
      if g.expires then { g with hold := false, age := 0, list := [] } else if g.hold then g else { g with list := [] } := by
  by_cases h1 : g.hold = true <;> by_cases h2 : 250 ≤ g.age <;>
    simp [Stager.applied, Stager.endHold, Stager.expires, Config.holdLimit, h1, h2]

/-! ## The steps on the tap store -/

/-- The fields that the steps of a block start on the tap store write (R45, R65, R68, R51). -/
theorem Model.steps_frame (m : Model) (c : ChangeSet) :
    m.closeStep c = { m with
      coefs := (m.closeStep c).coefs, segs := (m.closeStep c).segs, paths := (m.closeStep c).paths } ∧
    m.shapeStep c = { m with
      coefs := (m.shapeStep c).coefs, segs := (m.shapeStep c).segs, paths := (m.shapeStep c).paths } ∧
    m.tapStep c = { m with coefs := (m.tapStep c).coefs } := by
  refine ⟨?_, ?_, ?_⟩
  · unfold Model.closeStep; split
    · split <;> rfl
    all_goals rfl
  · unfold Model.shapeStep; split
    · split <;> rfl
    all_goals rfl
  · unfold Model.tapStep; split
    · split <;> rfl
    all_goals rfl

/-- A set without a close of an open path leaves the close step idle (R65). -/
theorem Model.closeStep_idle {m : Model} {c : ChangeSet}
    (h : ∀ n d q, c.change = .path n d → pathAt m.paths n = .opened q → d.close = false) : m.closeStep c = m := by
  unfold Model.closeStep
  split
  · rename_i n d hc
    split
    · rename_i q h1 h2
      rw [h n d q hc h2] at h1; cases h1
    · rfl
  all_goals rfl

/-- A set without an open, and without a window list for an open path, leaves the layout step idle (R68). -/
theorem Model.shapeStep_idle {m : Model} {c : ChangeSet} (h : ∀ n d, c.change = .path n d →
    d.opening = none ∧ ∀ q, pathAt m.paths n = .opened q → d.windows = none) : m.shapeStep c = m := by
  unfold Model.shapeStep
  split
  · rename_i n d hc
    obtain ⟨h1, h2⟩ := h n d hc
    split
    · rename_i ho; rw [h1] at ho; cases ho
    · rename_i hw hp; rw [h2 _ hp] at hw; cases hw
    · rfl
  all_goals rfl

/-- A set without taps for an open path leaves the tap-write step idle (R51). -/
theorem Model.tapStep_idle {m : Model} {c : ChangeSet}
    (h : ∀ n d q, c.change = .path n d → pathAt m.paths n = .opened q → d.taps = []) : m.tapStep c = m := by
  unfold Model.tapStep
  split
  · rename_i n d hc
    split
    · rename_i q hp
      rw [h n d q hc hp]; rfl
    all_goals rfl
  all_goals rfl

end Sys2Proof.Machine
end

