-- ==== Sys2Proof/Laws/BlockStart.lean ====
section
/-! SUPPORT. What a block start leaves: the sets that land, the microphones, the canceller's work, the records, and the frame that
completes the block. -/

namespace Sys2Proof.Machine

/-- A due move lands (R31). -/
theorem Feed.landMove_eq (f : Feed) : f.landMove = { f with b := f.dueMove.getD f.b, dueMove := none } := by
  obtain ⟨fm, facq, fb, fmd, ffl, fpr, facc, fcnt, fcd, fll, flv, fdm, fe, fpk, fact⟩ := f
  cases fdm <;> rfl

/-- What a set leaves of a feed (R35, R37). -/
theorem Feed.applyChange_eq (f : Feed) (c : FeedChange) : f.applyChange c = { f with
    mode := c.mode.getD f.mode
    acq := if c.acquire = true ∨ (c.mode = some .auto ∧ f.mode = .manual) then .seek
      else if c.mode = some .manual ∧ f.mode = .auto then .manual else f.acq
    b := match c.manualDelay with
      | some d => if c.mode.getD f.mode = .manual then d else f.b
      | none => if c.mode = some .manual ∧ f.mode = .auto then f.manualDelay else f.b
    manualDelay := c.manualDelay.getD f.manualDelay
    actFloor := c.actFloor.getD f.actFloor
    probe := c.probe.getD f.probe
    acc := if c.acquire = true ∨ (c.mode = some .auto ∧ f.mode = .manual) ∨ (c.mode = some .manual ∧ f.mode = .auto) ∨
      (c.probe.getD f.probe ≠ f.probe ∧ (f.acq = .seek ∨ f.acq = .check)) then zeroAcc else f.acc
    counted := if c.acquire = true ∨ (c.mode = some .auto ∧ f.mode = .manual) ∨ (c.mode = some .manual ∧ f.mode = .auto) ∨
      (c.probe.getD f.probe ≠ f.probe ∧ (f.acq = .seek ∨ f.acq = .check)) then 0 else f.counted
    countdown := if c.acquire = true ∨ (c.mode = some .auto ∧ f.mode = .manual) ∨ (c.mode = some .manual ∧ f.mode = .auto) then 0
      else f.countdown } := by
  obtain ⟨fm, facq, fb, fmd, ffl, fpr, facc, fcnt, fcd, fll, flv, fdm, fe, fpk, fact⟩ := f
  obtain ⟨cm, cd, cf, cp, cacq⟩ := c
  simp only [Feed.applyChange, Feed.takeAcquire, Feed.takeProbe, Feed.takeDelay, Feed.takeMode, Feed.restart]
  cases cp with
  | none => cases cacq <;> rcases cm with _ | _ | _ <;> cases fm <;> cases cd <;> simp
  | some q =>
    by_cases hq : q = fpr
    · subst hq
      cases cacq <;> rcases cm with _ | _ | _ <;> cases fm <;> cases cd <;> simp
    · cases cacq <;> rcases cm with _ | _ | _ <;> cases fm <;> cases cd <;> cases facq <;> simp [hq]

/-- The change of an object is that of its set, and names nothing where no set is on it (R137, R138). -/
theorem changeFor_spec (sets : List ChangeSet) (o : Object) :
    (∀ c, (sets.map ChangeSet.object).Nodup → c ∈ sets → c.object = o → changeFor sets o = c.change) ∧
    ((∀ c ∈ sets, c.object ≠ o) → changeFor sets o = .empty o) := by
  refine ⟨?_, ?_⟩
  · intro c hn hc ho
    induction sets with
    | nil => cases hc
    | cons d l ih =>
      rw [List.map_cons, List.nodup_cons] at hn
      rcases List.mem_cons.mp hc with rfl | hc
      · simp [changeFor, ho]
      · have hd : d.object ≠ o := by
          intro h; apply hn.1; rw [h, ← ho]; exact List.mem_map_of_mem hc
        have := ih hn.2 hc
        unfold changeFor at this ⊢
        rw [List.find?_cons_of_neg (by simp [hd])]
        exact this
  · intro h
    have : sets.find? (fun c => c.object == o) = none := by
      rw [List.find?_eq_none]; intro c hc; simp [h c hc]
    simp [changeFor, this]

/-- What the canceller reads: the model, its own state, the histories and the array port; the rest of the state plays no part. -/
theorem State.cancelBlock_landSets (s : State) (p : Proc) :
    (s.landSets.cancelBlock p).model = ({ s with model := s.landedModel }.cancelBlock p).model ∧
    (s.landSets.cancelBlock p).canc = ({ s with model := s.landedModel }.cancelBlock p).canc ∧
    (s.landSets.cancelBlock p).array = ({ s with model := s.landedModel }.cancelBlock p).array := by
  by_cases hp : p.standby = true
  · simp only [State.cancelBlock, hp, if_true]
    exact ⟨rfl, rfl, rfl⟩
  · simp only [State.cancelBlock, hp, Bool.false_eq_true, if_false]
    exact ⟨rfl, rfl, rfl⟩

/-- Which objects a slot covers (R179). -/
theorem Watch.covers_eq (w : Watch) (o : Object) : w.covers o =
    match o with
    | .path n => w.kind == .path && decide (w.first ≤ n ∧ n ≤ w.last)
    | .mic n => w.kind == .mic && decide (w.first ≤ n ∧ n ≤ w.last)
    | .feed n => w.kind == .feed && decide (w.first ≤ n ∧ n ≤ w.last)
    | .global => w.kind == .global := by
  cases o <;> simp [Watch.covers, Bool.decide_and, Bool.and_assoc]

theorem Feed.landMove_b (f : Feed) : f.landMove.b = f.dueMove.getD f.b := by
  unfold Feed.landMove; split <;> simp_all

theorem micAt_getElem {mics : List Mic} {m : Nat} {a : Mic} (h : mics[m]? = some a) : micAt mics m = a := by
  simp [micAt, List.getD_eq_getElem?_getD, h]

theorem zipIdx_map_congr {α β : Type} {l : List α} {f g : α × Nat → β} (h : ∀ a i, l[i]? = some a → f (a, i) = g (a, i)) :
    l.zipIdx.map f = l.zipIdx.map g := by
  apply List.map_congr_left
  rintro ⟨a, i⟩ hc
  exact h a i (List.mk_mem_zipIdx_iff_getElem?.mp hc)

theorem zipIdx_flatMap_congr {α β : Type} {l : List α} {f g : α × Nat → List β}
    (h : ∀ a i, l[i]? = some a → f (a, i) = g (a, i)) :
    l.zipIdx.flatMap f = l.zipIdx.flatMap g := by
  rw [List.flatMap_def, List.flatMap_def, zipIdx_map_congr h]

/-- A microphone's gain goes to full exactly when it is emptied (R84). -/
theorem idleGain_eq (a b c d e f : Bool) (r : Nat) :
    (match blockStartVerdict a b c d e f with
      | some v => if v.1 = .idle then Config.fullGain else r
      | none => r) = if a && !b then Config.fullGain else r := by
  cases a <;> cases b <;> cases c <;> cases d <;> cases e <;> cases f <;> rfl

/-- Landing the sets at a block start does what `State.Lands` says (R31 to R38, R46, R66, R72, R84, R105, R128 to R134, R140, R142,
R180). -/
theorem State.landBlock_lands (s : State) (p : Proc) (e : PerPort Bool) {base : State} (h1 : base.report = s.report)
    (h2 : base.routes = s.routes) :
    State.Lands s (s.landBlock p e) p s.applying
      (fun q => stagerNotices p.number q (e.get q) (applyingOf (s.stager.get q)).length) base := by
  delta State.Lands
  intro m emptied opened cleared swung verdict settled gains cancelled record states covers hits
  have hu := Model.applySets_units s.model s.applying
  have hv : ∀ k a, s.model.mics[k]? = some a → s.landVerdict k = verdict k a := by
    intro k a hk
    have hc : ((micAt s.model.mics k).conv == Conv.idle) = decide (a.conv = .idle) := by rw [micAt_getElem hk]; rfl
    have ho : openedOn s.applying k = opened k := by
      simp only [openedOn, opened]
      congr 1; funext c
      cases c.change.pathPart.opening <;> rfl
    have hsw : ((pathsOnMic s.model.paths k).any fun c => s.movedFeeds c.2.feed) = swung k := by
      simp only [swung, State.movedFeeds, setMovedFeed, Feed.landMove_b]
    simp only [State.landVerdict, verdictOn, blockStartVerdict, verdict, hc, ho, hsw]
    have hem : (!(pathsOnMic s.model.paths k).isEmpty && !!(pathsOnMic (s.model.applySets s.applying).paths k).isEmpty) = emptied k := by
      rw [Bool.not_not]
    have hcl : ((pathsOnMic s.model.paths k).any fun c => namedByClear s.applying c.1 c.2) = cleared k := rfl
    rw [hem, hcl]
    cases emptied k <;> cases opened k <;> cases cleared k <;> cases swung k <;> cases a.conv <;> rfl
  have hg : idleGains s.landVerdict m.gains = gains := by
    have hmg : m.gains = s.model.gains := hu.gains
    rw [hmg]
    apply zipIdx_map_congr
    intro a k hk
    dsimp only
    have hem : (!(pathsOnMic s.model.paths k).isEmpty && !!(pathsOnMic (s.model.applySets s.applying).paths k).isEmpty) = emptied k := by
      rw [Bool.not_not]
    exact (idleGain_eq _ _ _ _ _ _ a).trans (by rw [hem]; rfl)
  have hmics : applyVerdicts s.landVerdict m.mics = s.model.mics.zipIdx.map fun c => settled c.2 c.1 := by
    have hmm : m.mics = s.model.mics.zipIdx.map fun c => c.1.applyChange (changeFor s.applying (.mic c.2)).micPart := hu.mics
    rw [hmm]
    apply List.ext_getElem?
    intro k
    simp only [applyVerdicts, List.getElem?_map, List.getElem?_zipIdx, Nat.zero_add, Option.map_map]
    cases hk : s.model.mics[k]? with
    | none => rfl
    | some a =>
      simp only [Option.map_some, Function.comp, settled, hv k a hk]
      cases verdict k a <;> rfl
  have hstates : verdictNotices p.number s.landVerdict s.model.mics = states := by
    apply zipIdx_flatMap_congr
    intro a k hk
    simp only [hv k a hk]
    cases verdict k a <;> rfl
  have hhits : ∀ q, watchNotices s p.number s.applying q = hits q := by
    intro q
    show List.flatMap _ _ = List.flatMap _ _
    congr 1
    funext c
    simp only [watchNotice, covers, Watch.covers_eq]
    rfl
  obtain ⟨c1, c2, c3⟩ := s.cancelBlock_landSets p
  obtain ⟨g, a, b, o, d, hcb⟩ := s.landSets.cancelBlock_eq p
  obtain ⟨r, n, hpm⟩ := State.postMerged_eq ((s.landSets.cancelBlock p).startStages p) (s.landNotices p.number e)
  have hl : s.landBlock p e = _ := hpm
  have ht : (s.landBlock p e).model = { s.landedModel with gains := (s.landSets.cancelBlock p).model.gains } := by
    rw [hl]; show (s.landSets.cancelBlock p).model = _; rw [hcb]; rfl
  have hlm : s.landedModel = { m with mics := s.model.mics.zipIdx.map fun c => settled c.2 c.1, gains := gains } := by
    rw [← hmics, ← hg]; rfl
  have hcan : cancelled = ({ s with model := s.landedModel }.cancelBlock p) := by
    show State.cancelBlock _ p = _
    congr 1
    have hh : (s.landBlock p e).hist = s.hist := (Kept.landBlock s p e).hist
    rw [hh, ht]
    show ({ s with hist := s.hist, model := { s.landedModel with gains := gains } } : State) = _
    rw [hlm]
  refine ⟨?_, ?_, ?_, ?_, ?_, ?_⟩
  · rw [ht, hcan, ← c1, hlm]
  · rw [hl]; show (s.landSets.cancelBlock p).canc = _; rw [c2, hcan]
  · rw [hl]; show (s.landSets.cancelBlock p).array.outBuf = _; rw [c3, hcan]
  · rw [hl]; show (s.landSets.cancelBlock p).globals = _; rw [hcb]; rfl
  · rw [ht]
    rw [hl]; show (s.landSets.cancelBlock p).queues = _; rw [hcb]; rfl
  · refine ⟨mergeAll ((s.landSets.cancelBlock p).startStages p).freeCount (s.landNotices p.number e), ?_, ?_, ?_, ?_, ?_, ?_, ?_⟩
    · show (State.postMerged _ _).report = _
      rw [State.postMerged_report]
      apply State.foldl_post_report_congr
      · show (s.landSets.cancelBlock p).report = _; rw [hcb]; exact h1.symm
      · show (s.landSets.cancelBlock p).routes = _; rw [hcb]; exact h2.symm
    · refine (mergeAll_perm _ _).trans (List.Perm.of_eq ?_)
      simp only [State.landNotices, List.flatten_cons, List.flatten_nil, List.append_nil, hstates, hhits, List.append_assoc]
      rfl
    · exact mergeAll_sublist _ _ _ (List.mem_cons_self ..)
    · exact mergeAll_sublist _ _ _ (List.mem_cons_of_mem _ (List.mem_cons_self ..))
    · rw [← hstates]; exact mergeAll_sublist _ _ _ (by rw [State.landNotices]; simp)
    · rw [← hhits]; exact mergeAll_sublist _ _ _ (by rw [State.landNotices]; simp)
    · rw [← hhits]; exact mergeAll_sublist _ _ _ (by rw [State.landNotices]; simp)

/-- The canceller's work depends on the model, its own state and the histories alone. -/
theorem State.cancelBlock_congr {s t : State} (p : Proc) (hm : s.model = t.model) (hc : s.canc = t.canc) (hh : s.hist = t.hist) :
    (s.cancelBlock p).model = (t.cancelBlock p).model ∧ (s.cancelBlock p).canc = (t.cancelBlock p).canc ∧
      (s.cancelBlock p).array.outBuf = (t.cancelBlock p).array.outBuf := by
  cases s; cases t
  simp only at hm hc hh
  subst hm hc hh
  by_cases hp : p.standby = true
  · simp only [State.cancelBlock, hp, if_true]
    exact ⟨rfl, rfl, rfl⟩
  · simp only [State.cancelBlock, hp, Bool.false_eq_true, if_false]
    exact ⟨rfl, rfl, rfl⟩

/-- ADOUT after the canceller's work (R4, R16). -/
theorem State.cancelBlock_adout (s : State) (p : Proc) :
    (s.cancelBlock p).array.adout = ({ s.array with outBuf := (s.cancelBlock p).array.outBuf } : ArrayPort).driven := by
  by_cases hp : p.standby = true
  · simp only [State.cancelBlock, hp, if_true]; rfl
  · simp only [State.cancelBlock, hp, Bool.false_eq_true, if_false]; rfl

/-- What a block start does depends on these parts of the state it starts from alone. -/
theorem State.Lands.congr {u v t : State} {p : Proc} {sets : List ChangeSet} {own : Port → List Notice} {base : State}
    (h : State.Lands u t p sets own base) (hm : v.model = u.model) (hg : v.globals = u.globals) (hq : v.queues = u.queues)
    (hc : v.canc = u.canc) (hr : ∀ q, (v.report.get q).watches = (u.report.get q).watches) :
    State.Lands v t p sets own base := by
  cases u with | mk a1 a2 a3 a4 a5 a6 a7 a8 a9 a10 a11 a12 a13 a14 a15 a16 a17 a18 =>
  cases v with | mk b1 b2 b3 b4 b5 b6 b7 b8 b9 b10 b11 b12 b13 b14 b15 b16 b17 b18 =>
  simp only at hm hg hq hc hr
  subst hm hg hq hc
  delta State.Lands at h ⊢
  obtain ⟨h1, h2, h3, h4, h5, l, h6, h7, h8, h9, h10, h11, h12⟩ := h
  intro m emptied opened cleared swung verdict settled gains cancelled record states covers hits
  have key (mo : Model) (hi) :=
    State.cancelBlock_congr (s := ⟨b1, b2, b3, hi, mo, b6, b7, b8, b9, b10, b11, b12, b13, b14, b15, b16, b17, b18⟩)
    (t := ⟨a1, a2, a3, hi, mo, a6, a7, b8, b9, b10, a11, a12, a13, a14, a15, a16, a17, a18⟩) p rfl rfl rfl
  have hits_eq : ∀ q, hits q = ((sets.filter fun c => c.port == q).flatMap fun c =>
    match (a17.get (otherPort c.port)).watches.findIdx? fun w => covers w c.object with
    | some i => [{ dest := some (otherPort c.port), record := record (.watchHit c.object i c.port) }]
    | none => []) := by
    intro q
    exact congrArg (fun g => List.flatMap g _) (funext fun c => (hr (otherPort c.port)) ▸ rfl)
  obtain ⟨k1, k2, k3⟩ := key { t.model with gains := gains } t.hist
  refine ⟨?_, ?_, ?_, h4, h5, l, h6, ?_, h8, h9, h10, ?_, ?_⟩
  · rw [h1]; simp only [cancelled]; rw [k1]
  · rw [h2]; exact k2.symm
  · rw [h3]; exact k3.symm
  · rw [hits_eq, hits_eq]; exact h7
  · rw [hits_eq]; exact h11
  · rw [hits_eq]; exact h12

/-- The slip check touches the feed port and the counters only (R10). -/
theorem State.slipCheck_frame (s : State) :
    s.slipCheck = { s with feedPort := s.slipCheck.feedPort, report := s.slipCheck.report } := by
  obtain ⟨f, r, h, _⟩ := s.slipCheck_eq
  rw [h]

/-- The slip check depends on the feed port and the reports alone (R10). -/
theorem State.slipCheck_congr {s t : State} (hf : s.feedPort = t.feedPort) (hr : s.report = t.report) :
    s.slipCheck.feedPort = t.slipCheck.feedPort ∧ s.slipCheck.report = t.slipCheck.report := by
  cases s; cases t
  simp only at hf hr
  subst hf hr
  simp only [State.slipCheck]
  split
  · exact ⟨rfl, rfl⟩
  · split
    · exact ⟨rfl, rfl⟩
    · split <;> exact ⟨rfl, rfl⟩

theorem State.slipCheck_state (s : State) : s.slipCheck.feedPort.state = s.feedPort.state := by
  simp only [State.slipCheck]
  split
  · rfl
  · split
    · rfl
    · split <;> rfl

theorem State.slipCheck_watches (s : State) (q : Port) :
    (s.slipCheck.report.get q).watches = (s.report.get q).watches := by
  simp only [State.slipCheck]
  split
  · rfl
  · split
    · cases q <;> rfl
    · split <;> rfl

/-- The block's processing after it is cancelled (R92). -/
theorem State.landBlock_proc (s : State) (p : Proc) (e : PerPort Bool) : (s.landBlock p e).proc = some { p with
    phase := if p.standby then .align else .supervise, stageQueues := (s.landBlock p e).queues } := by
  obtain ⟨r, n, hpm⟩ := State.postMerged_eq ((s.landSets.cancelBlock p).startStages p) (s.landNotices p.number e)
  have hlb : s.landBlock p e = _ := hpm
  rw [hlb]; rfl

/-- The fields that landing the sets and cancelling the block write. -/
theorem State.landBlock_frame (s : State) (p : Proc) (e : PerPort Bool) : s.landBlock p e = { s with
    model := (s.landBlock p e).model
    globals := (s.landBlock p e).globals
    queues := (s.landBlock p e).queues
    stager := { p0 := s.stager.p0.applied, p1 := s.stager.p1.applied }
    canc := (s.landBlock p e).canc
    array := { s.array with outBuf := (s.landBlock p e).array.outBuf, adout := (s.landBlock p e).array.adout }
    proc := (s.landBlock p e).proc
    report := (s.landBlock p e).report
    freeCount := (s.landBlock p e).freeCount } := by
  obtain ⟨g, a, b, o, d, hcb⟩ := s.landSets.cancelBlock_eq p
  obtain ⟨r, n, hpm⟩ := State.postMerged_eq ((s.landSets.cancelBlock p).startStages p) (s.landNotices p.number e)
  have hlb : s.landBlock p e = _ := hpm
  rw [hlb, State.startStages, hcb]; rfl

/-- The mute masks take effect, and the snapshot stays (R81, R85). -/
theorem State.landBlock_canc (s : State) (p : Proc) (e : PerPort Bool) : (s.landBlock p e).canc.mask = s.canc.reqMask ∧
    (s.landBlock p e).canc.reqMask = s.canc.reqMask ∧ (s.landBlock p e).canc.snapshot = s.canc.snapshot := by
  obtain ⟨g, a, b, o, d, hcb⟩ := s.landSets.cancelBlock_eq p
  obtain ⟨r, n, hpm⟩ := State.postMerged_eq ((s.landSets.cancelBlock p).startStages p) (s.landNotices p.number e)
  have hlb : s.landBlock p e = _ := hpm
  rw [hlb]
  show (s.landSets.cancelBlock p).canc.mask = _ ∧ (s.landSets.cancelBlock p).canc.reqMask = _ ∧
    (s.landSets.cancelBlock p).canc.snapshot = _
  rw [hcb]; exact ⟨rfl, rfl, rfl⟩

/-- The phase of a processing plays no part in the canceller's work. -/
theorem State.cancelBlock_phase (s : State) (p : Proc) (ph : Phase) (q : List (List QEntry)) :
    s.cancelBlock { p with phase := ph, stageQueues := q } = s.cancelBlock p := by
  have h1 : ∀ t : State, outputBlock t { p with phase := ph, stageQueues := q } = outputBlock t p := by
    intro t; unfold outputBlock outputsOf; simp only [errorsOf]
  have h2 : ∀ t : State, gainAfter t { p with phase := ph, stageQueues := q } = gainAfter t p := by
    intro t; funext m; simp only [gainAfter, errorsOf]
  have h3 : ∀ t : State, errorsOf t { p with phase := ph, stageQueues := q } = errorsOf t p := by
    intro t; funext m; simp only [errorsOf]
  simp only [State.cancelBlock, h1, h2, h3]

theorem State.Lands.phase {u t : State} {p : Proc} {sets : List ChangeSet} {own : Port → List Notice} {base : State} (ph : Phase)
    (q : List (List QEntry)) (h : State.Lands u t p sets own base) :
    State.Lands u t { p with phase := ph, stageQueues := q } sets own base := by
  delta State.Lands at h ⊢
  simp only [State.cancelBlock_phase] at h ⊢
  exact h

/-- The receiver's framing plays no part in the canceller's work, but for ADOUT. -/
theorem State.cancelBlock_framing (s : State) (fr : Framing) (ad : Option (List Slot)) (p : Proc) :
    ∃ ad', ({ s with array := { s.array with framing := fr, adout := ad } } : State).cancelBlock p
      = { s.cancelBlock p with array := { (s.cancelBlock p).array with framing := fr, adout := ad' } } := by
  by_cases hp : p.standby = true
  · simp only [State.cancelBlock, hp, if_true]; exact ⟨_, rfl⟩
  · simp only [State.cancelBlock, hp, Bool.false_eq_true, if_false]; exact ⟨_, rfl⟩

theorem State.postMerged_array (s : State) (a : ArrayPort) (l : List (List Notice)) :
    ({ s with array := a } : State).postMerged l = { s.postMerged l with array := a } := by
  obtain ⟨r1, n1, h2⟩ := State.postMerged_eq { s with array := a } l
  obtain ⟨r2, n2, h3⟩ := State.postMerged_eq s l
  have hr : (({ s with array := a } : State).postMerged l).report = (s.postMerged l).report := by
    rw [State.postMerged_report, State.postMerged_report]
    exact State.foldl_post_report_congr _ rfl rfl
  have hn : (({ s with array := a } : State).postMerged l).freeCount = (s.postMerged l).freeCount := by
    rfl
  rw [h2, h3] at hr hn
  rw [h2, h3]
  simp only at hr hn
  rw [hr, hn]

theorem State.landBlock_framing (s : State) (fr : Framing) (ad : Option (List Slot)) (p : Proc) (e : PerPort Bool) :
    ∃ ad', ({ s with array := { s.array with framing := fr, adout := ad } } : State).landBlock p e
      = { s.landBlock p e with array := { (s.landBlock p e).array with framing := fr, adout := ad' } } := by
  obtain ⟨ad', h⟩ := State.cancelBlock_framing s.landSets fr ad p
  refine ⟨ad', ?_⟩
  have h' : ({ s with array := { s.array with framing := fr, adout := ad } } : State).landSets =
      { s.landSets with array := { s.landSets.array with framing := fr, adout := ad } } := rfl
  obtain ⟨r2, n2, h3⟩ := State.postMerged_eq ((s.landSets.cancelBlock p).startStages p) (s.landNotices p.number e)
  have ha : (s.landBlock p e).array = (s.landSets.cancelBlock p).array := by
    show (State.postMerged _ _).array = _
    rw [h3]; rfl
  rw [ha]
  unfold State.landBlock
  dsimp only
  rw [h', h]
  exact State.postMerged_array ((s.landSets.cancelBlock p).startStages p) _ (s.landNotices p.number e)

/-- The array frame that completes a block: the state `j` in which all is read, counted and checked (R10, R12, R13, R19) and nothing
handed off yet, and what follows from it. -/
theorem State.arrayArrival_sixtyFourth (s : State) (f : FrameEnd) (hf : ∀ slots, f = .wellFormed slots → slots.length = 24) :
    let u := s.settle.finishBeforeWrite
    let v := { u with array := { u.array with stopTimer := true } }.resume
    let r := v.feedRead
    let row := match f with
      | .wellFormed slots => slots.map sampleOfSlot
      | .faulted => List.replicate 24 0#16
    let degraded := u.array.degraded || f == .faulted
    let x := if f = .faulted then r.1.countBoth .arrayFrameFault else r.1
    let z := (if degraded then x.countBoth .degradedBlocks else x).slipCheck
    let hist := u.hist.zipIdx.map fun c => r.2.getD c.2 0#16 :: c.1.take 12287
    u.array.rows.length = 63 →
    ∃ j : State, j = { u with
      feedPort := z.feedPort
      array := { rows := u.array.rows ++ [row], counter := u.array.counter, degraded := degraded,
                 feedLive := r.1.array.feedLive, run := .running, stopTimer := true,
                 outBuf := v.array.outBuf, framing := u.array.framing, pin := u.array.pin, adout := u.array.adout }
      hist := hist
      proc := u.proc.map fun p => { p with writesSince := p.writesSince + 1 }
      report := z.report } ∧
    (s.arrayArrival f = match f with
      | .wellFormed _ => j.takeBlock.landUnlessHeld j.handedBlock
      | .faulted => (j.takeBlock.landUnlessHeld j.handedBlock).expireHolds) ∧
    z.routes = u.routes ∧ z.feedPort.state = r.1.feedPort.state ∧ (∀ q, (z.report.get q).watches = (u.report.get q).watches) := by
  intro u v r row degraded x z hist hn
  obtain ⟨j, hjd⟩ : ∃ j : State, j = { u with
      feedPort := z.feedPort
      array := { rows := u.array.rows ++ [row], counter := u.array.counter, degraded := degraded,
                 feedLive := r.1.array.feedLive, run := .running, stopTimer := true,
                 outBuf := v.array.outBuf, framing := u.array.framing, pin := u.array.pin, adout := u.array.adout }
      hist := hist
      proc := u.proc.map fun p => { p with writesSince := p.writesSince + 1 }
      report := z.report } := ⟨_, rfl⟩
  refine ⟨j, hjd, ?_⟩
  have hx : x.feedPort = r.1.feedPort ∧ x.routes = u.routes := by
    have hru : r.1.routes = u.routes := by simp [r, v]
    simp only [x]; split <;> exact ⟨rfl, hru⟩
  have hz : z.feedPort.state = r.1.feedPort.state := by
    simp only [z]; rw [State.slipCheck_state]; split <;> exact congrArg FeedPort.state hx.1
  have hzr : z.routes = u.routes := by
    simp only [z]; rw [State.slipCheck_frame]; split <;> exact hx.2
  have hw1 : ∀ q, (v.report.get q).watches = (u.report.get q).watches := by
    intro q
    simp only [v, State.resume]
    split
    · rfl
    · exact (State.raise_timers _ _ q).2
  have hw2 : ∀ q, (r.1.report.get q).watches = (u.report.get q).watches := by
    intro q
    rw [← hw1 q]
    simp only [r, State.feedRead]
    split
    · cases q <;> rfl
    · rfl
    · refine ((State.raise_timers _ _ q).2).trans ?_; cases q <;> rfl
    · rfl
    · split
      · exact (State.raise_timers _ _ q).2
      · rfl
  refine ⟨?_, hzr, hz, ?_⟩
  · show (u.restartTimer.resume.readFeed.joinRow f).handOff f = _
    have hj : (u.restartTimer.resume.readFeed.joinRow f).countDegraded.slipCheck = j := by
      rw [State.readFeed_eq]
      have hv : u.restartTimer.resume = v := rfl
      have hr : v.feedRead = r := rfl
      rw [hv, hr]
      generalize hK : State.countDegraded _ = K
      have h1 : K.feedPort = (if degraded then x.countBoth .degradedBlocks else x).feedPort ∧
          K.report = (if degraded then x.countBoth .degradedBlocks else x).report ∧
          K = { j with feedPort := K.feedPort, report := K.report } := by
        rw [← hK, hjd]
        cases f with
        | wellFormed slots =>
          have hs : slots.length = 24 := hf slots rfl
          have hd : degraded = u.array.degraded := by simp [degraded]
          simp only [State.joinRow, State.setArray, State.countDegraded, samplesOf_eq slots hs, Config.mics, x, row, hd]
          cases u.array.degraded <;> exact ⟨rfl, rfl, rfl⟩
        | faulted =>
          have hd : degraded = true := by simp [degraded]
          simp only [State.joinRow, State.setArray, State.countDegraded, x, row, hd, State.countBoth]
          exact ⟨rfl, rfl, rfl⟩
      obtain ⟨h2, h3, h4⟩ := h1
      obtain ⟨h5, h6⟩ := State.slipCheck_congr h2 h3
      rw [State.slipCheck_frame, h5, h6, h4, hjd]
    have hl : 64 ≤ (u.restartTimer.resume.readFeed.joinRow f).array.rows.length := by
      rw [State.readFeed_eq]
      cases f <;> simp [State.joinRow, hn, State.setArray, State.countBoth]
    simp only [State.handOff, Config.blockFrames, hl, if_true, State.blockStart, hj]
    cases f <;> rfl
  · intro q
    simp only [z]; rw [State.slipCheck_watches, ← hw2 q]
    split <;> simp only [x] <;> split <;> cases q <;> rfl

end Sys2Proof.Machine
end

