-- ==== Sys2Proof/Laws/Memory.lean ====
section
/-! SUPPORT. The tap store's memory: every operation keeps the canonical form, and what is read after a write. -/

namespace Sys2Proof.Machine

theorem Memory.wf_nil : Memory.wf [] := ⟨List.Pairwise.nil, by simp⟩

theorem Memory.wf_filter {m : Memory} (h : Memory.wf m) (f : Nat × Coef → Bool) : Memory.wf (m.filter f) :=
  ⟨h.1.filter f, fun c hc => h.2 c (List.mem_filter.mp hc).1⟩

theorem Memory.wf_erase {m : Memory} (h : Memory.wf m) (a : Nat) : Memory.wf (m.erase a) := Memory.wf_filter h _

theorem Memory.wf_tail {c : Nat × Coef} {m : Memory} (h : Memory.wf (c :: m)) : Memory.wf m :=
  ⟨(List.pairwise_cons.mp h.1).2, fun d hd => h.2 d (List.mem_cons_of_mem _ hd)⟩

theorem Memory.mem_insert {a : Nat} {v : Coef} {m : Memory} {d : Nat × Coef} (h : d ∈ Memory.insert a v m) :
    d = (a, v) ∨ d ∈ m := by
  induction m with
  | nil => exact Or.inl (by simpa [Memory.insert] using h)
  | cons c m ih =>
    unfold Memory.insert at h
    split at h
    · rcases List.mem_cons.mp h with h | h
      · exact Or.inl h
      · exact Or.inr h
    · split at h
      · rcases List.mem_cons.mp h with h | h
        · exact Or.inl h
        · exact Or.inr (List.mem_cons_of_mem _ h)
      · rcases List.mem_cons.mp h with h | h
        · exact Or.inr (h ▸ List.mem_cons_self)
        · rcases ih h with h | h
          · exact Or.inl h
          · exact Or.inr (List.mem_cons_of_mem _ h)

theorem Memory.wf_insert {m : Memory} (h : Memory.wf m) (a : Nat) {v : Coef} (hv : v ≠ 0#24) :
    Memory.wf (Memory.insert a v m) := by
  refine ⟨?_, fun d hd => ?_⟩
  · induction m with
    | nil => simp [Memory.insert]
    | cons c m ih =>
      have hc := List.pairwise_cons.mp h.1
      unfold Memory.insert
      split
      · rename_i hlt
        refine List.pairwise_cons.mpr ⟨fun d hd => ?_, h.1⟩
        rcases List.mem_cons.mp hd with hd | hd
        · rw [hd]; exact hlt
        · exact Nat.lt_trans hlt (hc.1 d hd)
      · split
        · rename_i _ heq
          exact List.pairwise_cons.mpr ⟨fun d hd => by show a < d.1; rw [heq]; exact hc.1 d hd, hc.2⟩
        · rename_i h1 h2
          refine List.pairwise_cons.mpr ⟨fun d hd => ?_, ih (Memory.wf_tail h)⟩
          rcases Memory.mem_insert hd with hd | hd
          · rw [hd]; show c.1 < a; omega
          · exact hc.1 d hd
  · rcases Memory.mem_insert hd with hd | hd
    · rw [hd]; exact hv
    · exact h.2 d hd

/-- A write keeps the canonical form. -/
theorem Memory.wf_write {m : Memory} (h : Memory.wf m) (a : Nat) (v : Coef) : Memory.wf (m.write a v) := by
  unfold Memory.write
  split
  · exact Memory.wf_erase h a
  · rename_i hv
    exact Memory.wf_insert h a hv

theorem Memory.wf_writeAll {m : Memory} (h : Memory.wf m) (ws : List (Nat × Coef)) : Memory.wf (m.writeAll ws) := by
  unfold Memory.writeAll
  induction ws generalizing m with
  | nil => exact h
  | cons w ws ih => exact ih (Memory.wf_write h w.1 w.2)

theorem Memory.wf_zeroSegment {m : Memory} (h : Memory.wf m) (n : Nat) : Memory.wf (m.zeroSegment n) := Memory.wf_filter h _

theorem Memory.wf_zeroSegments {m : Memory} (h : Memory.wf m) (l : List Nat) : Memory.wf (m.zeroSegments l) := by
  unfold Memory.zeroSegments
  induction l generalizing m with
  | nil => exact h
  | cons n l ih => exact ih (Memory.wf_zeroSegment h n)

/-! ## What is read -/

theorem Memory.read_filter (m : Memory) (f : Nat → Bool) (a : Nat) :
    Memory.read (m.filter fun c => f c.1) a = if f a then Memory.read m a else 0#24 := by
  induction m with
  | nil => simp [Memory.read, Memory.unlisted]
  | cons c m ih =>
    rw [List.filter_cons]
    by_cases hc : f c.1
    · simp only [hc, if_true, Memory.read, ih]
      by_cases ha : c.1 = a
      · subst ha; simp [hc]
      · simp [ha]
    · simp only [hc, Bool.false_eq_true, if_false, ih, Memory.read]
      by_cases ha : c.1 = a
      · subst ha; simp [hc]
      · simp [ha]

theorem Memory.read_erase (m : Memory) (a b : Nat) :
    Memory.read (m.erase a) b = if b = a then 0#24 else Memory.read m b := by
  have h := Memory.read_filter m (fun x => x != a) b
  unfold Memory.erase
  rw [h]
  by_cases hb : b = a <;> simp [hb]

theorem Memory.read_insert {m : Memory} (h : Memory.wf m) (a b : Nat) (v : Coef) :
    Memory.read (Memory.insert a v m) b = if b = a then v else Memory.read m b := by
  induction m with
  | nil =>
    simp only [Memory.insert, Memory.read]
    by_cases hb : b = a
    · simp [hb]
    · simp [hb, Ne.symm hb]
  | cons c m ih =>
    have ih := ih (Memory.wf_tail h)
    unfold Memory.insert
    split
    · simp only [Memory.read]
      by_cases hb : b = a
      · simp [hb]
      · simp [hb, Ne.symm hb]
    · split
      · rename_i _ heq
        simp only [Memory.read]
        by_cases hb : b = a
        · simp [hb]
        · have : ¬ c.1 = b := by omega
          simp [hb, Ne.symm hb, this]
      · rename_i _ hne
        simp only [Memory.read, ih]
        by_cases hb : b = a
        · subst hb; simp [Ne.symm hne]
        · simp [hb]

/-- Reading after a write: the written address reads the value, every other address as before. -/
theorem Memory.read_write {m : Memory} (h : Memory.wf m) (a b : Nat) (v : Coef) :
    Memory.read (m.write a v) b = if b = a then v else Memory.read m b := by
  unfold Memory.write
  split
  · rename_i hv
    rw [Memory.read_erase, hv]; rfl
  · exact Memory.read_insert h a b v

/-- Reading after a segment was zeroed. -/
theorem Memory.read_zeroSegment (m : Memory) (n a : Nat) :
    Memory.read (m.zeroSegment n) a = if a / 64 = n then 0#24 else Memory.read m a := by
  have h := Memory.read_filter m (fun x => x / Config.segmentTaps != n) a
  unfold Memory.zeroSegment
  rw [h]
  by_cases hb : a / 64 = n <;> simp [Config.segmentTaps, hb]

/-- Reading after several segments were zeroed. -/
theorem Memory.read_zeroSegments (m : Memory) (l : List Nat) (a : Nat) :
    Memory.read (m.zeroSegments l) a = if a / 64 ∈ l then 0#24 else Memory.read m a := by
  unfold Memory.zeroSegments
  induction l generalizing m with
  | nil => simp
  | cons n l ih =>
    rw [List.foldl_cons, ih, Memory.read_zeroSegment]
    by_cases h1 : a / 64 ∈ l
    · simp [h1]
    · by_cases h2 : a / 64 = n <;> simp [h1, h2]

/-- An address that no write of a list names reads as before. -/
theorem Memory.read_writeAll_other {m : Memory} (h : Memory.wf m) (ws : List (Nat × Coef)) (a : Nat)
    (ha : ∀ w ∈ ws, w.1 ≠ a) : Memory.read (m.writeAll ws) a = Memory.read m a := by
  unfold Memory.writeAll
  induction ws generalizing m with
  | nil => rfl
  | cons w ws ih =>
    rw [List.foldl_cons, ih (Memory.wf_write h w.1 w.2) (fun x hx => ha x (List.mem_cons_of_mem _ hx)), Memory.read_write h]
    have := ha w List.mem_cons_self
    simp [Ne.symm this]

end Sys2Proof.Machine
end

