-- ==== Sys2Proof/Laws/Seen.lean ====
section
/-! SUPPORT. What changes what reads see (R160): the end of a processing alone, at whatever stage a command runs or finishes first. -/

namespace Sys2Proof.Machine

/-- What a stage can do to what reads see: nothing, or complete the processing. -/
def SeenStep (s t : State) : Prop :=
  (t.seen = s.seen ∧ (s.proc = none → t.proc = none)) ∨ (s.proc ≠ none ∧ t.proc = none ∧ t.seen = t.model)

theorem SeenStep.refl (s : State) : SeenStep s s := Or.inl ⟨rfl, id⟩

theorem SeenStep.of_eq {s t : State} (h : t.seen = s.seen) (hp : s.proc = none → t.proc = none) : SeenStep s t := Or.inl ⟨h, hp⟩

/-- One stage after another, where the second does nothing once the processing is complete. -/
theorem SeenStep.trans {s t u : State} (h : SeenStep s t) (k : SeenStep t u) (hn : t.proc = none → u = t) : SeenStep s u := by
  rcases h with ⟨h1, h2⟩ | ⟨h1, h2, h3⟩
  · rcases k with ⟨k1, k2⟩ | ⟨k1, k2, k3⟩
    · exact Or.inl ⟨k1.trans h1, fun h => k2 (h2 h)⟩
    · exact Or.inr ⟨fun h => k1 (h2 h), k2, k3⟩
  · rw [hn h2]; exact Or.inr ⟨h1, h2, h3⟩

theorem State.cancelBlock_seen (s : State) (p : Proc) : (s.cancelBlock p).seen = s.seen := by
  obtain ⟨g, a, b, o, d, h⟩ := s.cancelBlock_eq p; rw [h]

theorem State.landBlock_seen (s : State) (p : Proc) (e : PerPort Bool) : (s.landBlock p e).seen = s.seen := by
  unfold State.landBlock
  obtain ⟨r, n, h⟩ := State.postMerged_eq ((s.landSets.cancelBlock p).startStages p) (s.landNotices p.number e)
  rw [h]
  show (s.landSets.cancelBlock p).seen = _
  rw [State.cancelBlock_seen]; rfl

theorem State.expireHolds_seen (s : State) : s.expireHolds.seen = s.seen := by
  unfold State.expireHolds
  split
  · split
    · rw [State.landBlock_seen]; rfl
    all_goals rfl
  · rfl

theorem SeenStep.endStep (s : State) (p : Proc) (b : Bool) (hp : s.proc ≠ none) : SeenStep s (s.endStep p b) := by
  unfold State.endStep State.raiseEntered
  split
  · split <;> exact Or.inl ⟨by simp, fun h => absurd h hp⟩
  · exact Or.inr ⟨hp, rfl, rfl⟩

theorem State.meterExpiry_of_none (s : State) (q : Port) (h : s.proc = none) : s.meterExpiry q = s := by unfold State.meterExpiry; rw [h]

theorem State.expireHolds_of_none (s : State) (h : s.proc = none) : s.expireHolds = s := by unfold State.expireHolds; rw [h]

theorem SeenStep.meterExpiry (s : State) (q : Port) : SeenStep s (s.meterExpiry q) := by
  unfold State.meterExpiry
  split
  · rename_i p hp
    split
    · split
      · exact SeenStep.endStep (s.expireMeter q p.number) p _ (by show s.proc ≠ none; simp [hp])
      · exact SeenStep.refl s
    all_goals exact SeenStep.refl s
  · exact SeenStep.refl s

theorem SeenStep.settle (s : State) : SeenStep s s.settle := by
  unfold State.settle
  have h0 : SeenStep s s.expireHolds := Or.inl ⟨State.expireHolds_seen s, fun h => by rw [State.expireHolds_of_none s h]; exact h⟩
  exact (h0.trans (SeenStep.meterExpiry _ _) (State.meterExpiry_of_none _ _)).trans (SeenStep.meterExpiry _ _)
    (State.meterExpiry_of_none _ _)

theorem State.settle_of_none (s : State) (h : s.proc = none) : s.settle = s := by
  rw [State.settle, State.expireHolds_of_none s h, State.meterExpiry_of_none s _ h, State.meterExpiry_of_none s _ h]

theorem State.supervisorStage_of_none (s : State) (h : s.proc = none) : s.supervisorStage = s := by unfold State.supervisorStage; rw [h]

theorem State.alignmentStage_of_none (s : State) (h : s.proc = none) : s.alignmentStage = s := by unfold State.alignmentStage; rw [h]

theorem State.arbiterStage_of_none (s : State) (h : s.proc = none) : s.arbiterStage = s := by unfold State.arbiterStage; rw [h]

theorem State.updateStage_of_none (s : State) (h : s.proc = none) : s.updateStage = s := by unfold State.updateStage; rw [h]

theorem State.bulkResult_of_none (s : State) (h : s.proc = none) : s.bulkResult = s := by
  unfold State.bulkResult State.resultsTurn State.inPhase; simp [h]

theorem State.checkExpiry_of_none (s : State) (f : Nat) (h : s.proc = none) : s.checkExpiry f = s := by
  unfold State.checkExpiry State.resultsTurn State.inPhase; simp [h]

theorem State.runThreshold_of_none (s : State) (m : Nat) (h : s.proc = none) : s.runThreshold m = s := by
  unfold State.runThreshold State.verdictTurn; simp [h]

theorem State.micDiverged_of_none (s : State) (m : Nat) (h : s.proc = none) : s.micDiverged m = s := by
  unfold State.micDiverged State.verdictTurn; simp [h]

theorem SeenStep.supervisorStage (s : State) : SeenStep s s.supervisorStage := by
  unfold State.supervisorStage
  split
  · rename_i p hp
    split
    · exact Or.inl ⟨rfl, fun h => by simp [hp] at h⟩
    · exact SeenStep.refl s
  · exact SeenStep.refl s

theorem SeenStep.runThreshold (s : State) (m : Nat) : SeenStep s (s.runThreshold m) := by
  unfold State.runThreshold
  dsimp only
  split
  · refine Or.inl ⟨by rw [State.foldl_post_seen]; rfl, fun h => by rw [State.foldl_post_proc]; exact h⟩
  · exact SeenStep.refl s

theorem SeenStep.micDiverged (s : State) (m : Nat) : SeenStep s (s.micDiverged m) := by
  unfold State.micDiverged
  dsimp only
  split
  · refine Or.inl ⟨by rw [State.foldl_post_seen]; rfl, fun h => by rw [State.foldl_post_proc]; exact h⟩
  · exact SeenStep.refl s

theorem SeenStep.alignmentStage (s : State) : SeenStep s s.alignmentStage := by
  unfold State.alignmentStage
  split
  · rename_i p hp
    split
    · dsimp only
      split
      · exact Or.inr ⟨by simp [hp], rfl, rfl⟩
      · exact Or.inl ⟨rfl, fun h => by simp [hp] at h⟩
    · exact SeenStep.refl s
  · exact SeenStep.refl s

theorem SeenStep.bulkResult (s : State) : SeenStep s s.bulkResult := by
  unfold State.bulkResult
  dsimp only
  split
  · obtain ⟨r, n, h⟩ := State.postMerged_eq _ _
    rw [h]; exact Or.inl ⟨rfl, id⟩
  · exact SeenStep.refl s

theorem SeenStep.checkExpiry (s : State) (f : Nat) : SeenStep s (s.checkExpiry f) := by
  unfold State.checkExpiry
  split
  · exact Or.inl ⟨rfl, id⟩
  · exact SeenStep.refl s

theorem SeenStep.arbiterStage (s : State) : SeenStep s s.arbiterStage := by
  unfold State.arbiterStage
  split
  · rename_i p hp
    split
    · exact Or.inl ⟨rfl, fun h => by simp [hp] at h⟩
    · exact SeenStep.refl s
  · exact SeenStep.refl s

theorem SeenStep.updateStage (s : State) : SeenStep s s.updateStage := by
  unfold State.updateStage
  split
  · rename_i p hp
    split
    · exact SeenStep.endStep ((((s.writeUpdates p).refreshSnapshot.tickMeters).enterIf s.enters)) p _ (by show s.proc ≠ none; simp [hp])
    · exact SeenStep.refl s
  · exact SeenStep.refl s

theorem State.foldl_of_none {f : State → Nat → State} (hf : ∀ s a, s.proc = none → f s a = s) (l : List Nat) (s : State)
    (h : s.proc = none) : l.foldl f s = s := by
  induction l with
  | nil => rfl
  | cons a l ih => rw [List.foldl_cons, hf s a h, ih]

theorem SeenStep.foldl {f : State → Nat → State} (hf : ∀ s a, SeenStep s (f s a)) (hn : ∀ s a, s.proc = none → f s a = s)
    (l : List Nat) (s : State) : SeenStep s (l.foldl f s) := by
  induction l generalizing s with
  | nil => exact SeenStep.refl s
  | cons a l ih => exact (hf s a).trans (ih _) (State.foldl_of_none hn l _)

theorem State.verdictStep_of_none (s : State) (m : Nat) (h : s.proc = none) : State.verdictStep s m = s := by
  rw [State.verdictStep, State.micDiverged_of_none s m h, State.runThreshold_of_none s m h]

theorem SeenStep.verdictStep (s : State) (m : Nat) : SeenStep s (State.verdictStep s m) :=
  (SeenStep.micDiverged s m).trans (SeenStep.runThreshold _ m) (State.runThreshold_of_none _ m)

theorem SeenStep.finishProcessing (s : State) : SeenStep s s.finishProcessing := by
  unfold State.finishProcessing State.verdictSteps State.checkExpiries
  refine SeenStep.trans ?_ (SeenStep.settle _) (State.settle_of_none _)
  refine SeenStep.trans ?_ (SeenStep.updateStage _) (State.updateStage_of_none _)
  refine SeenStep.trans ?_ (SeenStep.arbiterStage _) (State.arbiterStage_of_none _)
  refine SeenStep.trans ?_ (SeenStep.foldl SeenStep.checkExpiry State.checkExpiry_of_none _ _)
    (State.foldl_of_none State.checkExpiry_of_none _ _)
  refine SeenStep.trans ?_ (SeenStep.bulkResult _) (State.bulkResult_of_none _)
  refine SeenStep.trans ?_ (SeenStep.alignmentStage _) (State.alignmentStage_of_none _)
  refine SeenStep.trans ?_ (SeenStep.foldl SeenStep.verdictStep State.verdictStep_of_none _ _)
    (State.foldl_of_none State.verdictStep_of_none _ _)
  exact (SeenStep.settle s).trans (SeenStep.supervisorStage _) (State.supervisorStage_of_none _)

theorem State.finishBeforeWrite_of_none (s : State) (h : s.proc = none) : s.finishBeforeWrite = s := by
  unfold State.finishBeforeWrite; rw [h]

theorem SeenStep.finishBeforeWrite (s : State) : SeenStep s s.finishBeforeWrite := by
  unfold State.finishBeforeWrite
  split
  · split
    · exact SeenStep.finishProcessing s
    · exact SeenStep.refl s
  · exact SeenStep.refl s

theorem State.blockStart_seen (s : State) : s.blockStart.seen = s.seen := by
  have h0 : s.countDegraded.slipCheck.seen = s.seen := by
    obtain ⟨r1, e1, _⟩ := s.countDegraded_eq
    obtain ⟨f, r2, e2, _, _⟩ := s.countDegraded.slipCheck_eq
    rw [e2, e1]
  show (s.countDegraded.slipCheck.takeBlock.landUnlessHeld _).seen = _
  unfold State.landUnlessHeld
  split
  · exact h0
  · rw [State.landBlock_seen]; exact h0

/-- An array frame changes what reads see only in what it finishes first (R160). -/
theorem State.arrayArrival_seen (s : State) (f : FrameEnd) : (s.arrayArrival f).seen = s.settle.finishBeforeWrite.seen := by
  have h1 : ((s.settle.finishBeforeWrite.restartTimer.resume.readFeed).joinRow f).seen = s.settle.finishBeforeWrite.seen := by
    rw [State.readFeed_eq]
    unfold State.joinRow
    split <;> rfl
  show ((s.settle.finishBeforeWrite.restartTimer.resume.readFeed.joinRow f).handOff f).seen = _
  unfold State.handOff
  split
  · split
    · rw [State.blockStart_seen, h1]
    · rw [State.expireHolds_seen, State.blockStart_seen, h1]
  · exact h1

/-- A bit at the array port changes what reads see only in what the frame that ends with it finishes first (R160). -/
theorem State.arrayBit_seen (s : State) (b : LineBit) :
    (s.arrayBit b).seen = s.seen ∨ (s.arrayBit b).seen = s.settle.finishBeforeWrite.seen := by
  unfold State.arrayBit
  dsimp only
  split
  · exact Or.inr (State.arrayArrival_seen _ _)
  · split
    · exact Or.inl (State.expireHolds_seen s)
    · exact Or.inl rfl

/-- A request whose owner leaves what reads see alone changes it only in what it finishes first (R160). -/
theorem State.request_seen (s : State) (p : Port) (k : Kind) (body : List Byte) (owner : State → State × Reply)
    (ho : ∀ t : State, (owner t).1.seen = t.seen) :
   (s.request p k body owner).seen = s.seen ∨ (s.request p k body owner).seen = s.settle.seen := by
  rcases s.request_cases p k body owner with e | e | ⟨st, e⟩ | e <;> rw [e]
  · exact Or.inl rfl
  · exact Or.inl rfl
  · exact Or.inr rfl
  · right; show (owner s.settle).1.seen = _; exact ho _

end Sys2Proof.Machine
end

