-- ==== Sys2Proof/Laws/Stops.lean ====
section
/-! SUPPORT. No processing is in progress at a STOPPED array port: what the stages, the frames, the stop timer and the requests do to
that (R48, R150, R178). -/

namespace Sys2Proof.Machine

/-- It depends on the run state and the processing alone. -/
theorem State.StopsIdle.of_same {s t : State} (h : s.StopsIdle) (hr : t.array.run = s.array.run) (hp : s.proc = none → t.proc = none) :
    t.StopsIdle := fun ht => hp (h (hr.symm.trans ht))

/-- A part that runs has nothing to show. -/
theorem State.StopsIdle.of_running {s : State} (h : s.array.run = .running) : s.StopsIdle := fun hs => by rw [h] at hs; cases hs

/-- A stage leaves the run state alone, and does nothing where no processing is in progress. -/
theorem State.StopsIdle.stage {s t : State} (h : s.StopsIdle) (k : Kept s t) (hn : s.proc = none → t = s) : t.StopsIdle :=
  h.of_same k.run fun hp => by rw [hn hp]; exact hp

theorem State.StopsIdle.settle {s : State} (h : s.StopsIdle) : s.settle.StopsIdle := h.stage (Kept.settle s) (State.settle_of_none s)

/-- A request keeps it where its owner does. -/
theorem State.StopsIdle.request {s : State} (h : s.StopsIdle) (p : Port) (k : Kind) (body : List Byte) {owner : State → State × Reply}
    (ho : ∀ t, t.StopsIdle → (owner t).1.StopsIdle) : (s.request p k body owner).StopsIdle := by
  rcases s.request_cases p k body owner with e | e | ⟨st, e⟩ | e <;> rw [e]
  · exact h
  · exact h
  · exact h.settle
  · exact ho _ h.settle

/-- Finishing does nothing where no processing is in progress. -/
theorem State.finishProcessing_of_none (s : State) (h : s.proc = none) : s.finishProcessing = s := by
  unfold State.finishProcessing State.verdictSteps State.checkExpiries
  rw [State.settle_of_none s h, State.supervisorStage_of_none s h, State.foldl_of_none State.verdictStep_of_none _ s h,
    State.alignmentStage_of_none s h, State.bulkResult_of_none s h, State.foldl_of_none State.checkExpiry_of_none _ s h,
    State.arbiterStage_of_none s h, State.updateStage_of_none s h, State.settle_of_none s h]

/-- What stopping the port writes (R14). -/
theorem State.stopArray_eq (s : State) : s.stopArray = { s with
    feedPort := { s.feedPort with repeatMark := false }
    array := { s.array with run := .stopped, stopTimer := false, rows := [], degraded := false }.drive
    report := ((s.countBoth .arrayStops).raise { block := s.array.counter, event := .arrayStopped }).report } := by
  unfold State.stopArray
  dsimp only
  rw [State.raise_frame]; rfl

/-- At a RUNNING port whose timer runs, the expiry ends the processing and stops the port; elsewhere there is none (R14). -/
theorem State.stopExpiry_cases (s : State) :
    (s.array.run = .running → s.array.stopTimer = true → s.stopExpiry = s.endProcessing.stopArray) ∧
      (s.array.run = .stopped ∨ s.array.stopTimer = false → s.stopExpiry = s) := by
  refine ⟨fun h1 h2 => ?_, fun h => ?_⟩
  · unfold State.stopExpiry; rw [h1, h2]
  · unfold State.stopExpiry
    split
    · rename_i h1 h2
      rcases h with h | h
      · rw [h1] at h; cases h
      · rw [h2] at h; cases h
    · rfl

/-- After the stop timer's expiry no processing is in progress, or the timer was not running. -/
theorem State.StopsIdle.stopExpiry {s : State} (h : s.StopsIdle) : s.stopExpiry.StopsIdle := by
  unfold State.stopExpiry
  split
  · intro _; rw [State.stopArray_eq]; rfl
  · exact h

theorem State.handOff_run (s : State) (f : FrameEnd) : (s.handOff f).array.run = s.array.run := by
  unfold State.handOff
  split
  · cases f with
    | wellFormed slots => exact (Kept.blockStart s).run
    | faulted => exact ((Kept.blockStart s).trans (Kept.expireHolds _)).run
  · rfl

/-- An array frame leaves the port RUNNING (R15). -/
theorem State.arrayArrival_run (s : State) (f : FrameEnd) : (s.arrayArrival f).array.run = .running := by
  unfold State.arrayArrival
  rw [State.handOff_run, State.readFeed_eq]
  cases f <;> rfl

/-- A feed frame leaves the array port and the processing alone. -/
theorem State.StopsIdle.feedBit {s : State} (h : s.StopsIdle) (b : LineBit) : (s.feedBit b).StopsIdle := by
  rw [State.feedBit_frame]; exact h

/-- A bit at the array port brings no processing to a STOPPED port. -/
theorem State.StopsIdle.arrayBit {s : State} (h : s.StopsIdle) (b : LineBit) : (s.arrayBit b).StopsIdle := by
  unfold State.arrayBit
  dsimp only
  split
  · exact State.StopsIdle.of_running (s.arrayArrival_run _)
  · split
    · have hs : s.expireHolds.StopsIdle := h.stage (Kept.expireHolds s) (State.expireHolds_of_none s)
      exact hs
    · exact h

theorem State.StopsIdle.receive {s : State} (h : s.StopsIdle) (a : AudioPort) (bits : List LineBit) : (s.receive a bits).StopsIdle :=
  State.receive_keeps (P := State.StopsIdle) (fun _ b h => h.feedBit b) (fun _ b h => h.arrayBit b) s a bits h

end Sys2Proof.Machine
end

