-- ==== Sys2Proof/Laws/Windows.lean ====
section
/-! SUPPORT. Window lists, the free pool, the entries of the level queues, and the laying out of a path's windows. -/

namespace Sys2Proof.Machine

/-! ## Window lists and the free pool -/

theorem insertGeom_perm (g : Geom) (l : List Geom) : (insertGeom g l).Perm (g :: l) := by
  induction l with
  | nil => exact List.Perm.refl _
  | cons h t ih =>
    unfold insertGeom
    split
    · exact List.Perm.refl _
    · exact (ih.cons h).trans (List.Perm.swap g h t)

/-- Sorting a window list keeps its windows (R59). -/
theorem sortGeoms_perm (l : List Geom) : (sortGeoms l).Perm l := by
  induction l with
  | nil => exact List.Perm.refl _
  | cons g l ih => exact (insertGeom_perm g _).trans (ih.cons g)

theorem insertGeom_sorted (g : Geom) {l : List Geom} (h : l.Pairwise fun a b => a.start ≤ b.start) :
    (insertGeom g l).Pairwise fun a b => a.start ≤ b.start := by
  induction l with
  | nil => exact List.pairwise_singleton _ _
  | cons x t ih =>
    rw [List.pairwise_cons] at h
    unfold insertGeom
    split
    · rename_i hg
      refine List.pairwise_cons.mpr ⟨fun y hy => ?_, List.pairwise_cons.mpr h⟩
      rcases List.mem_cons.mp hy with rfl | hy
      · exact hg
      · exact Nat.le_trans hg (h.1 y hy)
    · rename_i hg
      refine List.pairwise_cons.mpr ⟨fun y hy => ?_, ih h.2⟩
      rcases List.mem_cons.mp ((insertGeom_perm g t).mem_iff.mp hy) with rfl | hy
      · omega
      · exact h.1 y hy

/-- A sorted window list ascends by start (R59). -/
theorem sortGeoms_sorted (l : List Geom) : (sortGeoms l).Pairwise fun a b => a.start ≤ b.start := by
  induction l with
  | nil => exact List.Pairwise.nil
  | cons g l ih => exact insertGeom_sorted g ih

/-- Two windows share no delay (R59). -/
def Geom.apart (g h : Geom) : Prop := g.start + g.len ≤ h.start ∨ h.start + h.len ≤ g.start

/-- In an ascending list, neighbours that share no delay make all share none (R59). -/
theorem disjointChain_iff {l : List Geom} (hp : ∀ g ∈ l, 0 < g.len) (hs : l.Pairwise fun a b => a.start ≤ b.start) :
    disjointChain l = true ↔ l.Pairwise Geom.apart := by
  induction l with
  | nil => simp [disjointChain]
  | cons g l ih =>
    cases l with
    | nil => simp [disjointChain]
    | cons h t =>
      have hs' := List.pairwise_cons.mp hs
      have ih' := ih (fun x hx => hp x (List.mem_cons_of_mem _ hx)) hs'.2
      simp only [disjointChain, Bool.and_eq_true, decide_eq_true_eq, ih']
      rw [List.pairwise_cons (l := h :: t)]
      refine and_congr_left fun _ => ⟨fun hg x hx => Or.inl ?_, fun ha => ?_⟩
      · rcases List.mem_cons.mp hx with rfl | hx
        · exact hg
        · exact Nat.le_trans hg ((List.pairwise_cons.mp hs'.2).1 x hx)
      · have h1 := ha h List.mem_cons_self
        have h2 := hs'.1 h List.mem_cons_self
        have h3 := hp h (List.mem_cons_of_mem _ List.mem_cons_self)
        unfold Geom.apart at h1
        omega

theorem Geom.apart_comm {g h : Geom} (x : g.apart h) : h.apart g := x.symm

/-- Which window lists are valid (R59). -/
theorem validGeoms_iff (l : List Geom) : validGeoms l = true ↔ 1 ≤ l.length ∧ l.length ≤ 4 ∧
    (∀ g ∈ l, g.start % 64 = 0 ∧ g.len % 64 = 0 ∧ 64 ≤ g.len ∧ g.start + g.len ≤ 8192) ∧ l.Pairwise Geom.apart := by
  have hok : l.all Geom.ok = true ↔
      ∀ g ∈ l, g.start % 64 = 0 ∧ g.len % 64 = 0 ∧ 64 ≤ g.len ∧ g.start + g.len ≤ 8192 := by
    simp only [List.all_eq_true, Geom.ok, Bool.and_eq_true, beq_iff_eq, decide_eq_true_eq, and_assoc]
    exact Iff.rfl
  simp only [validGeoms, Bool.and_eq_true, decide_eq_true_eq, hok, and_assoc]
  refine and_congr_right fun _ => and_congr_right fun _ => and_congr_right fun h => ?_
  rw [disjointChain_iff (fun g hg => by have := h g ((sortGeoms_perm l).mem_iff.mp hg); omega) (sortGeoms_sorted l)]
  exact (sortGeoms_perm l).pairwise_iff Geom.apart_comm

/-- The delay blocks of a layout are those that its windows cover (R59). -/
theorem mem_layoutBlocks (l : List Geom) (k : Nat) :
    k ∈ layoutBlocks l ↔ ∃ g ∈ l, g.start / 64 ≤ k ∧ k < g.start / 64 + g.len / 64 := by
  simp only [layoutBlocks, List.mem_flatMap, Geom.blocks, List.mem_map, List.mem_range]
  refine exists_congr fun g => and_congr_right fun _ => ⟨?_, fun h => ⟨k - g.start / 64, by omega, by omega⟩⟩
  rintro ⟨i, hi, rfl⟩
  omega

/-- The free pool ascends (R43). -/
theorem freePool_sorted (segs : List SegState) : (freePool segs).Pairwise (· < ·) := by
  unfold freePool
  have h : (segs.zipIdx).Pairwise (fun a b => a.2 < b.2) := by
    rw [List.pairwise_iff_getElem]
    intro i j hi hj hij
    simp only [List.getElem_zipIdx]; omega
  refine List.Pairwise.filterMap _ ?_ h
  intro a b hab x hx y hy
  split at hx <;> split at hy <;> simp_all

/-- The free pool is the numbers of the FREE segments, ascending (R41, R43). -/
theorem mem_freePool (segs : List SegState) (i : Nat) : i ∈ freePool segs ↔ segs[i]? = some .free := by
  unfold freePool
  rw [List.mem_filterMap]
  constructor
  · rintro ⟨⟨a, j⟩, h1, h2⟩
    rw [List.mk_mem_zipIdx_iff_getElem?] at h1
    split at h2
    · rename_i ha; cases h2; rw [h1]; exact congrArg some ha
    · cases h2
  · intro h
    exact ⟨(.free, i), by rw [List.mk_mem_zipIdx_iff_getElem?]; exact h, by simp⟩

/-! ## Entries of the level queues -/

/-- The open paths are the records that are OPEN (R56). -/
theorem mem_openPaths {paths : List PathRec} {n : Nat} {q : OpenPath} :
    (n, q) ∈ openPaths paths ↔ pathAt paths n = .opened q := by
  unfold openPaths
  rw [List.mem_filterMap]
  constructor
  · rintro ⟨⟨a, j⟩, h1, h2⟩
    rw [List.mk_mem_zipIdx_iff_getElem?] at h1
    cases a <;> simp at h2
    obtain ⟨rfl, rfl⟩ := h2
    simp [pathAt, List.getD_eq_getElem?_getD, h1]
  · intro h
    refine ⟨(.opened q, n), ?_, rfl⟩
    rw [List.mk_mem_zipIdx_iff_getElem?]
    simp only [pathAt, List.getD_eq_getElem?_getD] at h
    cases hp : paths[n]? with
    | none => simp [hp] at h
    | some r => simp [hp] at h; rw [h]

/-- An entry names a window of an open path (R107). -/
theorem windowAt_eq {paths : List PathRec} {e : QEntry} {q : OpenPath} {w : Window} :
    windowAt paths e = some (q, w) ↔ pathAt paths e.path = .opened q ∧ q.windows[e.index]? = some w := by
  unfold windowAt
  constructor
  · intro h
    cases hp : pathAt paths e.path with
    | opened p =>
      rw [hp] at h
      obtain ⟨v, h1, h2⟩ := Option.map_eq_some_iff.mp h
      cases h2
      exact ⟨rfl, h1⟩
    | free => rw [hp] at h; cases h
    | pendingOpen mic feed => rw [hp] at h; cases h
  · rintro ⟨h1, h2⟩
    simp [h1, h2]

/-- Every window of every open path has its entry (R107). -/
theorem mem_allEntries {paths : List PathRec} {e : QEntry} : e ∈ allEntries paths ↔ ∃ q w, windowAt paths e = some (q, w) := by
  unfold allEntries
  simp only [List.mem_flatMap, List.mem_map, List.mem_range]
  constructor
  · rintro ⟨⟨n, q⟩, h1, i, hi, rfl⟩
    refine ⟨q, q.windows[i], windowAt_eq.mpr ⟨mem_openPaths.mp h1, ?_⟩⟩
    simp [hi]
  · rintro ⟨q, w, h⟩
    obtain ⟨h1, h2⟩ := windowAt_eq.mp h
    refine ⟨(e.path, q), mem_openPaths.mpr h1, e.index, ?_, rfl⟩
    exact (List.getElem?_eq_some_iff.mp h2).1

/-- The open paths ascend by number. -/
theorem openPaths_sorted (paths : List PathRec) : (openPaths paths).Pairwise fun a b => a.1 < b.1 := by
  unfold openPaths
  have h : (paths.zipIdx).Pairwise (fun a b => a.2 < b.2) := by
    rw [List.pairwise_iff_getElem]
    intro i j hi hj hij
    simp only [List.getElem_zipIdx]; omega
  refine List.Pairwise.filterMap _ ?_ h
  intro a b hab x hx y hy
  cases ha : a.1 <;> simp [ha] at hx
  cases hb : b.1 <;> simp [hb] at hy
  subst hx hy
  exact hab

/-- The entries ascend by path number and then by window index (R107). -/
theorem allEntries_sorted (paths : List PathRec) :
    (allEntries paths).Pairwise fun d e => d.path < e.path ∨ (d.path = e.path ∧ d.index < e.index) := by
  unfold allEntries
  rw [List.pairwise_flatMap]
  refine ⟨?_, ?_⟩
  · intro c _
    rw [List.pairwise_map]
    exact List.pairwise_lt_range.imp fun h => Or.inr ⟨rfl, h⟩
  · refine (openPaths_sorted paths).imp ?_
    intro a b hab x hx y hy
    simp only [List.mem_map] at hx hy
    obtain ⟨_, _, rfl⟩ := hx
    obtain ⟨_, _, rfl⟩ := hy
    exact Or.inl hab

/-- The level of an entry is that of its path (R108). -/
theorem entryLevel_iff {paths : List PathRec} {mics : List Mic} {e : QEntry} {level : Nat} :
    (entryLevel paths mics e == some level) = true ↔ ∃ q w, windowAt paths e = some (q, w) ∧ pathLevel mics q = level := by
  simp only [entryLevel, beq_iff_eq, Option.map_eq_some_iff, Prod.exists]


/-- An entry is carried over to the same window of the new table, and is lost only when there is none (R69, R107). -/
theorem carriedEntry_spec (old new : List PathRec) (e : QEntry) :
    (∀ e', carriedEntry old new e = some e' → e'.path = e.path ∧ ∃ p w q v, windowAt old e = some (p, w) ∧
      windowAt new e' = some (q, v) ∧ v.start = w.start ∧ v.len = w.len) ∧
    (∀ p w q v i, windowAt old e = some (p, w) → windowAt new { path := e.path, index := i } = some (q, v) → v.start = w.start →
      v.len = w.len → carriedEntry old new e ≠ none) := by
  refine ⟨?_, ?_⟩
  · intro e' h
    unfold carriedEntry at h
    split at h
    · rename_i p w q h1 h2
      obtain ⟨i, hi, rfl⟩ := Option.map_eq_some_iff.mp h
      obtain ⟨hlt, hs, _⟩ := List.findIdx?_eq_some_iff_getElem.mp hi
      refine ⟨rfl, p, w, q, q.windows[i], h1, windowAt_eq.mpr ⟨h2, by simp [hlt]⟩, ?_⟩
      simp only [sameWindow, Bool.and_eq_true, beq_iff_eq] at hs
      exact ⟨hs.1.symm, hs.2.symm⟩
    · cases h
  · intro p w q v i h1 h2 h3 h4
    obtain ⟨h5, h6⟩ := windowAt_eq.mp h2
    unfold carriedEntry
    rw [h1, h5]
    intro hn
    have := List.findIdx?_eq_none_iff.mp (Option.map_eq_none_iff.mp hn) v (List.mem_of_getElem? h6)
    rw [sameWindow, h3, h4] at this
    simp at this


/-! ## Laying out windows -/

/-- Where every block finds its segment, a window's blocks and segments pair off. -/
theorem zip_filterMap {f : Nat → Option Nat} {l : List Nat} (h : ∀ k ∈ l, (f k).isSome = true) :
    (l.zip (l.filterMap f)).map Prod.fst = l ∧ ∀ b ∈ l.zip (l.filterMap f), f b.1 = some b.2 := by
  induction l with
  | nil => simp
  | cons k l ih =>
    obtain ⟨v, hv⟩ := Option.isSome_iff_exists.mp (h k List.mem_cons_self)
    obtain ⟨h1, h2⟩ := ih fun j hj => h j (List.mem_cons_of_mem _ hj)
    rw [List.filterMap_cons_some hv]
    refine ⟨by simp [h1], ?_⟩
    intro b hb
    rcases List.mem_cons.mp hb with rfl | hb
    · exact hv
    · exact h2 b hb

/-- The segments of a list take a state, and no others. -/
theorem setSegs_get (v : SegState) (l : List Nat) (segs : List SegState) (i : Nat) (h : i < segs.length) :
    (setSegs v l segs)[i]? = if i ∈ l then some v else segs[i]? := by
  unfold setSegs
  induction l generalizing segs with
  | nil => simp
  | cons j l ih =>
    rw [List.foldl_cons, ih (segs.set j v) (by simpa using h), List.getElem?_set]
    by_cases hj : j = i
    · subst hj; simp [h]
    · simp [hj, Ne.symm hj]

/-- What laying out a path's windows does to the path, the tap store and the segments (R45, R68, R69). -/
theorem Model.layOut_spec (m : Model) (n : Nat) (q : OpenPath) (layout : List Geom) (reserved : List Nat) (hn : n < m.paths.length) :
    let blocks := layoutBlocks layout
    let dropped := (q.backing.filter fun c => !blocks.contains c.1).map Prod.snd
    let fresh := blocks.filter fun k => !(q.backing.map Prod.fst).contains k
    fresh.length ≤ reserved.length →
    let t := m.layOut n q q.windows layout reserved
    ∃ ws, pathAt t.paths n = .opened { q with windows := ws } ∧
      (ws.map fun w => ({ start := w.start, len := w.len } : Geom)) = layout ∧
      (({ q with windows := ws } : OpenPath).backing.map Prod.fst = blocks) ∧
      (∀ b : Nat × Nat, b ∈ ({ q with windows := ws } : OpenPath).backing → b ∈ q.backing ∨
        (b.1 ∉ q.backing.map Prod.fst ∧ ∃ i : Nat, fresh[i]? = some b.1 ∧ reserved[i]? = some b.2)) ∧
      (∀ w ∈ ws, (∃ a ∈ q.windows, a.start = w.start ∧ a.len = w.len ∧ w.age = a.age) ∨
        ((∀ a ∈ q.windows, a.start = w.start → a.len ≠ w.len) ∧ w.age = 0)) ∧
      (∀ a, Memory.read t.coefs a = if a / 64 ∈ dropped then 0#24 else Memory.read m.coefs a) ∧
      (∀ i < m.segs.length, t.segs[i]? =
        if i ∈ reserved.drop fresh.length then some .free
        else if i ∈ reserved.take fresh.length then some .inUse
        else if i ∈ dropped then some .free else m.segs[i]?) ∧
      (∀ k, k ≠ n → pathAt t.paths k = pathAt m.paths k) ∧
      t = { m with coefs := t.coefs, segs := t.segs, paths := t.paths } := by
  intro blocks dropped fresh hlen t
  let kept := q.backing.filter fun c => blocks.contains c.1
  have hfresh : (blocks.filter fun k => !(kept.any fun c => c.1 == k)) = fresh := by
    apply List.filter_congr
    intro k hk
    congr 1
    rw [Bool.eq_iff_iff]
    simp only [kept, List.any_eq_true, List.mem_filter, List.contains_iff_mem, beq_iff_eq, List.mem_map]
    constructor
    · rintro ⟨c, ⟨h1, _⟩, h3⟩; exact ⟨c, h1, h3⟩
    · rintro ⟨c, h1, h3⟩; exact ⟨c, ⟨h1, h3 ▸ hk⟩, h3⟩
  let placed := fresh.zip reserved
  have ht : t = { m.release dropped with
      segs := setSegs .free (reserved.drop fresh.length) (setSegs .inUse (placed.map Prod.snd) (m.release dropped).segs)
      paths := m.paths.set n (.opened { q with windows := rebuildWindows q.windows (kept ++ placed) layout }) } := by
    simp only [placed, ← hfresh]
    rfl
  have hplaced : placed.map Prod.snd = reserved.take fresh.length := by
    apply List.ext_getElem
    · simp [placed]
    · intro i h1 h2; simp [placed]
  have hfind : ∀ k ∈ blocks, (((kept ++ placed).find? fun c => c.1 == k).map Prod.snd).isSome = true := by
    intro k hk
    rw [Option.isSome_map, List.find?_isSome]
    by_cases h : k ∈ fresh
    · obtain ⟨i, hi, rfl⟩ := List.getElem_of_mem h
      have : i < reserved.length := by omega
      have hm : (fresh[i], reserved[i]) ∈ placed := List.mem_iff_getElem.mpr ⟨i, by simp [placed]; omega, by simp [placed]⟩
      exact ⟨_, List.mem_append_right _ hm, by simp⟩
    · rw [List.mem_filter] at h
      simp [hk] at h
      obtain ⟨v, hv⟩ := h
      exact ⟨(k, v), List.mem_append_left _ (List.mem_filter.mpr ⟨hv, by simpa using hk⟩), by simp⟩
  have hback : ∀ (b : Nat × Nat), ((kept ++ placed).find? fun c => c.1 == b.1).map Prod.snd = some b.2 → b ∈ q.backing ∨
        (b.1 ∉ q.backing.map Prod.fst ∧ ∃ i : Nat, fresh[i]? = some b.1 ∧ reserved[i]? = some b.2) := by
    intro b hb
    obtain ⟨c, hc, hcb⟩ := Option.map_eq_some_iff.mp hb
    have h1 := List.find?_some hc
    have h2 := List.mem_of_find?_eq_some hc
    have : c = b := by
      obtain ⟨c1, c2⟩ := c; obtain ⟨b1, b2⟩ := b
      simp at h1 hcb; rw [h1, hcb]
    subst this
    rcases List.mem_append.mp h2 with h3 | h3
    · exact Or.inl (List.mem_filter.mp h3).1
    · right
      obtain ⟨i, hi, hic⟩ := List.getElem_of_mem h3
      have hi' : i < fresh.length ∧ i < reserved.length := by simp only [placed, List.length_zip] at hi; omega
      have he : (fresh[i], reserved[i]) = c := by rw [← hic]; simp [placed]
      refine ⟨?_, i, by rw [← he]; simp [hi'.1], by rw [← he]; simp [hi'.2]⟩
      have : c.1 ∈ fresh := by rw [← he]; exact List.getElem_mem _
      have := (List.mem_filter.mp this).2
      simpa using this
  have hws : ∀ g ∈ layout, (∀ k ∈ g.blocks, k ∈ blocks) := by
    intro g hg k hk
    exact List.mem_flatMap.mpr ⟨g, hg, hk⟩
  refine ⟨rebuildWindows q.windows (kept ++ placed) layout, ?_, ?_, ?_, ?_, ?_, ?_, ?_, ?_, ?_⟩
  · rw [ht]; simp [pathAt, List.getD_eq_getElem?_getD, hn]
  · rw [rebuildWindows, List.map_map]; exact List.map_id _
  · simp only [OpenPath.backing, rebuildWindows, List.flatMap_map, List.map_flatMap]
    rw [show blocks = layout.flatMap Geom.blocks from rfl]
    have : ∀ l : List Geom, (∀ g ∈ l, g ∈ layout) → (l.flatMap fun g => List.map Prod.fst
        (g.blocks.zip (segsFor (kept ++ placed) g))) = l.flatMap Geom.blocks := by
      intro l hl
      induction l with
      | nil => rfl
      | cons g l ih =>
        rw [List.flatMap_cons, List.flatMap_cons, ih fun x hx => hl x (List.mem_cons_of_mem _ hx)]
        congr 1
        exact (zip_filterMap fun k hk => hfind k (hws g (hl g List.mem_cons_self) k hk)).1
    exact this layout fun _ h => h
  · intro b hb
    simp only [OpenPath.backing, rebuildWindows, List.flatMap_map, List.mem_flatMap] at hb
    obtain ⟨g, hg, hb⟩ := hb
    exact hback b ((zip_filterMap (l := g.blocks) (fun k hk => hfind k (hws g hg k hk))).2 b hb)
  · intro w hw
    simp only [rebuildWindows, List.mem_map] at hw
    obtain ⟨g, _, rfl⟩ := hw
    cases hf : q.windows.find? fun w => w.geom == g with
    | some a =>
      left
      have := List.find?_some hf
      simp at this
      subst this
      exact ⟨a, List.mem_of_find?_eq_some hf, rfl, rfl, rfl⟩
    | none =>
      right
      refine ⟨?_, by simp⟩
      intro a ha hs hl
      have := List.find?_eq_none.mp hf a ha
      simp at this
      exact this (by obtain ⟨gs, gl⟩ := g; simp [Window.geom]; exact ⟨hs, hl⟩)
  · intro a
    rw [ht]
    exact Memory.read_zeroSegments _ _ _
  · intro i hi
    rw [ht]
    have h1 : i < (m.release dropped).segs.length := by simpa [Model.release] using hi
    simp only
    rw [setSegs_get _ _ _ _ (by simpa using h1), setSegs_get _ _ _ _ h1, hplaced]
    simp only [Model.release]
    rw [setSegs_get _ _ _ _ hi]
  · intro k hk
    rw [ht]
    simp [pathAt, List.getD_eq_getElem?_getD, Ne.symm hk]
  · rw [ht]; rfl

/-! ## The addresses of a window's taps (R40) -/

/-- The taps of a window: coefficient j of the segment that backs its delay block i stands at delay 64 i + j of the window. -/
theorem Window.mem_taps (w : Window) (k a : Nat) :
    (k, a) ∈ w.taps ↔ ∃ i seg j, w.segs[i]? = some seg ∧ j < 64 ∧ k = w.start + 64 * i + j ∧ a = seg * 64 + j := by
  unfold Window.taps
  rw [List.mem_flatMap]
  constructor
  · rintro ⟨⟨seg, i⟩, hm, h⟩
    rw [List.mem_map] at h
    obtain ⟨j, hj, e⟩ := h
    have := List.mem_zipIdx_iff_getElem?.mp hm
    refine ⟨i, seg, j, this, List.mem_range.mp hj, ?_, ?_⟩
    · exact (congrArg Prod.fst e).symm
    · exact (congrArg Prod.snd e).symm
  · rintro ⟨i, seg, j, h, hj, rfl, rfl⟩
    refine ⟨(seg, i), List.mem_zipIdx_iff_getElem?.mpr h, List.mem_map.mpr ⟨j, List.mem_range.mpr hj, rfl⟩⟩

/-- A delay of a window whose segments back it has the address that the list of taps gives. -/
theorem Window.tapAddr_iff (w : Window) (hs : w.start % 64 = 0) (hl : w.len = 64 * w.segs.length) (k a : Nat) :
    w.tapAddr k = some a ↔ ∃ i seg j, w.segs[i]? = some seg ∧ j < 64 ∧ k = w.start + 64 * i + j ∧ a = seg * 64 + j := by
  unfold Window.tapAddr
  constructor
  · split
    · rename_i hk
      intro h
      rw [Option.map_eq_some_iff] at h
      obtain ⟨seg, h1, h2⟩ := h
      exact ⟨(k - w.start) / 64, seg, k % 64, h1, by omega, by omega, h2.symm⟩
    · intro h; cases h
  · rintro ⟨i, seg, j, h, hj, rfl, rfl⟩
    have hi : i < w.segs.length := (List.getElem?_eq_some_iff.mp h).1
    rw [if_pos ⟨by omega, by omega⟩]
    have e1 : (w.start + 64 * i + j - w.start) / 64 = i := by omega
    have e2 : (w.start + 64 * i + j) % 64 = j := by omega
    rw [e1, e2, h]; rfl

/-- The delays of a window's taps, each once, ascending. -/
theorem Window.taps_delays (w : Window) : w.taps.map Prod.fst = (List.range (64 * w.segs.length)).map (w.start + ·) := by
  have h (l : List Nat) (n : Nat) : ((l.zipIdx n).flatMap fun c =>
      ((List.range 64).map fun j => (w.start + 64 * c.2 + j, c.1 * Config.segmentTaps + j)).map Prod.fst) =
        (List.range' (64 * n) (64 * l.length)).map (w.start + ·) := by
    induction l generalizing n with
    | nil => rfl
    | cons a l ih =>
      rw [List.zipIdx_cons, List.flatMap_cons, ih (n + 1), List.length_cons, show 64 * (l.length + 1) = 64 + 64 * l.length by omega,
        ← List.range'_append_1, List.map_append, show 64 * (n + 1) = 64 * n + 64 by omega]
      congr 1
  unfold Window.taps
  rw [List.map_flatMap, h w.segs 0, List.range_eq_range']

/-- A delay block of a path with the segment that backs it (R41). -/
theorem OpenPath.mem_backing (q : OpenPath) (k seg : Nat) :
    (k, seg) ∈ q.backing ↔ ∃ w ∈ q.windows, ∃ i < w.len / 64, k = w.start / 64 + i ∧ w.segs[i]? = some seg := by
  unfold OpenPath.backing
  rw [List.mem_flatMap]
  constructor
  · rintro ⟨w, hw, hm⟩
    obtain ⟨i, hi⟩ := List.mem_iff_getElem?.mp hm
    rw [List.getElem?_zip_eq_some] at hi
    obtain ⟨h1, h2⟩ := hi
    unfold Geom.blocks at h1
    simp only [List.getElem?_map, Option.map_eq_some_iff] at h1
    obtain ⟨j, hj, e⟩ := h1
    have hj' := List.getElem?_eq_some_iff.mp hj
    obtain ⟨hlt, hj'⟩ := hj'
    rw [List.getElem_range] at hj'
    refine ⟨w, hw, i, ?_, ?_, h2⟩
    · rw [List.length_range] at hlt; exact hlt
    · rw [← e, ← hj']; rfl
  · rintro ⟨w, hw, i, hi, e, h⟩
    refine ⟨w, hw, List.mem_iff_getElem?.mpr ⟨i, ?_⟩⟩
    rw [List.getElem?_zip_eq_some]
    refine ⟨?_, h⟩
    unfold Geom.blocks
    rw [List.getElem?_map, List.getElem?_range (show i < w.geom.len / 64 from hi), e]
    rfl

/-! ## Pairs held and reservations -/

/-- The pairs of a microphone and a feed that are held (R60). -/
theorem pairHeld_iff (paths : List PathRec) (mic feed : Nat) : pairHeld paths mic feed = true ↔
    .pendingOpen mic feed ∈ paths ∨ ∃ q, .opened q ∈ paths ∧ q.mic = mic ∧ q.feed = feed := by
  unfold pairHeld
  rw [List.any_eq_true]
  constructor
  · rintro ⟨r, hr, h⟩
    cases r with
    | free => cases h
    | pendingOpen m f =>
      simp only [Bool.and_eq_true, beq_iff_eq] at h
      obtain ⟨rfl, rfl⟩ := h
      exact Or.inl hr
    | opened q => exact Or.inr ⟨q, hr, by simpa using h⟩
  · rintro (h | ⟨q, h, e⟩)
    · exact ⟨_, h, by simp⟩
    · exact ⟨_, h, by simpa using e⟩

theorem insertNat_perm (n : Nat) (l : List Nat) : (insertNat n l).Perm (n :: l) := by
  induction l with
  | nil => exact .refl _
  | cons a l ih =>
    unfold insertNat
    split
    · exact .refl _
    · exact (ih.cons a).trans (.swap n a l)

theorem insertNat_sorted (n : Nat) {l : List Nat} (h : l.Pairwise (· ≤ ·)) : (insertNat n l).Pairwise (· ≤ ·) := by
  induction l with
  | nil => simp [insertNat]
  | cons a l ih =>
    unfold insertNat
    split
    · rename_i hle
      refine List.pairwise_cons.2 ⟨fun x hx => ?_, h⟩
      rcases List.mem_cons.1 hx with rfl | hx
      · exact hle
      · exact Nat.le_trans hle (List.rel_of_pairwise_cons h hx)
    · rename_i hle
      refine List.pairwise_cons.2 ⟨fun x hx => ?_, ih h.of_cons⟩
      rcases List.mem_cons.1 ((insertNat_perm n l).mem_iff.1 hx) with rfl | hx
      · omega
      · exact List.rel_of_pairwise_cons h hx

/-- A reservation list put in order: the same segments, ascending (R43). -/
theorem sortNats_spec (l : List Nat) : (sortNats l).Perm l ∧ (sortNats l).Pairwise (· ≤ ·) := by
  induction l with
  | nil => exact ⟨.refl _, List.Pairwise.nil⟩
  | cons a l ih => exact ⟨(insertNat_perm a _).trans (ih.1.cons a), insertNat_sorted a ih.2⟩

end Sys2Proof.Machine
end

