-- ==== Sys2Proof/Tests/Slice0.lean ====
section
/-! SUPPORT. The model's own tests: ill-formed commands, the spec's worked examples, and for every statement a state that meets its
hypotheses. -/

namespace Sys2Proof.Machine.Tests

-- One test after the other: many kernel evaluations at once ask for too many threads.
set_option Elab.async false

/-! ## Small states -/

/-- One open path, path 1, from feed 0 to microphone 1, with one window of 64 taps on segment 2. -/
def onePath : OpenPath :=
  { mic := 1, feed := 0, windows := [{ start := 0, len := 64, segs := [2], age := 3 }], base := 2, fast := 64, slow := 8,
    frozen := false }

def tinyModel : Model :=
  { Model.reset with
    coefs := [(128, 0x400001#24), (129, 0xE00000#24)]
    segs := [.free, .free, .inUse, .free]
    paths := [.free, .opened onePath, .pendingOpen 0 0]
    mics := [Mic.reset, { Mic.reset with conv := .acquire }]
    gains := [32767, 32767]
    feeds := [{ Feed.reset with active := true }] }

/-- A part with four segments, three path records, two microphones, one feed and short histories. -/
def tiny : State :=
  { State.reset with
    hist := [[0#16, 0#16, 0#16, 0#16]]
    model := tinyModel
    seen := tinyModel
    pool := { segs := [.free, .free, .inUse, .free], paths := [.free, .opened, .pendingOpen] }
    queues := [[], [], [], [{ path := 1, index := 0 }]] }

/-- A state whose port has received the first byte of a request, under a grant. -/
def rx (s : State) (p : Port) (g : Grant) (k : Kind) : State :=
  s.setCtl p { trans := .receiving [k.code], slot := Response.none, grant := g }

/-- The state after a command (the state itself where it does not answer next). -/
def after (c : Instr) (s : State) : State :=
  match exec c s with
  | .next t => t
  | .fault _ => s
  | .refused _ => s

/-- A state that processes a block and stands at a phase. -/
def inPhase (s : State) (ph : Phase) : State :=
  s.setProc (some { s.handedBlock with phase := ph, excited := [1] })

/-- A state with so many frames in the feed store. -/
def withStore (s : State) (n : Nat) (st : FeedState) : State :=
  s.setFeedPort { s.feedPort with store := List.replicate n (List.replicate 8 0#16), state := st }

/-- A state with so many rows in the partial block, one bit before the end of an array frame of zeros. -/
def withRows (s : State) (n : Nat) : State :=
  s.setArray { s.array with rows := List.replicate n zeroRow, framing := .inFrame 767 0 }

/-- A bit with the frame sync pin low, which ends a frame well formed at its last bit, and one with the pin high, a sync after it. -/
def low : LineBit := { sync := false, data := false }
def high : LineBit := { sync := true, data := false }

/-- The bits of a row of slots, with the frame sync pin high at the first so many of them. -/
def lineBits (held : Nat) (slots : List Slot) : List LineBit :=
  (List.range (32 * slots.length)).map fun k =>
    { sync := decide (k < held), data := (slots.getD (k / 32) 0#32).getLsbD (31 - k % 32) }

/-- The framing after bits at a receiver whose pin was low, and the ends of frames they make. -/
def framed (len : Nat) (g : Framing) (bits : List LineBit) : Framing × List FrameEnd :=
  let r := bits.foldl (fun (r : Framing × Bool × List FrameEnd) b =>
    let x := r.1.onBit len r.2.1 b
    (x.1, b.sync, r.2.2 ++ x.2.toList)) (g, false, [])
  (r.1, r.2.2)

/-- A request received whole passes the checks of R156. -/
theorem rx_takes (s : State) (p : Port) (g : Grant) (k : Kind) (body : List Byte) (h1 : body.length ≤ 250)
    (h2 : k.grant.code ≤ g.code) (h3 : k.layoutOk body = true) : (rx s p g k).Takes p k body := by
  refine ⟨⟨[k.code], ?_, ?_⟩, h1, ?_, h3⟩
  · cases p <;> rfl
  · simp [message, List.isPrefixOf]
  · cases p <;> exact h2

/-! ## Ill-formed commands (WellFormed) -/

theorem test_wf_rows_without_bits :
    (Instr.feedFrameArrival []).wf = false ∧ (Instr.arrayFrameArrival []).wf = false ∧ (Instr.frameSync ⟨.feed, []⟩).wf = false := by
  decide
theorem test_wf_mic_24 : (Instr.runThreshold 24).wf = false ∧ (Instr.micDiverged 24).wf = false := by decide
theorem test_wf_feed_8 : (Instr.checkCountdownExpiry 8).wf = false := by decide
theorem test_wf_message_without_bytes : (Instr.unknownKind .p0 []).wf = false := by decide
theorem test_wf_long_body : ∀ k ∈ Kind.all, (k.command .p0 (List.replicate 251 0#8)).wf = false := by
  decide +kernel
theorem test_wf_read_with_bytes : (Instr.transactionBegin (.twoWire 0x2C#7 true) [1#8]).wf = false := by decide
theorem test_wf_good : ∀ k ∈ Kind.all, (k.command .p1 (List.replicate 250 0#8)).wf = true := by
  decide +kernel

/-! ## The spec's numbers -/

theorem test_rounding_of_conventions : roundDiv 5 2 = 3 ∧ roundDiv (-5) 2 = -3 ∧ roundDiv 249 100 = 2 := by decide
theorem test_slot_table_of_R3 :
    sampleOfSlot 0x7FFFFFFF#32 = 32767#16 ∧ sampleOfSlot 0x80000000#32 = 0x8000#16 ∧ sampleOfSlot 0xFFFF8000#32 = 0xFFFF#16 ∧
      sampleOfSlot 0x000000FF#32 = 0#16 := by decide
theorem test_output_slot_of_R4 : slotOfSample (BitVec.ofInt 16 (-301)) = 0xFED30000#32 := by decide
theorem test_estimate_of_chapter_5 :
    errorOf 1200#16 5033165800 = 600#16 ∧ errorOf (BitVec.ofInt 16 (-650)) (-5033161000) = BitVec.ofInt 16 (-50) := by decide
theorem test_residual_of_chapter_5 :
    residualOut (BitVec.ofInt 16 (-50)) 8192 = BitVec.ofInt 16 (-13) ∧
      (residualRun 4096 32767 (List.replicate 64 0#16)).1 = 16383 ∧ (residualRun 4096 16383 (List.replicate 48 0#16)).1 = 4096 ∧
      (residualRun 4096 16383 (List.replicate 47 0#16)).1 = 4351 := by decide +kernel
theorem test_update_of_chapter_6 :
    normaliser 409600000 64 65536 = 25665536 ∧ increment 64 38400000 25665536 = 49026 ∧ increment 64 (-15360000) 25665536 = -19611 ∧
      increment 64 300 25665536 = 0 ∧ increment 64 (-10) 131072 = -3 ∧ updatedCoef 0x400001#24 49026 = 4243331#24 := by decide
theorem test_talk_of_chapter_8 : talkCondition 16 9000 10000 = false ∧ talkCondition 16 10001 10000 = true := by decide
theorem test_quality_boundaries :
    qualityOf 32 1 = .good ∧ qualityOf 31 1 = .fair ∧ qualityOf 4 1 = .fair ∧ qualityOf 3 1 = .poor ∧ qualityOf 0 0 = .good ∧
      diverging 1 4 = false ∧ diverging 1 5 = true := by decide
theorem test_tap_address_of_chapter_3 :
    Window.tapAddr { start := 1024, len := 64, segs := [8], age := 0 } 1050 = some (8 * 64 + 26) := by decide
theorem test_window_lists_of_chapter_4 :
    validGeoms [⟨1024, 64⟩, ⟨0, 512⟩] = true ∧ validGeoms [⟨0, 256⟩, ⟨256, 256⟩] = true ∧ validGeoms [⟨0, 256⟩, ⟨192, 128⟩] = false ∧
      validGeoms [⟨8064, 128⟩] = true ∧ validGeoms [⟨8128, 128⟩] = false ∧ validGeoms [⟨100, 64⟩] = false ∧
      validGeoms [⟨0, 0⟩] = false ∧ validGeoms [⟨0, 8192⟩] = true ∧
      validGeoms [⟨0, 64⟩, ⟨64, 64⟩, ⟨128, 64⟩, ⟨192, 64⟩, ⟨256, 64⟩] = false := by decide

/-- The reshape of chapter 4: old windows (0, 512) and (2,048, 256), new list (0, 512), (2,176, 384), (4,096, 128). -/
theorem test_reshape_of_chapter_4 :
    newBlocks [⟨0, 512⟩, ⟨2048, 256⟩] [⟨0, 512⟩, ⟨2176, 384⟩, ⟨4096, 128⟩] = 6 ∧
      let old : List Window :=
        [{ start := 0, len := 512, segs := [100, 101, 102, 103, 104, 105, 106, 107], age := 3 },
         { start := 2048, len := 256, segs := [300, 301, 302, 303], age := 1 }]
      let m : Model := { tinyModel with paths := [.opened { onePath with windows := old }], segs := [] }
      pathAt (m.layOut 0 { onePath with windows := old } old [⟨0, 512⟩, ⟨2176, 384⟩, ⟨4096, 128⟩]
        [400, 401, 402, 403, 404, 405]).paths 0 = .opened { onePath with
          windows := [{ start := 0, len := 512, segs := [100, 101, 102, 103, 104, 105, 106, 107], age := 3 },
            { start := 2176, len := 384, segs := [302, 303, 400, 401, 402, 403], age := 0 },
            { start := 4096, len := 128, segs := [404, 405], age := 0 }] } := by decide +kernel

/-- The scan of chapter 7, queue 2 of its worked example with 8,192 taps left, in both modes. -/
theorem test_scan_of_chapter_7 :
    let e (p i : Nat) : QEntry := { path := p, index := i }
    let len (q : QEntry) : Nat := if q.path = 33 then 8192 else if q.index = 0 then 512 else if q.index = 1 then 384 else 128
    let queue := [e 27 0, e 14 0, e 14 1, e 14 2, e 33 0]
    scanQueue (fun q => q.path != 27) len .fair 8192 queue = ([e 14 0, e 14 1, e 14 2], 7168, true) ∧
      scanQueue (fun q => q.path != 27) len .greedy 8192 queue = ([e 14 0, e 14 1, e 14 2], 7168, false) ∧
      requeue [e 14 0, e 14 1, e 14 2] queue = [e 27 0, e 33 0, e 14 0, e 14 1, e 14 2] := by decide

/-- The queue of chapter 11 (lengths 12, 202, 202 and 10): two records fit in the first response. -/
theorem test_drain_of_chapter_11 :
    let entry : MeterEntry := { mic := 0, conv := .idle, talk := .clear, lastClass := .none, peakD := 0, peakE := 0 }
    let r (e : Event) : Record := { block := 7#32, event := e }
    let q := [r (.micState 1 .acquire .converged .goodRun), r (.meter (List.replicate 24 entry)), r (.meter (List.replicate 24 entry)),
      r (.applied 1)]
    q.map (fun c => c.bytes.length) = [12, 202, 202, 10] ∧ (takeRecords 8 248 q).2 = q.drop 2 ∧
      takeRecords 8 248 (q.drop 2) = (q.drop 2, []) := by decide +kernel

theorem test_counter_wraps : Counter.bump { value := 65535#16, overflow := false } = { value := 0#16, overflow := true } := by decide

/-- R24 and the aligned-window search: the peak is the first of equal magnitudes, and the guard stops at 0. -/
theorem test_best_lag : bestLag [1, -5, 5] = 8 ∧ newDelay 8 = 0 ∧ newDelay 2040 = 1976 ∧ movesDelay 16 0 = false ∧
    movesDelay 17 0 = true := by decide

/-! ## Commands on the small state -/

/-- R2's example: a sync at bit 500 ends the frame as faulted after 499 bits, and the next 767 bits make the frame begun there. -/
theorem test_example_of_R2 :
    framed 768 .search (high :: List.replicate 498 low ++ high :: List.replicate 766 low) = (.inFrame 767 0, [.faulted]) ∧
      framed 768 .search (high :: List.replicate 498 low ++ high :: List.replicate 767 low) =
        (.search, [.faulted, .wellFormed (List.replicate 24 0#32)]) := by decide +kernel

/-- A sync at the bit that would have been the last ends the frame one bit short (R2). -/
theorem test_sync_at_last_bit :
    framed 256 (.inFrame 255 0) [high] = (.inFrame 1 0, [.faulted]) ∧
      framed 256 (.inFrame 255 0) [low] = (.search, [.wellFormed (List.replicate 8 0#32)]) ∧
      framed 768 (.inFrame 767 0) [high] = (.inFrame 1 0, [.faulted]) ∧
      framed 256 (.inFrame 254 0) [low] = (.inFrame 255 0, []) ∧ framed 256 .search [low, low] = (.search, []) := by decide +kernel

/-- A held pin makes one sync, at the first of its bits (R2). -/
theorem test_held_pin_is_one_sync :
    framed 256 .search [high, high, high] = (.inFrame 3 0, []) ∧ framed 256 .search [high, low, high] = (.inFrame 1 0, [.faulted]) ∧
      framed 256 .search (List.replicate 257 high) = (.search, [.wellFormed (List.replicate 8 0#32)]) := by decide +kernel

/-- The pin's level stays from one row to the next, on each port, and counts as low after a reset (R2, log 13). -/
theorem test_pin_between_rows :
    let f := after (.feedFrameArrival [high]) tiny
    let a := after (.frameSync ⟨.array, [high]⟩) tiny
    (after (.frameSync ⟨.feed, [high]⟩) f).feedPort.framing = .inFrame 2 0 ∧
      (after (.arrayFrameArrival [high]) a).array.framing = .inFrame 2 0 ∧
      (after (.frameSync ⟨.feed, [low, high]⟩) f).feedPort.framing = .inFrame 1 0 ∧
      (after (.resetPart .p0 []) (rx a .p0 .control .resetPart)).array.pin = false ∧
      (after (.frameSync ⟨.array, [high]⟩) (after (.resetPart .p0 []) (rx a .p0 .control .resetPart))).array.framing = .inFrame 1 0 := by
  decide +kernel

theorem test_frame_sync_drives_row :
    let t := after (.frameSync ⟨.array, [high]⟩) tiny
    t.array.adout = some (List.replicate 24 0#32) ∧ t.array.framing = .inFrame 1 0 := by decide +kernel

/-- A whole feed frame from SEARCH, with the pin held for some bits and for all of them. -/
theorem test_feed_frame_joins :
    let slots := [0x00010000#32, 0x80000000#32, 0x7FFFFFFF#32, 0xFFFF8000#32, 0#32, 0#32, 0#32, 0x000100FF#32]
    let row := [1#16, 0x8000#16, 0x7FFF#16, 0xFFFF#16, 0#16, 0#16, 0#16, 1#16]
    (after (.feedFrameArrival (lineBits 1 slots)) tiny).feedPort.store = [row] ∧
      (after (.frameSync ⟨.feed, lineBits 256 slots⟩) tiny).feedPort = { tiny.feedPort with store := [row], pin := true } := by
  decide +kernel

/-- R4: the row goes out most significant bit first, and ADOUT is low in SEARCH. -/
theorem test_adout_bits :
    let out : State := { tiny with array := { tiny.array with outBuf := [List.replicate 23 0#16 ++ [0x8001#16]] } }
    let started := after (.frameSync ⟨.array, [high]⟩) out
    let at_ (n : Nat) (b : LineBit) : Bool :=
      (started.setArray { started.array with framing := .inFrame n 0 }).adoutAt b
    started.adoutAt low = false ∧ at_ 736 high = true ∧ at_ 736 low = true ∧ at_ 737 low = false ∧ at_ 751 low = true ∧
      at_ 767 low = false ∧ tiny.adoutAt low = false ∧ tiny.adoutAt high = false := by decide +kernel

theorem test_array_frame_joins :
    (after (.arrayFrameArrival [low]) (withRows tiny 5)).array.rows = List.replicate 6 zeroRow := by decide +kernel
theorem test_block_start_hands_block :
    (after (.arrayFrameArrival [high]) (withRows tiny 63)).proc.map (fun p => (p.number, p.degraded, p.phase)) =
      some (0#32, true, .supervise) := by decide +kernel
theorem test_stop_timer : (after .stopTimerExpiry tiny).array.run = .stopped := by decide +kernel
theorem test_power_on_latches_straps :
    (after (.powerOnReset { grant0A := true, grant0B := true, grant1A := true, grant1B := false, addrHigh := true, cselLow := true })
      tiny).ctl = ⟨{ trans := .ignoring false, slot := Response.none, grant := .control }, Ctl.reset .tune⟩ := by decide +kernel

/-- The processing of a block, stage after stage, in the phases the stages leave. -/
theorem test_stages_follow :
    (after .supervisorStage (inPhase tiny .supervise)).proc.map Proc.phase = some .align ∧
      (after .alignmentStage (inPhase tiny .align)).proc.map Proc.phase = some .arbitrate ∧
      (after .arbiterStage (inPhase tiny .arbitrate)).proc.map Proc.phase = some .update ∧
      (after .updateStage (inPhase tiny .update)).proc = none := by decide +kernel

/-- A stage that is not due changes nothing (log 2). -/
theorem test_stage_not_due : after .updateStage (inPhase tiny .align) = inPhase tiny .align := by decide +kernel

theorem test_identify_response :
    (after (.identify .p1 []) (rx tiny .p1 .observe .identify)).ctl.p1.slot.bytes =
      [0x01#8, 0#8, 11#8, 0x08#8, 0x24#8, 1#8, 1#8, 0#8, 0#8, 0#8, 0#8, 0#8, 0#8, 0#8] := by decide +kernel
theorem test_read_path_response :
    (after (.readPath .p0 [1#8]) (rx tiny .p0 .observe .readPath)).ctl.p0.slot.body =
      [2#8, 1#8, 0#8, 2#8, 64#8, 8#8, 0#8, 3#8, 64#8, 0#8, 0#8, 0#8, 64#8, 0#8, 1#8, 0#8, 0#8, 64#8, 0#8, 3#8, 0#8] := by
  decide +kernel
theorem test_read_taps_response :
    (after (.readTaps .p0 [1#8, 0#8, 0#8, 0#8, 2#8]) (rx tiny .p0 .observe .readTaps)).ctl.p0.slot.body =
      [0#8, 0#8, 64#8, 0#8, 0#8, 0#8, 2#8, 1#8, 0#8, 0x40#8, 0#8, 0#8, 0xE0#8] := by decide +kernel
theorem test_read_lengths :
    (after (.readMic .p0 [1#8]) (rx tiny .p0 .observe .readMic)).ctl.p0.slot.body.length = 35 ∧
      (after (.readReference .p0 [0#8]) (rx tiny .p0 .observe .readReference)).ctl.p0.slot.body.length = 30 ∧
      (after (.readCounters .p0 []) (rx tiny .p0 .observe .readCounters)).ctl.p0.slot.body.length = 17 ∧
      (after (.readPool .p0 []) (rx tiny .p0 .observe .readPool)).ctl.p0.slot.body.length = 12 := by decide +kernel
theorem test_mute_response :
    (after (.mute .p0 [0x10#8, 0x02#8, 0#8]) (rx tiny .p0 .tune .mute)).ctl.p0.slot.body = [0x10#8, 0x02#8, 0#8] := by decide +kernel
theorem test_denied : (after (.mute .p0 [0#8, 0#8, 0#8]) (rx tiny .p0 .observe .mute)).ctl.p0.slot.status = .denied := by decide +kernel
theorem test_open_path_takes_lowest :
    let t := after (.openPath .p0 [3#8, 4#8, 9#8, 64#8, 0#8, 8#8, 0#8, 1#8, 0#8, 0#8, 128#8, 0#8]) (rx tiny .p0 .structural .openPath)
    t.ctl.p0.slot.status = .acceptedClamped ∧ t.ctl.p0.slot.body = [0#8] ∧ pathAt t.model.paths 0 = .pendingOpen 3 4 ∧
      t.model.segs = [.reserved .p0, .reserved .p0, .inUse, .free] ∧ t.stager.p0.list.length = 1 := by decide +kernel
theorem test_malformed_of_chapter_10 :
    (after (.unknownKind .p0 [0x10#8, 6#8, 1#8, 2#8, 3#8, 4#8, 5#8]) (rx tiny .p0 .tune .setMic)).ctl.p0.slot.bytes =
      [0x10#8, 0x11#8, 0#8] := by decide +kernel
theorem test_route_of_chapter_11 :
    let t := after (.route .p0 [1#8, 2#8, 8#8, 7#8]) (rx tiny .p0 .control .route)
    t.ctl.p0.slot.status = .acceptedClamped ∧ t.routes.getD 0 .both = .port1 ∧ t.routes.getD 7 .none = .both := by decide +kernel
theorem test_write_taps_then_apply :
    let s := rx tiny .p0 .structural .writeTaps
    let t := after (.writeTaps .p0 [1#8, 0#8, 63#8, 0#8, 5#8, 0#8, 0#8]) s
    t.ctl.p0.slot.status = .accepted ∧ Memory.read (t.model.applySets t.applying).coefs (2 * 64 + 63) = 5#24 := by decide +kernel
theorem test_transactions :
    (after (.transactionBegin (.fourWire (some 0xC3#8)) []) tiny).ctl.p0.trans = .sending Response.none ∧
      (after (.transactionBegin (.twoWire 0x2D#7 true) []) tiny).ctl.p1.trans = .idle ∧
      (after (.transactionEndNoRequest .p0) (rx tiny .p0 .tune .mute)).ctl.p0.trans ≠ .idle := by decide +kernel
theorem test_no_word_spells_a_command : decodeTableWord 8 1 = none ∧ State.withFetchWord tiny 8 1 = tiny := by decide +kernel

/-! ## States that meet the statements' hypotheses -/

/-- SizesKeptByEveryStep, TapStoreCanonicalInEveryStep, OneOwnerInEveryStep. -/
theorem test_hyp_invariants :
    State.reset.Shaped ∧ State.reset.Canonical ∧ State.reset.Claimed ∧ step State.reset = .next State.reset :=
  ⟨State.reset_shaped, ⟨Memory.wf_nil, Memory.wf_nil⟩, ⟨List.nodup_nil, fun _ h => by cases h⟩, rfl⟩

theorem test_hyp_SlotsCarrySamples :
    (List.replicate 8 0#32).length = 8 ∧ (withStore tiny 31 .lost).feedPort.store.length < 32 ∧
      (List.replicate 24 0#32).length = 24 := by decide +kernel

theorem test_hyp_FeedFrameArrives :
    let f : FeedPort := { tiny.feedPort with framing := .inFrame 255 0 }
    f.framing.onBit 256 f.pin high = (.inFrame 1 0, some .faulted) ∧
      f.framing.onBit 256 f.pin low = (.search, some (.wellFormed (List.replicate 8 0#32))) ∧
      (withStore tiny 31 .live).feedPort.store.length < 32 ∧ 32 ≤ (withStore tiny 32 .live).feedPort.store.length := by decide +kernel

/-- A part whose block start waits for a hold to expire, with the rows of the block before in the output buffer. -/
def waiting : State :=
  (inPhase { tiny with array := { tiny.array with outBuf := List.replicate 64 (List.replicate 24 1#16) } } .expiring).setStager .p1
    { Stager.reset with hold := true, age := 250 }

/-- A frame that starts, or a faulted 64th frame, does not leave a block start waiting: ADOUT carries the row of the block just taken (R16). -/
theorem test_row_of_the_block_just_taken :
    (waiting.proc.map Proc.phase) = some .expiring ∧ waiting.array.framing = .search ∧
      ((after (.frameSync ⟨.array, [high]⟩) waiting).proc.map Proc.phase) = some .supervise ∧
      (after (.frameSync ⟨.array, [high]⟩) waiting).array.adout = some (List.replicate 24 0#32) ∧
      ((after (.arrayFrameArrival [high]) ((withRows tiny 63).setStager .p0 { Stager.reset with hold := true, age := 249 })).proc.map
        Proc.phase) = some .supervise := by decide +kernel

theorem test_hyp_FrameSyncStartsFrame :
    (isSync false low = false ∧ isSync true high = false ∧ isSync false high = true) ∧
      tiny.feedPort.framing.onBit 256 tiny.feedPort.pin high = (.inFrame 1 0, none) ∧
      tiny.array.framing = .search ∧ tiny.array.framing.onBit 768 tiny.array.pin low = (.search, none) ∧
      tiny.array.framing.onBit 768 tiny.array.pin high = (.inFrame 1 0, none) ∧
      (Framing.inFrame 766 0).onBit 768 true high = (.inFrame 767 0, none) ∧
      (after (.arrayFrameArrival [low]) (withRows tiny 0)).array.framing = .search := by decide +kernel

theorem test_hyp_FeedReadYields :
    let marked := tiny.setFeedPort { tiny.feedPort with state := .live, repeatMark := true }
    (marked.feedPort.state = .live ∧ marked.feedPort.repeatMark = true) ∧
      ((withStore tiny 1 .live).feedPort.state = .live ∧ (withStore tiny 1 .live).feedPort.repeatMark = false ∧
        (withStore tiny 1 .live).feedPort.store = [List.replicate 8 0#16]) ∧
      ((withStore tiny 0 .live).feedPort.state = .live ∧ (withStore tiny 0 .live).feedPort.store = []) ∧
      ((withStore tiny 16 .lost).feedPort.store = List.replicate 8 0#16 :: List.replicate 15 (List.replicate 8 0#16) ∧
        16 ≤ (withStore tiny 16 .lost).feedPort.store.length) ∧
      (withStore tiny 15 .lost).feedPort.store.length < 16 := by decide +kernel

/-- Fill, feed state and FEED_DROP after an arrival and a read that come together: arrival first, and read first. -/
def bothOrders (s : State) : (Nat × FeedState × BitVec 16) × (Nat × FeedState × BitVec 16) :=
  let arrive (s : State) := s.storeFeed (.wellFormed (List.replicate 8 0#32))
  let shows (s : State) := (s.feedPort.store.length, s.feedPort.state, s.report.p0.counters.feedDrop.value)
  (shows (arrive s).feedRead.1, shows (arrive s.feedRead.1))

/-- A LIVE feed with a pending repeat. -/
def marked (n : Nat) : State := withStore (tiny.setFeedPort { tiny.feedPort with repeatMark := true }) n .live

/-- Both orders at the three fills of R9's table, at a full store in LOST, and under a pending repeat (log 38). -/
theorem test_arrival_and_read_together :
    [withStore tiny 0 .live, withStore tiny 32 .live, withStore tiny 15 .lost, withStore tiny 32 .lost, marked 0, marked 32].map
        bothOrders =
      [((0, .live, 0), (1, .lost, 0)), ((31, .live, 1), (32, .live, 0)), ((15, .live, 0), (16, .lost, 0)),
        ((31, .live, 1), (32, .live, 0)), ((1, .live, 0), (1, .live, 0)), ((32, .live, 1), (32, .live, 1))] := by decide +kernel

/-- The fills at which the two orders differ: those of R9's table, and a full store in LOST (log 38). -/
theorem test_fills_where_orders_differ :
    let differ (st : FeedState) :=
      (List.range 33).filter fun n => (bothOrders (withStore tiny n st)).1 != (bothOrders (withStore tiny n st)).2
    differ .live = [0, 32] ∧ differ .lost = [15, 32] := by decide +kernel

/-- ArrayFrameJoinsRow and SixtyFourthRowStartsBlock, each at the row where the other begins. -/
theorem test_hyp_array_frames :
    let a := (withRows tiny 62).array
    a.framing.onBit 768 a.pin low = (.search, some (.wellFormed (List.replicate 24 0#32))) ∧
      a.framing.onBit 768 a.pin high = (.inFrame 1 0, some .faulted) ∧ (withRows tiny 62).settle.finishBeforeWrite.array.rows.length < 63 ∧
      (withRows tiny 63).settle.finishBeforeWrite.array.rows.length = 63 := by decide +kernel

theorem test_hyp_ArrayStopsAndResumes :
    (tiny.array.run = .running ∧ tiny.array.stopTimer = true) ∧ tiny.proc = none ∧
      (after .stopTimerExpiry tiny).array.stopTimer = false := by decide +kernel

/-- Wherever a processing stands when the timer expires, it has ended and reads see its state before the port stops; with the votes in,
STANDBY_ENTERED comes before ARRAY_STOPPED (R48, R150, R178, log 35). -/
theorem test_stop_ends_processing :
    (∀ ph ∈ [Phase.expiring, .supervise, .align, .arbitrate, .update],
      (inPhase { tiny with seen := Model.reset } ph).finishProcessing.proc = none ∧
        (after .stopTimerExpiry (inPhase { tiny with seen := Model.reset } ph)).seen.segs = tinyModel.segs) ∧
      (let s : State := { inPhase tiny .update with
         stager := ⟨{ Stager.reset with vote := true }, { Stager.reset with vote := true }⟩ }
       (after .stopTimerExpiry s).standby = true ∧ (after .stopTimerExpiry s).proc = none ∧
         (after .stopTimerExpiry s).report.p0.queue.map (fun c => c.event.code) = [0x0A, 0x08]) := by decide +kernel

theorem test_hyp_ArrayStopsAndResumes_resume : (after .stopTimerExpiry tiny).array.run = .stopped := by decide +kernel

theorem test_hyp_SlipCheckMovesOneFrame :
    tiny.feedPort.state = .lost ∧ 24 < (withStore tiny 25 .live).feedPort.store.length ∧
      (withStore tiny 7 .live).feedPort.store.length < 8 ∧ 8 ≤ (withStore tiny 8 .live).feedPort.store.length ∧
      (withStore tiny 24 .live).feedPort.store.length ≤ 24 ∧ (withStore tiny 24 .live).feedPort.state = .live := by decide +kernel

theorem test_hyp_TransactionsBeginAndEnd :
    tiny.ctl.p0.trans = .idle ∧ tiny.ctl.p1.trans.holds = false ∧ (some 0x3D#8 ≠ some 0x3C#8 ∧ (some 0x3D#8 ≠ some 0xC3#8)) ∧
      (0x2D#7 ≠ tiny.twoWireAddr) ∧ (tiny.ctl.get .p0).trans.holds = false := by decide +kernel

/-- What the wires carry in each state of a transaction: the slot's copy and 0x00 past its end, or nothing (R153, R154). -/
theorem test_wires :
    let t := after (.transactionBegin (.twoWire 0x2C#7 true) []) (after (.transactionBegin (.fourWire (some 0xC3#8)) []) tiny)
    tiny.cdoByte 1 = none ∧ (List.range 5).map t.cdoByte = [some 0#8, some 0#8, some 0x10#8, some 0#8, some 0#8] ∧
      (List.range 4).map t.twdByte = [some 0#8, some 0x10#8, some 0#8, some 0#8] ∧ t.acksByte 0 = false ∧
      (rx tiny .p0 .tune .mute).cdoByte 1 = some 0#8 ∧ (rx tiny .p1 .tune .mute).acksByte 1 = true ∧
      tiny.acksAddress 0x2C#7 = true ∧ tiny.acksAddress 0x2D#7 = false ∧ (List.range 8).map (wireBit 0x41#8) =
        [false, true, false, false, false, false, false, true] := by decide +kernel

/-- BadMessageAnswered: a message of one byte, one with a length above 250, one that is too short, and one of an unknown kind. -/
theorem test_hyp_BadMessageAnswered :
    (rx tiny .p0 .observe .identify).Receives .p0 [1#8] ∧ (rx tiny .p0 .observe .identify).Receives .p0 [1#8, 251#8] ∧
      (rx tiny .p0 .observe .identify).Receives .p0 [1#8, 1#8] ∧
      (tiny.setCtl .p0 { tiny.ctl.p0 with trans := .receiving [] }).Receives .p0 [0x40#8, 0#8] ∧
      field [1#8, 251#8] 1 1 = 251 ∧ (∀ k ∈ Kind.all, k.code ≠ 0x40#8) :=
  ⟨⟨[1#8], rfl, rfl⟩, ⟨[1#8], rfl, rfl⟩, ⟨[1#8], rfl, rfl⟩, ⟨[], rfl, rfl⟩, by decide, by decide⟩

/-- Every kind is in the list of kinds, so the list's witness above speaks for every kind. -/
theorem test_kinds_are_all (k : Kind) : k ∈ Kind.all := by cases k <;> decide

theorem test_hyp_PortRefusesRequests :
    (rx tiny .p1 .observe .mute).Receives .p1 (message .mute [0#8, 0#8, 0#8]) ∧ Grant.observe.code < Kind.mute.grant.code ∧
      (rx tiny .p1 .tune .mute).Receives .p1 (message .mute [0#8]) ∧ Kind.mute.layoutOk [0#8] = false ∧
      ((tiny.setCtl .p1 { tiny.ctl.p1 with trans := .ignoring true }).ctl.get .p1).trans = .ignoring true :=
  ⟨⟨[Kind.mute.code], rfl, by decide⟩, by decide, ⟨[Kind.mute.code], rfl, by decide⟩, by decide, rfl⟩

/-- Every kind has a body that its port takes: the statements that ask only for `Takes`. -/
theorem test_hyp_takes :
    (rx tiny .p0 .observe .identify).Takes .p0 .identify [] ∧ (rx tiny .p0 .observe .readMic).Takes .p0 .readMic [24#8] ∧
      (rx tiny .p0 .observe .readMic).Takes .p0 .readMic [23#8] ∧
      (rx tiny .p0 .observe .readReference).Takes .p0 .readReference [8#8] ∧
      (rx tiny .p0 .observe .readReference).Takes .p0 .readReference [7#8] ∧
      (rx tiny .p0 .observe .readEvents).Takes .p0 .readEvents [9#8] ∧
      (rx tiny .p0 .observe .readCounters).Takes .p0 .readCounters [] ∧ (rx tiny .p0 .observe .readPool).Takes .p0 .readPool [] ∧
      (rx tiny .p0 .tune .setMic).Takes .p0 .setMic [23#8, 7#8, 65#8, 31#8, 0#8, 128#8] ∧
      (rx tiny .p0 .tune .setReference).Takes .p0 .setReference (7#8 :: 15#8 :: List.replicate 10 0#8) ∧
      (rx tiny .p0 .tune .setGlobal).Takes .p0 .setGlobal [3#8, 0#8, 0#8, 0#8, 0#8, 2#8] ∧
      (rx tiny .p0 .tune .acquire).Takes .p0 .acquire [8#8] ∧ (rx tiny .p0 .tune .hold).Takes .p0 .hold [] ∧
      (rx tiny .p0 .tune .release).Takes .p0 .release [] ∧ (rx tiny .p0 .tune .mute).Takes .p0 .mute [0#8, 0#8, 0#8] ∧
      (rx tiny .p0 .observe .meter).Takes .p0 .meter [1#8, 0#8, 0#8, 0#8, 1#8, 0#8, 0#8] ∧
      (rx tiny .p0 .observe .eventEnable).Takes .p0 .eventEnable [2#8, 0#8] ∧
      (rx tiny .p0 .control .resetPart).Takes .p0 .resetPart [] := by
  refine ⟨?_, ?_, ?_, ?_, ?_, ?_, ?_, ?_, ?_, ?_, ?_, ?_, ?_, ?_, ?_, ?_, ?_, ?_⟩ <;>
    exact rx_takes _ _ _ _ _ (by decide) (by decide) (by decide)

/-- ReadPathAnswers and ReadTapsAnswers: a FREE record, a pending open, a path open now and in what reads see, and a path open now that
reads do not see yet. -/
theorem test_hyp_ReadPathAnswers :
    let s := rx tiny .p0 .observe .readPath
    let fresh := rx { tiny with seen := Model.reset } .p0 .observe .readPath
    s.Takes .p0 .readPath [128#8] ∧ pathAt s.settle.model.paths 128 = .free ∧ pathAt s.settle.model.paths 2 = .pendingOpen 0 0 ∧
      (pathAt s.settle.model.paths 1 = .opened onePath ∧ pathAt s.settle.seen.paths 1 = .opened onePath) ∧
      (fresh.Takes .p0 .readPath [1#8] ∧ pathAt fresh.settle.model.paths 1 = .opened onePath ∧
        pathAt fresh.settle.seen.paths 1 = .free) := by
  refine ⟨rx_takes _ _ _ _ _ (by decide) (by decide) (by decide), by decide +kernel, by decide +kernel, ⟨by decide +kernel,
    by decide +kernel⟩, rx_takes _ _ _ _ _ (by decide) (by decide) (by decide), by decide +kernel, by decide +kernel⟩

/-- ReadPathAnswers: a claimed path whose set carries settings and taps, and a path without a set (R170, log 16). -/
def withSet : State :=
  tiny.setStager .p1 { Stager.reset with list := [{ port := .p1, acceptBlock := 0#32, change := .path 1 { PathChange.empty with
    base := some 1, taps := [(0, 5#24)] } }] }

theorem test_hyp_pending_kinds :
    withSet.Claimed ∧ (withSet.stager.get .p1).objects = [.path 1] ∧ withSet.owner (.path 1) = some .p1 ∧
      withSet.pendingKinds 1 = 24 ∧ (∀ q, ∀ c ∈ (withSet.stager.get q).list, c.object ≠ .path 2) ∧ withSet.pendingKinds 2 = 0 := by
  refine ⟨⟨by decide, fun n h => ?_⟩, by decide, by decide, by decide +kernel, fun q => by cases q <;> decide, by decide +kernel⟩
  rcases List.mem_singleton.mp h with ⟨⟩
  decide +kernel

theorem test_hyp_ReadTapsAnswers :
    let s := rx tiny .p0 .observe .readTaps
    s.Takes .p0 .readTaps [1#8, 0#8, 64#8, 0#8, 65#8] ∧ onePath.windows.length ≤ 1 ∧
      onePath.windows[0]? = some { start := 0, len := 64, segs := [2], age := 3 } ∧
      pathAt s.settle.model.paths 0 = .free ∧ pathAt s.settle.model.paths 1 = .opened onePath ∧
      pathAt s.settle.seen.paths 1 = .opened onePath := by
  refine ⟨rx_takes _ _ _ _ _ (by decide) (by decide) (by decide), by decide, by decide, by decide +kernel, by decide +kernel,
    by decide +kernel⟩

/-- ReadsSeeLastCompletedBlock: with nothing to finish, what reads see stands. -/
theorem test_hyp_ReadsSeeLastCompletedBlock :
    (withRows tiny 63).settle.finishBeforeWrite.seen = (withRows tiny 63).seen ∧ tiny.settle.seen = tiny.seen ∧
      Kind.setMic ≠ Kind.resetPart := by decide +kernel

/-- ReadsSeeLastCompletedBlock: a processing with 63 history writes since its block start is finished before the next one, one with 62
is not, and settling leaves an end of a processing alone whose timers are not at 0 (logs 3 and 4). -/
theorem test_finish_before_write :
    let at_ (n : Nat) : State := tiny.setProc (some { tiny.handedBlock with phase := .update, writesSince := n })
    let counting : State := (inPhase tiny (.meters false)).setReport .p0
      { Report.reset with meter := { running := true, mode := .oneShot, period := 1, mask := 0#24, count := 1 } }
    (at_ 63).finishBeforeWrite.proc = none ∧ (at_ 62).finishBeforeWrite.proc = (at_ 62).proc ∧
      counting.settle.proc = counting.proc ∧ tiny.settle.proc = none := by decide +kernel

/-- ReadsSeeLastCompletedBlock: the last stage shows the state it leaves, and a stage before it shows nothing. -/
theorem test_seen_at_completion :
    let s := { tiny with seen := Model.reset }
    (after .updateStage (inPhase s .update)).seen.paths = tinyModel.paths ∧
      (after .arbiterStage (inPhase s .arbitrate)).seen = Model.reset := by decide +kernel

/-- StagingJoinsOrMerges: no set yet, and a set between two others. -/
theorem test_hyp_StagingJoinsOrMerges :
    tiny.ownSet .p0 (.mic 3) = none ∧
      let set (o : Object) : ChangeSet := { port := .p0, acceptBlock := 5#32, change := .empty o }
      let s := tiny.setStager .p0 { Stager.reset with list := [set .global, set (.mic 3), set (.feed 0)] }
      (s.stager.get .p0).list = [set .global] ++ set (.mic 3) :: [set (.feed 0)] ∧ (set (.mic 3)).object = .mic 3 ∧
        ∀ d ∈ [set .global] ++ [set (.feed 0)], d.object ≠ .mic 3 := by decide +kernel

theorem test_hyp_OpenPathStaged :
    let s := rx tiny .p0 .structural .openPath
    let body : List Byte := [23#8, 7#8, 3#8, 1#8, 0#8, 255#8, 0#8, 1#8, 0#8, 0#8, 192#8, 0#8]
    s.Takes .p0 .openPath body ∧ s.Takes .p0 .openPath [24#8, 0#8, 0#8, 1#8, 0#8, 1#8, 0#8, 0#8] ∧
      validGeoms (parseWindows (body.drop 8)) = true ∧ validGeoms [] = false ∧ pairHeld s.settle.model.paths 23 7 = false ∧
      pairHeld s.settle.model.paths 1 0 = true ∧ pathAt s.settle.model.paths 0 = .free ∧
      (freePool s.settle.model.segs).length = 3 ∧ ((parseWindows (body.drop 8)).map Geom.len).sum / 64 = 3 := by
  refine ⟨rx_takes _ _ _ _ _ (by decide) (by decide) (by decide), rx_takes _ _ _ _ _ (by decide) (by decide) (by decide),
    by decide, by decide, ?_⟩
  decide +kernel

/-- OpenPathStaged with every record taken, and with too few segments. -/
theorem test_hyp_OpenPathStaged_full :
    (∀ r ∈ [PathRec.pendingOpen 0 0], r ≠ .free) ∧ (freePool [SegState.free]).length < ([⟨0, 128⟩].map Geom.len).sum / 64 := by decide

/-- OpenPathStaged and SetWindowsStaged: lists in and out of order, windows that touch, the pool, and the delay blocks. -/
theorem test_window_lists :
    sortGeoms [⟨1024, 64⟩, ⟨0, 512⟩] = [⟨0, 512⟩, ⟨1024, 64⟩] ∧ freePool tinyModel.segs = [0, 1, 3] ∧
      layoutBlocks [⟨64, 128⟩, ⟨8128, 64⟩] = [1, 2, 127] ∧ tiny.plannedLayout .p0 1 = [⟨0, 64⟩] ∧
      (tiny.stage .p0 (.path 1) (Change.mapPath fun c => { c with windows := some [⟨64, 64⟩] })).plannedLayout .p0 1 =
        [⟨64, 64⟩] := by decide +kernel

/-- A part of full size whose path 127 is a pending open of port 0, for the statements that ask for sizes. -/
def sized : State :=
  (State.reset.markPath 127 (.pendingOpen 0 0)).stage .p0 (.path 127) (Change.mapPath fun c =>
    { c with opening := some { mic := 0, feed := 0, windows := [⟨0, 64⟩], base := 0, fast := 1, slow := 1 } })

theorem sized_shaped : sized.Shaped := (State.reset_shaped.markPath _ _).stage _ _ _

theorem test_hyp_sized (p : Port) (k : Kind) : (rx sized p .control k).Shaped := sized_shaped.setCtl _ _

/-- SetPathStaged, SetWindowsStaged, WriteTapsStaged: a sized part takes each. -/
theorem test_hyp_paths_staged :
    (rx sized .p0 .control .setPath).Takes .p0 .setPath [127#8, 15#8, 4#8, 0#8, 1#8, 1#8, 0#8, 2#8] ∧
      (rx sized .p0 .control .setWindows).Takes .p0 .setWindows [127#8, 1#8, 0#8, 0#8, 64#8, 0#8] ∧
      (rx sized .p0 .control .writeTaps).Takes .p0 .writeTaps [127#8, 0#8, 0#8, 0#8, 1#8, 0#8, 0#8] ∧
      (rx sized .p0 .control .resetPort).Takes .p0 .resetPort [] := by
  refine ⟨?_, ?_, ?_, ?_⟩ <;> exact rx_takes _ _ _ _ _ (by decide) (by decide) (by decide)

/-- ResetPortDiscards: a reserved segment and a pending open of the port's own sets go, in the tables and in what READ POOL counts. -/
theorem test_reset_port_frees :
    let s := (rx tiny .p0 .structural .openPath).markPath 2 .free
    let t := after (.openPath .p0 [1#8, 7#8, 0#8, 1#8, 0#8, 1#8, 0#8, 1#8, 0#8, 0#8, 64#8, 0#8]) s
    let u := after (.resetPort .p0 []) (rx t .p0 .structural .resetPort)
    (t.pool.segs.headD .free = .reserved .p0 ∧ t.pool.paths.headD .free = .pendingOpen) ∧
      (u.pool.segs.headD .inUse = .free ∧ u.pool.paths.headD .opened = .free) := by decide +kernel

/-- ClosePathActs: a FREE record, another port's set, an open of the port's own, and no own set. -/
theorem test_hyp_ClosePathActs :
    let s := rx sized .p0 .control .closePath
    let other := rx sized .p1 .control .closePath
    s.Takes .p0 .closePath [127#8] ∧ other.Takes .p1 .closePath [127#8] ∧ pathAt s.settle.model.paths 126 = .free ∧
      pathAt s.settle.model.paths 127 ≠ .free ∧ (other.settle.ownSet (otherPort .p1) (.path 127)).isSome = true ∧
      (s.settle.ownSet (otherPort .p0) (.path 127)).isSome = false ∧
      ((s.settle.ownSet .p0 (.path 127)).any fun c => c.change.pathPart.opening.isSome) = true ∧
      tiny.settle.ownSet .p0 (.path 1) = none := by
  refine ⟨rx_takes _ _ _ _ _ (by decide) (by decide) (by decide), rx_takes _ _ _ _ _ (by decide) (by decide) (by decide), ?_⟩
  decide +kernel

/-- ClosePathActs with a set of settings, and with a set that is a close already. -/
theorem test_hyp_ClosePathActs_settings :
    let s := State.reset.markPath 5 (.opened onePath)
    let settings := s.stage .p0 (.path 5) (Change.mapPath fun c => { c with base := some 1 })
    let closing := s.stage .p0 (.path 5) (Change.mapPath fun c => { c with close := true })
    pathAt s.settle.model.paths 5 ≠ .free ∧
      ((settings.settle.ownSet .p0 (.path 5)).any fun c => c.change.pathPart.opening.isNone && !c.change.pathPart.close) = true ∧
      ((closing.settle.ownSet .p0 (.path 5)).any fun c => c.change.pathPart.opening.isNone && c.change.pathPart.close) = true := by
  decide +kernel

theorem test_hyp_ClearModelStaged :
    let s := rx sized .p0 .control .clearModel
    s.Takes .p0 .clearModel [3#8, 0#8] ∧ s.Takes .p0 .clearModel [0#8, 0#8] ∧ s.Takes .p0 .clearModel [1#8, 24#8] ∧
      s.Takes .p0 .clearModel [1#8, 23#8] ∧ s.Takes .p0 .clearModel [2#8, 128#8] ∧ s.Takes .p0 .clearModel [2#8, 127#8] ∧
      pathAt s.settle.model.paths 127 ≠ .free ∧ (s.settle.ownSet .p1 .global).isSome = false := by
  refine ⟨?_, ?_, ?_, ?_, ?_, ?_, by decide +kernel, by decide +kernel⟩ <;>
    exact rx_takes _ _ _ _ _ (by decide) (by decide) (by decide)

/-- WatchStoresSlot and RouteSetsTable: every kind of object at the last slot, and the kinds at the ends of the table. -/
theorem test_hyp_watch_and_route :
    (∀ k ∈ [0#8, 1#8, 2#8, 3#8, 4#8, 5#8], (rx tiny .p0 .observe .watch).Takes .p0 .watch [3#8, k, 255#8, 0#8]) ∧
      (rx tiny .p0 .observe .watch).Takes .p0 .watch [4#8, 0#8, 0#8, 0#8] ∧
      (rx tiny .p0 .control .route).Takes .p0 .route [1#8, 4#8, 11#8, 3#8] ∧
      (∀ e ∈ parseRoute [1#8, 4#8, 11#8, 3#8], 1 ≤ e.1 ∧ e.1 ≤ 11) ∧
      (rx tiny .p0 .control .route).Takes .p0 .route [12#8, 0#8] ∧ (∃ e ∈ parseRoute [12#8, 0#8], e.1 < 1 ∨ 11 < e.1) := by
  refine ⟨fun k hk => rx_takes _ _ _ _ _ (by simp) (by decide) (by simp [Kind.layoutOk]), ?_, ?_, by decide, ?_, by decide⟩ <;>
    exact rx_takes _ _ _ _ _ (by decide) (by decide) (by decide)

theorem test_hyp_StandbyAndWake :
    (rx tiny .p0 .control .standby).Takes .p0 .standby [] ∧ (rx tiny .p0 .control .wake).Takes .p0 .wake [] ∧
      tiny.settle.standby = false ∧ { tiny with standby := true }.settle.standby = true := by
  refine ⟨?_, ?_, by decide +kernel, by decide +kernel⟩ <;> exact rx_takes _ _ _ _ _ (by decide) (by decide) (by decide)

theorem test_hyp_HoldExpiryEndsHold :
    let s := (inPhase tiny .expiring).setStager .p1 { Stager.reset with hold := true, age := 250 }
    (s.proc.map Proc.phase) = some .expiring ∧ (after .holdExpired s).stager.p1.hold = false := by decide +kernel

/-- BlockStartLandsSets: the row before the 64th, with a hold of age 248, and with one of age 250 in standby. -/
theorem test_hyp_BlockStartLandsSets :
    let s (age : Nat) (standby : Bool) :=
      { (withRows tiny 63).setStager .p0 { Stager.reset with hold := true, age := age } with standby := standby }
    (s 248 false).array.framing.onBit 768 (s 248 false).array.pin high = (.inFrame 1 0, some .faulted) ∧ (s 248 false).settle.finishBeforeWrite.array.rows.length = 63 ∧
      (s 248 false).settle.finishBeforeWrite.stager.p0.age < 249 ∧ (s 250 true).settle.finishBeforeWrite.standby = true ∧
      (after (.arrayFrameArrival [high]) (s 248 false)).stager.p0.age = 249 ∧
      ((after (.arrayFrameArrival [low]) (s 249 false)).proc.map Proc.phase) = some .expiring := by
  decide +kernel

/-- HoldExpiryEndsHold and BlockStartLandsSets, by `State.Lands`: port 0 opens path 0 on microphone 0 and clears microphone 1, and port 1
watches microphones. -/
def landing : State :=
  let s := (inPhase (tiny.setReport .p1 { Report.reset with watches := [{ kind := .mic, first := 0, last := 1 }] }) .expiring)
  ((s.stage .p0 (.path 0) (Change.mapPath fun c => { c with
      opening := some { mic := 0, feed := 0, windows := [⟨64, 64⟩], base := 1, fast := 1, slow := 1 }, reservations := [3] })).stage .p0
    (.mic 1) (Change.mapMic fun c => { c with clear := true }))

theorem test_block_start_lands :
    let t := landing.landSets
    t.model.mics.map Mic.conv = [.acquire, .acquire] ∧ t.model.segs = [.free, .free, .inUse, .inUse] ∧
      Memory.read t.model.coefs 128 = 0#24 ∧ t.queues = [[], [], [{ path := 0, index := 0 }], [{ path := 1, index := 0 }]] ∧
      (landing.landNotices 0#32 ⟨false, false⟩).flatten.map (fun n => (n.dest, n.record.event)) =
        [(some .p0, .applied 2), (none, .micState 0 .idle .acquire .opened), (some .p1, .watchHit (.mic 1) 0 .p0)] := by
  decide +kernel

/-- One set that changes a setting gives APPLIED, and nothing else. -/
theorem test_applied_record :
    let s := (inPhase tiny .expiring).stage .p0 (.mic 0) (Change.mapMic fun c => { c with theta := some 5 })
    (after .holdExpired s).report.p0.queue = [{ block := 0#32, event := .applied 1 }] ∧
      (after .holdExpired s).report.p1.queue = [] ∧ (micAt (after .holdExpired s).model.mics 0).theta = 5 := by decide +kernel

/-- BlockStartLandsSets' clauses on sets, feeds, levels and entries. -/
theorem test_hyp_landing_clauses :
    let sets := landing.applying
    (sets.map ChangeSet.object = [.path 0, .mic 1] ∧ (sets.map ChangeSet.object).Nodup) ∧
      (∀ c ∈ sets, c.object ≠ .feed 0) ∧ (micAt tinyModel.mics onePath.mic).conv ≠ .idle ∧
      (let e : QEntry := { path := 1, index := 0 }
       windowAt tinyModel.paths e = some (onePath, { start := 0, len := 64, segs := [2], age := 3 }) ∧
         carriedEntry tinyModel.paths tinyModel.paths e = some e) := by decide +kernel

/-- CancellerCancelsBlock: a muted and an unmuted microphone, a block in standby and one outside it. -/
theorem test_hyp_CancellerCancelsBlock :
    let c : Canceller := { tiny.canc with reqMask := ⟨2#24, 0#24⟩ }
    (c.reqMask.p0.getLsbD 1 || c.reqMask.p1.getLsbD 1) = true ∧ (c.reqMask.p0.getLsbD 0 || c.reqMask.p1.getLsbD 0) = false ∧
      { tiny.handedBlock with standby := true }.standby = true ∧ tiny.handedBlock.standby = false := by decide +kernel

/-- BlockStartStepsOnTapStore: a close and a tap write on the open path. -/
theorem test_hyp_BlockStartStepsOnTapStore :
    pathAt tinyModel.paths 1 = .opened onePath ∧ 1 < tinyModel.paths.length ∧ Memory.wf tinyModel.coefs ∧
      (([(0, 5#24), (63, 6#24)].filterMap fun t => (onePath.tapAddr t.1).map fun a => (a, t.2)).map Prod.fst) = [128, 191] := by
  decide +kernel

/-- BlockStartStepsOnTapStore: R40's example, a window at 1,024 of 64 taps on segment 8, and the ends of its range. -/
theorem test_tap_addresses :
    let w : Window := { start := 1024, len := 64, segs := [8], age := 0 }
    w.start % 64 = 0 ∧ w.len = 64 * w.segs.length ∧ w.tapAddr 1050 = some (8 * 64 + 26) ∧ w.tapAddr 1024 = some 512 ∧
      w.tapAddr 1087 = some 575 ∧ w.tapAddr 1023 = none ∧ w.tapAddr 1088 = none ∧ w.taps[26]? = some (1050, 538) ∧
      seenTap tiny { start := 0, len := 64, segs := [2], age := 3 } 1 = 0xE00000#24 ∧ onePath.backing = [(0, 2)] := by
  decide +kernel

/-- BlockStartStepsOnTapStore's step of an open and of a reshape, each with as many reserved segments as it has new delay blocks. -/
theorem test_shape_step :
    let opens : ChangeSet := { port := .p0, acceptBlock := 0#32, change := .path 0 { PathChange.empty with
      opening := some { mic := 0, feed := 0, windows := [⟨64, 64⟩], base := 1, fast := 1, slow := 1 }, reservations := [0] } }
    let reshapes : ChangeSet := { port := .p0, acceptBlock := 0#32, change := .path 1 { PathChange.empty with
      windows := some [⟨64, 64⟩], reservations := [0, 3] } }
    pathAt (tinyModel.shapeStep opens).paths 0 = .opened { onePath with
        mic := 0, base := 1, fast := 1, slow := 1, windows := [{ start := 64, len := 64, segs := [0], age := 0 }] } ∧
      pathAt (tinyModel.shapeStep reshapes).paths 1 = .opened { onePath with
        windows := [{ start := 64, len := 64, segs := [0], age := 0 }] } ∧
      (tinyModel.shapeStep reshapes).segs = [.inUse, .free, .free, .free] ∧
      Memory.read (tinyModel.shapeStep reshapes).coefs 128 = 0#24 := by decide +kernel

/-- BlockStartStepsOnTapStore: a set of settings alone leaves the close, layout and tap-write steps idle. -/
theorem test_idle_steps :
    let settings : ChangeSet := { port := .p0, acceptBlock := 0#32, change := .path 1 { PathChange.empty with base := some 1 } }
    tinyModel.closeStep settings = tinyModel ∧ tinyModel.shapeStep settings = tinyModel ∧
      tinyModel.tapStep settings = tinyModel := by decide +kernel

/-- BulkResultForms: one event of each kind, a check that keeps b, and a feed with no result due. -/
theorem test_result_events :
    let strong : List Int := List.replicate 20 1 ++ [1000] ++ List.replicate 235 (-1)
    let event (a : Feed) : List Event := (resultNotice 0#32 3 a).map fun n => n.record.event
    event { Feed.reset with acq := .seek, counted := 64, acc := strong } = [.bulkLocked 3 true 96] ∧
      event { Feed.reset with acq := .check, counted := 64, acc := strong } = [.bulkMoved 3 0 96] ∧
      event { Feed.reset with acq := .check, counted := 64, acc := strong, b := 96 } = [] ∧
      event { Feed.reset with acq := .check, counted := 64, acc := List.replicate 256 1 } = [.bulkWeak 3 0 .check] ∧
      event { Feed.reset with acq := .seek, counted := 63, acc := strong } = [] := by decide +kernel

/-- The statements about the stages: a block at each stage. -/
theorem test_hyp_stages :
    ((inPhase tiny .supervise).proc.map Proc.phase) = some .supervise ∧
      (((inPhase tiny .align).proc.map Proc.phase) = some .align ∧ verdictsDue (inPhase tiny .align).model.mics = []) ∧
      (((inPhase tiny .arbitrate).proc.map Proc.phase) = some .arbitrate ∧ (inPhase tiny .arbitrate).resultsPending = false) ∧
      ((inPhase tiny .update).proc.map Proc.phase) = some .update := by decide +kernel

/-- AlignmentStageMeasures: a block cancelled in standby, whose processing completes there and shows in READ POOL (R55, R160). -/
theorem test_standby_block_completes :
    let s := (inPhase { tiny with pool := PoolView.reset } .align)
    let t := after .alignmentStage (s.setProc (s.proc.map fun p => { p with standby := true }))
    t.proc = none ∧ t.pool = { segs := tinyModel.segs, paths := tinyModel.paths.map PathRec.status } ∧
      (after .alignmentStage s).pool = PoolView.reset := by decide +kernel

/-- ArbiterGrantsWithinBudget: a window that an entry names, an entry that names none, and a scan stopped at a window that does not fit,
which leaves the level below as it is (R112). -/
theorem test_hyp_ArbiterGrantsWithinBudget :
    let a : Arbitration := { queues := [[⟨5, 0⟩], [⟨6, 0⟩, ⟨7, 0⟩], [], []], granted := [], left := 64, stopped := false }
    let level (a : Arbitration) (l : Nat) : Arbitration := a.level (fun _ => true) (fun _ => 64) .fair l
    windowAt tinyModel.paths ⟨1, 0⟩ = some (onePath, { start := 0, len := 64, segs := [2], age := 3 }) ∧
      windowAt tinyModel.paths ⟨1, 1⟩ = none ∧ windowAt tinyModel.paths ⟨2, 0⟩ = none ∧
      level a 1 = { queues := [[⟨5, 0⟩], [⟨7, 0⟩, ⟨6, 0⟩], [], []], granted := [⟨6, 0⟩], left := 0, stopped := true } ∧
      level (level a 1) 0 = level a 1 ∧ (after .arbiterStage (inPhase tiny .arbitrate)).model.paths[2]? = some (.pendingOpen 0 0) := by
  decide +kernel

/-- A state at the supervisor's step 5 with microphone 1 as given. -/
def atStepFive (m : Mic) : State := inPhase { tiny with model := { tinyModel with mics := [Mic.reset, m] } } .align

/-- SupervisorVerdicts, each clause at its threshold. -/
theorem test_hyp_SupervisorVerdicts :
    (atStepFive { Mic.reset with conv := .acquire, goodRun := 4 }).verdictTurn 1 = true ∧
      (atStepFive { Mic.reset with conv := .converged, poorRun := 25 }).verdictTurn 1 = true ∧
      (atStepFive { Mic.reset with conv := .recover, goodRun := 4 }).verdictTurn 1 = true ∧
      (atStepFive { Mic.reset with conv := .acquire, divCount := 8 }).verdictTurn 1 = true ∧
      (atStepFive { Mic.reset with conv := .recover, divCount := 8 }).verdictTurn 1 = true ∧
      (atStepFive { Mic.reset with conv := .acquire, goodRun := 3, divCount := 7 }).verdictTurn 1 = false := by decide +kernel

theorem test_run_threshold :
    (after (.runThreshold 1) (atStepFive { Mic.reset with conv := .acquire, goodRun := 4 })).model.mics.map Mic.conv =
        [.idle, .converged] ∧
      (after (.runThreshold 1) (atStepFive { Mic.reset with conv := .acquire, goodRun := 4 })).queues =
        [[], [], [{ path := 1, index := 0 }], []] ∧
      (after (.micDiverged 1) (atStepFive { Mic.reset with conv := .recover, divCount := 8 })).model.clearList = [1] := by
  decide +kernel

/-- A state at the alignment unit's results with feed 0 as given. -/
def atResults (f : Feed) : State := inPhase { tiny with model := { tinyModel with feeds := [f] } } .arbitrate

/-- AlignmentStageMeasures' countdown clause and BulkResultForms, at 64 counted blocks. -/
theorem test_hyp_results :
    (feedAt (atResults { Feed.reset with acq := .locked, countdown := 0 }).model.feeds 0).checkDue = true ∧
      (atResults { Feed.reset with acq := .seek, counted := 64 }).model.feeds.any Feed.resultDue = true ∧
      (atResults { Feed.reset with acq := .seek, counted := 63 }).model.feeds.any Feed.resultDue = false := by decide +kernel

/-- EveryCommandAnswersNext: commands that are not due, each at the edge of being due (log 2). -/
theorem test_hyp_idle_commands :
    let due := atStepFive { Mic.reset with conv := .acquire, goodRun := 4, divCount := 8 }
    let counting : State := (inPhase tiny (.meters false)).setReport .p0
      { Report.reset with meter := { running := true, mode := .oneShot, period := 1, mask := 0#24, count := 1 } }
    tiny.proc.map Proc.phase = none ∧ due.verdictTurn 0 = false ∧
      (due.verdictTurn 1 = true ∧ 8 ≤ (micAt due.model.mics 1).divCount) ∧
      (atStepFive { Mic.reset with conv := .acquire, goodRun := 4, divCount := 7 }).verdictTurn 1 = true ∧
      (due.proc.map Proc.standby = some false ∧ verdictsDue due.model.mics ≠ []) ∧
      (atResults { Feed.reset with acq := .locked, countdown := 0 }).resultsPending = true ∧
      (feedAt (atResults { Feed.reset with acq := .locked, countdown := 1 }).model.feeds 0).countdown ≠ 0 ∧
      (counting.report.get .p0).meter.count ≠ 0 ∧ (after (.meterTimerExpiry .p0) counting).proc = counting.proc := by decide +kernel

/-- PortRefusesRequests and WriteTapsStaged: the layouts with a count, at one and at none, a field of two bytes, and a value staged for a
delay already held and for another. -/
theorem test_layouts_and_values :
    Kind.openPath.layoutOk [0#8, 0#8, 0#8, 0#8, 0#8, 0#8, 0#8, 0#8] = true ∧
      Kind.setWindows.layoutOk [0#8, 1#8, 0#8, 0#8, 64#8, 0#8] = true ∧ Kind.setWindows.layoutOk [0#8, 1#8] = false ∧
      Kind.writeTaps.layoutOk [0#8, 0#8, 0#8, 0#8] = true ∧ Kind.route.layoutOk [] = false ∧ Kind.route.layoutOk [1#8, 3#8] = true ∧
      field [1#8, 2#8, 3#8] 1 2 = 770 ∧ stageTap [(7, 1#24)] (7, 2#24) = [(7, 2#24)] ∧
      stageTap [(7, 1#24)] (8, 2#24) = [(7, 1#24), (8, 2#24)] := by decide +kernel

theorem test_bulk_result_locks :
    let s := atResults { Feed.reset with acq := .seek, counted := 64, acc := List.replicate 20 1 ++ [1000] ++ List.replicate 235 (-1) }
    let f := feedAt (s.bulkResult).model.feeds 0
    f.acq = .locked ∧ f.lastLag = 160 ∧ f.lastValidity = .valid ∧ f.dueMove = some 96 ∧ f.countdown = 4096 := by decide +kernel

/-- UpdateStageWrites: one granted window, whose addresses differ. -/
theorem test_hyp_UpdateStageWrites :
    let s := inPhase tiny .update
    ∀ p, s.proc = some p →
      ((([({ path := 1, index := 0 } : QEntry)].flatMap (windowUpdates s p)).map Prod.fst).Nodup) := by
  intro s p hp
  have hq : p = { tiny.handedBlock with phase := .update, excited := [1] } := (Option.some.inj hp).symm
  subst hq
  decide +kernel

/-- UpdateStageWrites and MeterExpiryReports: the votes are in, with a meter expiry due and with none; and an expiry at which
STANDBY_ENTERED still is to be raised, with one more left and with none. -/
theorem test_standby_entered :
    let meter (n : Nat) : Report :=
      { Report.reset with meter := { running := true, mode := .oneShot, period := 1, mask := 0#24, count := n } }
    let voted (n : Nat) : State := { inPhase tiny .update with
      stager := ⟨{ Stager.reset with vote := true }, { Stager.reset with vote := true }⟩, report := ⟨meter n, meter n⟩ }
    let expiring (n : Nat) : State := { inPhase tiny (.meters true) with report := ⟨meter 0, meter n⟩ }
    let codes (t : State) : List Nat := t.report.p0.queue.map fun c => c.event.code
    ((after .updateStage (voted 3)).proc = none ∧ (after .updateStage (voted 3)).standby = true ∧
        codes (after .updateStage (voted 3)) = [0x0A]) ∧
      (voted 1).tickMeters.metersDue = true ∧
      ((after (.meterTimerExpiry .p0) (expiring 3)).proc = none ∧ codes (after (.meterTimerExpiry .p0) (expiring 3)) = [0x12, 0x0A]) ∧
      ((expiring 0).expireMeter .p0 0#32).metersDue = true := by decide +kernel

theorem test_hyp_MeterExpiryReports :
    let m : Meter := { running := true, mode := .oneShot, period := 1, mask := 3#24, count := 0 }
    let s := (inPhase tiny (.meters false)).setReport .p0 { Report.reset with meter := m }
    (s.report.get .p0).meter.running = true ∧ (s.report.get .p0).meter.count = 0 ∧
      (after (.meterTimerExpiry .p0) s).proc = none ∧
      (after (.meterTimerExpiry .p0) s).report.p0.queue.map (fun c => c.bytes.length) = [26] := by decide +kernel

/-- ArithmeticIsExact and RecordsJoinQueues: the ends of the ranges. -/
theorem test_hyp_arithmetic_and_records :
    0 < 1 ∧ 32767 ≤ 32767 ∧ rampGain 32767 32700 = 32767 ∧ rampGain 0 255 = 0 ∧
      Event.partReset.isFault = false ∧ Report.reset.passes (.applied 1) = true ∧
      { Report.reset with routineOn := false }.passes (.applied 1) = false ∧
      ({ Report.reset with queue := List.replicate 32 partResetRecord }.join partResetRecord).counters.eventsLost.value = 1#16 ∧
      ({ Report.reset with queue := List.replicate 31 partResetRecord }.join partResetRecord).queue.length = 32 := by decide +kernel

/-- StagingJoinsOrMerges: a port with a set on an object and with none, and what a set carries. -/
theorem test_hyp_sets_of_a_port :
    let s := tiny.stage .p0 (.mic 1) (Change.mapMic fun c => { c with theta := some 5 })
    tiny.ownSet .p0 (.mic 1) = none ∧ (s.ownSet .p0 (.mic 1)).isSome = true ∧ s.ownSet .p1 (.mic 1) = none ∧
      s.ownSet .p0 (.path 1) = none ∧ (s.ownChange .p0 (.mic 1)).micPart = { theta := some 5, hang := none, floor := none, clear := false } ∧
      s.ownChange .p1 (.mic 1) = .empty (.mic 1) := by decide +kernel

/-- OpenPathStaged, SetWindowsStaged and SupervisorVerdicts: a pair held by a pending open, by an open path, and by none; segments and a
record marked, one past the table among them; and the two lists kept. -/
theorem test_hyp_pairs_and_marks :
    (pairHeld tinyModel.paths 0 0 = true ∧ pairHeld tinyModel.paths 1 0 = true ∧ pairHeld tinyModel.paths 1 1 = false) ∧
      ((tiny.markSegs (.reserved .p1) [3, 4]).model.segs = [.free, .free, .inUse, .reserved .p1] ∧
        (tiny.markSegs (.reserved .p1) [3, 4]).pool.segs = [.free, .free, .inUse, .reserved .p1]) ∧
      ((tiny.markPath 0 (.pendingOpen 3 4)).model.paths[0]? = some (.pendingOpen 3 4) ∧
        (tiny.markPath 0 (.pendingOpen 3 4)).pool.paths = [.pendingOpen, .opened, .pendingOpen]) ∧
      sortNats [3, 1, 2, 1] = [1, 1, 2, 3] ∧ addAll [1] [1, 2, 2] = [1, 2] := by decide +kernel

/-- RecordsJoinQueues: a record for port 1, and a routed one; and the counters that frames count in. -/
theorem test_hyp_posts_and_counters :
    let c : Record := { block := 7#32, event := .holdExpired 1 }
    let r : Record := { block := 7#32, event := .feedLost }
    (tiny.post { dest := some .p1, record := c }).report.p1.queue = [c] ∧ (tiny.post { dest := some .p1, record := c }).report.p0.queue = [] ∧
      (tiny.post { dest := none, record := r }).report.p0.queue = [r] ∧ r.event.isFault = true ∧
      (after (.arrayFrameArrival [high]) (withRows tiny 0)).report.p1.counters = { Counters.reset with arrayFrameFault := ⟨1#16, false⟩ } ∧
      (after .stopTimerExpiry tiny).report.p0.counters = { Counters.reset with arrayStops := ⟨1#16, false⟩ } := by decide +kernel

end Sys2Proof.Machine.Tests
end

section
/-! PROOFS. Samples in slots, and the arrival of feed frames (R1 to R5). -/

namespace Sys2Proof.Machine

/-! ## Slots and samples (R3, R4) -/

/-- R3. Flooring by 256 leaves 16 of the 24 bits, so the sample holds the quotient exactly. -/
theorem sampleOfSlot_toInt (x : Slot) : (sampleOfSlot x).toInt = (x.extractLsb' 8 24).toInt / 256 := by
  have lower := BitVec.le_toInt (x.extractLsb' 8 24)
  have upper := BitVec.toInt_lt (x := x.extractLsb' 8 24)
  unfold sampleOfSlot
  rw [Int.fdiv_eq_ediv_of_nonneg _ (by decide)]
  exact BitVec.toInt_ofInt_eq_self (by decide) (by omega) (by omega)

/-- R4. A 16-bit sample times 256 fits the 24 bits of audio. -/
theorem slotOfSample_audio_toInt (o : Sample) : ((slotOfSample o).extractLsb' 8 24).toInt = o.toInt * 256 := by
  have lower := BitVec.le_toInt o
  have upper := BitVec.toInt_lt (x := o)
  unfold slotOfSample
  rw [BitVec.extractLsb'_append_eq_left]
  exact BitVec.toInt_ofInt_eq_self (by decide) (by omega) (by omega)

/-- R4. The padding under the audio is zero. -/
theorem slotOfSample_padding (o : Sample) : (slotOfSample o).extractLsb' 0 8 = 0#8 :=
  BitVec.extractLsb'_append_eq_right

/-! ## Frames at the feed store (R5) -/

theorem State.storeFeed_faulted (s : State) : s.storeFeed .faulted = s.countBoth .feedFrameFault := rfl

/-- Below 32 frames a well-formed frame joins the tail of the store. -/
theorem State.storeFeed_wellFormed_of_room (s : State) {slots : List Slot} (hslots : slots.length = 8)
    (hroom : s.feedPort.store.length < 32) :
    s.storeFeed (.wellFormed slots) =
      s.setFeedPort { s.feedPort with store := s.feedPort.store ++ [slots.map sampleOfSlot] } := by
  have samples : samplesOf Config.feeds slots = slots.map sampleOfSlot := samplesOf_eq slots hslots
  unfold State.storeFeed
  rw [← samples]
  exact if_pos hroom

/-- At 32 frames a well-formed frame is dropped and counted. -/
theorem State.storeFeed_wellFormed_of_full (s : State) (slots : List Slot) (hfull : 32 ≤ s.feedPort.store.length) :
    s.storeFeed (.wellFormed slots) = s.countBoth .feedDrop :=
  if_neg (Nat.not_lt.mpr hfull)

/-! ## Rows of the partial block (R12) -/

theorem State.joinRow_wellFormed_rows (s : State) {slots : List Slot} (hslots : slots.length = 24) :
    (s.joinRow (.wellFormed slots)).array.rows = s.array.rows ++ [slots.map sampleOfSlot] := by
  rw [← samplesOf_eq slots hslots]
  rfl

theorem State.joinRow_faulted_rows (s : State) :
    (s.joinRow .faulted).array.rows = s.array.rows ++ [List.replicate 24 0#16] := rfl

/-! ## Bits that end a feed frame (R2, R5) -/

/-- A feed frame that ends has its 8 slots, if it is well formed (R1). -/
theorem Framing.onBit_feed_slots {pin : Bool} {b : LineBit} {g fr : Framing} {slots : List Slot}
    (h : g.onBit Config.feedFrameBits pin b = (fr, some (.wellFormed slots))) : slots.length = 8 := by
  obtain ⟨isFaulted, _⟩ | ⟨received, isWellFormed, hlength, _⟩ := Framing.onBit_ends h
  · cases isFaulted
  · cases isWellFormed
    exact hlength

/-- The row FEED FRAME ARRIVAL on the one bit that ends a frame: the frame goes to the store, and the receiver moves on. -/
theorem exec_feedFrameArrival_ends (s : State) {b : LineBit} {fr : Framing} {f : FrameEnd}
    (h : s.feedPort.framing.onBit Config.feedFrameBits s.feedPort.pin b = (fr, some f)) :
    exec (.feedFrameArrival [b]) s =
      .next ((s.storeFeed f).setFeedPort { (s.storeFeed f).feedPort with framing := fr, pin := b.sync }) := by
  have arrives := (s.feedBit_cases b).2 f (by rw [h])
  rw [h] at arrives
  rw [← arrives]
  rfl

end Sys2Proof.Machine
end

section
/-! PROOFS. The statements about samples and feed frames. -/

open Sys2Proof Sys2Proof.Machine

/-- Settles O7: the two conversions, and the frames that carry them into the feed store and the partial block. -/
theorem slotsCarrySamples : Obligations.SlotsCarrySamples := by
  refine ⟨sampleOfSlot_toInt, fun o => ⟨slotOfSample_audio_toInt o, slotOfSample_padding o⟩, ?_, ?_, State.joinRow_faulted_rows⟩
  · intro s slots hslots hroom
    rw [s.storeFeed_wellFormed_of_room hslots hroom]
    rfl
  · intro s slots hslots
    exact s.joinRow_wellFormed_rows hslots

/-- Settles O8, by what the store does with the frame that ends: faulted, well formed with room for it, well formed at a full store. -/
theorem feedFrameArrives : Obligations.FeedFrameArrives := by
  intro s b fr f hends
  have arrives := exec_feedFrameArrival_ends s hends
  constructor
  · rintro rfl
    rw [arrives, s.storeFeed_faulted]
    rfl
  · rintro slots rfl
    have hslots : slots.length = 8 := Framing.onBit_feed_slots hends
    refine ⟨hslots, fun hroom => ?_, fun hfull => ?_⟩
    · rw [arrives, s.storeFeed_wellFormed_of_room hslots hroom]
      rfl
    · rw [arrives, s.storeFeed_wellFormed_of_full slots hfull]
      rfl

end

section
/-! PROOFS. Optional fields of request bodies (R159, R166), and SET REFERENCE at the port and at the feed's pending set (R34). -/

namespace Sys2Proof.Machine

/-! ## Optional fields (R159, R166) -/

/-- A field that is present replaces the pending value with its clamped one; an absent field leaves the pending value (R139). -/
theorem optField_or (flags i lo hi v : Nat) (pending : Option Nat) :
    (optField flags i lo hi v).or pending = if flags.testBit i then some (max lo (min hi v)) else pending := by
  unfold optField clampNat
  split
  · exact Option.some_or
  · exact Option.none_or

theorem optClamped_iff (flags i lo hi v : Nat) :
    optClamped flags i lo hi v = true ↔ flags.testBit i = true ∧ (v < lo ∨ hi < v) := by
  simp only [optClamped, Bool.and_eq_true, Bool.or_eq_true, decide_eq_true_eq]

/-- Clamping to 1 keeps apart the code 0, MANUAL, and all others, which become AUTO. -/
theorem FeedMode.ofCode_clampNat (code : Nat) :
    FeedMode.ofCode (clampNat 0 1 code) = if code = 0 then .manual else .auto := by
  have zero_iff : clampNat 0 1 code = 0 ↔ code = 0 := by
    unfold clampNat
    omega
  simp only [FeedMode.ofCode, zero_iff]

/-! ## The fields of SET REFERENCE (R34) -/

theorem parseSetReference_mode (body : List Byte) :
    (parseSetReference body).mode =
      if (field body 1 1).testBit 0 then some (if field body 2 1 = 0 then .manual else .auto) else none := by
  rw [← FeedMode.ofCode_clampNat]
  simp only [parseSetReference, optField]
  split
  · rfl
  · rfl

/-- MANUAL is requested by a present mode of code 0, and by nothing else. -/
theorem parseSetReference_mode_eq_manual_iff (body : List Byte) :
    (parseSetReference body).mode = some .manual ↔ (field body 1 1).testBit 0 = true ∧ field body 2 1 = 0 := by
  rw [parseSetReference_mode]
  by_cases present : (field body 1 1).testBit 0 = true
  · by_cases zero : field body 2 1 = 0 <;> simp [present, zero]
  · simp [present]

theorem parseSetReference_badProbe_iff (body : List Byte) :
    (parseSetReference body).badProbe = true ↔ (field body 1 1).testBit 3 = true ∧ 24 ≤ field body 11 1 := by
  simp only [SetReferenceReq.badProbe, parseSetReference]
  by_cases present : (field body 1 1).testBit 3 = true
  · simp only [present, if_true, true_and]
    exact decide_eq_true_iff
  · simp only [present, Bool.false_eq_true, if_false, false_and]

theorem parseSetReference_clamped_iff (body : List Byte) :
    (parseSetReference body).clamped = true ↔
      (field body 1 1).testBit 0 = true ∧ 1 < field body 2 1 ∨
      (field body 1 1).testBit 1 = true ∧ 2047 < field body 3 2 ∨
      (field body 1 1).testBit 2 = true ∧ (field body 5 6 < 1 ∨ 1099511627776 < field body 5 6) := by
  simp only [parseSetReference, Bool.or_eq_true, optClamped_iff, Nat.not_lt_zero, false_or, or_assoc, Config.maxDelay,
    Config.maxFloor]

/-- A pending set on a feed with the fields of a SET REFERENCE body put over it. -/
theorem FeedChange.merge_parseSetReference (c : FeedChange) (body : List Byte) :
    c.merge (parseSetReference body) =
      { mode := if (field body 1 1).testBit 0 then some (if field body 2 1 = 0 then .manual else .auto) else c.mode
        manualDelay := if (field body 1 1).testBit 1 then some (min 2047 (field body 3 2)) else c.manualDelay
        actFloor := if (field body 1 1).testBit 2 then some (max 1 (min 1099511627776 (field body 5 6))) else c.actFloor
        probe := if (field body 1 1).testBit 3 then some (field body 11 1) else c.probe
        acquire := if (field body 1 1).testBit 0 = true ∧ field body 2 1 = 0 then false else c.acquire } := by
  rw [FeedChange.merge, FeedChange.mk.injEq]
  refine ⟨?ofMode, ?ofManualDelay, ?ofActFloor, ?ofProbe, ?ofAcquire⟩
  case ofMode =>
    rw [parseSetReference_mode]
    split
    · rfl
    · rfl
  case ofManualDelay => exact (optField_or _ _ _ _ _ _).trans (by rw [Nat.zero_max]; rfl)
  case ofActFloor => exact optField_or _ _ _ _ _ _
  case ofProbe =>
    simp only [parseSetReference]
    split
    · rfl
    · rfl
  case ofAcquire =>
    simp only [← parseSetReference_mode_eq_manual_iff]
    split
    next isManual => rw [isManual]; exact Bool.and_false _
    next notManual => rw [bne_iff_ne.mpr notManual]; exact Bool.and_true _

/-! ## Answers at the port -/

/-- The row SET REFERENCE whose message passes the port's checks: the port is left answered from what the feeds' owner says. -/
theorem exec_setReference_takes {s : State} {p : Port} {body : List Byte} (h : s.Takes p .setReference body) :
    exec (.setReference p body) s =
      .next ((answerSetReference p body s.settle).1.answered p .setReference (answerSetReference p body s.settle).2.status
        (answerSetReference p body s.settle).2.body) :=
  congrArg Host.Outcome.next ((State.request_takes h _).trans (State.respond_eq _ _ _ _))

/-- The checks of R34 in their order, and the set that a request which passes them is staged into. -/
theorem answerSetReference_eq (p : Port) (body : List Byte) (u : State) :
    answerSetReference p body u =
      if 8 ≤ field body 0 1 then (u, .refuse .noSuchObject)
      else if (field body 1 1).testBit 3 = true ∧ 24 ≤ field body 11 1 then (u, .refuse .noSuchObject)
      else if (u.ownSet (otherPort p) (.feed (field body 0 1))).isSome then (u, .refuse .pendingOther)
      else (u.stage p (.feed (field body 0 1)) (Change.mapFeed fun c => c.merge (parseSetReference body)),
        .accept (parseSetReference body).clamped []) := by
  simp only [← parseSetReference_badProbe_iff]
  rfl

end Sys2Proof.Machine
end

section
/-! PROOFS. The statement about SET REFERENCE. -/

open Sys2Proof Sys2Proof.Machine

/-- Settles O29, check by check in R34's order; the request that passes them is staged with its fields merged and clamped. -/
theorem setReferenceStaged : Obligations.SetReferenceStaged := by
  intro s p body takes
  dsimp only
  rw [exec_setReference_takes takes, answerSetReference_eq]
  congr 1
  by_cases noFeed : 8 ≤ field body 0 1
  · rw [if_pos noFeed, if_pos noFeed]
    rfl
  rw [if_neg noFeed, if_neg noFeed]
  by_cases noProbe : (field body 1 1).testBit 3 = true ∧ 24 ≤ field body 11 1
  · rw [if_pos noProbe, if_pos noProbe]
    rfl
  rw [if_neg noProbe, if_neg noProbe]
  by_cases claimed : (s.settle.ownSet (otherPort p) (.feed (field body 0 1))).isSome = true
  · rw [if_pos claimed, if_pos claimed]
    rfl
  rw [if_neg claimed, if_neg claimed]
  simp only [FeedChange.merge_parseSetReference, Reply.accept, parseSetReference_clamped_iff]

end

section
/-! PROOFS. CLEAR MODEL at the port, and the set that a clear joins (R52, R137, R139). -/

namespace Sys2Proof.Machine

/-! ## The object of a scope (R52) -/

theorem clearObject_unknownScope (paths : List PathRec) {scope : Nat} (n : Nat) (h : 2 < scope) :
    clearObject paths scope n = none := by
  obtain ⟨k, rfl⟩ := Nat.exists_eq_add_of_lt h
  rw [Nat.add_assoc, Nat.add_comm]
  rfl

theorem clearObject_all (paths : List PathRec) {scope : Nat} (n : Nat) (hscope : scope = 0) :
    clearObject paths scope n = some .global := by rw [hscope, clearObject]

theorem clearObject_mic (paths : List PathRec) {scope n : Nat} (hscope : scope = 1) (hn : n < 24) :
    clearObject paths scope n = some (.mic n) := by rw [hscope, clearObject, Config.mics, if_pos hn]

theorem clearObject_noMic (paths : List PathRec) {scope n : Nat} (hscope : scope = 1) (hn : 24 ≤ n) :
    clearObject paths scope n = none := by rw [hscope, clearObject, Config.mics, if_neg (Nat.not_lt.mpr hn)]

theorem clearObject_path {paths : List PathRec} {scope n : Nat} (hscope : scope = 2) (hn : pathAt paths n ≠ .free) :
    clearObject paths scope n = some (.path n) := by rw [hscope, clearObject, if_neg hn]

theorem clearObject_noPath {paths : List PathRec} {scope n : Nat} (hscope : scope = 2) (hn : pathAt paths n = .free) :
    clearObject paths scope n = none := by rw [hscope, clearObject, if_pos hn]

/-- A number past the table's 128 records counts as FREE. -/
theorem Model.Shaped.pathAt_of_gt {m : Model} (h : m.Shaped) {n : Nat} (hn : 127 < n) : pathAt m.paths n = .free := by
  obtain ⟨_, hpaths, _⟩ := h
  by_contra taken
  have inTable := lt_of_pathAt_ne_free taken
  omega

theorem State.Shaped.model {s : State} (h : s.Shaped) : s.model.Shaped := by
  obtain ⟨_, _, _, hmodel, _⟩ := h
  exact hmodel

/-! ## The set that a clear joins (R137, R139) -/

theorem Change.addClear_of_global {c : Change} (h : c.object = .global) :
    c.addClear = c.mapGlobal fun d => { d with clear := true } := by
  cases c with
  | global d => rfl
  | path n d => cases h
  | mic n d => cases h
  | feed n d => cases h

theorem Change.addClear_of_mic {c : Change} {n : Nat} (h : c.object = .mic n) :
    c.addClear = c.mapMic fun d => { d with clear := true } := by
  cases c with
  | mic n d => rfl
  | path n d => cases h
  | feed n d => cases h
  | global d => cases h

theorem Change.addClear_of_path {c : Change} {n : Nat} (h : c.object = .path n) :
    c.addClear = c.mapPath fun d => { d with clear := true } := by
  cases c with
  | path n d => rfl
  | mic n d => cases h
  | feed n d => cases h
  | global d => cases h

/-- What is staged on an object depends only on what the request makes of sets on that object. -/
theorem stageInto_congr (p : Port) (b : BlockNo) {o : Object} {f g : Change → Change} (h : ∀ c, c.object = o → f c = g c)
    (l : List ChangeSet) : stageInto p b o f l = stageInto p b o g l := by
  unfold stageInto
  rw [h (.empty o) (Change.empty_object o)]
  congr 1
  refine List.map_congr_left fun c _ => ?_
  by_cases onObject : c.object = o
  · rw [if_pos onObject, if_pos onObject, h c.change onObject]
  · rw [if_neg onObject, if_neg onObject]

theorem State.stage_congr (s : State) (p : Port) {o : Object} {f g : Change → Change} (h : ∀ c, c.object = o → f c = g c) :
    s.stage p o f = s.stage p o g := by
  rw [State.stage_eq, State.stage_eq, stageInto_congr p _ h]

/-! ## The answer at the port -/

theorem exec_clearModel_takes {s : State} {p : Port} {body : List Byte} (h : s.Takes p .clearModel body) :
    exec (.clearModel p body) s =
      .next ((answerClearModel p body s.settle).1.answered p .clearModel (answerClearModel p body s.settle).2.status
        (answerClearModel p body s.settle).2.body) :=
  congrArg Host.Outcome.next ((State.request_takes h _).trans (State.respond_eq _ _ _ _))

theorem exec_clearModel_noObject {s : State} {p : Port} {body : List Byte} (h : s.Takes p .clearModel body)
    (noObject : clearObject s.settle.model.paths (field body 0 1) (field body 1 1) = none) :
    exec (.clearModel p body) s = .next (s.settle.answered p .clearModel .noSuchObject []) := by
  rw [exec_clearModel_takes h, answerClearModel, noObject]
  rfl

/-- Where the scope has an object, the claim on it decides between PENDING_OTHER and the port's set. -/
theorem exec_clearModel_onObject {s : State} {p : Port} {body : List Byte} {o : Object} {f : Change → Change}
    (h : s.Takes p .clearModel body)
    (object : clearObject s.settle.model.paths (field body 0 1) (field body 1 1) = some o)
    (clears : ∀ c, c.object = o → c.addClear = f c) :
    ((s.settle.ownSet (otherPort p) o).isSome = true →
      exec (.clearModel p body) s = .next (s.settle.answered p .clearModel .pendingOther [])) ∧
    ((s.settle.ownSet (otherPort p) o).isSome = false →
      exec (.clearModel p body) s = .next ((s.settle.stage p o f).answered p .clearModel .accepted [])) := by
  rw [exec_clearModel_takes h, answerClearModel, object]
  constructor
  · intro claimed
    have claimedByOther : s.settle.claimedByOther p o = true := claimed
    simp only [claimedByOther, if_true]
    rfl
  · intro unclaimed
    have unclaimedByOther : s.settle.claimedByOther p o = false := unclaimed
    simp only [unclaimedByOther, Bool.false_eq_true, if_false, State.stage_congr _ _ clears]
    rfl

end Sys2Proof.Machine
end

section
/-! PROOFS. The statement about CLEAR MODEL. -/

open Sys2Proof Sys2Proof.Machine

/-- Settles O37, scope by scope: whether the scope has an object, and if it has, the claim on it. -/
theorem clearModelStaged : Obligations.ClearModelStaged := by
  intro s p body shaped takes
  refine ⟨?unknownScope, ?all, ?noMic, ?mic, ?noPath, ?path⟩
  case unknownScope =>
    intro scope
    exact exec_clearModel_noObject takes (clearObject_unknownScope _ _ scope)
  case all =>
    intro scope
    exact exec_clearModel_onObject takes (clearObject_all _ _ scope) fun _ => Change.addClear_of_global
  case noMic =>
    intro scope number
    exact exec_clearModel_noObject takes (clearObject_noMic _ scope number)
  case mic =>
    intro scope number
    exact exec_clearModel_onObject takes (clearObject_mic _ scope number) fun _ => Change.addClear_of_mic
  case noPath =>
    intro scope noPath
    have free : pathAt s.settle.model.paths (field body 1 1) = .free :=
      noPath.elim shaped.settle.model.pathAt_of_gt id
    exact exec_clearModel_noObject takes (clearObject_noPath scope free)
  case path =>
    intro scope _ notFree
    exact exec_clearModel_onObject takes (clearObject_path scope notFree) fun _ => Change.addClear_of_path

end

section
/-! PROOFS. The record that a path request names, SET PATH and the pending set it joins (R70), and what CLOSE PATH makes of its port's
set on the path (R64). -/

namespace Sys2Proof.Machine

/-! ## Path requests at the port -/

/-- A request that passes the port's checks leaves the port answered with what its owner says. -/
theorem State.request_takes_answered {s : State} {p : Port} {k : Kind} {body : List Byte} (h : s.Takes p k body)
    (owner : State → State × Reply) :
    s.request p k body owner =
      (owner s.settle).1.answered p k (owner s.settle).2.status (owner s.settle).2.body :=
  (State.request_takes h owner).trans (State.respond_eq _ _ _ _)

/-- R64, R70. In a table of 128 records, a number with no record and the number of a FREE record are refused alike. -/
theorem Model.Shaped.noPath_iff {m : Model} (h : m.Shaped) (n : Nat) :
    127 < n ∨ pathAt m.paths n = .free ↔ pathAt m.paths n = .free :=
  or_iff_right_of_imp h.pathAt_of_gt

/-! ## The fields of SET PATH (R70) -/

/-- Clamping to 0..1 leaves 1 of exactly the codes that are not 0. -/
theorem clampNat_zero_one_beq_one (code : Nat) : (clampNat 0 1 code == 1) = decide (1 ≤ code) := by
  rw [Bool.beq_eq_decide_eq, decide_eq_decide]
  unfold clampNat
  omega

theorem parseSetPath_frozen (body : List Byte) :
    (parseSetPath body).frozen =
      if (field body 1 1).testBit 3 then some (decide (1 ≤ field body 7 1)) else none := by
  rw [← clampNat_zero_one_beq_one]
  simp only [parseSetPath, optField]
  split
  · rfl
  · rfl

theorem parseSetPath_clamped_iff (body : List Byte) :
    (parseSetPath body).clamped = true ↔
      (field body 1 1).testBit 0 = true ∧ 3 < field body 2 1 ∨
      (field body 1 1).testBit 1 = true ∧ (field body 3 2 < 1 ∨ 255 < field body 3 2) ∨
      (field body 1 1).testBit 2 = true ∧ (field body 5 2 < 1 ∨ 255 < field body 5 2) ∨
      (field body 1 1).testBit 3 = true ∧ 1 < field body 7 1 := by
  simp only [parseSetPath, Bool.or_eq_true, optClamped_iff, Nat.not_lt_zero, false_or, or_assoc]

/-- A pending set on a path with the fields of a SET PATH body put over it. -/
theorem PathChange.mergeSettings_parseSetPath (c : PathChange) (body : List Byte) :
    c.mergeSettings (parseSetPath body) =
      { c with
        base := if (field body 1 1).testBit 0 then some (min 3 (field body 2 1)) else c.base
        fast := if (field body 1 1).testBit 1 then some (max 1 (min 255 (field body 3 2))) else c.fast
        slow := if (field body 1 1).testBit 2 then some (max 1 (min 255 (field body 5 2))) else c.slow
        frozen := if (field body 1 1).testBit 3 then some (decide (1 ≤ field body 7 1)) else c.frozen } := by
  have ofBase := optField_or (field body 1 1) 0 0 3 (field body 2 1) c.base
  have ofFast := optField_or (field body 1 1) 1 1 255 (field body 3 2) c.fast
  have ofSlow := optField_or (field body 1 1) 2 1 255 (field body 5 2) c.slow
  have ofFrozen : (parseSetPath body).frozen.or c.frozen =
      if (field body 1 1).testBit 3 then some (decide (1 ≤ field body 7 1)) else c.frozen := by
    rw [parseSetPath_frozen]
    split
    · rfl
    · rfl
  rw [Nat.zero_max] at ofBase
  rw [← ofBase, ← ofFast, ← ofSlow, ← ofFrozen]
  rfl

/-! ## SET PATH at the port (R70) -/

theorem exec_setPath_takes {s : State} {p : Port} {body : List Byte} (h : s.Takes p .setPath body) :
    exec (.setPath p body) s =
      .next ((answerSetPath p body s.settle).1.answered p .setPath (answerSetPath p body s.settle).2.status
        (answerSetPath p body s.settle).2.body) :=
  congrArg Host.Outcome.next (State.request_takes_answered h _)

/-- The checks of R70 in their order, and the set that a request which passes them is staged into. -/
theorem answerSetPath_eq (p : Port) (body : List Byte) {u : State} (shaped : u.Shaped) :
    answerSetPath p body u =
      if 127 < field body 0 1 ∨ pathAt u.model.paths (field body 0 1) = .free then (u, .refuse .noSuchObject)
      else if (u.ownSet (otherPort p) (.path (field body 0 1))).isSome then (u, .refuse .pendingOther)
      else if (u.ownChange p (.path (field body 0 1))).pathPart.close then (u, .refuse .noSuchObject)
      else (u.stage p (.path (field body 0 1)) (Change.mapPath fun c => c.mergeSettings (parseSetPath body)),
        .accept (parseSetPath body).clamped []) := by
  simp only [shaped.model.noPath_iff]
  rfl

/-! ## What CLOSE PATH makes of its port's set (R64) -/

/-- The set that a port has on an object is about that object. -/
theorem State.object_of_ownSet {s : State} {p : Port} {o : Object} {c : ChangeSet} (h : s.ownSet p o = some c) :
    c.object = o := by
  have onObject := List.find?_some h
  exact eq_of_beq onObject

/-- A set on a path holds that path's parts. -/
theorem Change.eq_path_of_object {c : Change} {n : Nat} (h : c.object = .path n) : c = .path n c.pathPart := by
  cases c with
  | path m d =>
    cases h
    rfl
  | mic m d => cases h
  | feed m d => cases h
  | global d => cases h

/-- A pending open that is discarded gives back its segments and its record. -/
theorem State.returnSet_of_opening (s : State) {c : ChangeSet} {n : Nat} (object : c.object = .path n)
    (opening : c.change.pathPart.opening.isSome = true) :
    s.returnSet c = (s.markSegs .free c.change.pathPart.reservations).markPath n .free := by
  have isPath : c.change = .path n c.change.pathPart := Change.eq_path_of_object object
  unfold State.returnSet
  rw [isPath]
  exact if_pos opening

theorem State.closeAt_of_noSet {s : State} {p : Port} {n : Nat} (h : s.ownSet p (.path n) = none) :
    s.closeAt p n = s.stage p (.path n) (Change.mapPath fun c => { c with close := true }) := by
  rw [State.closeAt, h]

/-- An own open is withdrawn: its segments, its record and the set itself. -/
theorem State.closeAt_of_opening {s : State} {p : Port} {n : Nat} {c : ChangeSet} (own : s.ownSet p (.path n) = some c)
    (opening : c.change.pathPart.opening.isSome = true) :
    s.closeAt p n =
      { (s.markSegs .free c.change.pathPart.reservations).markPath n .free with
        stager := s.stager.set p
          { s.stager.get p with list := (s.stager.get p).list.filter fun d => d.object != .path n } } := by
  have discards : s.closeAt p n = s.discard p (.path n) := by
    rw [State.closeAt, own]
    exact if_pos opening
  rw [discards, State.discard, own]
  dsimp only
  rw [s.returnSet_of_opening (State.object_of_ownSet own) opening]
  rfl

theorem State.closeAt_of_close {s : State} {p : Port} {n : Nat} {c : ChangeSet} (own : s.ownSet p (.path n) = some c)
    (noOpening : c.change.pathPart.opening = none) (close : c.change.pathPart.close = true) : s.closeAt p n = s := by
  simp only [State.closeAt, own, noOpening, close, Option.isSome_none, Bool.false_eq_true, if_false, if_true]

/-- Any other own set gives its reservations back and is replaced where it stands. -/
theorem State.closeAt_of_settings {s : State} {p : Port} {n : Nat} {c : ChangeSet} (own : s.ownSet p (.path n) = some c)
    (noOpening : c.change.pathPart.opening = none) (noClose : c.change.pathPart.close = false) :
    s.closeAt p n =
      { s.markSegs .free c.change.pathPart.reservations with
        stager := s.stager.set p { s.stager.get p with list := closeInstead n (s.stager.get p).list } } := by
  simp only [State.closeAt, own, noOpening, noClose, Option.isSome_none, Bool.false_eq_true, if_false]
  rfl

/-! ## CLOSE PATH at the port (R64) -/

theorem exec_closePath_takes {s : State} {p : Port} {body : List Byte} (h : s.Takes p .closePath body) :
    exec (.closePath p body) s =
      .next ((answerClosePath p body s.settle).1.answered p .closePath (answerClosePath p body s.settle).2.status
        (answerClosePath p body s.settle).2.body) :=
  congrArg Host.Outcome.next (State.request_takes_answered h _)

theorem exec_closePath_noPath {s : State} {p : Port} {body : List Byte} (h : s.Takes p .closePath body)
    (free : pathAt s.settle.model.paths (field body 0 1) = .free) :
    exec (.closePath p body) s = .next (s.settle.answered p .closePath .noSuchObject []) := by
  rw [exec_closePath_takes h, answerClosePath, if_pos free]
  rfl

theorem exec_closePath_claimed {s : State} {p : Port} {body : List Byte} (h : s.Takes p .closePath body)
    (notFree : pathAt s.settle.model.paths (field body 0 1) ≠ .free)
    (claimed : (s.settle.ownSet (otherPort p) (.path (field body 0 1))).isSome = true) :
    exec (.closePath p body) s = .next (s.settle.answered p .closePath .pendingOther []) := by
  have claimedByOther : s.settle.claimedByOther p (.path (field body 0 1)) = true := claimed
  rw [exec_closePath_takes h, answerClosePath, if_neg notFree, if_pos claimedByOther]
  rfl

/-- An unclaimed path that is not FREE is closed by what its port has pending on it. -/
theorem exec_closePath_closes {s : State} {p : Port} {body : List Byte} (h : s.Takes p .closePath body)
    (notFree : pathAt s.settle.model.paths (field body 0 1) ≠ .free)
    (unclaimed : (s.settle.ownSet (otherPort p) (.path (field body 0 1))).isSome = false) :
    exec (.closePath p body) s = .next ((s.settle.closeAt p (field body 0 1)).answered p .closePath .accepted []) := by
  have unclaimedByOther : ¬ s.settle.claimedByOther p (.path (field body 0 1)) = true := ne_true_of_eq_false unclaimed
  rw [exec_closePath_takes h, answerClosePath, if_neg notFree, if_neg unclaimedByOther]
  rfl

end Sys2Proof.Machine
end

section
/-! PROOFS. The statements about SET PATH and CLOSE PATH. -/

open Sys2Proof Sys2Proof.Machine

/-- Settles O30, check by check in R70's order; the request that passes them is staged with its fields merged and clamped. -/
theorem setPathStaged : Obligations.SetPathStaged := by
  intro s p body shaped takes
  dsimp only
  rw [exec_setPath_takes takes, answerSetPath_eq p body shaped.settle]
  congr 1
  by_cases noPath : 127 < field body 0 1 ∨ pathAt s.settle.model.paths (field body 0 1) = .free
  · rw [if_pos noPath, if_pos noPath]
    rfl
  rw [if_neg noPath, if_neg noPath]
  by_cases claimed : (s.settle.ownSet (otherPort p) (.path (field body 0 1))).isSome = true
  · rw [if_pos claimed, if_pos claimed]
    rfl
  rw [if_neg claimed, if_neg claimed]
  by_cases closing : (s.settle.ownChange p (.path (field body 0 1))).pathPart.close = true
  · rw [if_pos closing, if_pos closing]
    rfl
  rw [if_neg closing, if_neg closing]
  simp only [PathChange.mergeSettings_parseSetPath, Reply.accept, parseSetPath_clamped_iff]

/-- Settles O34: the two refusals, and then the four things that the port's own set on the path can be. -/
theorem closePathActs : Obligations.ClosePathActs := by
  intro s p body shaped takes
  refine ⟨?noPath, ?claimed, ?closes⟩
  case noPath =>
    intro noPath
    exact exec_closePath_noPath takes ((shaped.settle.model.noPath_iff _).mp noPath)
  case claimed =>
    intro _ notFree claimed
    exact exec_closePath_claimed takes notFree claimed
  case closes =>
    intro _ notFree unclaimed
    have closes := exec_closePath_closes takes notFree unclaimed
    refine ⟨?noSet, ?opening, ?close, ?settings⟩
    case noSet =>
      intro noSet
      rw [closes, State.closeAt_of_noSet noSet]
    case opening =>
      intro c own opening
      rw [closes, State.closeAt_of_opening own opening]
    case close =>
      intro c own noOpening close
      rw [closes, State.closeAt_of_close own noOpening close]
    case settings =>
      intro c own noOpening noClose
      rw [closes, State.closeAt_of_settings own noOpening noClose]
      rfl

end

section
/-! PROOFS. What a port has pending on an object once a request is staged there (R139), and SET GLOBAL with its response (R104, R106). -/

namespace Sys2Proof.Machine

/-! ## A port's set on an object once a request is staged there (R139) -/

/-- Staging looks for a set on the object exactly where the port's own set is found. -/
theorem State.any_onObject (s : State) (p : Port) (o : Object) :
    ((s.stager.get p).list.any fun c => c.object == o) = (s.ownSet p o).isSome :=
  List.isSome_find?.symm

/-- A first request on an object makes the port's set there. -/
theorem State.ownSet_stage_of_none {s : State} {p : Port} {o : Object} {f : Change → Change} (hf : KeepsObject f)
    (own : s.ownSet p o = none) :
    (s.stage p o f).ownSet p o = some { port := p, acceptBlock := s.array.counter, change := f (.empty o) } := by
  have onObject : (f (.empty o)).object = o := (hf _).trans (Change.empty_object o)
  rw [State.stage_eq, State.ownSet, PerPort.get_set_same, stageInto, s.any_onObject, own]
  rw [State.ownSet] at own
  rw [Option.isSome_none, if_neg Bool.false_ne_true, List.find?_append, own, Option.none_or]
  exact List.find?_cons_of_pos (p := fun c : ChangeSet => c.object == o) (beq_iff_eq.mpr onObject)

/-- A further request on an object joins the port's set there. -/
theorem State.ownSet_stage_of_some {s : State} {p : Port} {o : Object} {f : Change → Change} (hf : KeepsObject f)
    {c : ChangeSet} (own : s.ownSet p o = some c) :
    (s.stage p o f).ownSet p o = some { c with change := f c.change } := by
  have sameObject : ∀ d : ChangeSet,
      (if d.object = o then { d with change := f d.change } else d : ChangeSet).object = d.object := by
    intro d
    split
    · exact hf d.change
    · rfl
  rw [State.stage_eq, State.ownSet, PerPort.get_set_same, stageInto, s.any_onObject, own]
  rw [Option.isSome_some, if_pos rfl, List.find?_map]
  simp only [Function.comp_def, sameObject]
  have onObject : c.object = o := State.object_of_ownSet own
  rw [State.ownSet] at own
  rw [own, Option.map_some, if_pos onObject]

/-- A port's pending change on an object has the request's effect once the request is staged, whether or not it had a set there. -/
theorem State.ownChange_stage (s : State) (p : Port) (o : Object) {f : Change → Change} (hf : KeepsObject f) :
    (s.stage p o f).ownChange p o = f (s.ownChange p o) := by
  rw [State.ownChange, State.ownChange]
  cases own : s.ownSet p o with
  | none => rw [State.ownSet_stage_of_none hf own]; rfl
  | some c => rw [State.ownSet_stage_of_some hf own]; rfl

theorem State.ownChange_object (s : State) (p : Port) (o : Object) : (s.ownChange p o).object = o := by
  rw [State.ownChange]
  cases own : s.ownSet p o with
  | none => exact Change.empty_object o
  | some c => exact State.object_of_ownSet own

theorem Change.globalPart_mapGlobal {c : Change} (h : c.object = .global) (f : GlobalChange → GlobalChange) :
    (c.mapGlobal f).globalPart = f c.globalPart := by
  cases c with
  | global d => rfl
  | path n d => cases h
  | mic n d => cases h
  | feed n d => cases h

/-! ## The fields of SET GLOBAL (R104) -/

/-- Clamping to 1 keeps apart the code 0, FAIR, and all others, which become GREEDY. -/
theorem Scan.ofCode_clampNat (code : Nat) :
    Scan.ofCode (clampNat 0 1 code) = if code = 0 then .fair else .greedy := by
  have zero_iff : clampNat 0 1 code = 0 ↔ code = 0 := by
    unfold clampNat
    omega
  simp only [Scan.ofCode, zero_iff]

theorem parseSetGlobal_scan (body : List Byte) :
    (parseSetGlobal body).scan =
      if (field body 0 1).testBit 1 then some (if field body 5 1 = 0 then .fair else .greedy) else none := by
  rw [← Scan.ofCode_clampNat]
  simp only [parseSetGlobal, optField]
  split
  · rfl
  · rfl

theorem parseSetGlobal_clamped_iff (body : List Byte) :
    (parseSetGlobal body).clamped = true ↔
      (field body 0 1).testBit 0 = true ∧ (field body 1 4 < 1 ∨ 16777216 < field body 1 4) ∨
      (field body 0 1).testBit 1 = true ∧ 1 < field body 5 1 := by
  simp only [parseSetGlobal, Bool.or_eq_true, optClamped_iff, Nat.not_lt_zero, false_or, Config.maxDelta]

/-- A pending set on the global object with the fields of a SET GLOBAL body put over it. -/
theorem GlobalChange.merge_parseSetGlobal (c : GlobalChange) (body : List Byte) :
    c.merge (parseSetGlobal body) =
      { c with
        delta := if (field body 0 1).testBit 0 then some (max 1 (min 16777216 (field body 1 4))) else c.delta
        scan := if (field body 0 1).testBit 1 then some (if field body 5 1 = 0 then .fair else .greedy) else c.scan } := by
  have ofDelta := optField_or (field body 0 1) 0 1 16777216 (field body 1 4) c.delta
  have ofScan : (parseSetGlobal body).scan.or c.scan =
      if (field body 0 1).testBit 1 then some (if field body 5 1 = 0 then .fair else .greedy) else c.scan := by
    rw [parseSetGlobal_scan]
    split
    · rfl
    · rfl
  rw [← ofDelta, ← ofScan]
  rfl

/-! ## SET GLOBAL at the port (R104, R106) -/

/-- R106. The response shows the settings in force with the port's pending fields, this request's among them, put over them. -/
theorem globalBody_stage (u : State) (p : Port) (f : GlobalChange → GlobalChange) :
    globalBody (u.stage p .global (Change.mapGlobal f)) p =
      le 4 ((f (u.ownChange p .global).globalPart).delta.getD u.globals.delta) ++
        [byte ((f (u.ownChange p .global).globalPart).scan.getD u.globals.scan).code] := by
  have pendingPart : ((u.stage p .global (Change.mapGlobal f)).ownChange p .global).globalPart =
      f (u.ownChange p .global).globalPart := by
    rw [u.ownChange_stage p .global (keepsObject_mapGlobal f), Change.globalPart_mapGlobal (u.ownChange_object p .global)]
  rw [globalBody, pendingPart]
  rfl

theorem exec_setGlobal_takes {s : State} {p : Port} {body : List Byte} (h : s.Takes p .setGlobal body) :
    exec (.setGlobal p body) s =
      .next ((answerSetGlobal p body s.settle).1.answered p .setGlobal (answerSetGlobal p body s.settle).2.status
        (answerSetGlobal p body s.settle).2.body) :=
  congrArg Host.Outcome.next (State.request_takes_answered h _)

/-- The other port's claim refuses; else the request is staged and answered from the state that it leaves. -/
theorem answerSetGlobal_eq (p : Port) (body : List Byte) (u : State) :
    answerSetGlobal p body u =
      if (u.ownSet (otherPort p) .global).isSome then (u, .refuse .pendingOther)
      else (u.stage p .global (Change.mapGlobal fun c => c.merge (parseSetGlobal body)),
        .accept (parseSetGlobal body).clamped
          (globalBody (u.stage p .global (Change.mapGlobal fun c => c.merge (parseSetGlobal body))) p)) := rfl

end Sys2Proof.Machine
end

section
/-! PROOFS. The statement about SET GLOBAL. -/

open Sys2Proof Sys2Proof.Machine

/-- Settles O31, by the other port's claim; the response of a request that is staged reads the merged set over the settings in force. -/
theorem setGlobalStaged : Obligations.SetGlobalStaged := by
  intro s p body takes
  dsimp only
  rw [exec_setGlobal_takes takes, answerSetGlobal_eq]
  congr 1
  by_cases claimed : (s.settle.ownSet (otherPort p) .global).isSome = true
  · rw [if_pos claimed, if_pos claimed]
    rfl
  rw [if_neg claimed, if_neg claimed, globalBody_stage]
  simp only [GlobalChange.merge_parseSetGlobal, Reply.accept, parseSetGlobal_clamped_iff]

end

section
/-! PROOFS. The fields of SET MIC, and SET MIC at the port and at the microphone's pending set (R133). -/

namespace Sys2Proof.Machine

/-! ## The fields of SET MIC (R133) -/

theorem parseSetMic_clamped_iff (body : List Byte) :
    (parseSetMic body).clamped = true ↔
      (field body 1 1).testBit 0 = true ∧ (field body 2 1 < 1 ∨ 64 < field body 2 1) ∨
      (field body 1 1).testBit 1 = true ∧ 31 < field body 3 1 ∨
      (field body 1 1).testBit 2 = true ∧ 32767 < field body 4 2 := by
  simp only [parseSetMic, Bool.or_eq_true, optClamped_iff, Nat.not_lt_zero, false_or, or_assoc]

/-- A pending set on a microphone with the fields of a SET MIC body put over it; a pending clear stays in it. -/
theorem MicChange.merge_parseSetMic (c : MicChange) (body : List Byte) :
    c.merge (parseSetMic body) =
      { c with
        theta := if (field body 1 1).testBit 0 then some (max 1 (min 64 (field body 2 1))) else c.theta
        hang := if (field body 1 1).testBit 1 then some (min 31 (field body 3 1)) else c.hang
        floor := if (field body 1 1).testBit 2 then some (min 32767 (field body 4 2)) else c.floor } := by
  have ofTheta := optField_or (field body 1 1) 0 1 64 (field body 2 1) c.theta
  have ofHang := optField_or (field body 1 1) 1 0 31 (field body 3 1) c.hang
  have ofFloor := optField_or (field body 1 1) 2 0 32767 (field body 4 2) c.floor
  rw [Nat.zero_max] at ofHang ofFloor
  rw [← ofTheta, ← ofHang, ← ofFloor]
  rfl

/-! ## SET MIC at the port (R133) -/

theorem exec_setMic_takes {s : State} {p : Port} {body : List Byte} (h : s.Takes p .setMic body) :
    exec (.setMic p body) s =
      .next ((answerSetMic p body s.settle).1.answered p .setMic (answerSetMic p body s.settle).2.status
        (answerSetMic p body s.settle).2.body) :=
  congrArg Host.Outcome.next (State.request_takes_answered h _)

/-- The checks of R133 in their order, and the set that a request which passes them is staged into. -/
theorem answerSetMic_eq (p : Port) (body : List Byte) (u : State) :
    answerSetMic p body u =
      if 24 ≤ field body 0 1 then (u, .refuse .noSuchObject)
      else if (u.ownSet (otherPort p) (.mic (field body 0 1))).isSome then (u, .refuse .pendingOther)
      else (u.stage p (.mic (field body 0 1)) (Change.mapMic fun c => c.merge (parseSetMic body)),
        .accept (parseSetMic body).clamped []) := rfl

end Sys2Proof.Machine
end

section
/-! PROOFS. The statement about SET MIC. -/

open Sys2Proof Sys2Proof.Machine

/-- Settles O28, check by check in R133's order; the request that passes them is staged with its fields merged and clamped. -/
theorem setMicStaged : Obligations.SetMicStaged := by
  intro s p body takes
  dsimp only
  rw [exec_setMic_takes takes, answerSetMic_eq]
  congr 1
  by_cases noMic : 24 ≤ field body 0 1
  · rw [if_pos noMic, if_pos noMic]
    rfl
  rw [if_neg noMic, if_neg noMic]
  by_cases claimed : (s.settle.ownSet (otherPort p) (.mic (field body 0 1))).isSome = true
  · rw [if_pos claimed, if_pos claimed]
    rfl
  rw [if_neg claimed, if_neg claimed]
  simp only [MicChange.merge_parseSetMic, Reply.accept, parseSetMic_clamped_iff]

end

section
/-! PROOFS. The response of IDENTIFY in bytes, and IDENTIFY at the port (R162, R168). -/

namespace Sys2Proof.Machine

/-- R166. The part code travels with its low byte first. -/
theorem le_partCode : le 2 0x2408 = [0x08#8, 0x24#8] := rfl

/-- R162. What is settled before the answer grants nothing, so the response after settling shows the grant that the port had when the
request came. -/
theorem identifyBody_settle (s : State) (p : Port) :
    identifyBody s.settle p =
      [0x08#8, 0x24#8, 1#8, byte (portCode p), byte (s.ctl.get p).grant.code] ++ le 4 s.settle.array.counter.toNat ++
        [flagByte s.settle.standby, flagByte (s.settle.stager.get p).hold] := by
  rw [identifyBody, State.settle_ctl, le_partCode]
  rfl

/-- IDENTIFY has no check of its own: a request that passes the port's is answered from the settled state, which stays. -/
theorem exec_identify_takes {s : State} {p : Port} {body : List Byte} (h : s.Takes p .identify body) :
    exec (.identify p body) s = .next (s.settle.answered p .identify .accepted (identifyBody s.settle p)) :=
  congrArg Host.Outcome.next (State.request_takes_answered h (answerIdentify p body))

end Sys2Proof.Machine
end

section
/-! PROOFS. The statement about IDENTIFY. -/

open Sys2Proof Sys2Proof.Machine

/-- Settles O18: the codes of ports and flags by their cases, and the response from the settled state with the grant of before. -/
theorem identifyAnswers : Obligations.IdentifyAnswers := by
  refine ⟨?codes, ?answers⟩
  case codes => exact ⟨rfl, rfl, rfl, rfl⟩
  case answers =>
    intro s p body takes
    dsimp only
    rw [exec_identify_takes takes, identifyBody_settle]

end

section
/-! PROOFS. What the owner of a request can do to the part, said once for every kind. -/

namespace Sys2Proof.Machine

/-- What the owner of a kind's requests answers. -/
def Kind.owner (k : Kind) (p : Port) (body : List Byte) : State → State × Reply :=
  match k with
  | .identify => answerIdentify p body
  | .readPath => answerReadPath p body
  | .readMic => answerReadMic p body
  | .readReference => answerReadReference p body
  | .readTaps => answerReadTaps p body
  | .readEvents => answerReadEvents p body
  | .readCounters => answerReadCounters p body
  | .readPool => answerReadPool p body
  | .setMic => answerSetMic p body
  | .setReference => answerSetReference p body
  | .setPath => answerSetPath p body
  | .setGlobal => answerSetGlobal p body
  | .acquire => answerAcquire p body
  | .hold => answerHold p body
  | .release => answerRelease p body
  | .mute => answerMute p body
  | .meter => answerMeter p body
  | .watch => answerWatch p body
  | .eventEnable => answerEventEnable p body
  | .openPath => answerOpenPath p body
  | .closePath => answerClosePath p body
  | .setWindows => answerSetWindows p body
  | .writeTaps => answerWriteTaps p body
  | .clearModel => answerClearModel p body
  | .route => answerRoute body
  | .standby => answerStandby p
  | .wake => answerWake
  | .resetPart => answerResetPart
  | .resetPort => answerResetPort p

/-- The command of a request hands its body to its kind's owner. -/
theorem exec_command (k : Kind) (p : Port) (body : List Byte) (s : State) :
    exec (k.command p body) s = .next (s.request p k body (k.owner p body)) := by
  cases k <;> rfl

/-- What a port's request, other than RESET PART, can make of the part in its owner's hands: `OwnerStep p u t` leads from `u` to `t`. -/
inductive OwnerStep (p : Port) (u : State) : State → Prop where
  | same : OwnerStep p u u
  | report (r : Report) (shaped : (u.report.get p).Shaped → r.Shaped) : OwnerStep p u (u.setReport p r)
  | stage (o : Object) (f : Change → Change) (keeps : KeepsObject f) (unclaimed : ¬ u.claimedByOther p o = true)
      (taken : ∀ n, o = .path n → pathAt u.model.paths n ≠ .free) : OwnerStep p u (u.stage p o f)
  | stager (g : Stager) (sameSets : g.list = (u.stager.get p).list) : OwnerStep p u (u.setStager p g)
  | mask (m : MicMask) : OwnerStep p u (u.setReqMask p m)
  | routes (r : List Dest) (length : r.length = u.routes.length) : OwnerStep p u { u with routes := r }
  | openAt (n : Nat) (r : OpenPathReq) (isFree : freeRecord u.model.paths = some n) : OwnerStep p u (u.openAt p n r)
  | closeAt (n : Nat) (taken : pathAt u.model.paths n ≠ .free) (unclaimed : ¬ u.claimedByOther p (.path n) = true) :
      OwnerStep p u (u.closeAt p n)
  | reshapeAt (n : Nat) (windows : List Geom) (taken : pathAt u.model.paths n ≠ .free)
      (unclaimed : ¬ u.claimedByOther p (.path n) = true) : OwnerStep p u (u.reshapeAt p n windows)
  | wakeUp : OwnerStep p u u.wakeUp
  | resetPort : OwnerStep p u (u.resetPort p)

theorem Stager.startHold_list (g : Stager) : g.startHold.list = g.list := by
  unfold Stager.startHold
  split <;> rfl

theorem Stager.release_list (g : Stager) : g.release.list = g.list := by
  unfold Stager.release
  split <;> rfl

/-- An object that a CLEAR MODEL names is no FREE path. -/
theorem clearObject_taken {paths : List PathRec} {scope number : Nat} {o : Object} (h : clearObject paths scope number = some o)
    (n : Nat) (ho : o = .path n) : pathAt paths n ≠ .free := by
  subst ho
  unfold clearObject at h
  split at h
  · cases h
  · split at h <;> cases h
  · split at h
    · cases h
    · next taken =>
      cases h
      exact taken
  · cases h

theorem answerWatch_step (p : Port) (body : List Byte) (u : State) : OwnerStep p u (answerWatch p body u).1 := by
  simp only [answerWatch]
  split
  · exact .report _ fun ⟨queueLength, watches⟩ => ⟨queueLength, List.length_set.trans watches⟩
  · exact .same

theorem answerRoute_step (p : Port) (body : List Byte) (u : State) : OwnerStep p u (answerRoute body u).1 := by
  simp only [answerRoute]
  split
  · exact .routes _ (foldl_setRoute_length _ _)
  · exact .same

theorem answerSetPath_step (p : Port) (body : List Byte) (u : State) : OwnerStep p u (answerSetPath p body u).1 := by
  simp only [answerSetPath]
  split
  · exact .same
  · next taken =>
    split
    · exact .same
    · next unclaimed =>
      split
      · exact .same
      · refine .stage _ _ (keepsObject_mapPath _) unclaimed ?_
        rintro n ⟨⟩
        exact taken

theorem answerOpenPath_step (p : Port) (body : List Byte) (u : State) : OwnerStep p u (answerOpenPath p body u).1 := by
  simp only [answerOpenPath]
  split
  · exact .same
  · split
    · exact .same
    · split
      · exact .same
      · split
        · exact .same
        · next n isFree =>
          split
          · exact .same
          · exact .openAt n _ isFree

theorem answerClosePath_step (p : Port) (body : List Byte) (u : State) : OwnerStep p u (answerClosePath p body u).1 := by
  simp only [answerClosePath]
  split
  · exact .same
  · next taken =>
    split
    · exact .same
    · next unclaimed => exact .closeAt _ taken unclaimed

theorem answerSetWindows_step (p : Port) (body : List Byte) (u : State) : OwnerStep p u (answerSetWindows p body u).1 := by
  simp only [answerSetWindows]
  split
  · exact .same
  · next taken =>
    split
    · exact .same
    · next unclaimed =>
      split
      · exact .same
      · split
        · exact .same
        · split
          · exact .same
          · exact .reshapeAt _ _ taken unclaimed

theorem answerWriteTaps_step (p : Port) (body : List Byte) (u : State) : OwnerStep p u (answerWriteTaps p body u).1 := by
  simp only [answerWriteTaps]
  split
  · exact .same
  · split
    · exact .same
    · next taken =>
      split
      · exact .same
      · next unclaimed =>
        split
        · exact .same
        · split
          · exact .same
          · split
            · exact .same
            · split
              · exact .same
              · refine .stage _ _ (keepsObject_mapPath _) unclaimed ?_
                rintro n ⟨⟩
                exact taken

/-- What a request comes to in its owner's hands is one of a few things, whatever its kind and its body. -/
theorem Kind.owner_step {k : Kind} (noReset : k ≠ .resetPart) (p : Port) (body : List Byte) (u : State) :
    OwnerStep p u (k.owner p body u).1 := by
  cases k with
  | identify => exact .same
  | readPath =>
    simp only [Kind.owner, answerReadPath]
    split <;> exact .same
  | readMic =>
    simp only [Kind.owner, answerReadMic]
    split <;> exact .same
  | readReference =>
    simp only [Kind.owner, answerReadReference]
    split <;> exact .same
  | readTaps =>
    simp only [Kind.owner, answerReadTaps]
    split
    · split <;> exact .same
    · exact .same
  | readEvents => exact .report _ fun ⟨queueLength, watches⟩ => ⟨(takeRecords_length _ _ _).trans queueLength, watches⟩
  | readCounters => exact .report _ id
  | readPool => exact .same
  | setMic =>
    simp only [Kind.owner, answerSetMic]
    split
    · exact .same
    · split
      · exact .same
      · next unclaimed => exact .stage _ _ (keepsObject_mapMic _) unclaimed fun n h => by cases h
  | setReference =>
    simp only [Kind.owner, answerSetReference]
    split
    · exact .same
    · split
      · exact .same
      · split
        · exact .same
        · next unclaimed => exact .stage _ _ (keepsObject_mapFeed _) unclaimed fun n h => by cases h
  | setPath => exact answerSetPath_step p body u
  | setGlobal =>
    simp only [Kind.owner, answerSetGlobal]
    split
    · exact .same
    · next unclaimed => exact .stage _ _ (keepsObject_mapGlobal _) unclaimed fun n h => by cases h
  | acquire =>
    simp only [Kind.owner, answerAcquire]
    split
    · exact .same
    · split
      · exact .same
      · next unclaimed =>
        split
        · exact .same
        · exact .stage _ _ (keepsObject_mapFeed _) unclaimed fun n h => by cases h
  | hold => exact .stager _ (Stager.startHold_list _)
  | release => exact .stager _ (Stager.release_list _)
  | mute => exact .mask _
  | meter => exact .report _ id
  | watch => exact answerWatch_step p body u
  | eventEnable => exact .report _ id
  | openPath => exact answerOpenPath_step p body u
  | closePath => exact answerClosePath_step p body u
  | setWindows => exact answerSetWindows_step p body u
  | writeTaps => exact answerWriteTaps_step p body u
  | clearModel =>
    simp only [Kind.owner, answerClearModel]
    split
    · exact .same
    · next o named =>
      split
      · exact .same
      · next unclaimed => exact .stage _ _ keepsObject_addClear unclaimed (clearObject_taken named)
  | route => exact answerRoute_step p body u
  | standby => exact .stager _ rfl
  | wake => exact .wakeUp
  | resetPart => exact absurd rfl noReset
  | resetPort => exact .resetPort

end Sys2Proof.Machine
end

section
/-! PROOFS. What every command keeps: one lemma over the commands, from what the part's operations keep. -/

namespace Sys2Proof.Machine

/-- A property that each operation a command may be made of keeps. -/
structure KeptByOperations (P : State → Prop) : Prop where
  powerOn : ∀ {s : State} (x : Straps), P s → P (s.powerOn x)
  feedBit : ∀ {s : State} (b : LineBit), P s → P (s.feedBit b)
  arrayBit : ∀ {s : State} (b : LineBit), P s → P (s.arrayBit b)
  expireHolds : ∀ {s : State}, P s → P s.expireHolds
  supervisorStage : ∀ {s : State}, P s → P s.supervisorStage
  runThreshold : ∀ {s : State} (m : Nat), P s → P (s.runThreshold m)
  micDiverged : ∀ {s : State} (m : Nat), P s → P (s.micDiverged m)
  alignmentStage : ∀ {s : State}, P s → P s.alignmentStage
  bulkResult : ∀ {s : State}, P s → P s.bulkResult
  checkExpiry : ∀ {s : State} (f : Nat), P s → P (s.checkExpiry f)
  arbiterStage : ∀ {s : State}, P s → P s.arbiterStage
  updateStage : ∀ {s : State}, P s → P s.updateStage
  meterExpiry : ∀ {s : State} (q : Port), P s → P (s.meterExpiry q)
  stopExpiry : ∀ {s : State}, P s → P s.stopExpiry
  transaction : ∀ {s : State} (p : Port) (c : Ctl) (n : Nat), P s → P { s.setCtl p c with freeCount := n }
  owner : ∀ {s t : State} {p : Port}, OwnerStep p s t → P s → P t
  resetPart : ∀ {s : State}, P s → P s.resetPart

section
variable {P : State → Prop} (ops : KeptByOperations P) {s : State}
include ops

theorem KeptByOperations.setCtl (p : Port) (c : Ctl) (h : P s) : P (s.setCtl p c) := ops.transaction p c s.freeCount h

theorem KeptByOperations.settle (h : P s) : P s.settle := ops.meterExpiry .p1 (ops.meterExpiry .p0 (ops.expireHolds h))

theorem KeptByOperations.kindOwner (k : Kind) (p : Port) (body : List Byte) (h : P s) : P (k.owner p body s).1 := by
  by_cases reset : k = .resetPart
  · subst reset
    exact ops.resetPart h
  · exact ops.owner (Kind.owner_step reset p body s) h

theorem KeptByOperations.request (p : Port) (k : Kind) (body : List Byte) (h : P s) :
    P (s.request p k body (k.owner p body)) := by
  obtain e | e | ⟨st, e⟩ | e := s.request_cases p k body (k.owner p body)
  · rw [e]; exact h
  · rw [e]; exact ops.setCtl _ _ h
  · rw [e]; exact ops.setCtl _ _ (ops.settle h)
  · rw [e]; exact ops.setCtl _ _ (ops.kindOwner k p body (ops.settle h))

theorem KeptByOperations.endWrite (p : Port) (bytes : List Byte) {taken : State → State} (ht : ∀ t, P t → P (taken t)) (h : P s) :
    P (s.endWrite p bytes taken) := by
  unfold State.endWrite
  split
  · split
    · exact ht _ (ops.settle h)
    · exact h
  · exact ops.setCtl _ _ h
  · exact h
  · exact h

theorem KeptByOperations.badRequest (p : Port) (bytes : List Byte) (h : P s) : P (s.badRequest p bytes) := by
  unfold State.badRequest
  split
  · exact ops.endWrite p bytes (fun t ht => ops.setCtl _ _ ht) h
  · exact h

theorem KeptByOperations.begin (o : Opening) (early : List Byte) (h : P s) : P (s.begin o early) := by
  unfold State.begin
  split
  · split
    · split
      · exact ops.setCtl _ _ h
      · split
        · exact ops.setCtl _ _ h
        · exact ops.transaction _ _ _ h
    · exact h
  · split
    · exact h
    · split
      · exact ops.setCtl _ _ h
      · split
        · exact ops.setCtl _ _ h
        · exact ops.setCtl _ _ h

theorem KeptByOperations.endEmpty (p : Port) (h : P s) : P (s.endEmpty p) := by
  unfold State.endEmpty
  split
  · exact h
  · exact ops.setCtl _ _ h

theorem KeptByOperations.receive (a : AudioPort) (bits : List LineBit) (h : P s) : P (s.receive a bits) :=
  State.receive_keeps (fun _ b h => ops.feedBit b h) (fun _ b h => ops.arrayBit b h) s a bits h

/-- Every command answers a next state, and keeps what the operations keep. -/
theorem KeptByOperations.exec (c : Instr) (h : P s) : ∃ t, exec c s = .next t ∧ P t := by
  cases c with
  | powerOnReset x => exact ⟨_, rfl, ops.powerOn x h⟩
  | feedFrameArrival bits => exact ⟨_, rfl, ops.receive .feed bits h⟩
  | arrayFrameArrival bits => exact ⟨_, rfl, ops.receive .array bits h⟩
  | frameSync a => exact ⟨_, rfl, ops.receive a.port a.bits h⟩
  | holdExpired => exact ⟨_, rfl, ops.expireHolds h⟩
  | supervisorStage => exact ⟨_, rfl, ops.supervisorStage h⟩
  | runThreshold m => exact ⟨_, rfl, ops.runThreshold m h⟩
  | micDiverged m => exact ⟨_, rfl, ops.micDiverged m h⟩
  | alignmentStage => exact ⟨_, rfl, ops.alignmentStage h⟩
  | bulkResult => exact ⟨_, rfl, ops.bulkResult h⟩
  | checkCountdownExpiry f => exact ⟨_, rfl, ops.checkExpiry f h⟩
  | arbiterStage => exact ⟨_, rfl, ops.arbiterStage h⟩
  | updateStage => exact ⟨_, rfl, ops.updateStage h⟩
  | meterTimerExpiry p => exact ⟨_, rfl, ops.meterExpiry p h⟩
  | stopTimerExpiry => exact ⟨_, rfl, ops.stopExpiry h⟩
  | unknownKind p bytes => exact ⟨_, rfl, ops.badRequest p bytes h⟩
  | transactionBegin o early => exact ⟨_, rfl, ops.begin o early h⟩
  | transactionEndNoRequest p => exact ⟨_, rfl, ops.endEmpty p h⟩
  | identify p body => exact ⟨_, rfl, ops.request p .identify body h⟩
  | readPath p body => exact ⟨_, rfl, ops.request p .readPath body h⟩
  | readMic p body => exact ⟨_, rfl, ops.request p .readMic body h⟩
  | readReference p body => exact ⟨_, rfl, ops.request p .readReference body h⟩
  | readTaps p body => exact ⟨_, rfl, ops.request p .readTaps body h⟩
  | readEvents p body => exact ⟨_, rfl, ops.request p .readEvents body h⟩
  | readCounters p body => exact ⟨_, rfl, ops.request p .readCounters body h⟩
  | readPool p body => exact ⟨_, rfl, ops.request p .readPool body h⟩
  | setMic p body => exact ⟨_, rfl, ops.request p .setMic body h⟩
  | setReference p body => exact ⟨_, rfl, ops.request p .setReference body h⟩
  | setPath p body => exact ⟨_, rfl, ops.request p .setPath body h⟩
  | setGlobal p body => exact ⟨_, rfl, ops.request p .setGlobal body h⟩
  | acquire p body => exact ⟨_, rfl, ops.request p .acquire body h⟩
  | hold p body => exact ⟨_, rfl, ops.request p .hold body h⟩
  | release p body => exact ⟨_, rfl, ops.request p .release body h⟩
  | mute p body => exact ⟨_, rfl, ops.request p .mute body h⟩
  | meter p body => exact ⟨_, rfl, ops.request p .meter body h⟩
  | watch p body => exact ⟨_, rfl, ops.request p .watch body h⟩
  | eventEnable p body => exact ⟨_, rfl, ops.request p .eventEnable body h⟩
  | openPath p body => exact ⟨_, rfl, ops.request p .openPath body h⟩
  | closePath p body => exact ⟨_, rfl, ops.request p .closePath body h⟩
  | setWindows p body => exact ⟨_, rfl, ops.request p .setWindows body h⟩
  | writeTaps p body => exact ⟨_, rfl, ops.request p .writeTaps body h⟩
  | clearModel p body => exact ⟨_, rfl, ops.request p .clearModel body h⟩
  | route p body => exact ⟨_, rfl, ops.request p .route body h⟩
  | standby p body => exact ⟨_, rfl, ops.request p .standby body h⟩
  | wake p body => exact ⟨_, rfl, ops.request p .wake body h⟩
  | resetPart p body => exact ⟨_, rfl, ops.request p .resetPart body h⟩
  | resetPort p body => exact ⟨_, rfl, ops.request p .resetPort body h⟩

/-- A step keeps what the operations keep, where the property does not speak of the queue of commands. -/
theorem KeptByOperations.step {t : State} (queue : ∀ rest, P s → P { s with pending := rest }) (h : P s)
    (hstep : Machine.step s = .next t) : P t := by
  unfold Machine.step at hstep
  split at hstep
  next =>
    obtain rfl := Host.Outcome.next.inj hstep
    exact h
  next c rest _ =>
    obtain ⟨u, hexec, hu⟩ := ops.exec c (queue rest h)
    obtain rfl := Host.Outcome.next.inj (hexec.symm.trans hstep)
    exact hu

end

end Sys2Proof.Machine
end

section
/-! PROOFS. The sizes of the part's stores, and the queue of commands, over every command. -/

namespace Sys2Proof.Machine

theorem OwnerStep.shaped {p : Port} {s t : State} (step : OwnerStep p s t) (h : s.Shaped) : t.Shaped := by
  cases step with
  | same => exact h
  | report r shaped => exact h.setReport p (shaped (h.report_get p))
  | stage o f => exact h.stage p o f
  | stager g => exact h.setStager p g
  | mask m => exact h
  | routes r length =>
    obtain ⟨feedPort, array, hist, model, seen, pool, queues, routes, reports⟩ := h
    exact ⟨feedPort, array, hist, model, seen, pool, queues, length.trans routes, reports⟩
  | openAt n r => exact h.openAt p n r
  | closeAt n => exact h.closeAt p n
  | reshapeAt n windows => exact h.reshapeAt p n windows
  | wakeUp => exact h.wakeUp
  | resetPort => exact h.resetPort p

theorem shaped_keptByOperations : KeptByOperations State.Shaped where
  powerOn x _ := State.powerOn_shaped _ x
  feedBit b h := h.feedBit b
  arrayBit b h := h.arrayBit b
  expireHolds h := h.expireHolds
  supervisorStage h := h.supervisorStage
  runThreshold m h := h.runThreshold m
  micDiverged m h := h.micDiverged m
  alignmentStage h := h.alignmentStage
  bulkResult h := h.bulkResult
  checkExpiry f h := h.checkExpiry f
  arbiterStage h := h.arbiterStage
  updateStage h := h.updateStage
  meterExpiry q h := h.meterExpiry q
  stopExpiry h := h.stopExpiry
  transaction _ _ _ h := h
  owner step h := step.shaped h
  resetPart _ := State.resetPart_shaped _

/-! ## What an owner leaves alone -/

/-- The return of a set touches the model and what READ POOL counts (R44). -/
theorem State.returnSet_eq (s : State) (c : ChangeSet) : ∃ m v, s.returnSet c = { s with model := m, pool := v } := by
  simp only [State.returnSet]
  split
  · split <;> exact ⟨_, _, rfl⟩
  all_goals exact ⟨_, _, rfl⟩

theorem State.foldl_returnSet_eq (l : List ChangeSet) (s : State) :
    ∃ m v, l.foldl State.returnSet s = { s with model := m, pool := v } := by
  induction l generalizing s with
  | nil => exact ⟨_, _, rfl⟩
  | cons c l ih =>
    obtain ⟨m, v, head⟩ := s.returnSet_eq c
    obtain ⟨m', v', tail⟩ := ih (s.returnSet c)
    refine ⟨m', v', tail.trans ?_⟩
    rw [head]

theorem State.discard_eq (s : State) (p : Port) (o : Object) :
    ∃ m v g, s.discard p o = { s with model := m, pool := v, stager := g } := by
  unfold State.discard
  split
  · exact ⟨_, _, _, rfl⟩
  next c _ =>
    obtain ⟨m, v, h⟩ := s.returnSet_eq c
    rw [h]
    exact ⟨_, _, _, rfl⟩

/-- A close touches the model, what READ POOL counts, and the pending sets (R64). -/
theorem State.closeAt_eq (s : State) (p : Port) (n : Nat) :
    ∃ m v g, s.closeAt p n = { s with model := m, pool := v, stager := g } := by
  unfold State.closeAt
  split
  · exact ⟨_, _, _, rfl⟩
  · dsimp only
    split
    · exact s.discard_eq p _
    · split <;> exact ⟨_, _, _, rfl⟩

/-- WAKE touches the votes, the standby state and the reports (R151). -/
theorem State.wakeUp_eq (s : State) : ∃ g b r, s.wakeUp = { s with stager := g, standby := b, report := r } := by
  unfold State.wakeUp
  dsimp only
  split
  · rw [State.raise_frame]
    exact ⟨_, _, _, rfl⟩
  · exact ⟨_, _, _, rfl⟩

/-- A RESET PORT touches the model, what READ POOL counts, the pending sets, the requested masks and the reports (R164). -/
theorem State.resetPort_eq (s : State) (p : Port) :
    ∃ m v g c r, s.resetPort p = { s with model := m, pool := v, stager := g, canc := c, report := r } := by
  obtain ⟨m, v, h⟩ := State.foldl_returnSet_eq (s.stager.get p).list s
  simp only [State.resetPort, State.discardAll, h]
  exact ⟨_, _, _, _, _, rfl⟩

/-- An owner leaves the array port, the processing and what reads see alone. -/
theorem OwnerStep.audio {p : Port} {u t : State} (h : OwnerStep p u t) :
    t.array = u.array ∧ t.proc = u.proc ∧ t.seen = u.seen := by
  cases h with
  | closeAt n =>
    obtain ⟨m, v, g, h⟩ := u.closeAt_eq p n
    rw [h]
    exact ⟨rfl, rfl, rfl⟩
  | wakeUp =>
    obtain ⟨g, b, r, h⟩ := u.wakeUp_eq
    rw [h]
    exact ⟨rfl, rfl, rfl⟩
  | resetPort =>
    obtain ⟨m, v, g, c, r, h⟩ := u.resetPort_eq p
    rw [h]
    exact ⟨rfl, rfl, rfl⟩
  | _ => exact ⟨rfl, rfl, rfl⟩

theorem OwnerStep.pending {p : Port} {u t : State} (h : OwnerStep p u t) : t.pending = u.pending := by
  cases h with
  | closeAt n =>
    obtain ⟨m, v, g, h⟩ := u.closeAt_eq p n
    rw [h]
  | wakeUp =>
    obtain ⟨g, b, r, h⟩ := u.wakeUp_eq
    rw [h]
  | resetPort =>
    obtain ⟨m, v, g, c, r, h⟩ := u.resetPort_eq p
    rw [h]
  | _ => rfl

/-! ## The queue of commands -/

theorem State.arrayArrival_pending (s : State) (f : FrameEnd) : (s.arrayArrival f).pending = s.pending := by
  have handOff (u : State) : (u.handOff f).pending = u.pending := by
    unfold State.handOff
    split
    · cases f with
      | wellFormed slots => exact (Kept.blockStart u).pending
      | faulted => exact ((Kept.blockStart u).trans (Kept.expireHolds _)).pending
    · rfl
  have joinRow (u : State) : (u.joinRow f).pending = u.pending := by cases f <;> rfl
  have finish (u : State) : u.finishBeforeWrite.pending = u.pending := by
    unfold State.finishBeforeWrite
    split
    · split
      · exact (Kept.finishProcessing u).pending
      · rfl
    · rfl
  unfold State.arrayArrival State.readFeed
  rw [handOff, joinRow]
  calc _ = s.settle.finishBeforeWrite.restartTimer.resume.feedRead.1.pending := rfl
    _ = s.settle.finishBeforeWrite.pending := by rw [State.feedRead_pending, State.resume_pending]; rfl
    _ = s.pending := (finish _).trans (Kept.settle s).pending

theorem State.arrayBit_pending (s : State) (b : LineBit) : (s.arrayBit b).pending = s.pending := by
  unfold State.arrayBit
  dsimp only
  split
  · exact s.arrayArrival_pending _
  · split
    · exact (Kept.expireHolds s).pending
    · rfl

theorem State.stopExpiry_pending (s : State) : s.stopExpiry.pending = s.pending := by
  unfold State.stopExpiry
  split
  · rw [State.stopArray_eq, State.endProcessing, State.setProc_pending, (Kept.finishProcessing s).pending]
  · rfl

/-- No operation touches the queue of commands. -/
theorem pending_keptByOperations (q : List Instr) : KeptByOperations fun s => s.pending = q where
  powerOn _ h := h
  feedBit b h := by rw [State.feedBit_frame]; exact h
  arrayBit b h := (State.arrayBit_pending _ b).trans h
  expireHolds h := (Kept.expireHolds _).pending.trans h
  supervisorStage h := (Kept.supervisorStage _).pending.trans h
  runThreshold m h := (Kept.runThreshold _ m).pending.trans h
  micDiverged m h := (Kept.micDiverged _ m).pending.trans h
  alignmentStage h := (Kept.alignmentStage _).pending.trans h
  bulkResult h := (Kept.bulkResult _).pending.trans h
  checkExpiry f h := (Kept.checkExpiry _ f).pending.trans h
  arbiterStage h := (Kept.arbiterStage _).pending.trans h
  updateStage h := (Kept.updateStage _).pending.trans h
  meterExpiry q h := (Kept.meterExpiry _ q).pending.trans h
  stopExpiry h := (State.stopExpiry_pending _).trans h
  transaction _ _ _ h := h
  owner step h := step.pending.trans h
  resetPart h := h

end Sys2Proof.Machine
end

section
/-! PROOFS. The statements about steps, sizes and reset. -/

open Sys2Proof Sys2Proof.Machine

/-- Settles O1. -/
theorem stepRunsFrontCommand : Obligations.StepRunsFrontCommand :=
  fun _ _ _ => ⟨rfl, rfl⟩

/-- Settles O3: every operation that a command is made of keeps the sizes. -/
theorem sizesKeptByEveryStep : Obligations.SizesKeptByEveryStep :=
  fun _ _ shaped hstep => shaped_keptByOperations.step (fun _ h => h) shaped hstep

/-- Settles O6: the sizes at reset, an empty tap store, and two empty pending lists. -/
theorem invariantsHoldAtReset : Obligations.InvariantsHoldAtReset :=
  ⟨State.reset_shaped, ⟨Memory.wf_nil, Memory.wf_nil⟩, List.nodup_nil, fun _ h => nomatch h⟩

end

section
/-! PROOFS. Invariants of the tap store, the path table and the pending sets: what the operations of the part do to these alone. -/

namespace Sys2Proof.Machine

/-- Two states with the same coefficients, path table, snapshot for reads, and change stagers. -/
structure SameStores (s t : State) : Prop where
  coefs : t.model.coefs = s.model.coefs
  paths : t.model.paths = s.model.paths
  seen : t.seen = s.seen
  stager : t.stager = s.stager

theorem SameStores.refl (s : State) : SameStores s s := ⟨rfl, rfl, rfl, rfl⟩

theorem SameStores.trans {s t u : State} (h : SameStores s t) (k : SameStores t u) : SameStores s u :=
  ⟨k.coefs.trans h.coefs, k.paths.trans h.paths, k.seen.trans h.seen, k.stager.trans h.stager⟩

theorem SameStores.after {s t u : State} (k : SameStores t u) (h : SameStores s t) : SameStores s u := h.trans k

/-- States with one model, one snapshot and one pair of stagers. -/
theorem SameStores.of_model {s t : State} (model : t.model = s.model) (seen : t.seen = s.seen) (stager : t.stager = s.stager) :
    SameStores s t := ⟨by rw [model], by rw [model], seen, stager⟩

theorem SameStores.raise (s : State) (c : Record) : SameStores s (s.raise c) := .of_model (by simp) (by simp) (by simp)

theorem SameStores.foldl_post (s : State) (l : List Notice) : SameStores s (l.foldl State.post s) :=
  .of_model (by simp) (by simp) (by simp)

theorem SameStores.postMerged (s : State) (ls : List (List Notice)) : SameStores s (s.postMerged ls) := by
  obtain ⟨r, n, h⟩ := s.postMerged_eq ls
  rw [h]
  exact ⟨rfl, rfl, rfl, rfl⟩

theorem SameStores.cancelBlock (s : State) (p : Proc) : SameStores s (s.cancelBlock p) := by
  obtain ⟨g, a, b, o, d, h⟩ := s.cancelBlock_eq p
  rw [h]
  exact ⟨rfl, rfl, rfl, rfl⟩

theorem SameStores.setProc (s : State) (p : Option Proc) : SameStores s (s.setProc p) := ⟨rfl, rfl, rfl, rfl⟩

theorem SameStores.slipCheck (s : State) : SameStores s s.slipCheck := by
  obtain ⟨f, r, h, _⟩ := s.slipCheck_eq
  rw [h]
  exact ⟨rfl, rfl, rfl, rfl⟩

theorem SameStores.countDegraded (s : State) : SameStores s s.countDegraded := by
  obtain ⟨r, h, _⟩ := s.countDegraded_eq
  rw [h]
  exact ⟨rfl, rfl, rfl, rfl⟩

theorem SameStores.supervisorStage (s : State) : SameStores s s.supervisorStage := by
  unfold State.supervisorStage
  split
  · split
    · exact ⟨rfl, rfl, rfl, rfl⟩
    · exact .refl s
  · exact .refl s

theorem SameStores.enterConv (s : State) (m : Nat) (c : Conv) : SameStores s (s.enterConv m c) := ⟨rfl, rfl, rfl, rfl⟩

theorem SameStores.runThreshold (s : State) (m : Nat) : SameStores s (s.runThreshold m) := by
  unfold State.runThreshold
  dsimp only
  split
  · exact (SameStores.enterConv s m _).trans (.foldl_post _ _)
  · exact .refl s

theorem SameStores.micDiverged (s : State) (m : Nat) : SameStores s (s.micDiverged m) := by
  unfold State.micDiverged
  dsimp only
  split
  · exact (SameStores.foldl_post _ _).after ⟨rfl, rfl, rfl, rfl⟩
  · exact .refl s

theorem SameStores.bulkResult (s : State) : SameStores s s.bulkResult := by
  unfold State.bulkResult
  split
  · exact (SameStores.postMerged _ _).after ⟨rfl, rfl, rfl, rfl⟩
  · exact .refl s

theorem SameStores.checkExpiry (s : State) (f : Nat) : SameStores s (s.checkExpiry f) := by
  unfold State.checkExpiry
  split
  · exact ⟨rfl, rfl, rfl, rfl⟩
  · exact .refl s

theorem SameStores.expireMeter (s : State) (q : Port) (b : BlockNo) : SameStores s (s.expireMeter q b) := ⟨rfl, rfl, rfl, rfl⟩

theorem SameStores.feedRead (s : State) : SameStores s s.feedRead.1 := .of_model (by simp) (by simp) (by simp)

theorem SameStores.readFeed (s : State) : SameStores s s.readFeed :=
  SameStores.after (t := s.feedRead.1) ⟨rfl, rfl, rfl, rfl⟩ (.feedRead s)

theorem SameStores.resume (s : State) : SameStores s s.resume := .of_model (by simp) (by simp) (by simp)

theorem SameStores.joinRow (s : State) (f : FrameEnd) : SameStores s (s.joinRow f) := by
  cases f with
  | wellFormed slots => exact ⟨rfl, rfl, rfl, rfl⟩
  | faulted => exact ⟨rfl, rfl, rfl, rfl⟩

theorem SameStores.stopArray (s : State) : SameStores s s.stopArray := by
  rw [State.stopArray_eq]
  exact ⟨rfl, rfl, rfl, rfl⟩

/-- A property of the coefficients, the path table, the snapshot for reads and the pending sets, kept by whatever changes one of them. -/
structure StoreInvariant (P : State → Prop) : Prop where
  same : ∀ {s t : State}, P s → SameStores s t → P t
  powerOn : ∀ {s : State} (x : Straps), P s → P (s.powerOn x)
  landSets : ∀ {s : State}, P s → P s.landSets
  holds : ∀ {s : State} (g0 g1 : Stager), g0.list = s.stager.p0.list → g1.list = s.stager.p1.list → P s →
    P { s with stager := { p0 := g0, p1 := g1 } }
  complete : ∀ {s : State}, P s → P s.complete
  agePaths : ∀ {s : State} (granted : List QEntry), P s →
    P (s.setModel { s.model with paths := ageWindows granted s.model.paths })
  writeUpdates : ∀ {s : State} (p : Proc), P s → P (s.writeUpdates p)
  owner : ∀ {s t : State} {p : Port}, OwnerStep p s t → P s → P t
  resetPart : ∀ {s : State}, P s → P s.resetPart

theorem Stager.ageHold_list (g : Stager) : g.ageHold.list = g.list := by
  unfold Stager.ageHold
  split <;> rfl

theorem Stager.endHold_list (g : Stager) : g.endHold.list = g.list := by
  unfold Stager.endHold
  split <;> rfl

section
variable {P : State → Prop} (inv : StoreInvariant P) {s : State}
include inv

theorem StoreInvariant.landBlock (p : Proc) (e : PerPort Bool) (h : P s) : P (s.landBlock p e) :=
  inv.same (inv.landSets h) ((SameStores.cancelBlock s.landSets p).trans ((SameStores.setProc _ _).trans (.postMerged _ _)))

theorem StoreInvariant.expireHolds (h : P s) : P s.expireHolds := by
  unfold State.expireHolds
  split
  · split
    · exact inv.landBlock _ _ (inv.holds _ _ s.stager.p0.endHold_list s.stager.p1.endHold_list h)
    all_goals exact h
  · exact h

theorem StoreInvariant.takeBlock (h : P s) : P s.takeBlock := by
  have aged : P { s with stager := if s.standby then s.stager else { p0 := s.stager.p0.ageHold, p1 := s.stager.p1.ageHold } } := by
    split
    · exact h
    · exact inv.holds _ _ s.stager.p0.ageHold_list s.stager.p1.ageHold_list h
  exact inv.same aged ⟨rfl, rfl, rfl, rfl⟩

theorem StoreInvariant.blockStart (h : P s) : P s.blockStart := by
  have taken : P s.countDegraded.slipCheck.takeBlock :=
    inv.takeBlock (inv.same h ((SameStores.countDegraded s).trans (.slipCheck _)))
  unfold State.blockStart State.landUnlessHeld
  dsimp only
  split
  · exact taken
  · exact inv.landBlock _ _ taken

theorem StoreInvariant.alignmentStage (h : P s) : P s.alignmentStage := by
  unfold State.alignmentStage
  split
  · split
    · dsimp only
      split
      · exact inv.complete (inv.same h ⟨rfl, rfl, rfl, rfl⟩)
      · exact inv.same h ⟨rfl, rfl, rfl, rfl⟩
    · exact h
  · exact h

theorem StoreInvariant.arbiterStage (h : P s) : P s.arbiterStage := by
  unfold State.arbiterStage
  split
  next p _ =>
    split
    · exact inv.same (inv.agePaths (arbitrate s p).granted h) ⟨rfl, rfl, rfl, rfl⟩
    · exact h
  · exact h

theorem StoreInvariant.endStep (p : Proc) (due : Bool) (h : P s) : P (s.endStep p due) := by
  have raised : P s.raiseEntered := inv.same h (.raise s _)
  unfold State.endStep
  split
  · split
    · exact inv.same raised ⟨rfl, rfl, rfl, rfl⟩
    · exact inv.same h ⟨rfl, rfl, rfl, rfl⟩
  · split
    · exact inv.complete raised
    · exact inv.complete h

theorem StoreInvariant.updateStage (h : P s) : P s.updateStage := by
  unfold State.updateStage
  split
  next p _ =>
    split
    · exact inv.endStep p _ (inv.same (inv.writeUpdates p h) ⟨rfl, rfl, rfl, rfl⟩)
    · exact h
  · exact h

theorem StoreInvariant.meterExpiry (q : Port) (h : P s) : P (s.meterExpiry q) := by
  unfold State.meterExpiry
  split
  next p _ =>
    split
    · split
      · exact inv.endStep p _ (inv.same h (.expireMeter s q p.number))
      · exact h
    all_goals exact h
  · exact h

theorem StoreInvariant.settle (h : P s) : P s.settle := inv.meterExpiry .p1 (inv.meterExpiry .p0 (inv.expireHolds h))

omit inv in
theorem foldl_keeps {α : Type} {f : State → α → State} (keeps : ∀ s a, P s → P (f s a)) (l : List α) (h : P s) :
    P (l.foldl f s) := by
  induction l generalizing s with
  | nil => exact h
  | cons a l ih => exact ih (keeps s a h)

theorem StoreInvariant.finishProcessing (h : P s) : P s.finishProcessing := by
  have supervised : P s.settle.supervisorStage := inv.same (inv.settle h) (.supervisorStage _)
  have verdicts : P s.settle.supervisorStage.verdictSteps :=
    foldl_keeps (fun s m h => inv.same h ((SameStores.micDiverged s m).trans (.runThreshold _ m))) _ supervised
  have results : P s.settle.supervisorStage.verdictSteps.alignmentStage.bulkResult :=
    inv.same (inv.alignmentStage verdicts) (.bulkResult _)
  have checks : P s.settle.supervisorStage.verdictSteps.alignmentStage.bulkResult.checkExpiries :=
    foldl_keeps (fun s f h => inv.same h (.checkExpiry s f)) _ results
  exact inv.settle (inv.updateStage (inv.arbiterStage checks))

theorem StoreInvariant.finishBeforeWrite (h : P s) : P s.finishBeforeWrite := by
  unfold State.finishBeforeWrite
  split
  · split
    · exact inv.finishProcessing h
    · exact h
  · exact h

theorem StoreInvariant.handOff (f : FrameEnd) (h : P s) : P (s.handOff f) := by
  unfold State.handOff
  split
  · cases f with
    | wellFormed slots => exact inv.blockStart h
    | faulted => exact inv.expireHolds (inv.blockStart h)
  · exact h

theorem StoreInvariant.arrayArrival (f : FrameEnd) (h : P s) : P (s.arrayArrival f) := by
  have resumed : P s.settle.finishBeforeWrite.restartTimer.resume :=
    inv.same (inv.finishBeforeWrite (inv.settle h)) ((SameStores.resume _).after ⟨rfl, rfl, rfl, rfl⟩)
  exact inv.handOff f (inv.same resumed ((SameStores.readFeed _).trans (.joinRow _ f)))

theorem StoreInvariant.arrayBit (b : LineBit) (h : P s) : P (s.arrayBit b) := by
  unfold State.arrayBit
  dsimp only
  split
  · exact inv.same (inv.arrayArrival _ h) ⟨rfl, rfl, rfl, rfl⟩
  · split
    · exact inv.same (inv.expireHolds h) ⟨rfl, rfl, rfl, rfl⟩
    · exact inv.same h ⟨rfl, rfl, rfl, rfl⟩

theorem StoreInvariant.stopExpiry (h : P s) : P s.stopExpiry := by
  unfold State.stopExpiry
  split
  · exact inv.same (inv.finishProcessing h) ((SameStores.setProc _ none).trans (.stopArray _))
  · exact h

theorem StoreInvariant.keptByOperations : KeptByOperations P where
  powerOn x h := inv.powerOn x h
  feedBit b h := inv.same h (by rw [State.feedBit_frame]; exact ⟨rfl, rfl, rfl, rfl⟩)
  arrayBit b h := inv.arrayBit b h
  expireHolds h := inv.expireHolds h
  supervisorStage h := inv.same h (.supervisorStage _)
  runThreshold m h := inv.same h (.runThreshold _ m)
  micDiverged m h := inv.same h (.micDiverged _ m)
  alignmentStage h := inv.alignmentStage h
  bulkResult h := inv.same h (.bulkResult _)
  checkExpiry f h := inv.same h (.checkExpiry _ f)
  arbiterStage h := inv.arbiterStage h
  updateStage h := inv.updateStage h
  meterExpiry q h := inv.meterExpiry q h
  stopExpiry h := inv.stopExpiry h
  transaction _ _ _ h := inv.same h ⟨rfl, rfl, rfl, rfl⟩
  owner step h := inv.owner step h
  resetPart h := inv.resetPart h

/-- Such a property is kept by every step. -/
theorem StoreInvariant.step {t : State} (h : P s) (hstep : Machine.step s = .next t) : P t :=
  inv.keptByOperations.step (fun _ h => inv.same h ⟨rfl, rfl, rfl, rfl⟩) h hstep

end

end Sys2Proof.Machine
end

section
/-! PROOFS. The tap store's canonical form over a step (R42). -/

namespace Sys2Proof.Machine

theorem Model.closeStep_wf {m : Model} (c : ChangeSet) (h : Memory.wf m.coefs) : Memory.wf (m.closeStep c).coefs := by
  unfold Model.closeStep
  split
  · split
    · exact Memory.wf_zeroSegments h _
    · exact h
  all_goals exact h

theorem Model.layOut_wf {m : Model} (n : Nat) (p : OpenPath) (old : List Window) (layout : List Geom) (reserved : List Nat)
    (h : Memory.wf m.coefs) : Memory.wf (m.layOut n p old layout reserved).coefs :=
  Memory.wf_zeroSegments h _

theorem Model.shapeStep_wf {m : Model} (c : ChangeSet) (h : Memory.wf m.coefs) : Memory.wf (m.shapeStep c).coefs := by
  unfold Model.shapeStep
  split
  · split
    · exact Model.layOut_wf _ _ _ _ _ h
    · exact Model.layOut_wf _ _ _ _ _ h
    · exact h
  all_goals exact h

theorem Model.tapStep_wf {m : Model} (c : ChangeSet) (h : Memory.wf m.coefs) : Memory.wf (m.tapStep c).coefs := by
  unfold Model.tapStep
  split
  · split
    · exact Memory.wf_writeAll h _
    all_goals exact h
  all_goals exact h

theorem Model.foldl_wf {f : Model → ChangeSet → Model} (keeps : ∀ m c, Memory.wf m.coefs → Memory.wf (f m c).coefs)
    (sets : List ChangeSet) {m : Model} (h : Memory.wf m.coefs) : Memory.wf (sets.foldl f m).coefs := by
  induction sets generalizing m with
  | nil => exact h
  | cons c sets ih => exact ih (keeps m c h)

/-- The four steps of a block start keep the canonical form (R46). -/
theorem Model.applySets_wf {m : Model} (sets : List ChangeSet) (h : Memory.wf m.coefs) : Memory.wf (m.applySets sets).coefs :=
  Model.foldl_wf (fun _ c h => Model.tapStep_wf c h) sets
    (Model.foldl_wf (fun _ c h => Model.shapeStep_wf c h) sets
      (Model.foldl_wf (fun _ c h => Model.closeStep_wf c h) sets (Memory.wf_zeroSegments h _)))

/-- The return of a pending set's reservations and record touches no coefficient. -/
theorem State.returnSet_coefs (s : State) (c : ChangeSet) : (s.returnSet c).model.coefs = s.model.coefs := by
  simp only [State.returnSet]
  split
  · split <;> rfl
  all_goals rfl

theorem State.foldl_returnSet_coefs (l : List ChangeSet) (s : State) :
    (l.foldl State.returnSet s).model.coefs = s.model.coefs := by
  induction l generalizing s with
  | nil => rfl
  | cons c l ih => exact (ih (s.returnSet c)).trans (s.returnSet_coefs c)

theorem State.discard_coefs (s : State) (p : Port) (o : Object) : (s.discard p o).model.coefs = s.model.coefs := by
  unfold State.discard
  split
  · rfl
  · exact s.returnSet_coefs _

theorem State.closeAt_coefs (s : State) (p : Port) (n : Nat) : (s.closeAt p n).model.coefs = s.model.coefs := by
  unfold State.closeAt
  split
  · rfl
  · dsimp only
    split
    · exact s.discard_coefs _ _
    · split <;> rfl

theorem OwnerStep.coefs {p : Port} {s t : State} (step : OwnerStep p s t) :
    t.model.coefs = s.model.coefs := by
  cases step with
  | closeAt n => exact s.closeAt_coefs p n
  | wakeUp =>
    obtain ⟨g, b, r, h⟩ := s.wakeUp_eq
    rw [h]
  | resetPort => exact State.foldl_returnSet_coefs _ _
  | _ => rfl

theorem State.Canonical.of_stores {s t : State} (h : s.Canonical) (coefs : t.model.coefs = s.model.coefs) (seen : t.seen = s.seen) :
    t.Canonical := by
  unfold State.Canonical
  rw [coefs, seen]
  exact h

theorem OwnerStep.canonical {p : Port} {s t : State} (step : OwnerStep p s t) (h : s.Canonical) : t.Canonical := by
  obtain ⟨_, _, seen⟩ := step.audio
  exact h.of_stores step.coefs seen

theorem canonical_storeInvariant : StoreInvariant State.Canonical where
  same h k := h.of_stores k.coefs k.seen
  powerOn _ _ := ⟨Memory.wf_nil, Memory.wf_nil⟩
  landSets h := ⟨Model.applySets_wf _ h.1, h.2⟩
  holds _ _ _ _ h := h
  complete h := ⟨h.1, h.1⟩
  agePaths _ h := h
  writeUpdates _ h := ⟨Memory.wf_writeAll h.1 _, h.2⟩
  owner step h := step.canonical h
  resetPart _ := ⟨Memory.wf_nil, Memory.wf_nil⟩

end Sys2Proof.Machine
end

section
/-! PROOFS. One owner of each pending object over a step (R138). -/

namespace Sys2Proof.Machine

/-- A path record that is not FREE stays so when segments change state. -/
theorem State.Claimed.markSegs {s : State} (h : s.Claimed) (st : SegState) (l : List Nat) : (s.markSegs st l).Claimed :=
  h.of_eq rfl rfl

theorem State.Claimed.setStager {s : State} (h : s.Claimed) (p : Port) {g : Stager}
    (objects : g.objects = (s.stager.get p).objects) : (s.setStager p g).Claimed := by
  cases p with
  | p0 => exact h.of_same objects rfl fun _ => id
  | p1 => exact h.of_same rfl objects fun _ => id

theorem State.Claimed.setStager_of_list {s : State} (h : s.Claimed) (p : Port) {g : Stager}
    (sameSets : g.list = (s.stager.get p).list) : (s.setStager p g).Claimed :=
  h.setStager p (congrArg (List.map ChangeSet.object) sameSets)

theorem freeRecord_free {paths : List PathRec} {n : Nat} (h : freeRecord paths = some n) :
    n < paths.length ∧ pathAt paths n = .free := by
  obtain ⟨inTable, isFree, _⟩ := List.findIdx?_eq_some_iff_getElem.mp h
  refine ⟨inTable, ?_⟩
  rw [pathAt, List.getD_eq_getElem _ _ inTable]
  exact beq_iff_eq.mp isFree

/-- The record of a new path is taken, and no port has a set pending on it, because it was FREE. -/
theorem State.Claimed.openAt {s : State} (h : s.Claimed) (p : Port) {n : Nat} (r : OpenPathReq)
    (isFree : freeRecord s.model.paths = some n) : (s.openAt p n r).Claimed := by
  obtain ⟨inTable, recordFree⟩ := freeRecord_free isFree
  have noSet : Object.path n ∉ s.objectsFrom p := fun pending => ((s.claimed_iff_from p).mp h).2 n pending recordFree
  have keepsTaken : ∀ k, pathAt s.model.paths k ≠ .free →
      pathAt (s.model.paths.set n (.pendingOpen r.mic r.feed)) k ≠ .free := by
    intro k taken
    by_cases same : k = n
    · subst same
      rw [pathAt_set_same inTable]
      exact PathRec.noConfusion
    · rw [pathAt_set_other _ _ same]
      exact taken
  have marked : ((s.markSegs (.reserved p) ((freePool s.model.segs).take (segmentsNeeded r.windows))).markPath n
      (.pendingOpen r.mic r.feed)).Claimed := h.of_same rfl rfl keepsTaken
  refine marked.stage p _ (keepsObject_mapPath _) (fun other => noSet (List.mem_append_right _ other)) ?_
  rintro k ⟨⟩
  exact (pathAt_set_same inTable).trans_ne PathRec.noConfusion

theorem closeInstead_objects (n : Nat) (l : List ChangeSet) :
    (closeInstead n l).map ChangeSet.object = l.map ChangeSet.object := by
  unfold closeInstead
  rw [List.map_map]
  refine List.map_congr_left fun c _ => ?_
  simp only [Function.comp_apply]
  split
  next onPath => exact onPath.symm
  next => rfl

theorem State.Claimed.closeAt {s : State} (h : s.Claimed) (p : Port) {n : Nat} (taken : pathAt s.model.paths n ≠ .free)
    (unclaimed : ¬ s.claimedByOther p (.path n) = true) : (s.closeAt p n).Claimed := by
  unfold State.closeAt
  split
  · refine h.stage p _ (keepsObject_mapPath _) (fun other => unclaimed (State.claimedByOther_iff.mpr other)) ?_
    rintro k ⟨⟩
    exact taken
  · dsimp only
    split
    · exact h.discard _ _
    · split
      · exact h
      · exact (h.markSegs _ _).setStager p (closeInstead_objects n _)

theorem State.Claimed.reshapeAt {s : State} (h : s.Claimed) (p : Port) {n : Nat} (windows : List Geom)
    (taken : pathAt s.model.paths n ≠ .free) (unclaimed : ¬ s.claimedByOther p (.path n) = true) :
    (s.reshapeAt p n windows).Claimed := by
  refine (h.markSegs _ _).stage p _ (keepsObject_mapPath _) (fun other => unclaimed (State.claimedByOther_iff.mpr other)) ?_
  rintro k ⟨⟩
  exact taken

theorem State.Claimed.wakeUp {s : State} (h : s.Claimed) : s.wakeUp.Claimed := by
  have votes : ((s.vote .p0 false).vote .p1 false).Claimed := h.of_same rfl rfl fun _ => id
  unfold State.wakeUp
  dsimp only
  split
  · exact votes.of_eq (State.raise_stager _ _) (by rw [State.raise_model])
  · exact votes

theorem OwnerStep.claimed {p : Port} {s t : State} (step : OwnerStep p s t) (h : s.Claimed) : t.Claimed := by
  cases step with
  | same => exact h
  | report r => exact h
  | stage o f keeps unclaimed taken =>
    exact h.stage p o keeps (fun other => unclaimed (State.claimedByOther_iff.mpr other)) taken
  | stager g sameSets => exact h.setStager_of_list p sameSets
  | mask m => exact h
  | routes r => exact h
  | openAt n r isFree => exact h.openAt p r isFree
  | closeAt n taken unclaimed => exact h.closeAt p taken unclaimed
  | reshapeAt n windows taken unclaimed => exact h.reshapeAt p windows taken unclaimed
  | wakeUp => exact h.wakeUp
  | resetPort =>
    have emptied := (h.discardAll p).setStager_of_list p (g := ((s.discardAll p).stager.get p).afterResetPort) rfl
    exact emptied.of_eq rfl rfl

theorem claimed_storeInvariant : StoreInvariant State.Claimed where
  same h k := h.of_eq k.stager k.paths
  powerOn _ _ := ⟨List.nodup_nil, fun _ pending => nomatch pending⟩
  landSets h := h.landSets
  holds _ _ same0 same1 h :=
    h.of_same (congrArg (List.map ChangeSet.object) same0) (congrArg (List.map ChangeSet.object) same1) fun _ => id
  complete h := h.of_eq rfl rfl
  agePaths granted h := h.of_same rfl rfl fun _ => ageWindows_ne_free granted
  writeUpdates _ h := h.of_eq rfl rfl
  owner step h := step.claimed h
  resetPart _ := ⟨List.nodup_nil, fun _ pending => nomatch pending⟩

end Sys2Proof.Machine
end

section
/-! PROOFS. The statements about the tap store's form and about claims. -/

open Sys2Proof Sys2Proof.Machine

/-- Settles O4: every write and every zeroing of the tap store keeps the form. -/
theorem tapStoreCanonicalInEveryStep : Obligations.TapStoreCanonicalInEveryStep :=
  fun _ _ canonical hstep => canonical_storeInvariant.step canonical hstep

/-- Settles O5: a set joins only where the other port has none, and a path is freed only with the set that frees it. -/
theorem oneOwnerInEveryStep : Obligations.OneOwnerInEveryStep :=
  fun _ _ claimed hstep => claimed_storeInvariant.step claimed hstep

end

section
/-! PROOFS. Commands of the part's own processing that are not due change nothing (log 2). -/

namespace Sys2Proof.Machine

theorem Proc.phase_ne {o : Option Proc} {ph : Phase} (h : o.map Proc.phase ≠ some ph) (p : Proc) (hp : o = some p) : p.phase ≠ ph := by
  rintro rfl
  exact h (congrArg (Option.map Proc.phase) hp)

theorem State.supervisorStage_idle {s : State} (h : s.proc.map Proc.phase ≠ some .supervise) : s.supervisorStage = s := by
  unfold State.supervisorStage
  split
  next p hp => exact if_neg (Proc.phase_ne h p hp)
  next => rfl

theorem Mic.divergeDue_iff (m : Mic) : m.divergeDue = true ↔ 8 ≤ m.divCount := decide_eq_true_iff

/-- The second part of step 5 is not due where the first is (R126, R127). -/
theorem Mic.runDue_of_diverging {m : Mic} (h : 8 ≤ m.divCount) : m.runDue = none := by
  unfold Mic.runDue
  exact if_pos (m.divergeDue_iff.mpr h)

theorem State.runThreshold_idle {s : State} {m : Nat} (h : s.verdictTurn m = false ∨ 8 ≤ (micAt s.model.mics m).divCount) :
    s.runThreshold m = s := by
  unfold State.runThreshold
  dsimp only
  split
  next turn due =>
    obtain noTurn | diverging := h
    · rw [noTurn] at turn
      cases turn
    · rw [Mic.runDue_of_diverging diverging] at due
      cases due
  next => rfl

theorem State.micDiverged_idle {s : State} {m : Nat} (h : s.verdictTurn m = false ∨ (micAt s.model.mics m).divCount < 8) :
    s.micDiverged m = s := by
  unfold State.micDiverged
  refine if_neg fun due => ?_
  obtain ⟨turn, diverging⟩ := Bool.and_eq_true_iff.mp due
  obtain noTurn | few := h
  · rw [noTurn] at turn
    cases turn
  · exact Nat.not_le.mpr few ((Mic.divergeDue_iff _).mp diverging)

theorem State.verdictsPending_iff (s : State) (p : Proc) :
    s.verdictsPending p = true ↔ p.standby = false ∧ verdictsDue s.model.mics ≠ [] := by
  simp [State.verdictsPending]

theorem State.alignmentStage_idle {s : State} (h : s.proc.map Proc.phase ≠ some .align ∨
    (s.proc.map Proc.standby = some false ∧ verdictsDue s.model.mics ≠ [])) : s.alignmentStage = s := by
  unfold State.alignmentStage
  split
  next p hp =>
    refine if_neg fun due => ?_
    obtain ⟨isAlign, noVerdict⟩ := Bool.and_eq_true_iff.mp due
    obtain notAlign | ⟨notStandby, verdict⟩ := h
    · exact Proc.phase_ne notAlign p hp (decide_eq_true_iff.mp isAlign)
    · rw [hp] at notStandby
      have pending := (s.verdictsPending_iff p).mpr ⟨Option.some.inj notStandby, verdict⟩
      rw [pending] at noVerdict
      cases noVerdict
  next => rfl

theorem State.inPhase_iff (s : State) (ph : Phase) : s.inPhase ph = true ↔ s.proc.map Proc.phase = some ph := by
  unfold State.inPhase
  split
  next p hp => simp [hp]
  next hp => simp [hp]

theorem State.bulkResult_idle {s : State}
    (h : s.proc.map Proc.phase ≠ some .arbitrate ∨ s.model.feeds.any Feed.resultDue = false) : s.bulkResult = s := by
  unfold State.bulkResult
  refine if_neg fun due => ?_
  obtain ⟨turn, result⟩ := Bool.and_eq_true_iff.mp due
  obtain elsewhere | noResult := h
  · exact elsewhere ((s.inPhase_iff _).mp turn)
  · rw [noResult] at result
    cases result

theorem Feed.checkDue_iff (f : Feed) : f.checkDue = true ↔ f.acq = .locked ∧ f.countdown = 0 := by
  simp [Feed.checkDue]

theorem State.checkExpiry_idle {s : State} {f : Nat}
    (h : s.proc.map Proc.phase ≠ some .arbitrate ∨ s.model.feeds.length ≤ f ∨ (feedAt s.model.feeds f).acq ≠ .locked ∨
      (feedAt s.model.feeds f).countdown ≠ 0) : s.checkExpiry f = s := by
  unfold State.checkExpiry
  refine if_neg fun due => ?_
  obtain ⟨turnAndFeed, check⟩ := Bool.and_eq_true_iff.mp due
  obtain ⟨turn, isFeed⟩ := Bool.and_eq_true_iff.mp turnAndFeed
  obtain ⟨locked, expired⟩ := (Feed.checkDue_iff _).mp check
  obtain elsewhere | noFeed | notLocked | running := h
  · exact elsewhere ((s.inPhase_iff _).mp turn)
  · exact Nat.not_lt.mpr noFeed (decide_eq_true_iff.mp isFeed)
  · exact notLocked locked
  · exact running expired

theorem State.arbiterStage_idle {s : State} (h : s.proc.map Proc.phase ≠ some .arbitrate ∨ s.resultsPending = true) :
    s.arbiterStage = s := by
  unfold State.arbiterStage
  split
  next p hp =>
    refine if_neg fun due => ?_
    obtain ⟨turn, noResult⟩ := Bool.and_eq_true_iff.mp due
    obtain elsewhere | pending := h
    · exact Proc.phase_ne elsewhere p hp (decide_eq_true_iff.mp turn)
    · rw [pending] at noResult
      cases noResult
  next => rfl

theorem State.updateStage_idle {s : State} (h : s.proc.map Proc.phase ≠ some .update) : s.updateStage = s := by
  unfold State.updateStage
  split
  next p hp => exact if_neg (Proc.phase_ne h p hp)
  next => rfl

theorem Meter.expired_iff (m : Meter) : m.expired = true ↔ m.running = true ∧ m.count = 0 := by
  simp [Meter.expired]

theorem State.meterExpiry_idle {s : State} {q : Port}
    (h : (∀ due, s.proc.map Proc.phase ≠ some (.meters due)) ∨ (s.report.get q).meter.running = false ∨
      (s.report.get q).meter.count ≠ 0) : s.meterExpiry q = s := by
  unfold State.meterExpiry
  split
  next p hp =>
    split
    next due atMeters =>
      refine if_neg fun expired => ?_
      obtain ⟨running, zero⟩ := (Meter.expired_iff _).mp expired
      obtain elsewhere | stopped | counting := h
      · exact Proc.phase_ne (elsewhere due) p hp atMeters
      · rw [stopped] at running
        cases running
      · exact counting zero
    all_goals rfl
  next => rfl

end Sys2Proof.Machine
end

section
/-! PROOFS. The statement about every command's answer. -/

open Sys2Proof Sys2Proof.Machine

/-- Settles O2: no operation touches the queue, and each idle clause is the one condition on which its command acts. -/
theorem everyCommandAnswersNext : Obligations.EveryCommandAnswersNext := by
  refine ⟨fun c s => (pending_keptByOperations s.pending).exec c rfl, fun s => ?_⟩
  refine ⟨fun h => ?_, fun h => ?_, fun m h => ?_, fun m h => ?_, fun h => ?_, fun h => ?_, fun f h => ?_, fun h => ?_, fun h => ?_,
    fun q h => ?_⟩
  · exact congrArg Host.Outcome.next (s.expireHolds_of_landed (Proc.phase_ne h))
  · exact congrArg Host.Outcome.next (State.supervisorStage_idle h)
  · exact congrArg Host.Outcome.next (State.runThreshold_idle h)
  · exact congrArg Host.Outcome.next (State.micDiverged_idle h)
  · exact congrArg Host.Outcome.next (State.alignmentStage_idle h)
  · exact congrArg Host.Outcome.next (State.bulkResult_idle h)
  · exact congrArg Host.Outcome.next (State.checkExpiry_idle h)
  · exact congrArg Host.Outcome.next (State.arbiterStage_idle h)
  · exact congrArg Host.Outcome.next (State.updateStage_idle h)
  · exact congrArg Host.Outcome.next (State.meterExpiry_idle h)

end

section
/-! PROOFS. Feed reads, the slip check, stops and resumes of the audio ports (R7 to R10, R14, R15). -/

namespace Sys2Proof.Machine

/-! ## Feed reads (R7, R8) -/

theorem State.feedRead_repeats {s : State} (live : s.feedPort.state = .live) (mark : s.feedPort.repeatMark = true) :
    s.feedRead = ((s.setFeedPort { s.feedPort with repeatMark := false }).countBoth .feedRepeat, s.feedPort.last) := by
  unfold State.feedRead
  rw [live, mark]

theorem State.feedRead_takes {s : State} {frame : List Sample} {rest : List (List Sample)} (live : s.feedPort.state = .live)
    (noMark : s.feedPort.repeatMark = false) (store : s.feedPort.store = frame :: rest) :
    s.feedRead = (s.takeOldest frame rest, frame) := by
  unfold State.feedRead
  rw [live, noMark, store]

theorem State.feedRead_loses {s : State} (live : s.feedPort.state = .live) (noMark : s.feedPort.repeatMark = false)
    (empty : s.feedPort.store = []) :
    s.feedRead = ((((s.setFeedPort { s.feedPort with state := .lost }).countBoth .feedLosses).raise
      { block := s.array.counter, event := .feedLost }).spoilLive, zeroFeeds) := by
  unfold State.feedRead
  rw [live, noMark, empty]

theorem State.feedRead_returns {s : State} {frame : List Sample} {rest : List (List Sample)} (lost : s.feedPort.state = .lost)
    (store : s.feedPort.store = frame :: rest) (fill : 16 ≤ s.feedPort.store.length) :
    s.feedRead = ((s.takeOldest frame rest).raise { block := s.array.counter, event := .feedBack }, frame) := by
  have enough : Config.returnFill ≤ rest.length + 1 := by rwa [store, List.length_cons] at fill
  unfold State.feedRead
  rw [lost, store]
  exact if_pos enough

theorem State.feedRead_waits {s : State} (lost : s.feedPort.state = .lost) (fill : s.feedPort.store.length < 16) :
    s.feedRead = (s.spoilLive, zeroFeeds) := by
  unfold State.feedRead
  rw [lost]
  split
  · next h _ => cases h
  · next h _ _ => cases h
  · next h _ _ => cases h
  · rfl
  · next frame rest _ store =>
    have few : ¬ Config.returnFill ≤ rest.length + 1 := by
      rw [store, List.length_cons] at fill
      exact Nat.not_le.mpr fill
    exact if_neg few

/-! ## The slip check (R10) -/

theorem State.slipCheck_lost {s : State} (lost : s.feedPort.state = .lost) : s.slipCheck = s := by
  unfold State.slipCheck
  simp only [lost]

theorem State.slipCheck_live {s : State} (live : s.feedPort.state = .live) :
    s.slipCheck =
      if 24 < s.feedPort.store.length then
        (s.setFeedPort { s.feedPort with store := s.feedPort.store.tail }).countBoth .feedDrop
      else if s.feedPort.store.length < 8 then s.setFeedPort { s.feedPort with repeatMark := true }
      else s := by
  unfold State.slipCheck
  simp only [live, Config.slipHigh, Config.slipLow]

/-! ## Stops and resumes (R14, R15) -/

/-- ADOUT at a STOPPED port carries zeros in a frame in progress (log 14). -/
theorem ArrayPort.driven_stopped {a : ArrayPort} (stopped : a.run = .stopped) :
    a.driven = if a.framing = .search then none else some ((List.replicate 24 0#16).map slotOfSample) := by
  unfold ArrayPort.driven
  cases a.framing with
  | search => rfl
  | inFrame n d =>
    simp only [Framing.busy, if_pos stopped]
    rfl

/-- The port stops with no processing left (R14, log 35). -/
theorem State.stopArray_setProc (u : State) : (u.setProc none).stopArray = { u with
    proc := none
    feedPort := { u.feedPort with repeatMark := false }
    array := { u.array with run := .stopped, stopTimer := false, rows := [], degraded := false }.drive
    report := ((u.countBoth .arrayStops).raise { block := u.array.counter, event := .arrayStopped }).report } := by
  have report := State.raise_report_congr (s := (u.setProc none).countBoth .arrayStops) (t := u.countBoth .arrayStops)
    { block := u.array.counter, event := .arrayStopped } rfl rfl
  rw [State.stopArray_eq, State.setProc_array, report]
  rfl

theorem OwnerStep.stopsIdle {p : Port} {s t : State} (step : OwnerStep p s t) (h : s.StopsIdle) : t.StopsIdle := by
  obtain ⟨array, proc, _⟩ := step.audio
  exact h.of_same (by rw [array]) fun none => proc.trans none

theorem stopsIdle_keptByOperations : KeptByOperations State.StopsIdle where
  powerOn _ _ := State.StopsIdle.of_running rfl
  feedBit b h := h.feedBit b
  arrayBit b h := h.arrayBit b
  expireHolds h := h.stage (Kept.expireHolds _) (State.expireHolds_of_none _)
  supervisorStage h := h.stage (Kept.supervisorStage _) (State.supervisorStage_of_none _)
  runThreshold m h := h.stage (Kept.runThreshold _ m) (State.runThreshold_of_none _ m)
  micDiverged m h := h.stage (Kept.micDiverged _ m) (State.micDiverged_of_none _ m)
  alignmentStage h := h.stage (Kept.alignmentStage _) (State.alignmentStage_of_none _)
  bulkResult h := h.stage (Kept.bulkResult _) (State.bulkResult_of_none _)
  checkExpiry f h := h.stage (Kept.checkExpiry _ f) (State.checkExpiry_of_none _ f)
  arbiterStage h := h.stage (Kept.arbiterStage _) (State.arbiterStage_of_none _)
  updateStage h := h.stage (Kept.updateStage _) (State.updateStage_of_none _)
  meterExpiry q h := h.stage (Kept.meterExpiry _ q) (State.meterExpiry_of_none _ q)
  stopExpiry h := h.stopExpiry
  transaction _ _ _ h := h
  owner step h := step.stopsIdle h
  resetPart _ := State.StopsIdle.of_running rfl

/-- The whole state that a resume leaves (R15). -/
theorem State.resume_stopped {s : State} (stopped : s.array.run = .stopped) :
    s.resume = { s with
      report := (s.raise { block := s.array.counter, event := .arrayResumed }).report
      feedPort := { s.feedPort with store := s.feedPort.store.drop (s.feedPort.store.length - 16) }
      array := { s.array with
        run := .running, feedLive := true, outBuf := List.replicate 64 (List.replicate 24 0#16) } } := by
  unfold State.resume
  rw [stopped]
  dsimp only
  rw [State.raise_frame]
  rfl

end Sys2Proof.Machine
end

section
/-! PROOFS. The statements about feed reads, the slip check, stops and resumes. -/

open Sys2Proof Sys2Proof.Machine

/-- Settles O10, by the five cases of a read: the port's state, the mark, and what the store holds. -/
theorem feedReadYields : Obligations.FeedReadYields := by
  intro s
  refine ⟨?repeats, ?takes, ?loses, ?returns, ?waits⟩
  case repeats => exact fun live mark => State.feedRead_repeats live mark
  case takes =>
    intro frame rest live noMark store
    rw [State.feedRead_takes live noMark store, State.takeOldest, ← live]
    rfl
  case loses =>
    intro live noMark empty
    rw [State.feedRead_loses live noMark empty]
    refine ⟨rfl, ?_⟩
    have report := State.raise_report_congr (s := (s.setFeedPort { s.feedPort with state := .lost }).countBoth .feedLosses)
      (t := s.countBoth .feedLosses) { block := s.array.counter, event := .feedLost } rfl rfl
    rw [← report, State.raise_frame]
    rfl
  case returns =>
    intro frame rest lost store fill
    rw [State.feedRead_returns lost store fill]
    refine ⟨rfl, ?_⟩
    have report := State.raise_report_congr (s := s.takeOldest frame rest) (t := s)
      { block := s.array.counter, event := .feedBack } rfl rfl
    rw [← report, State.raise_frame]
    rfl
  case waits => exact fun lost fill => State.feedRead_waits lost fill

/-- Settles O14, by the state of the feed and then the fill of the store. -/
theorem slipCheckMovesOneFrame : Obligations.SlipCheckMovesOneFrame := by
  intro s
  refine ⟨fun lost => State.slipCheck_lost lost, fun live high => ?_, fun live low => ?_, fun live notLow notHigh => ?_⟩
  · rw [State.slipCheck_live live, if_pos high]
    rfl
  · rw [State.slipCheck_live live, if_neg (by omega), if_pos low]
    rfl
  · rw [State.slipCheck_live live, if_neg (by omega), if_neg (by omega)]

/-- Settles O13: the expiry's whole state, what no step brings about, and the resume's whole state. -/
theorem arrayStopsAndResumes : Obligations.ArrayStopsAndResumes := by
  refine ⟨fun s => ⟨?stops, ?noExpiry, ?nothingToFinish⟩, ?reset, ?steps, ?resumes⟩
  case stops =>
    intro running timer
    refine congrArg Host.Outcome.next ?_
    rw [s.stopExpiry_cases.1 running timer, State.endProcessing, State.stopArray_setProc, ArrayPort.drive,
      ArrayPort.driven_stopped rfl]
  case noExpiry => exact fun h => congrArg Host.Outcome.next (s.stopExpiry_cases.2 h)
  case nothingToFinish => exact s.finishProcessing_of_none
  case reset => exact State.StopsIdle.of_running rfl
  case steps => exact fun s t idle hstep => stopsIdle_keptByOperations.step (fun _ h => h) idle hstep
  case resumes => exact fun s stopped => State.resume_stopped stopped

end

section
/-! PROOFS. Framing bit by bit, the row that ADOUT carries, and an array frame below the 64th row (R1, R2, R4, R12, R16). -/

namespace Sys2Proof.Machine

/-! ## One bit at a receiver (R2) -/

theorem isSync_iff (pin : Bool) (b : LineBit) : isSync pin b = true ↔ b.sync = true ∧ pin = false := by
  simp only [isSync, Bool.and_eq_true, Bool.not_eq_true']

theorem Framing.onBit_search_quiet {pin : Bool} {b : LineBit} (len : Nat) (quiet : isSync pin b = false) :
    Framing.search.onBit len pin b = (.search, none) := by
  simp only [Framing.onBit, quiet, Bool.false_eq_true, if_false]

theorem Framing.onBit_search_sync {pin : Bool} {b : LineBit} (len : Nat) (sync : isSync pin b = true) :
    Framing.search.onBit len pin b = (.inFrame 1 b.data.toNat, none) := by
  simp only [Framing.onBit, sync, if_true]

theorem Framing.onBit_inFrame_sync {pin : Bool} {b : LineBit} (len n d : Nat) (sync : isSync pin b = true) :
    (Framing.inFrame n d).onBit len pin b = (.inFrame 1 b.data.toNat, some .faulted) := by
  simp only [Framing.onBit, sync, if_true]

theorem Framing.onBit_inFrame_quiet {pin : Bool} {b : LineBit} (len n d : Nat) (quiet : isSync pin b = false) :
    (Framing.inFrame n d).onBit len pin b =
      if n + 1 < len then (.inFrame (n + 1) (2 * d + b.data.toNat), none)
      else (.search, some (.wellFormed (slotsOf (len / 32) (2 * d + b.data.toNat)))) := by
  simp only [Framing.onBit, quiet, Bool.false_eq_true, if_false]

/-- A receiver in SEARCH starts a frame with a bit exactly when the bit is a sync. -/
theorem Framing.onBit_search_iff {pin : Bool} {b : LineBit} {len : Nat} {fr : Framing} {e : Option FrameEnd}
    (h : Framing.search.onBit len pin b = (fr, e)) : fr = .search ↔ isSync pin b = false := by
  cases sync : isSync pin b with
  | false =>
    rw [Framing.onBit_search_quiet len sync] at h
    cases h
    exact ⟨fun _ => rfl, fun _ => rfl⟩
  | true =>
    rw [Framing.onBit_search_sync len sync] at h
    cases h
    exact ⟨nofun, nofun⟩

/-! ## The bits of a whole frame (R1) -/

/-- The framing state after the first bits of a frame that starts in SEARCH and carries the data bits `d`. -/
def framingAfter (d : Nat → Bool) : Nat → Framing
  | 0 => .search
  | k + 1 => .inFrame (k + 1) (bitsNat d (k + 1))

/-- A bit of a frame that is not its last: the first is a sync, the others are not. -/
theorem framingAfter_onBit {d : Nat → Bool} {k len : Nat} {pin : Bool} {b : LineBit} (notLast : k + 1 < len) (data : b.data = d k)
    (sync : isSync pin b = decide (k = 0)) : (framingAfter d k).onBit len pin b = (framingAfter d (k + 1), none) := by
  cases k with
  | zero =>
    rw [framingAfter, Framing.onBit_search_sync len sync, data]
    simp only [framingAfter, bitsNat, Nat.mul_zero, Nat.zero_add]
  | succ k =>
    rw [framingAfter, Framing.onBit_inFrame_quiet len _ _ sync, if_pos notLast, data]
    rfl

/-- The last bit of a frame ends it. -/
theorem framingAfter_onBit_last {d : Nat → Bool} {k : Nat} {pin : Bool} {b : LineBit} (data : b.data = d (k + 1))
    (sync : isSync pin b = false) : (framingAfter d (k + 1)).onBit (k + 2) pin b =
      (.search, some (.wellFormed (slotsOf ((k + 2) / 32) (bitsNat d (k + 2))))) := by
  rw [framingAfter, Framing.onBit_inFrame_quiet _ _ _ sync, if_neg (Nat.lt_irrefl _), data]
  rfl

/-! ## Bits that end no frame -/

theorem State.feedBit_noEnd {s : State} {b : LineBit} {fr : Framing}
    (h : s.feedPort.framing.onBit 256 s.feedPort.pin b = (fr, none)) :
    s.feedBit b = { s with feedPort := { s.feedPort with framing := fr, pin := b.sync } } := by
  have moves := (s.feedBit_cases b).1
  simp only [Config.feedFrameBits, h] at moves
  exact moves trivial

theorem State.arrayBit_noEnd {s : State} {b : LineBit} {fr : Framing} (h : s.array.framing.onBit 768 s.array.pin b = (fr, none))
    (noStart : s.array.framing ≠ .search ∨ fr = .search) :
    s.arrayBit b = { s with array := { s.array with framing := fr, pin := b.sync } } := by
  have moves := (s.arrayBit_cases b).2.1
  simp only [Config.arrayFrameBits, h] at moves
  refine moves trivial (noStart.imp_right fun search => ?_)
  by_cases framing : s.array.framing = .search
  · rw [framing] at h
    exact (Framing.onBit_search_iff h).mp search
  · by_contra sync
    cases busy : s.array.framing with
    | search => exact framing busy
    | inFrame n d =>
      rw [busy, Framing.onBit_inFrame_sync _ _ _ (Bool.not_eq_false _ ▸ sync)] at h
      cases h

theorem State.arrayBit_starts {s : State} {b : LineBit} {fr : Framing} (h : s.array.framing.onBit 768 s.array.pin b = (fr, none))
    (search : s.array.framing = .search) (start : fr ≠ .search) :
    s.arrayBit b = { s.expireHolds with
      array := { s.expireHolds.array with
        framing := fr
        pin := b.sync
        adout := some ((if s.expireHolds.array.run = .stopped then List.replicate 24 0#16
          else s.expireHolds.array.outBuf.getD s.expireHolds.array.rows.length (List.replicate 24 0#16)).map slotOfSample) } } := by
  rw [search] at h
  have sync : isSync s.array.pin b = true := by
    by_contra quiet
    exact start ((Framing.onBit_search_iff h).mpr (Bool.not_eq_true _ ▸ quiet))
  rw [Framing.onBit_search_sync _ sync] at h
  cases h
  have starts := (s.arrayBit_cases b).1
  simp only [search, Framing.onBit_search_sync _ sync] at starts
  exact (starts trivial trivial sync).trans (State.setReceiver_driveRow _ _ _)

/-! ## Bits that end an array frame -/

theorem State.arrayBit_ends {s : State} {b : LineBit} {fr : Framing} {f : FrameEnd}
    (h : s.array.framing.onBit 768 s.array.pin b = (fr, some f)) :
    s.arrayBit b = ((s.arrayArrival f).setReceiver fr b.sync).driveRow := by
  have arrives := (s.arrayBit_cases b).2.2 f
  simp only [Config.arrayFrameBits, h] at arrives
  exact arrives trivial

theorem Framing.onBit_wellFormed {pin : Bool} {b : LineBit} {g fr : Framing} {slots : List Slot}
    (h : g.onBit 768 pin b = (fr, some (.wellFormed slots))) : fr = .search ∧ slots.length = 24 := by
  obtain ⟨isFaulted, _⟩ | ⟨received, isWellFormed, length, _, search⟩ := Framing.onBit_ends h
  · cases isFaulted
  · cases isWellFormed
    exact ⟨search, length⟩

/-- A faulted frame ends at the sync of the next (R2). -/
theorem Framing.onBit_faulted {pin : Bool} {b : LineBit} {g fr : Framing} (h : g.onBit 768 pin b = (fr, some .faulted)) :
    fr.busy = true := by
  obtain ⟨_, _, start⟩ | ⟨_, isWellFormed, _⟩ := Framing.onBit_ends h
  · rw [start]
    rfl
  · cases isWellFormed

/-- An array frame that does not complete the block, up to its row (R12, R19, R20). -/
theorem State.arrayArrival_joins {s : State} {f : FrameEnd} (room : s.settle.finishBeforeWrite.array.rows.length < 63) :
    s.arrayArrival f = s.settle.finishBeforeWrite.restartTimer.resume.readFeed.joinRow f := by
  unfold State.arrayArrival State.handOff
  refine if_neg ?_
  rw [State.readFeed_eq]
  cases f <;> simp [State.joinRow, State.setArray, State.countBoth, Config.blockFrames] <;> omega

end Sys2Proof.Machine
end

section
/-! PROOFS. The statements about framing and about array frames below the 64th row. -/

open Sys2Proof Sys2Proof.Machine

/-- Settles O9, clause by clause; the bits of a frame go through `framingAfter`, which ends with the slots they spell. -/
theorem frameSyncStartsFrame : Obligations.FrameSyncStartsFrame := by
  refine ⟨isSync_iff, ?bit, ?frame, ?rows, ?feed, ?array, ?adout, ?rowBits, fun _ => rfl⟩
  case bit =>
    intro len pin b
    refine ⟨Framing.onBit_search_quiet len, Framing.onBit_search_sync len, fun n d => ⟨Framing.onBit_inFrame_sync len n d, ?_, ?_⟩⟩
    · intro quiet notLast
      rw [Framing.onBit_inFrame_quiet len n d quiet, if_pos notLast]
    · intro quiet last
      rw [Framing.onBit_inFrame_quiet len n d quiet, if_neg (Nat.not_lt.mpr last)]
  case frame =>
    intro slots high nonempty oneHigh
    dsimp only
    obtain ⟨k, hk⟩ : ∃ k, 32 * slots.length = k + 2 :=
      ⟨32 * slots.length - 2, by have := List.length_pos_iff.mpr nonempty; omega⟩
    have sync : ∀ i, isSync (decide (0 < i ∧ i - 1 < high))
        { sync := decide (i < high), data := (slots.getD (i / 32) 0#32).getLsbD (31 - i % 32) } = decide (i = 0) := by
      intro i
      rw [Bool.eq_iff_iff, isSync_iff, decide_eq_true_iff, decide_eq_true_iff, decide_eq_false_iff_not]
      omega
    refine ⟨framingAfter fun i => (slots.getD (i / 32) 0#32).getLsbD (31 - i % 32), rfl, ?_, ?_⟩
    · intro i notLast
      exact framingAfter_onBit (by omega) rfl (sync i)
    · have spelled := slotsOf_bitsNat slots
      have count : (k + 2) / 32 = slots.length := by omega
      rw [hk, show k + 2 - 1 = k + 1 from rfl]
      rw [framingAfter_onBit_last rfl (sync (k + 1)), count, ← hk, spelled]
  case rows =>
    intro s
    refine ⟨rfl, rfl, fun b c bits => ⟨⟨_, rfl, rfl⟩, _, rfl, rfl⟩, fun bits => ⟨rfl, rfl⟩⟩
  case feed =>
    intro s b fr noEnd c hc
    simp only [List.mem_cons, List.not_mem_nil, or_false] at hc
    obtain rfl | rfl := hc
    · exact congrArg Host.Outcome.next (State.feedBit_noEnd noEnd)
    · exact congrArg Host.Outcome.next (State.feedBit_noEnd noEnd)
  case array =>
    intro s b fr noEnd c hc
    have isBit : exec c s = .next (s.arrayBit b) := by
      simp only [List.mem_cons, List.not_mem_nil, or_false] at hc
      obtain rfl | rfl := hc
      · rfl
      · rfl
    rw [isBit]
    refine ⟨fun noStart => congrArg Host.Outcome.next (State.arrayBit_noEnd noEnd noStart), fun search start => ?_⟩
    exact ⟨s.expireHolds, rfl, s.expireHolds_of_landed, congrArg Host.Outcome.next (State.arrayBit_starts noEnd search start)⟩
  case adout =>
    intro s t b arrival
    obtain rfl : s.arrayBit b = t := Host.Outcome.next.inj arrival
    refine ⟨fun n d now => ?_, fun n d before now => ?_, fun before now => ?_⟩
    · simp only [State.adoutAt, now]
    · simp only [State.adoutAt, before, now]
    · simp only [State.adoutAt, before, now]
  case rowBits =>
    intro row i k hk
    have slot : (32 * i + k + 1 - 1) / 32 = i := by omega
    have place : (32 * i + k + 1 - 1) % 32 = k := by omega
    simp only [rowBit, slot, place]

/-- Settles O11: the frame's row joins, no block start follows, and the receiver moves on with the row of the next frame. -/
theorem arrayFrameJoinsRow : Obligations.ArrayFrameJoinsRow := by
  intro s b fr f ends
  dsimp only
  intro room
  refine congrArg Host.Outcome.next ?_
  show s.arrayBit b = _
  rw [State.arrayBit_ends ends, State.arrayArrival_joins room, State.setReceiver_driveRow, State.readFeed_eq]
  cases f with
  | wellFormed slots =>
    obtain ⟨rfl, length⟩ := Framing.onBit_wellFormed ends
    have notDegraded : (FrameEnd.wellFormed slots == .faulted) = false := rfl
    rw [notDegraded, Bool.or_false]
    dsimp only
    rw [← samplesOf_eq slots length]
    rfl
  | faulted =>
    have degraded : (FrameEnd.faulted == .faulted) = true := rfl
    rw [degraded, Bool.or_true, if_pos (Framing.onBit_faulted ends)]
    simp only [State.joinRow, State.countBoth_array, State.setArray_array, List.length_append, List.length_singleton]
    rfl

end

section
/-! PROOFS. The block start that follows the 64th row: what is handed on, what waits for HOLD_EXPIRED, and what lands (R13, R145). -/

namespace Sys2Proof.Machine

theorem State.expireHolds_waiting {x : State} {p : Proc} (block : x.proc = some p) (waits : p.phase = .expiring) :
    x.expireHolds = x.endHolds.landBlock p x.expiredHolds := by
  unfold State.expireHolds
  rw [block]
  dsimp only
  rw [waits]

theorem State.landBlock_captured (x : State) (p : Proc) (e : PerPort Bool) : (x.landBlock p e).model.captured = x.model.captured := by
  obtain ⟨r, n, posted⟩ := State.postMerged_eq ((x.landSets.cancelBlock p).startStages p) (x.landNotices p.number e)
  obtain ⟨g, a, b, o, d, cancelled⟩ := x.landSets.cancelBlock_eq p
  unfold State.landBlock
  rw [posted, cancelled]
  exact Model.applySets_captured x.model x.applying

theorem State.landBlock_report (x : State) (p : Proc) (e : PerPort Bool) :
    ∃ l : List Notice, (x.landBlock p e).report = (l.foldl State.post x).report := by
  obtain ⟨g, a, b, o, d, cancelled⟩ := x.landSets.cancelBlock_eq p
  refine ⟨_, (State.postMerged_report _ _).trans (State.foldl_post_report_congr _ ?_ ?_)⟩
  · rw [cancelled]
    rfl
  · rw [cancelled]
    rfl

/-- How far a block start of block `p` from `x` has come in `t`: the block is in progress with the queues as they are now, and what it
has not touched is as in `x`. -/
structure BlockStarted (x : State) (p : Proc) (t : State) : Prop where
  proc : ∃ ph, t.proc = some { p with phase := ph, stageQueues := t.queues }
  array : ∃ o d, t.array = { x.array with outBuf := o, adout := d }
  feedPort : t.feedPort = x.feedPort
  hist : t.hist = x.hist
  seen : t.seen = x.seen
  captured : t.model.captured = x.model.captured
  report : ∃ l : List Notice, t.report = (l.foldl State.post x).report

theorem BlockStarted.waits {x : State} {p : Proc} (block : x.proc = some p) (queues : p.stageQueues = x.queues) :
    BlockStarted x p x where
  proc := ⟨p.phase, by rw [block, ← queues]⟩
  array := ⟨x.array.outBuf, x.array.adout, rfl⟩
  feedPort := rfl
  hist := rfl
  seen := rfl
  captured := rfl
  report := ⟨[], rfl⟩

theorem BlockStarted.lands (x : State) (p : Proc) (e : PerPort Bool) : BlockStarted x p (x.landBlock p e) where
  proc := ⟨_, x.landBlock_proc p e⟩
  array := ⟨_, _, (congrArg State.array (x.landBlock_frame p e) :)⟩
  feedPort := (congrArg State.feedPort (x.landBlock_frame p e) :)
  hist := (congrArg State.hist (x.landBlock_frame p e) :)
  seen := x.landBlock_seen p e
  captured := x.landBlock_captured p e
  report := x.landBlock_report p e

theorem BlockStarted.expired {x : State} {p : Proc} (e : PerPort Bool) : BlockStarted x p (x.endHolds.landBlock p e) := by
  have landed := BlockStarted.lands x.endHolds p e
  obtain ⟨l, report⟩ := landed.report
  have sameRecords : (l.foldl State.post x.endHolds).report = (l.foldl State.post x).report :=
    State.foldl_post_report_congr l rfl rfl
  exact ⟨landed.proc, landed.array, landed.feedPort, landed.hist, landed.seen, landed.captured, l, report.trans sameRecords⟩

theorem BlockStarted.landUnlessHeld {x : State} {p : Proc} (block : x.proc = some p) (queues : p.stageQueues = x.queues) :
    BlockStarted x p (x.landUnlessHeld p) := by
  unfold State.landUnlessHeld
  split
  · exact .waits block queues
  · exact .lands x p _

/-- Once the block has landed no hold is left to expire. -/
theorem State.landBlock_expireHolds (x : State) (p : Proc) (e : PerPort Bool) : (x.landBlock p e).expireHolds = x.landBlock p e := by
  refine State.expireHolds_of_landed _ fun q block => ?_
  rw [x.landBlock_proc p e] at block
  obtain rfl := Option.some.inj block
  dsimp only
  split <;> exact Phase.noConfusion

theorem BlockStarted.goesOn {x : State} {p : Proc} (block : x.proc = some p) (waits : p.phase = .expiring) :
    BlockStarted x p (x.landUnlessHeld p).expireHolds := by
  unfold State.landUnlessHeld
  split
  · rw [State.expireHolds_waiting block waits]
    exact .expired _
  · rw [State.landBlock_expireHolds]
    exact .lands x p _

/-! ## Holds that expire at the block start (R145) -/

theorem Stager.ageHold_expires {g : Stager} (hold : g.hold = true) (age : 249 ≤ g.age) : g.ageHold.expires = true := by
  have limit : Config.holdLimit ≤ g.age + 1 := Nat.succ_le_succ age
  rw [Stager.ageHold, if_pos hold, Stager.expires]
  simp only [hold, limit, decide_true, Bool.and_self]

theorem State.takeBlock_holdsExpire {j : State} (awake : j.standby = false)
    (expires : (j.stager.p0.hold = true ∧ 249 ≤ j.stager.p0.age) ∨ (j.stager.p1.hold = true ∧ 249 ≤ j.stager.p1.age)) :
    j.takeBlock.holdsExpire j.handedBlock = true := by
  have aged : j.takeBlock.stager = { p0 := j.stager.p0.ageHold, p1 := j.stager.p1.ageHold } :=
    if_neg (ne_true_of_eq_false awake)
  rw [State.holdsExpire, aged, show j.handedBlock.standby = false from awake]
  obtain ⟨hold, age⟩ | ⟨hold, age⟩ := expires
  · rw [Stager.ageHold_expires hold age]
    rfl
  · rw [Stager.ageHold_expires hold age, Bool.or_true]
    rfl

/-- A block start that waits goes on in the same way whatever the receiver does meanwhile. -/
theorem State.expireHolds_framing {x : State} {p : Proc} (block : x.proc = some p) (waits : p.phase = .expiring) (fr : Framing)
    (ad : Option (List Slot)) :
    ∃ ad', ({ x with array := { x.array with framing := fr, adout := ad } } : State).expireHolds =
      { x.expireHolds with array := { x.expireHolds.array with framing := fr, adout := ad' } } := by
  have moved := State.expireHolds_waiting (x := { x with array := { x.array with framing := fr, adout := ad } }) block waits
  rw [moved, State.expireHolds_waiting block waits]
  exact State.landBlock_framing x.endHolds fr ad p x.expiredHolds

end Sys2Proof.Machine
end

section
/-! PROOFS. The statement about the 64th row. -/

open Sys2Proof Sys2Proof.Machine

/-- Settles O12: the block start from the state with the 64th row joined, as far as it comes at this bit; and the state that waits. -/
theorem sixtyFourthRowStartsBlock : Obligations.SixtyFourthRowStartsBlock := by
  intro s b fr f ends u v r row degraded x z hist block aged expires waiting rows
  obtain ⟨j, hj, arrives, routes, captured, _⟩ := s.arrayArrival_sixtyFourth f (Framing.onBit_slots ends) rows
  have bit := (State.arrayBit_ends ends).trans (State.setReceiver_driveRow _ _ _)
  have handed : j.handedBlock = block .expiring u.queues := by
    rw [hj]
    cases f <;> rfl
  have state : j.feedPort.state = r.1.feedPort.state := by
    rw [hj]
    exact captured
  have taken : j.takeBlock = { waiting with
      array := { waiting.array with framing := u.array.framing, adout := u.array.adout }
      stager := if u.standby = true then u.stager else waiting.stager } := by
    rw [State.takeBlock, state, handed, hj]
    rfl
  refine ⟨?started, ?waits⟩
  case started =>
    have started : BlockStarted j.takeBlock j.handedBlock (s.arrayArrival f) := by
      rw [arrives]
      cases f with
      | wellFormed slots => exact .landUnlessHeld rfl rfl
      | faulted => exact .goesOn rfl rfl
    rw [taken, handed] at started
    obtain ⟨⟨ph, proc⟩, ⟨o, d, array⟩, feedPort, sameHist, seen, same, l, report⟩ := started
    refine ⟨_, ph, congrArg Host.Outcome.next bit, proc, ?_⟩
    dsimp only
    rw [array]
    exact ⟨rfl, rfl, rfl, rfl, rfl, rfl, feedPort, sameHist, seen, same, l,
      report.trans (State.foldl_post_report_congr l rfl routes.symm)⟩
  case waits =>
    intro awake someExpires
    have held : j.takeBlock.landUnlessHeld j.handedBlock = j.takeBlock := by
      refine if_pos (State.takeBlock_holdsExpire ?_ ?_)
      · rw [hj]
        exact awake
      · rw [hj]
        exact someExpires
    obtain ⟨y, hy⟩ : ∃ y : State, y = { waiting with
        array := { waiting.array with framing := u.array.framing, adout := u.array.adout } } := ⟨_, rfl⟩
    have waits : j.takeBlock = y := by rw [taken, if_neg (ne_true_of_eq_false awake), hy]
    rw [held, waits] at arrives
    refine ⟨?framed, ?cut⟩
    case framed =>
      rintro ⟨slots, rfl⟩
      obtain ⟨rfl, _⟩ := Framing.onBit_wellFormed ends
      have arrived : s.arrayArrival (.wellFormed slots) = y := arrives
      refine congrArg Host.Outcome.next (bit.trans ?_)
      rw [arrived, hy]
      rfl
    case cut =>
      rintro rfl
      have arrived : s.arrayArrival .faulted = y.expireHolds := arrives
      obtain ⟨ad, moved⟩ := State.expireHolds_framing (x := waiting) (p := block .expiring u.queues) rfl rfl
        u.array.framing u.array.adout
      rw [← hy] at moved
      obtain ⟨o, d, array⟩ := (BlockStarted.expired (x := waiting) (p := block .expiring u.queues) waiting.expiredHolds).array
      rw [← State.expireHolds_waiting (x := waiting) rfl rfl] at array
      refine ⟨waiting.expireHolds, rfl, congrArg Host.Outcome.next (bit.trans ?_)⟩
      rw [arrived, moved, if_pos (Framing.onBit_faulted ends)]
      dsimp only
      rw [array]
      rfl

end

section
/-! PROOFS. Transactions without a request, messages that are refused at the port, and the tables of kinds (R153 to R158, R165, R166). -/

namespace Sys2Proof.Machine

/-! ## Commands at the port -/

/-- A request that passes the port's checks leaves the port answered by its kind's owner. -/
theorem exec_command_takes {s : State} {p : Port} {k : Kind} {body : List Byte} (h : s.Takes p k body) :
    exec (k.command p body) s =
      .next ((k.owner p body s.settle).1.answered p k (k.owner p body s.settle).2.status (k.owner p body s.settle).2.body) :=
  (exec_command k p body s).trans (congrArg Host.Outcome.next (State.request_takes_answered h _))

/-- The same, with the owner's answer in hand. -/
theorem exec_command_answers {s u : State} {p : Port} {k : Kind} {body : List Byte} {r : Reply} (h : s.Takes p k body)
    (answer : k.owner p body s.settle = (u, r)) : exec (k.command p body) s = .next (u.answered p k r.status r.body) := by
  rw [exec_command_takes h, answer]

/-- A framed request above its port's grant (R156). -/
theorem State.request_denied {s : State} {p : Port} {k : Kind} {body : List Byte} (h : s.Receives p (message k body))
    (framed : body.length ≤ 250) (above : (s.ctl.get p).grant.code < k.grant.code) (owner : State → State × Reply) :
    s.request p k body owner = s.settle.answered p k .denied [] := by
  have answer : s.settle.answer p k body owner = (s.settle, .refuse .denied) := by
    rw [State.answer, Config.maxBody, if_neg (Nat.not_lt.mpr framed), State.settle_ctl, Grant.allows, decide_eq_false (Nat.not_le.mpr above)]
    rfl
  rw [State.request_receives h, answer]
  rfl

/-- A framed request within its port's grant whose body is not laid out as its kind's (R156). -/
theorem State.request_badLayout {s : State} {p : Port} {k : Kind} {body : List Byte} (h : s.Receives p (message k body))
    (framed : body.length ≤ 250) (within : k.grant.code ≤ (s.ctl.get p).grant.code) (badLayout : k.layoutOk body = false)
    (owner : State → State × Reply) : s.request p k body owner = s.settle.answered p k .malformed [] := by
  have answer : s.settle.answer p k body owner = (s.settle, .refuse .malformed) := by
    rw [State.answer, Config.maxBody, if_neg (Nat.not_lt.mpr framed), State.settle_ctl, Grant.allows, decide_eq_true within, badLayout]
    rfl
  rw [State.request_receives h, answer]
  rfl

theorem State.request_ignoring {s : State} {p : Port} {write : Bool} (k : Kind) (body : List Byte)
    (h : (s.ctl.get p).trans = .ignoring write) (owner : State → State × Reply) : s.request p k body owner = s.idlePort p := by
  unfold State.request State.endWrite
  rw [h]

/-! ## Fields of a body (R166) -/

theorem field_zero (body : List Byte) (off : Nat) : field body off 0 = 0 := rfl

theorem field_succ (body : List Byte) (off n : Nat) :
    field body off (n + 1) = (body.getD off 0#8).toNat + 256 * field body (off + 1) n := by
  by_cases inside : off < body.length
  · rw [field, List.drop_eq_getElem_cons inside, List.take_succ_cons, unLe, List.getD_eq_getElem _ _ inside]
    rfl
  · have past : body.drop off = [] := List.drop_eq_nil_of_le (Nat.not_lt.mp inside)
    have pastNext : body.drop (off + 1) = [] := List.drop_eq_nil_of_le (by omega)
    rw [field, field, past, pastNext, List.getD_eq_default _ _ (Nat.not_lt.mp inside)]
    simp only [List.take_nil, unLe]
    rfl

/-! ## Messages that are no request (R156) -/

theorem field_second (kind len : Byte) (body : List Byte) : field (kind :: len :: body) 1 1 = len.toNat := by
  rw [field_succ, field_zero]
  rfl

theorem badMessage_cons (kind len : Byte) (body : List Byte) :
    badMessage (kind :: len :: body) =
      if 250 < len.toNat then some .malformed
      else if body.length != len.toNat then some .malformed
      else if knownKind kind then none
      else some .unknownKind := rfl

theorem badMessage_malformed {bytes : List Byte} (nonempty : bytes ≠ [])
    (h : bytes.length < 2 ∨ 250 < field bytes 1 1 ∨ bytes.length ≠ 2 + field bytes 1 1) : badMessage bytes = some .malformed := by
  match bytes with
  | [] => exact absurd rfl nonempty
  | [_] => rfl
  | kind :: len :: body =>
    rw [field_second, List.length_cons, List.length_cons] at h
    rw [badMessage_cons]
    by_cases long : 250 < len.toNat
    · exact if_pos long
    · rw [if_neg long]
      exact if_pos (bne_iff_ne.mpr (by omega))

theorem knownKind_iff (b : Byte) : knownKind b = true ↔ ∃ k : Kind, k.code = b := by
  have all : ∀ k : Kind, k ∈ Kind.all := by
    intro k
    cases k <;> decide
  rw [knownKind, List.any_eq_true]
  exact ⟨fun ⟨k, _, code⟩ => ⟨k, beq_iff_eq.mp code⟩, fun ⟨k, code⟩ => ⟨k, all k, beq_iff_eq.mpr code⟩⟩

theorem badMessage_unknownKind {bytes : List Byte} (two : 2 ≤ bytes.length) (short : field bytes 1 1 ≤ 250)
    (framed : bytes.length = 2 + field bytes 1 1) (unknown : ∀ k : Kind, k.code ≠ bytes.headD 0#8) :
    badMessage bytes = some .unknownKind := by
  match bytes with
  | [] => cases two
  | [_] => exact absurd two (Nat.not_le.mpr Nat.one_lt_two)
  | kind :: len :: body =>
    rw [field_second] at short
    rw [field_second, List.length_cons, List.length_cons] at framed
    have noKind : ¬ knownKind kind = true := fun known => by
      obtain ⟨k, code⟩ := (knownKind_iff kind).mp known
      exact unknown k code
    have sameLength : body.length = len.toNat := by omega
    rw [badMessage_cons, if_neg (Nat.not_lt.mpr short), if_neg (by rw [sameLength, bne_self_eq_false]; exact Bool.false_ne_true), if_neg noKind]

/-- What the port makes of a message that is no request: the answer in its slot, and what waited is finished. -/
theorem State.badRequest_answers {s : State} {p : Port} {bytes : List Byte} {st : Status} (h : s.Receives p bytes)
    (bad : badMessage bytes = some st) :
    s.badRequest p bytes = { s.settle with
      ctl := s.ctl.set p
        { trans := .idle, slot := { kind := bytes.headD 0#8, status := st, body := [] }, grant := (s.ctl.get p).grant } } := by
  rw [State.badRequest, bad]
  dsimp only
  rw [State.endWrite_receives h, State.respond, State.setCtl, State.settle_ctl]
  rfl

/-! ## The layouts whose length a body gives itself (R165) -/

theorem windowsLayout_iff (at_ : Nat) (body : List Byte) :
    windowsLayout at_ body = true ↔ body.length = at_ + 1 + 4 * field body at_ 1 := by
  rw [windowsLayout, Bool.and_eq_true, decide_eq_true_iff, beq_iff_eq]
  omega

theorem writeTaps_layoutOk_iff (body : List Byte) : Kind.writeTaps.layoutOk body = true ↔ ∃ v, body.length = 4 + 3 * v := by
  have layout : Kind.writeTaps.layoutOk body = true ↔ 4 ≤ body.length ∧ (body.length - 4) % 3 = 0 := by
    rw [Kind.layoutOk, Bool.and_eq_true, decide_eq_true_iff, beq_iff_eq]
  rw [layout]
  constructor
  · rintro ⟨long, whole⟩
    exact ⟨(body.length - 4) / 3, by omega⟩
  · rintro ⟨v, length⟩
    omega

theorem route_layoutOk_iff (body : List Byte) : Kind.route.layoutOk body = true ↔ ∃ e, 1 ≤ e ∧ body.length = 2 * e := by
  have layout : Kind.route.layoutOk body = true ↔ 2 ≤ body.length ∧ body.length % 2 = 0 := by
    rw [Kind.layoutOk, Bool.and_eq_true, decide_eq_true_iff, beq_iff_eq]
  rw [layout]
  constructor
  · rintro ⟨long, even⟩
    exact ⟨body.length / 2, by omega, by omega⟩
  · rintro ⟨e, one, length⟩
    omega

/-! ## Transactions (R153, R154) -/

theorem State.begin_fourWire {s : State} (idle : s.ctl.p0.trans = .idle) (first : Option Byte) (early : List Byte) :
    s.begin (.fourWire first) early =
      if first = some 0x3C#8 then s.beginWrite .p0 early
      else if first = some 0xC3#8 then s.beginRead .p0
      else s.ignore .p0 := if_pos idle

theorem State.begin_twoWire {s : State} (noBytes : s.ctl.p1.trans.holds = false) (addr : BitVec 7) (read : Bool)
    (early : List Byte) :
    s.begin (.twoWire addr read) early =
      if addr ≠ s.twoWireAddr then s.idlePort .p1
      else if read then s.beginRead .p1
      else s.beginWrite .p1 early := if_neg (ne_true_of_eq_false noBytes)

theorem State.endEmpty_ends {s : State} {p : Port} (noBytes : (s.ctl.get p).trans.holds = false) : s.endEmpty p = s.idlePort p :=
  if_neg (ne_true_of_eq_false noBytes)

/-- Bits leave most significant first. -/
theorem wireBit_eq (b : Byte) {k : Nat} (hk : k < 8) : wireBit b k = b.getLsbD (7 - k) := by
  rw [wireBit, BitVec.getMsbD_eq_getLsbD, decide_eq_true hk, Bool.true_and]

end Sys2Proof.Machine
end

section
/-! PROOFS. The statements about transactions and refusals at the ports. -/

open Sys2Proof Sys2Proof.Machine

/-- Settles O15: the openings of each port by what comes first, the ends, and then the wires by the transaction in progress. -/
theorem transactionsBeginAndEnd : Obligations.TransactionsBeginAndEnd := by
  refine ⟨fun s early => ⟨?fourWire, ?twoWire⟩, ?ends, ?wires, fun b k hk => wireBit_eq b hk⟩
  case fourWire =>
    intro idle
    have opens (first : Option Byte) (early : List Byte) :=
      congrArg (Host.Outcome.next (φ := Fault) (ρ := Refusal)) (State.begin_fourWire idle first early)
    refine ⟨(opens _ _).trans rfl, (opens _ _).trans rfl, fun first notWrite notRead => (opens _ _).trans ?_⟩
    rw [if_neg notWrite, if_neg notRead]
    rfl
  case twoWire =>
    intro noBytes
    have opens (addr : BitVec 7) (read : Bool) (early : List Byte) :=
      congrArg (Host.Outcome.next (φ := Fault) (ρ := Refusal)) (State.begin_twoWire noBytes addr read early)
    refine ⟨(opens _ _ _).trans ?_, (opens _ _ _).trans ?_, fun addr read foreign => (opens _ _ _).trans ?_⟩
    · rw [if_neg (not_not.mpr rfl)]
      rfl
    · rw [if_neg (not_not.mpr rfl)]
      rfl
    · rw [if_pos foreign]
      rfl
  case ends => exact fun s p noBytes => congrArg Host.Outcome.next (State.endEmpty_ends noBytes)
  case wires =>
    intro s n
    refine ⟨fun h => ?_, fun h => ?_, fun held h => ?_, fun copy h => ?_, fun h => ?_, fun addr => beq_iff_eq, fun h => ?_,
      fun held h => ?_, fun copy h => ?_⟩
    · rw [State.cdoByte, h]
    · rw [State.cdoByte]
      cases trans : s.ctl.p0.trans with
      | idle => exact absurd trans h
      | receiving held => rfl
      | sending copy => rfl
      | ignoring write => exact congrArg some (if_pos (Or.inl rfl))
    · rw [State.cdoByte, h]
    · rw [State.cdoByte, h]
      rfl
    · rw [State.cdoByte, h]
      exact congrArg some (if_pos (Or.inr rfl))
    · rw [State.twdByte, State.acksByte, h]
      exact ⟨rfl, rfl⟩
    · rw [State.twdByte, State.acksByte, h]
      exact ⟨rfl, rfl⟩
    · rw [State.twdByte, State.acksByte, h]
      exact ⟨rfl, rfl⟩

/-- Settles O16, by which of the two checks the message fails. -/
theorem badMessageAnswered : Obligations.BadMessageAnswered := by
  intro s p bytes receives nonempty
  dsimp only
  refine ⟨fun malformed => ?_, fun two short framed unknown => ?_⟩
  · exact congrArg Host.Outcome.next (State.badRequest_answers receives (badMessage_malformed nonempty malformed))
  · exact congrArg Host.Outcome.next (State.badRequest_answers receives (badMessage_unknownKind two short framed unknown))

/-- Settles O17: the tables kind by kind, the layouts, and the two refusals and the ignored transaction of any kind. -/
theorem portRefusesRequests : Obligations.PortRefusesRequests := by
  refine ⟨?table, ?selfSized, ?layouts, rfl, rfl, ?port⟩
  case table =>
    repeat refine List.forall_mem_cons.mpr ⟨⟨rfl, rfl, fun _ => beq_iff_eq⟩, ?_⟩
    exact List.forall_mem_nil _
  case selfSized => decide
  case layouts =>
    intro body
    refine ⟨windowsLayout_iff 7 body, windowsLayout_iff 1 body, writeTaps_layoutOk_iff body, route_layoutOk_iff body, ?_⟩
    exact fun off n => ⟨field_zero body off, field_succ body off n⟩
  case port =>
    intro s p k body
    rw [exec_command]
    refine ⟨fun receives framed above => ?_, fun receives framed within badLayout => ?_, fun write ignoring => ?_⟩
    · rw [State.request_denied receives framed above]
    · rw [State.request_badLayout receives framed within badLayout]
    · rw [State.request_ignoring k body ignoring]
      rfl

end

section
/-! PROOFS. The requests that report: who owns what is pending, tap windows, event records, counters and the pool (R54, R55, R73, R175, R176). -/

namespace Sys2Proof.Machine

/-! ## Flags in a byte (R166) -/

theorem ite_eq_mul_toNat (b : Bool) (n : Nat) : (if b = true then n else 0) = n * b.toNat := by
  cases b with
  | false => exact (Nat.mul_zero n).symm
  | true => exact (Nat.mul_one n).symm

/-- The number whose bits are flags, the first of them bit 0. -/
def flagsNat : List Bool → Nat
  | [] => 0
  | b :: bs => b.toNat + 2 * flagsNat bs

theorem flagsNat_testBit (l : List Bool) (i : Nat) : (flagsNat l).testBit i = l.getD i false := by
  induction l generalizing i with
  | nil => exact Nat.zero_testBit i
  | cons b bs ih =>
    cases i with
    | zero =>
      rw [Nat.testBit_zero, flagsNat]
      cases b <;> simp
    | succ i =>
      have half : flagsNat (b :: bs) / 2 = flagsNat bs := by
        have := b.toNat_le
        rw [flagsNat]
        omega
      rw [Nat.testBit_succ, half, ih]
      rfl

/-! ## Pending owners and kinds (R138, R170) -/

theorem PathChange.kinds_eq (c : PathChange) :
    c.kinds = flagsNat [c.opening.isSome, c.close, c.windows.isSome, c.base.isSome || c.fast.isSome || c.slow.isSome || c.frozen.isSome,
      decide (c.taps ≠ []), c.clear] := by
  have taps : (if c.taps.isEmpty = true then 0 else 16) = 16 * (decide (c.taps ≠ [])).toNat := by
    cases c.taps with
    | nil => rfl
    | cons t taps => rfl
  rw [PathChange.kinds, taps]
  simp only [ite_eq_mul_toNat, flagsNat]
  omega

/-- Where an object has at most one set, the pending kinds of a path are those of the set on it. -/
theorem State.Claimed.pendingKinds {u : State} (claimed : u.Claimed) {q : Port} {c : ChangeSet} (pending : c ∈ (u.stager.get q).list)
    {n : Nat} {d : PathChange} (onPath : c.change = .path n d) : u.pendingKinds n = d.kinds := by
  have object : c.object = .path n := congrArg Change.object onPath
  have owner := claimed.owner pending
  have own := claimed.ownSet pending
  rw [object] at owner own
  have change : u.ownChange q (.path n) = .path n d := by
    rw [State.ownChange, own, Option.map_some, Option.getD_some, onPath]
  rw [State.pendingKinds, owner]
  dsimp only
  rw [change]
  rfl

/-- An object that no set of either port is on has no owner. -/
theorem State.owner_none {u : State} {o : Object} (noSet : ∀ q, ∀ c ∈ (u.stager.get q).list, c.object ≠ o) : u.owner o = none := by
  rw [State.owner, State.ownSet_eq_none (noSet .p0), State.ownSet_eq_none (noSet .p1)]
  rfl

/-! ## READ PATH (R73) -/

theorem answerReadPath_free (p : Port) {body : List Byte} {u : State} (h : pathAt u.model.paths (field body 0 1) = .free) :
    answerReadPath p body u = (u, .refuse .noSuchObject) := by
  unfold answerReadPath
  dsimp only
  rw [h]

theorem answerReadPath_pending (p : Port) {body : List Byte} {u : State} {mic feed : Nat}
    (h : pathAt u.model.paths (field body 0 1) = .pendingOpen mic feed) :
    answerReadPath p body u = (u, .accept false (pendingPathBody u (field body 0 1) mic feed)) := by
  unfold answerReadPath
  dsimp only
  rw [h]

theorem answerReadPath_unseen (p : Port) {body : List Byte} {u : State} {c : OpenPath}
    (h : pathAt u.model.paths (field body 0 1) = .opened c) (unseen : ∀ q, pathAt u.seen.paths (field body 0 1) ≠ .opened q) :
    answerReadPath p body u = (u, .accept false (pendingPathBody u (field body 0 1) c.mic c.feed)) := by
  unfold answerReadPath
  dsimp only
  rw [h]
  cases seen : pathAt u.seen.paths (field body 0 1) with
  | free => rfl
  | pendingOpen mic feed => rfl
  | opened q => exact absurd seen (unseen q)

theorem answerReadPath_open (p : Port) {body : List Byte} {u : State} {c q : OpenPath}
    (h : pathAt u.model.paths (field body 0 1) = .opened c) (seen : pathAt u.seen.paths (field body 0 1) = .opened q) :
    answerReadPath p body u = (u, .accept false (openPathBody u (field body 0 1) q)) := by
  unfold answerReadPath
  dsimp only
  rw [h, seen]

/-! ## READ TAPS (R54) -/

theorem State.readablePath_closed {u : State} {n : Nat} (h : ∀ c, pathAt u.model.paths n ≠ .opened c) : u.readablePath n = none := by
  unfold State.readablePath
  split
  next open_ _ => exact absurd open_ (h _)
  next => rfl

theorem State.readablePath_unseen {u : State} {n : Nat} (h : ∀ q, pathAt u.seen.paths n ≠ .opened q) : u.readablePath n = none := by
  unfold State.readablePath
  split
  next open_ => exact absurd open_ (h _)
  next => rfl

theorem State.readablePath_open {u : State} {n : Nat} {c q : OpenPath} (now : pathAt u.model.paths n = .opened c)
    (seen : pathAt u.seen.paths n = .opened q) : u.readablePath n = some q := by
  unfold State.readablePath
  rw [now, seen]

theorem State.readablePath_some {u : State} {n : Nat} {q : OpenPath} (h : u.readablePath n = some q) :
    pathAt u.seen.paths n = .opened q := by
  unfold State.readablePath at h
  split at h
  next seen =>
    cases h
    exact seen
  next => cases h

theorem answerReadTaps_refuses (p : Port) {body : List Byte} {u : State}
    (h : ∀ q, u.readablePath (field body 0 1) = some q → q.windows.length ≤ field body 1 1) :
    answerReadTaps p body u = (u, .refuse .noSuchObject) := by
  unfold answerReadTaps parseReadTaps
  dsimp only
  split
  next q readable => rw [List.getElem?_eq_none (h q readable)]
  next => rfl

theorem answerReadTaps_answers (p : Port) {body : List Byte} {u : State} {q : OpenPath} {w : Window}
    (readable : u.readablePath (field body 0 1) = some q) (window : q.windows[field body 1 1]? = some w) :
    answerReadTaps p body u =
      (u, .accept (optClamped 1 0 1 64 (field body 4 1))
        (tapsBody u w (field body 2 2) (clampNat 1 64 (field body 4 1)))) := by
  unfold answerReadTaps parseReadTaps
  dsimp only
  rw [readable]
  dsimp only
  rw [window]

/-- A count that has to be present is clamped exactly when it is out of its range (R159). -/
theorem optClamped_present_iff (lo hi v : Nat) : optClamped 1 0 lo hi v = true ↔ v < lo ∨ hi < v := by
  rw [optClamped_iff]
  exact and_iff_right (by decide)

theorem Reply.accept_status (clamped : Bool) (body : List Byte) :
    (Reply.accept clamped body).status = if clamped = true then .acceptedClamped else .accepted := rfl

/-! ## READ EVENTS (R175) -/

/-- The records taken are no more than the count and the room allow, and no fewer. -/
theorem takeRecords_bounds (n room : Nat) (q : List Record) :
    (takeRecords n room q).1.length ≤ n ∧ (((takeRecords n room q).1.map fun c => c.bytes.length).sum ≤ room) ∧
      ∀ c more, (takeRecords n room q).2 = c :: more →
        (takeRecords n room q).1.length = n ∨ room < (((takeRecords n room q).1 ++ [c]).map fun c => c.bytes.length).sum := by
  induction n generalizing room q with
  | zero => exact ⟨Nat.le_refl 0, Nat.zero_le _, fun _ _ _ => .inl rfl⟩
  | succ n ih =>
    cases q with
    | nil => exact ⟨Nat.zero_le _, Nat.zero_le _, fun _ _ rest => nomatch rest⟩
    | cons c q =>
      simp only [takeRecords]
      split
      next fits =>
        obtain ⟨few, room', most⟩ := ih (room - c.bytes.length) q
        refine ⟨Nat.succ_le_succ few, ?_, fun d more rest => ?_⟩
        · simp only [List.map_cons, List.sum_cons]
          omega
        · obtain full | noRoom := most d more rest
          · exact .inl (congrArg (· + 1) full)
          · right
            simp only [List.cons_append, List.map_cons, List.sum_cons]
            omega
      next noFit =>
        refine ⟨Nat.zero_le _, Nat.zero_le _, fun d more rest => .inr ?_⟩
        cases rest
        simpa using noFit

theorem le_succ (n v : Nat) : le (n + 1) v = byte v :: le n (v / 256) := rfl

theorem byte_toNat (v : Nat) : (byte v).toNat = v % 256 := BitVec.toNat_ofNat v 8

/-! ## READ COUNTERS, READ POOL (R55, R176) -/

/-- What a counter's flag adds to the byte of flags. -/
def Counter.flagBit (c : Counter) (i : Nat) : Nat := if c.overflow then 2 ^ i else 0

theorem flagsValue_list (c : Counters) :
    flagsValue c.list =
      c.feedDrop.flagBit 0 + c.feedRepeat.flagBit 1 + c.feedLosses.flagBit 2 + c.feedFrameFault.flagBit 3 +
        c.arrayFrameFault.flagBit 4 + c.arrayStops.flagBit 5 + c.degradedBlocks.flagBit 6 + c.eventsLost.flagBit 7 := by
  simp only [Counters.list, flagsValue, Counter.flagBit, ite_eq_mul_toNat]
  omega

/-- Every segment is in one of the four states. -/
theorem segStates_count (l : List SegState) :
    l.count .free + l.count (.reserved .p0) + l.count (.reserved .p1) + l.count .inUse = l.length := by
  induction l with
  | nil => rfl
  | cons x l ih =>
    have head : (if x == .free then 1 else 0) + (if x == .reserved .p0 then 1 else 0) + (if x == .reserved .p1 then 1 else 0) +
        (if x == .inUse then 1 else 0) = 1 := by
      cases x with
      | free => rfl
      | reserved q => cases q <;> rfl
      | inUse => rfl
    simp only [List.count_cons, List.length_cons]
    omega

end Sys2Proof.Machine
end

section
/-! PROOFS. The statements about the requests that report. -/

open Sys2Proof Sys2Proof.Machine

/-- Settles O19. -/
theorem readMicAnswers : Obligations.ReadMicAnswers := by
  intro s p body takes
  refine ⟨fun noMic => ?_, fun isMic => ?_⟩
  · exact exec_command_answers (k := .readMic) takes (if_pos noMic)
  · exact exec_command_answers (k := .readMic) takes (if_neg (Nat.not_le.mpr isMic))

/-- Settles O20. -/
theorem readReferenceAnswers : Obligations.ReadReferenceAnswers := by
  intro s p body takes
  refine ⟨fun noFeed => ?_, fun isFeed => ?_⟩
  · exact exec_command_answers (k := .readReference) takes (if_pos noFeed)
  · exact exec_command_answers (k := .readReference) takes (if_neg (Nat.not_le.mpr isFeed))

/-- Settles O21: the owner and the kinds of the one set on an object, and the record's state now and as reads see it. -/
theorem readPathAnswers : Obligations.ReadPathAnswers := by
  refine ⟨?oneSet, ?noSet, rfl, ?answers⟩
  case oneSet =>
    intro u claimed q c pending
    refine ⟨claimed.owner pending, fun n d onPath i => ?_⟩
    rw [claimed.pendingKinds pending onPath, PathChange.kinds_eq, flagsNat_testBit]
  case noSet =>
    intro u o noSet
    refine ⟨State.owner_none noSet, ?_⟩
    rintro n rfl
    rw [State.pendingKinds, State.owner_none noSet]
  case answers =>
    intro s p body takes
    refine ⟨fun isFree => ?_, fun mic feed isPending => ?_, fun c isOpen unseen => ?_, fun c q isOpen seen => ?_⟩
    · exact exec_command_answers (k := .readPath) takes (answerReadPath_free p isFree)
    · exact exec_command_answers (k := .readPath) takes (answerReadPath_pending p isPending)
    · exact exec_command_answers (k := .readPath) takes (answerReadPath_unseen p isOpen unseen)
    · exact exec_command_answers (k := .readPath) takes (answerReadPath_open p isOpen seen)

/-- Settles O22: a path that no read finds open, a window that is not there, and the taps of a window. -/
theorem readTapsAnswers : Obligations.ReadTapsAnswers := by
  intro s p body takes
  have refuses (h : ∀ q, s.settle.readablePath (field body 0 1) = some q → q.windows.length ≤ field body 1 1) :
      exec (.readTaps p body) s = .next (s.settle.answered p .readTaps .noSuchObject []) :=
    exec_command_answers (k := .readTaps) takes (answerReadTaps_refuses p h)
  refine ⟨fun closed => refuses ?_, fun unseen => refuses ?_, fun q seen noWindow => refuses ?_, fun c q w isOpen seen window => ?_⟩
  · rw [State.readablePath_closed closed]
    exact fun _ h => nomatch h
  · rw [State.readablePath_unseen unseen]
    exact fun _ h => nomatch h
  · intro r readable
    obtain rfl : q = r := PathRec.opened.inj (seen.symm.trans (State.readablePath_some readable))
    exact noWindow
  · have answered := exec_command_answers (k := .readTaps) takes
      (answerReadTaps_answers p (State.readablePath_open isOpen seen) window)
    simp only [Reply.accept_status, optClamped_present_iff] at answered
    exact answered

/-- Settles O23: the bytes of each kind of record, and the bounds of the records taken. -/
theorem readEventsTakesRecords : Obligations.ReadEventsTakesRecords := by
  refine ⟨?bytes, fun n v => ⟨rfl, le_succ n v, byte_toNat v⟩, ⟨rfl, rfl, rfl, rfl, rfl, rfl, rfl, rfl, rfl⟩, ?takes⟩
  case bytes =>
    intro b
    refine ⟨fun _ _ _ _ => rfl, fun _ _ _ => rfl, fun _ moved _ => ?_, fun _ _ _ => rfl, fun _ _ _ => rfl, rfl, rfl, rfl, rfl, rfl,
      rfl, fun _ => rfl, fun o _ origin => ?_, fun _ => rfl, fun _ => rfl, rfl⟩
    · cases moved <;> rfl
    · cases o <;> cases origin <;> rfl
  case takes =>
    intro s p body takes
    obtain ⟨few, room, most⟩ := takeRecords_bounds (clampNat 1 8 (field body 0 1)) 248 (s.settle.report.get p).queue
    refine ⟨_, _, (takeRecords_append _ _ _).symm, few, room, most, ?_⟩
    have answered := exec_command_answers (k := .readEvents) takes rfl
    simp only [Reply.accept_status, optClamped_present_iff] at answered
    exact answered

/-- Settles O24: the flags' byte is the sum of its bits. -/
theorem readCountersClearsOwnCopies : Obligations.ReadCountersClearsOwnCopies := by
  intro s p body takes
  have answered := exec_command_answers (k := .readCounters) takes rfl
  rw [countersBody, flagsValue_list] at answered
  exact answered

/-- Settles O25: the answer, and the total of the four counts. -/
theorem readPoolCounts : Obligations.ReadPoolCounts := by
  refine ⟨⟨rfl, fun _ _ => rfl, fun _ => rfl⟩, fun s p body takes => ⟨exec_command_takes takes, fun shaped => ?_⟩⟩
  obtain ⟨_, _, _, _, _, ⟨segs, _⟩, _⟩ := shaped.settle
  exact (segStates_count _).trans segs

end

section
/-! PROOFS. What changes what reads see, command by command, and what is finished first (R160, logs 3, 4 and 35). -/

namespace Sys2Proof.Machine

/-- What one command can do to what reads see: nothing, or a processing that was in progress is complete, now or in what the command
finished first. -/
def SeenChange (s t : State) : Prop :=
  t.seen = s.seen ∨ (s.proc ≠ none ∧
    ((t.proc = none ∧ t.seen = t.model) ∨ t.seen = s.settle.seen ∨ t.seen = s.settle.finishBeforeWrite.seen))

theorem SeenChange.of_step {s t : State} (h : SeenStep s t) : SeenChange s t := by
  obtain ⟨seen, _⟩ | ⟨inProgress, complete, seen⟩ := h
  · exact .inl seen
  · exact .inr ⟨inProgress, .inl ⟨complete, seen⟩⟩

theorem SeenChange.of_settle {s t : State} (h : t.seen = s.seen ∨ t.seen = s.settle.seen) : SeenChange s t := by
  obtain same | settled := h
  · exact .inl same
  · by_cases idle : s.proc = none
    · rw [State.settle_of_none s idle] at settled
      exact .inl settled
    · exact .inr ⟨idle, .inr (.inl settled)⟩

theorem SeenChange.of_finish {s t : State} (h : t.seen = s.seen ∨ t.seen = s.settle.finishBeforeWrite.seen) : SeenChange s t := by
  obtain same | finished := h
  · exact .inl same
  · by_cases idle : s.proc = none
    · rw [State.settle_of_none s idle, State.finishBeforeWrite_of_none s idle] at finished
      exact .inl finished
    · exact .inr ⟨idle, .inr (.inr finished)⟩

theorem SeenChange.expireHolds (s : State) : SeenChange s s.expireHolds := .inl s.expireHolds_seen

/-- The bits of a feed row change nothing that reads see. -/
theorem SeenChange.receiveFeed (s : State) (bits : List LineBit) : SeenChange s (s.receive .feed bits) :=
  .inl (foldl_keeps (P := fun t => t.seen = s.seen) (fun t b h => by rw [State.feedBit_frame]; exact h) bits rfl)

/-- One bit of an array row at most. -/
theorem SeenChange.receiveArray (s : State) {bits : List LineBit} (single : ∀ b b' more, bits ≠ b :: b' :: more) :
    SeenChange s (s.receive .array bits) := by
  match bits with
  | [] => exact .inl rfl
  | [b] => exact .of_finish (s.arrayBit_seen b)
  | b :: b' :: more => exact absurd rfl (single b b' more)

theorem SeenChange.stopExpiry (s : State) : SeenChange s s.stopExpiry := by
  unfold State.stopExpiry
  split
  · rw [State.endProcessing, State.stopArray_setProc]
    have finished := SeenStep.finishProcessing s
    generalize s.finishProcessing = u at finished
    obtain ⟨seen, _⟩ | ⟨inProgress, _, seen⟩ := finished
    · exact .inl seen
    · exact .inr ⟨inProgress, .inl ⟨rfl, seen⟩⟩
  · exact .inl rfl

theorem SeenChange.badRequest (s : State) (p : Port) (bytes : List Byte) : SeenChange s (s.badRequest p bytes) := by
  refine .of_settle ?_
  unfold State.badRequest
  split
  · unfold State.endWrite
    split
    · split
      · exact .inr rfl
      · exact .inl rfl
    all_goals exact .inl rfl
  · exact .inl rfl

theorem State.begin_seen (s : State) (o : Opening) (early : List Byte) : (s.begin o early).seen = s.seen := by
  unfold State.begin
  split
  · split
    · split
      · rfl
      · split <;> rfl
    · rfl
  · split
    · rfl
    · split
      · rfl
      · split <;> rfl

theorem State.endEmpty_seen (s : State) (p : Port) : (s.endEmpty p).seen = s.seen := by
  unfold State.endEmpty
  split <;> rfl

theorem State.request_seenOf (s : State) (p : Port) {k : Kind} (body : List Byte) (noReset : k ≠ .resetPart) :
    (s.request p k body (k.owner p body)).seen = s.seen ∨ (s.request p k body (k.owner p body)).seen = s.settle.seen := by
  refine s.request_seen p k body _ fun t => ?_
  obtain ⟨_, _, seen⟩ := (Kind.owner_step noReset p body t).audio
  exact seen

theorem SeenChange.request (s : State) (p : Port) (k : Kind) (body : List Byte) (noReset : k ≠ .resetPart := by decide) :
    SeenChange s (s.request p k body (k.owner p body)) := .of_settle (s.request_seenOf p body noReset)

/-- What a command other than a reset, and one bit at a time at the array port, does to what reads see. -/
theorem SeenChange.exec {c : Instr} {s t : State} (noPowerOn : ∀ x, c ≠ .powerOnReset x) (noReset : ∀ p body, c ≠ .resetPart p body)
    (single : ∀ b b' bits, c ≠ .arrayFrameArrival (b :: b' :: bits) ∧ c ≠ .frameSync ⟨.array, b :: b' :: bits⟩)
    (h : exec c s = .next t) : SeenChange s t := by
  cases c with
  | powerOnReset x => exact absurd rfl (noPowerOn x)
  | resetPart p body => exact absurd rfl (noReset p body)
  | feedFrameArrival bits => cases h; exact .receiveFeed s bits
  | arrayFrameArrival bits => cases h; exact .receiveArray s fun b b' more e => (single b b' more).1 (by rw [e])
  | frameSync a =>
    cases h
    obtain ⟨port, bits⟩ := a
    cases port with
    | feed => exact .receiveFeed s bits
    | array => exact .receiveArray s fun b b' more e => (single b b' more).2 (by rw [show bits = _ from e])
  | holdExpired => cases h; exact .expireHolds s
  | supervisorStage => cases h; exact .of_step (.supervisorStage s)
  | runThreshold m => cases h; exact .of_step (.runThreshold s m)
  | micDiverged m => cases h; exact .of_step (.micDiverged s m)
  | alignmentStage => cases h; exact .of_step (.alignmentStage s)
  | bulkResult => cases h; exact .of_step (.bulkResult s)
  | checkCountdownExpiry f => cases h; exact .of_step (.checkExpiry s f)
  | arbiterStage => cases h; exact .of_step (.arbiterStage s)
  | updateStage => cases h; exact .of_step (.updateStage s)
  | meterTimerExpiry p => cases h; exact .of_step (.meterExpiry s p)
  | stopTimerExpiry => cases h; exact .stopExpiry s
  | unknownKind p bytes => cases h; exact .badRequest s p bytes
  | transactionBegin o early => cases h; exact .inl (s.begin_seen o early)
  | transactionEndNoRequest p => cases h; exact .inl (s.endEmpty_seen p)
  | identify p body => cases h; exact .request s p .identify body
  | readPath p body => cases h; exact .request s p .readPath body
  | readMic p body => cases h; exact .request s p .readMic body
  | readReference p body => cases h; exact .request s p .readReference body
  | readTaps p body => cases h; exact .request s p .readTaps body
  | readEvents p body => cases h; exact .request s p .readEvents body
  | readCounters p body => cases h; exact .request s p .readCounters body
  | readPool p body => cases h; exact .request s p .readPool body
  | setMic p body => cases h; exact .request s p .setMic body
  | setReference p body => cases h; exact .request s p .setReference body
  | setPath p body => cases h; exact .request s p .setPath body
  | setGlobal p body => cases h; exact .request s p .setGlobal body
  | acquire p body => cases h; exact .request s p .acquire body
  | hold p body => cases h; exact .request s p .hold body
  | release p body => cases h; exact .request s p .release body
  | mute p body => cases h; exact .request s p .mute body
  | meter p body => cases h; exact .request s p .meter body
  | watch p body => cases h; exact .request s p .watch body
  | eventEnable p body => cases h; exact .request s p .eventEnable body
  | openPath p body => cases h; exact .request s p .openPath body
  | closePath p body => cases h; exact .request s p .closePath body
  | setWindows p body => cases h; exact .request s p .setWindows body
  | writeTaps p body => cases h; exact .request s p .writeTaps body
  | clearModel p body => cases h; exact .request s p .clearModel body
  | route p body => cases h; exact .request s p .route body
  | standby p body => cases h; exact .request s p .standby body
  | wake p body => cases h; exact .request s p .wake body
  | resetPort p body => cases h; exact .request s p .resetPort body

/-! ## What is finished first -/

/-- Settling has nothing to do where no block start waits and no meter expiry is due. -/
theorem State.settle_of_notDue {s : State} (h : ∀ p, s.proc = some p → p.phase ≠ .expiring ∧
    ∀ due q, p.phase = .meters due → (s.report.get q).meter.running = true → (s.report.get q).meter.count ≠ 0) : s.settle = s := by
  have noMeter (q : Port) : s.meterExpiry q = s := by
    refine State.meterExpiry_idle ?_
    cases block : s.proc with
    | none => exact .inl fun due => nofun
    | some p =>
      by_cases atMeters : ∃ due, p.phase = .meters due
      · obtain ⟨due, atMeters⟩ := atMeters
        right
        cases running : (s.report.get q).meter.running with
        | false => exact .inl rfl
        | true => exact .inr ((h p block).2 due q atMeters running)
      · exact .inl fun due phase => atMeters ⟨due, Option.some.inj phase⟩
  rw [State.settle, s.expireHolds_of_landed fun p block => (h p block).1, noMeter, noMeter]

section
variable {run : State → Instr → State} (runs : ∀ t c u, exec c t = .next u → run t c = u)
include runs

theorem State.settle_run (s : State) : [Instr.holdExpired, .meterTimerExpiry .p0, .meterTimerExpiry .p1].foldl run s = s.settle := by
  rw [List.foldl_cons, List.foldl_cons, List.foldl_cons, runs s _ _ rfl, runs s.expireHolds _ _ rfl, runs _ _ _ rfl]
  rfl

/-- Step 5 of every microphone, as a run of its two commands in ascending number. -/
theorem State.verdictSteps_run (s : State) :
    ((List.range 24).flatMap fun m => [Instr.micDiverged m, .runThreshold m]).foldl run s = s.verdictSteps := by
  have turn (m : Nat) (t : State) : [Instr.micDiverged m, .runThreshold m].foldl run t = t.verdictStep m := by
    rw [List.foldl_cons, List.foldl_cons, runs t _ _ rfl, runs (t.micDiverged m) _ _ rfl]
    rfl
  rw [List.foldl_flatMap]
  simp only [turn]
  rfl

theorem State.checkExpiries_run (s : State) : ((List.range 8).map Instr.checkCountdownExpiry).foldl run s = s.checkExpiries := by
  have check (t : State) (f : Nat) : run t (.checkCountdownExpiry f) = t.checkExpiry f := runs t _ _ rfl
  rw [List.foldl_map]
  simp only [check]
  rfl

/-- Finishing a processing is a run of the commands of its stages, in their order. -/
theorem State.finishProcessing_run (s : State) :
    (([.holdExpired, .meterTimerExpiry .p0, .meterTimerExpiry .p1] : List Instr) ++
      (([.supervisorStage] : List Instr) ++ ((List.range 24).flatMap fun m => [Instr.micDiverged m, .runThreshold m]) ++
        ([.alignmentStage, .bulkResult] : List Instr) ++ (List.range 8).map Instr.checkCountdownExpiry ++
        ([.arbiterStage, .updateStage] : List Instr)) ++
      ([.holdExpired, .meterTimerExpiry .p0, .meterTimerExpiry .p1] : List Instr)).foldl run s = s.finishProcessing := by
  have supervisor (t : State) : run t .supervisorStage = t.supervisorStage := runs t _ _ rfl
  have alignment (t : State) : run t .alignmentStage = t.alignmentStage := runs t _ _ rfl
  have results (t : State) : run t .bulkResult = t.bulkResult := runs t _ _ rfl
  have arbiter (t : State) : run t .arbiterStage = t.arbiterStage := runs t _ _ rfl
  have update (t : State) : run t .updateStage = t.updateStage := runs t _ _ rfl
  rw [List.foldl_append, List.foldl_append, State.settle_run runs, State.settle_run runs]
  rw [List.foldl_append, List.foldl_append, List.foldl_append, List.foldl_append, State.verdictSteps_run runs,
    State.checkExpiries_run runs]
  simp only [List.foldl_cons, List.foldl_nil, supervisor, alignment, results, arbiter, update]
  rfl

end

theorem State.finishBeforeWrite_due {s : State} {p : Proc} (block : s.proc = some p) (due : 63 ≤ p.writesSince) :
    s.finishBeforeWrite = s.finishProcessing := by
  unfold State.finishBeforeWrite
  rw [block]
  exact if_pos (Nat.succ_le_succ due)

theorem State.finishBeforeWrite_early {s : State} (early : ∀ p, s.proc = some p → p.writesSince < 63) : s.finishBeforeWrite = s := by
  unfold State.finishBeforeWrite
  split
  next p block => exact if_neg (Nat.not_le.mpr (Nat.succ_lt_succ (early p block)))
  next => rfl

end Sys2Proof.Machine
end

section
/-! PROOFS. The statement about what reads see. -/

open Sys2Proof Sys2Proof.Machine

/-- Settles O26: what is finished first as a run of commands, and what each command does to what reads see. -/
theorem readsSeeLastCompletedBlock : Obligations.ReadsSeeLastCompletedBlock := by
  refine ⟨fun s => ?first, ?commands, ?finished, ?arrayBit, ?requests⟩
  case first =>
    intro run settling stages
    have runs : ∀ t c u, exec c t = .next u → run t c = u := by
      intro t c u h
      simp only [run, h]
    exact ⟨(State.settle_run runs s).symm, State.settle_of_notDue, s.settle_of_none, (State.finishProcessing_run runs s).symm,
      fun p block due => State.finishBeforeWrite_due block due, State.finishBeforeWrite_early⟩
  case commands => exact fun c s t noPowerOn noReset single h => SeenChange.exec noPowerOn noReset single h
  case finished =>
    intro s
    have settled := SeenStep.settle s
    have finished := settled.trans (SeenStep.finishBeforeWrite _) (State.finishBeforeWrite_of_none _)
    exact ⟨settled.imp_left And.left, finished.imp_left And.left⟩
  case arrayBit =>
    intro s t b unfinished arrival
    obtain rfl : s.arrayBit b = t := Host.Outcome.next.inj arrival
    exact (s.arrayBit_seen b).elim id fun seen => seen.trans unfinished
  case requests =>
    intro s t p k body noReset unsettled answered
    rw [exec_command] at answered
    obtain rfl := Host.Outcome.next.inj answered
    exact (s.request_seenOf p body noReset).elim id fun seen => seen.trans unsettled

end

section
/-! PROOFS. The set that a staged request joins or makes (R137, R139), and what a port is left with by an answer. -/

namespace Sys2Proof.Machine

/-! ## A port's set on an object -/

theorem State.ownSet_eq_none_iff (s : State) (p : Port) (o : Object) :
    s.ownSet p o = none ↔ ∀ c ∈ (s.stager.get p).list, c.change.object ≠ o := by
  rw [State.ownSet, List.find?_eq_none]
  simp only [beq_iff_eq]
  rfl

theorem State.mem_of_ownSet {s : State} {p : Port} {o : Object} {c : ChangeSet} (own : s.ownSet p o = some c) :
    c ∈ (s.stager.get p).list :=
  List.mem_of_find?_eq_some own

theorem State.ownChange_of_some {s : State} {p : Port} {o : Object} {c : ChangeSet} (own : s.ownSet p o = some c) :
    s.ownChange p o = c.change := by
  rw [State.ownChange, own]
  rfl

theorem State.ownChange_of_none {s : State} {p : Port} {o : Object} (own : s.ownSet p o = none) :
    s.ownChange p o = .empty o := by
  rw [State.ownChange, own]
  rfl

/-! ## What staging makes of a pending list -/

theorem map_onObject_of_ne {o : Object} (f : Change → Change) {l : List ChangeSet} (apart : ∀ d ∈ l, d.object ≠ o) :
    (l.map fun d => if d.object = o then { d with change := f d.change } else d) = l :=
  (List.map_congr_left fun d inList => if_neg (apart d inList)).trans (List.map_id _)

/-- A first request on an object goes to the tail. -/
theorem State.stage_of_ownSet_none {s : State} {p : Port} {o : Object} (own : s.ownSet p o = none) (f : Change → Change) :
    s.stage p o f =
      { s with stager := s.stager.set p { s.stager.get p with
        list := (s.stager.get p).list ++ [{ port := p, acceptBlock := s.array.counter, change := f (.empty o) }] } } := by
  rw [State.stage_eq, stageInto, s.any_onObject, own, Option.isSome_none, if_neg Bool.false_ne_true]

/-- A further request on an object changes the one set there, where it stands. -/
theorem stageInto_split (p : Port) (b : BlockNo) {o : Object} (f : Change → Change) {before after : List ChangeSet} {c : ChangeSet}
    (onObject : c.object = o) (apart : ∀ d ∈ before ++ after, d.object ≠ o) :
    stageInto p b o f (before ++ c :: after) = before ++ { c with change := f c.change } :: after := by
  have found : ((before ++ c :: after).any fun d => d.object == o) = true :=
    List.any_eq_true.mpr ⟨c, List.mem_append_right _ List.mem_cons_self, beq_iff_eq.mpr onObject⟩
  rw [stageInto, if_pos found, List.map_append, List.map_cons, if_pos onObject,
    map_onObject_of_ne f fun d inBefore => apart d (List.mem_append_left _ inBefore),
    map_onObject_of_ne f fun d inAfter => apart d (List.mem_append_right _ inAfter)]

/-! ## Answers at the port -/

/-- The state that a port is left in by an owner's answer. -/
def leaveAnswered (p : Port) (k : Kind) (a : State × Reply) : State := a.1.answered p k a.2.status a.2.body

theorem exec_command_leaves {s : State} {p : Port} {k : Kind} {body : List Byte} (h : s.Takes p k body) :
    exec (k.command p body) s = .next (leaveAnswered p k (k.owner p body s.settle)) :=
  exec_command_takes h

end Sys2Proof.Machine
end

section
/-! PROOFS. The statements about staging and ACQUIRE. -/

open Sys2Proof Sys2Proof.Machine

/-- Settles O27: the parts by their constructors, a port's set by the search of its pending list, and staging by whether the search
finds a set on the object. -/
theorem stagingJoinsOrMerges : Obligations.StagingJoinsOrMerges := by
  refine ⟨?empty, ?writes, ?reads, ⟨rfl, rfl⟩, ?own, ?stages⟩
  case empty => exact fun n => ⟨rfl, rfl, rfl, rfl⟩
  case writes => exact ⟨fun _ _ _ => rfl, fun _ _ _ => rfl, fun _ _ _ => rfl, fun _ _ => rfl⟩
  case reads => exact ⟨fun _ _ => ⟨rfl, rfl⟩, fun _ _ => ⟨rfl, rfl⟩, fun _ _ => ⟨rfl, rfl⟩, fun _ => ⟨rfl, rfl⟩⟩
  case own =>
    intro s p o
    exact ⟨s.ownSet_eq_none_iff p o,
      fun c own => ⟨State.mem_of_ownSet own, State.object_of_ownSet own, State.ownChange_of_some own⟩, State.ownChange_of_none⟩
  case stages =>
    intro s p o f
    refine ⟨fun own => State.stage_of_ownSet_none own f, ?_⟩
    intro before c after split onObject apart
    rw [State.stage_eq, split, stageInto_split p _ f onObject apart]

/-- Settles O32, check by check in R37's order. -/
theorem acquireStaged : Obligations.AcquireStaged := by
  intro s p body takes u f
  calc exec (.acquire p body) s
    _ = .next (leaveAnswered p .acquire (answerAcquire p body u)) := exec_command_leaves takes
    _ = _ := by
      simp only [answerAcquire, apply_ite (leaveAnswered p .acquire)]
      rfl

end

section
/-! PROOFS. What an acceptance marks in the tables (R43, R58), and the record and the segments that OPEN PATH takes (R61). -/

namespace Sys2Proof.Machine

/-! ## Marks in the segment and path tables (R43, R55, R58) -/

theorem setSegs_getElem? (st : SegState) (l : List Nat) (segs : List SegState) (i : Nat) :
    (setSegs st l segs)[i]? = if i < segs.length ∧ i ∈ l then some st else segs[i]? := by
  by_cases inTable : i < segs.length
  · rw [setSegs_get st l segs i inTable]
    simp only [inTable, true_and]
  · have past : (setSegs st l segs).length ≤ i := by
      rw [setSegs_length]
      exact Nat.not_lt.mp inTable
    rw [if_neg fun both => inTable both.1, List.getElem?_eq_none past, List.getElem?_eq_none (Nat.not_lt.mp inTable)]

theorem getElem?_set_here {α : Type} (l : List α) (n : Nat) (a : α) (i : Nat) :
    (l.set n a)[i]? = if i < l.length ∧ i = n then some a else l[i]? := by
  by_cases here : i = n
  · subst here
    by_cases inTable : i < l.length
    · rw [if_pos ⟨inTable, rfl⟩, List.getElem?_set_self inTable]
    · rw [if_neg fun both => inTable both.1, List.getElem?_set_self', List.getElem?_eq_none (Nat.not_lt.mp inTable)]
      rfl
  · rw [if_neg fun both => here both.2, List.getElem?_set_ne (Ne.symm here)]

/-! ## Window lists (R166) -/

theorem parseWindows_cons (a b c d : Byte) (rest : List Byte) :
    parseWindows (a :: b :: c :: d :: rest) =
      { start := a.toNat + 256 * b.toNat, len := c.toNat + 256 * d.toNat } :: parseWindows rest := rfl

/-! ## The record that OPEN PATH takes (R61) -/

theorem freeRecord_eq_none {paths : List PathRec} (taken : ∀ r ∈ paths, r ≠ .free) : freeRecord paths = none := by
  refine List.findIdx?_eq_none_iff.mpr fun r inTable => ?_
  exact beq_eq_false_iff_ne.mpr (taken r inTable)

theorem freeRecord_eq_some {paths : List PathRec} {n : Nat} (inTable : n < paths.length) (free : pathAt paths n = .free)
    (lowest : ∀ k < n, pathAt paths k ≠ .free) : freeRecord paths = some n := by
  refine List.findIdx?_eq_some_iff_getElem.mpr ⟨inTable, ?_, fun k below => ?_⟩
  · rw [pathAt, List.getD_eq_getElem _ _ inTable] at free
    exact beq_iff_eq.mpr free
  · have taken := lowest k below
    rw [pathAt, List.getD_eq_getElem _ _ (below.trans inTable)] at taken
    exact fun isFree => taken (beq_iff_eq.mp isFree)

/-! ## OPEN PATH at the port (R61) -/

theorem parseOpenPath_clamped_iff (body : List Byte) :
    (parseOpenPath body).clamped = true ↔
      3 < field body 2 1 ∨ field body 3 2 < 1 ∨ 255 < field body 3 2 ∨ field body 5 2 < 1 ∨ 255 < field body 5 2 := by
  simp only [parseOpenPath, Bool.or_eq_true, optClamped_present_iff, Nat.not_lt_zero, false_or, or_assoc]

section

variable {u : State} {p : Port} {body : List Byte}

theorem answerOpenPath_noObject (h : 24 ≤ field body 0 1 ∨ 8 ≤ field body 1 1) :
    answerOpenPath p body u = (u, .refuse .noSuchObject) := if_pos h

variable (mic : field body 0 1 < 24) (feed : field body 1 1 < 8)

include mic feed

/-- A request that names a microphone and a feed is decided by the checks after that one. -/
theorem answerOpenPath_badGeometry (invalid : validGeoms (parseWindows (body.drop 8)) = false) :
    answerOpenPath p body u = (u, .refuse .badGeometry) := by
  have objects : ¬ (24 ≤ field body 0 1 ∨ 8 ≤ field body 1 1) := by omega
  have isInvalid : (!validGeoms (parseWindows (body.drop 8))) = true := by rw [invalid]; rfl
  exact (if_neg objects).trans (if_pos isInvalid)

variable (valid : validGeoms (parseWindows (body.drop 8)) = true)

include valid

theorem answerOpenPath_duplicate (held : pairHeld u.model.paths (field body 0 1) (field body 1 1) = true) :
    answerOpenPath p body u = (u, .refuse .duplicate) := by
  have objects : ¬ (24 ≤ field body 0 1 ∨ 8 ≤ field body 1 1) := by omega
  have isValid : ¬ (!validGeoms (parseWindows (body.drop 8))) = true := by rw [valid]; decide
  exact (if_neg objects).trans ((if_neg isValid).trans (if_pos held))

variable (notHeld : pairHeld u.model.paths (field body 0 1) (field body 1 1) = false)

include notHeld

/-- The checks before the table's are passed. -/
theorem answerOpenPath_table :
    answerOpenPath p body u =
      match freeRecord u.model.paths with
      | none => (u, .refuse .tableFull)
      | some n =>
        if (freePool u.model.segs).length < segmentsNeeded (parseWindows (body.drop 8)) then (u, .refuse .noSegments)
        else (u.openAt p n (parseOpenPath body), .accept (parseOpenPath body).clamped [byte n]) := by
  have objects : ¬ (24 ≤ field body 0 1 ∨ 8 ≤ field body 1 1) := by omega
  have isValid : ¬ (!validGeoms (parseWindows (body.drop 8))) = true := by rw [valid]; decide
  exact (if_neg objects).trans ((if_neg isValid).trans (if_neg (ne_true_of_eq_false notHeld)))

end

end Sys2Proof.Machine
end

section
/-! PROOFS. The statement about OPEN PATH. -/

open Sys2Proof Sys2Proof.Machine

/-- Settles O33: the lists and tables by their own lemmas, and OPEN PATH check by check in R61's order. -/
theorem openPathStaged : Obligations.OpenPathStaged := by
  refine ⟨?geometry, ?pool, ⟨rfl, parseWindows_cons⟩, pairHeld_iff, ?segments, ?records, ?request⟩
  case geometry => exact fun l => ⟨validGeoms_iff l, sortGeoms_perm l, sortGeoms_sorted l⟩
  case pool => exact fun segs => ⟨freePool_sorted segs, mem_freePool segs⟩
  case segments =>
    intro s st l
    exact ⟨rfl, fun i => setSegs_getElem? st l s.model.segs i, fun i => setSegs_getElem? st l s.pool.segs i⟩
  case records =>
    intro s n r
    exact ⟨rfl, fun i => getElem?_set_here s.model.paths n r i, fun i => getElem?_set_here s.pool.paths n r.status i⟩
  case request =>
    intro s p body takes u mic feed base fast slow windows need segs clamped refused opening
    have answers : ∀ {t r}, answerOpenPath p body u = (t, r) →
        exec (.openPath p body) s = .next (t.answered p .openPath r.status r.body) :=
      fun answer => exec_command_answers (k := .openPath) takes answer
    refine ⟨fun noObject => answers (answerOpenPath_noObject noObject), ?_, ?_, ?_, ?_⟩
    · intro isMic isFeed invalid
      exact answers (answerOpenPath_badGeometry isMic isFeed invalid)
    · intro isMic isFeed valid held
      exact answers (answerOpenPath_duplicate isMic isFeed valid held)
    · intro isMic isFeed valid notHeld noFree
      refine answers (r := .refuse .tableFull) ?_
      rw [answerOpenPath_table isMic isFeed valid notHeld, freeRecord_eq_none noFree]
    · intro n isMic isFeed valid notHeld inTable free lowest
      have table := answerOpenPath_table (u := u) (p := p) isMic isFeed valid notHeld
      rw [freeRecord_eq_some inTable free lowest] at table
      constructor
      · intro noRoom
        exact answers (table.trans (if_pos noRoom))
      · intro room
        rw [answers (table.trans (if_neg (Nat.not_lt.mpr room))), Reply.accept_status]
        simp only [parseOpenPath_clamped_iff]
        rfl

end

section
/-! PROOFS. The planned layout of a path, and the checks of SET WINDOWS (R67); the values of WRITE TAPS and its checks (R49, R50). -/

namespace Sys2Proof.Machine

/-! ## The layout that a path will have (R49, R67) -/

theorem State.plannedLayout_windows {s : State} {p : Port} {n : Nat} {l : List Geom}
    (windows : (s.ownChange p (.path n)).pathPart.windows = some l) : s.plannedLayout p n = l := by
  simp only [State.plannedLayout, windows]

theorem State.plannedLayout_opening {s : State} {p : Port} {n : Nat} {o : OpenPart}
    (noWindows : (s.ownChange p (.path n)).pathPart.windows = none)
    (opening : (s.ownChange p (.path n)).pathPart.opening = some o) : s.plannedLayout p n = o.windows := by
  simp only [State.plannedLayout, noWindows, opening]

theorem State.plannedLayout_current {s : State} {p : Port} {n : Nat} {q : OpenPath}
    (noWindows : (s.ownChange p (.path n)).pathPart.windows = none)
    (noOpening : (s.ownChange p (.path n)).pathPart.opening = none) (opened : pathAt s.model.paths n = .opened q) :
    s.plannedLayout p n = q.windows.map fun w => { start := w.start, len := w.len } := by
  simp only [State.plannedLayout, noWindows, noOpening, opened]
  rfl

/-! ## SET WINDOWS at the port (R67) -/

/-- The checks of R67 in their order. -/
theorem answerSetWindows_eq (p : Port) (body : List Byte) {u : State} (shaped : u.Shaped) :
    answerSetWindows p body u =
      if 127 < field body 0 1 ∨ pathAt u.model.paths (field body 0 1) = .free then (u, .refuse .noSuchObject)
      else if (u.ownSet (otherPort p) (.path (field body 0 1))).isSome then (u, .refuse .pendingOther)
      else if (u.ownChange p (.path (field body 0 1))).pathPart.close then (u, .refuse .noSuchObject)
      else if validGeoms (parseWindows (body.drop 2)) = false then (u, .refuse .badGeometry)
      else if (freePool u.model.segs).length <
          newBlocks (u.plannedLayout p (field body 0 1)) (parseWindows (body.drop 2)) then (u, .refuse .noSegments)
      else (u.reshapeAt p (field body 0 1) (parseWindows (body.drop 2)), .accept false []) := by
  simp only [shaped.model.noPath_iff, ← Bool.not_eq_true']
  rfl

/-! ## The values of WRITE TAPS (R49, R50) -/

/-- R166. Three bytes, least significant first, are the 24 bits of a coefficient. -/
theorem parseValues_cons (a b c : Byte) (rest : List Byte) :
    parseValues (a :: b :: c :: rest) = (c ++ b ++ a) :: parseValues rest := by
  have value : BitVec.ofNat 24 (unLe [a, b, c]) = c ++ b ++ a := by
    refine BitVec.eq_of_toNat_eq ?_
    have ha := a.isLt
    have hb := b.isLt
    have hc := c.isLt
    rw [BitVec.toNat_append, BitVec.toNat_append, ← Nat.shiftLeft_add_eq_or_of_lt hb, ← Nat.shiftLeft_add_eq_or_of_lt ha]
    simp only [unLe, BitVec.toNat_ofNat, Nat.shiftLeft_eq]
    omega
  rw [parseValues, value]

theorem stageTap_replaces {l : List (Nat × Coef)} {t : Nat × Coef} (held : ∃ c ∈ l, c.1 = t.1) :
    stageTap l t = l.map fun c => if c.1 = t.1 then t else c := by
  obtain ⟨c, inList, same⟩ := held
  have found : (l.any fun c => c.1 == t.1) = true := List.any_eq_true.mpr ⟨c, inList, beq_iff_eq.mpr same⟩
  exact if_pos found

theorem stageTap_joins {l : List (Nat × Coef)} {t : Nat × Coef} (new : ∀ c ∈ l, c.1 ≠ t.1) : stageTap l t = l ++ [t] := by
  refine if_neg fun held => ?_
  obtain ⟨c, inList, same⟩ := List.any_eq_true.mp held
  exact new c inList (beq_iff_eq.mp same)

/-! ## WRITE TAPS at the port (R49, R50) -/

/-- What R49 and R50 ask of the values once the window is found, and the set that they are staged into. -/
def answerValues (p : Port) (u : State) (n offset : Nat) (values : List Coef) (w : Geom) : State × Reply :=
  if w.len < offset + values.length then (u, .refuse .badGeometry)
  else if u.stagingRoom p < placesNeeded (u.ownChange p (.path n)).pathPart.taps (w.start + offset) values.length then
    (u, .refuse .stagingFull)
  else (u.stage p (.path n) (Change.mapPath fun c => { c with taps := stageTaps c.taps (w.start + offset) values }), .accept false [])

/-- The checks of R49 in their order, up to the window. -/
theorem answerWriteTaps_eq (p : Port) (body : List Byte) {u : State} (shaped : u.Shaped) :
    answerWriteTaps p body u =
      if (parseValues (body.drop 4)).length = 0 ∨ 64 < (parseValues (body.drop 4)).length then (u, .refuse .malformed)
      else if 127 < field body 0 1 ∨ pathAt u.model.paths (field body 0 1) = .free then (u, .refuse .noSuchObject)
      else if (u.ownSet (otherPort p) (.path (field body 0 1))).isSome then (u, .refuse .pendingOther)
      else if (u.ownChange p (.path (field body 0 1))).pathPart.close then (u, .refuse .noSuchObject)
      else ((u.plannedLayout p (field body 0 1))[field body 1 1]?).elim (u, .refuse .noSuchObject)
        (answerValues p u (field body 0 1) (field body 2 2) (parseValues (body.drop 4))) := by
  simp only [shaped.model.noPath_iff]
  unfold answerWriteTaps
  cases window : (u.plannedLayout p (field body 0 1))[field body 1 1]? with
  | none => simp only [parseWriteTaps, window]; rfl
  | some w => simp only [parseWriteTaps, window]; rfl

end Sys2Proof.Machine
end

section
/-! PROOFS. The statements about SET WINDOWS and WRITE TAPS. -/

open Sys2Proof Sys2Proof.Machine

/-- Settles O35, check by check in R67's order. -/
theorem setWindowsStaged : Obligations.SetWindowsStaged := by
  refine ⟨sortNats_spec, ?planned, mem_layoutBlocks, ?request⟩
  case planned =>
    intro s p n
    exact ⟨fun _ => State.plannedLayout_windows, fun _ => State.plannedLayout_opening, fun _ => State.plannedLayout_current⟩
  case request =>
    intro s p body shaped takes u n windows need segs
    calc exec (.setWindows p body) s
      _ = .next (leaveAnswered p .setWindows (answerSetWindows p body u)) := exec_command_leaves takes
      _ = _ := by
        rw [answerSetWindows_eq p body shaped.settle]
        simp only [apply_ite (leaveAnswered p .setWindows)]
        rfl

/-- Settles O36, check by check in the order of R49 and R50. -/
theorem writeTapsStaged : Obligations.WriteTapsStaged := by
  refine ⟨⟨rfl, parseValues_cons⟩, fun l t => ⟨stageTap_replaces, stageTap_joins⟩, ?request⟩
  case request =>
    intro s p body shaped takes u n index offset values refused held used
    calc exec (.writeTaps p body) s
      _ = .next (leaveAnswered p .writeTaps (answerWriteTaps p body u)) := exec_command_leaves takes
      _ = _ := by
        rw [answerWriteTaps_eq p body shaped.settle]
        simp only [apply_ite (leaveAnswered p .writeTaps)]
        cases (u.plannedLayout p n)[index]? with
        | none => rfl
        | some w =>
          simp only [Option.elim_some, answerValues, apply_ite (leaveAnswered p .writeTaps)]
          rfl

end

section
/-! PROOFS. The fields of the prompt requests, and what they write (R86, R143, R144, R149, R151, R172, R173, R177, R179). -/

namespace Sys2Proof.Machine

/-! ## Fields -/

theorem field_two_le (body : List Byte) (off : Nat) : field body off 2 ≤ 65535 := by
  have low := (body.getD off 0#8).isLt
  have high := (body.getD (off + 1) 0#8).isLt
  rw [field_succ, field_succ, field_zero]
  omega

/-- Clamping to 0..1 leaves 1 of exactly the codes that are not 0, and a code above 1 is clamped (R159, R173). -/
theorem optClamped_flag_iff (v : Nat) : optClamped 1 0 0 1 v = true ↔ 1 < v := by
  rw [optClamped_present_iff]
  exact or_iff_right (Nat.not_lt_zero v)

/-! ## METER (R177) -/

theorem parseMeter_period (body : List Byte) : (parseMeter body).period = max 1 (field body 2 2) := by
  have inRange := field_two_le body 2
  exact congrArg (max 1) (Nat.min_eq_right inRange)

theorem parseMeter_clamped_of_stop {body : List Byte} (stop : field body 0 1 = 0) : (parseMeter body).clamped = false := by
  simp only [parseMeter, stop, bne_self_eq_false, Bool.false_and]

theorem parseMeter_clamped_iff {body : List Byte} (start : field body 0 1 ≠ 0) :
    (parseMeter body).clamped = true ↔ 1 < field body 0 1 ∨ 1 < field body 1 1 ∨ field body 2 2 < 1 := by
  have inRange : ¬ 65535 < field body 2 2 := Nat.not_lt.mpr (field_two_le body 2)
  simp only [parseMeter, bne_iff_ne.mpr start, Bool.true_and, Bool.or_eq_true, optClamped_present_iff, inRange, Nat.not_lt_zero,
    false_or, or_false, or_assoc]

theorem Meter.command_of_stop (m : Meter) {body : List Byte} (stop : field body 0 1 = 0) :
    m.command (parseMeter body) = { m with running := false } := by
  refine if_neg ?_
  simp only [parseMeter, stop, bne_self_eq_false, Bool.false_and, Bool.false_eq_true, not_false_eq_true]

theorem Meter.command_of_start (m : Meter) {body : List Byte} (start : field body 0 1 ≠ 0) :
    m.command (parseMeter body) =
      if BitVec.ofNat 24 (field body 4 3) = 0#24 then { m with running := false }
      else { running := true, mode := if field body 1 1 = 0 then .oneShot else .continuous, period := max 1 (field body 2 2),
             mask := BitVec.ofNat 24 (field body 4 3), count := max 1 (field body 2 2) } := by
  have isStart : (parseMeter body).start = true := bne_iff_ne.mpr start
  by_cases empty : BitVec.ofNat 24 (field body 4 3) = 0#24
  · rw [if_pos empty]
    refine if_neg ?_
    rw [isStart, Bool.true_and, bne_iff_ne]
    exact not_not.mpr empty
  · have starts : ((parseMeter body).start && (parseMeter body).mask != 0#24) = true := by
      rw [isStart, Bool.true_and, bne_iff_ne]
      exact empty
    rw [if_neg empty, Meter.command, if_pos starts, parseMeter_period]
    rfl

/-! ## WATCH (R179) -/

/-- The last case of `WatchKind.ofCode` yields the kind none, not no kind: there, `none` is `WatchKind.none`. -/
theorem WatchKind.ofCode_five : WatchKind.ofCode 5 = some .none := rfl

/-- A slot of the four and a kind of the five: the slot's watch is stored, and a clamp is reported for a kind with a range. -/
theorem answerWatch_stores {p : Port} {body : List Byte} {u : State} {k : WatchKind} (slot : field body 0 1 ≤ 3)
    (kind : WatchKind.ofCode (field body 1 1) = some k) :
    answerWatch p body u =
      (u.setReport p { u.report.get p with
          watches := (u.report.get p).watches.set (field body 0 1) (watchOf k (field body 2 1) (field body 3 1)) },
        .accept (k.ranged && (decide (k.top < field body 2 1) || decide (k.top < field body 3 1)))
          [byte (field body 0 1), byte k.code, byte (watchOf k (field body 2 1) (field body 3 1)).first,
            byte (watchOf k (field body 2 1) (field body 3 1)).last]) := by
  simp only [answerWatch, decide_eq_true slot, kind]

/-- A part at its reset values whose port 0 is receiving a write. -/
def receivingPart : State :=
  { State.reset with ctl := { p0 := { Ctl.reset .observe with trans := .receiving [] }, p1 := Ctl.reset .observe } }

/-- A WATCH of slot 0 with the kind code 5, which no kind has. -/
def watchUnknownKind : List Byte := [0#8, 5#8, 0#8, 0#8]

theorem receivingPart_takes : receivingPart.Takes .p0 .watch watchUnknownKind :=
  ⟨⟨[], rfl, rfl⟩, by decide, by decide, by decide⟩

/-- The unknown kind is not refused: the slot is stored with the kind none. -/
theorem watchUnknownKind_accepted : ∃ t : State, exec (.watch .p0 watchUnknownKind) receivingPart = .next t ∧
    (t.ctl.get .p0).slot.status = .accepted := by
  have stores := answerWatch_stores (p := .p0) (body := watchUnknownKind) (u := receivingPart.settle) (by decide)
    WatchKind.ofCode_five
  exact ⟨_, exec_command_answers (k := .watch) receivingPart_takes stores, rfl⟩

/-! ## EVENT ENABLE (R173) and ROUTE (R172) -/

theorem Dest.ofCode_min (code : Nat) : Dest.ofCode (min 3 code) = Dest.ofCode code := by
  match code with
  | 0 => rfl
  | 1 => rfl
  | 2 => rfl
  | n + 3 =>
    have clamped : min 3 (n + 3) = 3 := Nat.min_eq_left (Nat.le_add_left 3 n)
    rw [clamped]
    rfl

theorem setRoute_eq (routes : List Dest) (e : Nat × Nat) : setRoute routes e = routes.set (e.1 - 1) (Dest.ofCode e.2) :=
  congrArg (routes.set (e.1 - 1)) (Dest.ofCode_min e.2)

theorem routedCode_iff (n : Nat) : routedCode n = true ↔ 1 ≤ n ∧ n ≤ 11 := by
  rw [routedCode, Bool.and_eq_true, decide_eq_true_iff, decide_eq_true_iff]

theorem answerRoute_badKind {body : List Byte} {u : State} (bad : ∃ e ∈ parseRoute body, e.1 < 1 ∨ 11 < e.1) :
    answerRoute body u = (u, .refuse .noSuchObject) := by
  refine if_neg fun allRouted => ?_
  obtain ⟨e, inList, outside⟩ := bad
  have inside := (routedCode_iff e.1).mp (List.all_eq_true.mp allRouted e inList)
  omega

theorem answerRoute_sets {body : List Byte} {u : State} (good : ∀ e ∈ parseRoute body, 1 ≤ e.1 ∧ e.1 ≤ 11) :
    answerRoute body u =
      ({ u with routes := (parseRoute body).foldl setRoute u.routes },
        .accept ((parseRoute body).any fun e => decide (3 < e.2)) []) :=
  if_pos (List.all_eq_true.mpr fun e inList => (routedCode_iff e.1).mpr (good e inList))

/-! ## WAKE (R151) -/

/-- The state with both ports' votes cleared. -/
def State.unvoted (s : State) : State :=
  { s with stager := { p0 := { s.stager.p0 with vote := false }, p1 := { s.stager.p1 with vote := false } } }

theorem State.wakeUp_awake {s : State} (awake : s.standby = false) : s.wakeUp = s.unvoted :=
  if_neg (ne_true_of_eq_false awake)

theorem State.wakeUp_standby {s : State} (inStandby : s.standby = true) :
    s.wakeUp =
      { s.unvoted with
        standby := false
        report := (s.unvoted.raise { block := s.array.counter, event := .standbyLeft }).report } := by
  have wakes : s.wakeUp = { s.unvoted with standby := false }.raise { block := s.array.counter, event := .standbyLeft } :=
    if_pos inStandby
  have sameReport : ({ s.unvoted with standby := false }.raise { block := s.array.counter, event := .standbyLeft }).report =
      (s.unvoted.raise { block := s.array.counter, event := .standbyLeft }).report := State.raise_report_congr _ rfl rfl
  rw [wakes, State.raise_frame, sameReport]

end Sys2Proof.Machine
end

section
/-! PROOFS. The statements about the prompt requests. -/

open Sys2Proof Sys2Proof.Machine

/-- Settles O38: the answers shown are the answers given, field for field. -/
theorem holdAndRelease : Obligations.HoldAndRelease := by
  intro s p body u g answer with_ held released
  have answer_eq : ∀ h, stagerBody h = answer h := by
    rintro ⟨list, hold, age, vote⟩
    cases list with
    | nil => rfl
    | cons c rest => rfl
  constructor
  · intro takes
    rw [← answer_eq]
    exact exec_command_leaves (k := .hold) takes
  · intro takes
    rw [← answer_eq]
    exact exec_command_leaves (k := .release) takes

/-- Settles O39: the mask requested is the port's own, and the mask answered is both ports'. -/
theorem muteReplacesMask : Obligations.MuteReplacesMask := by
  intro s p body takes u mask
  have both : (u.setReqMask p mask).combinedMask = mask ||| u.canc.reqMask.get (otherPort p) := by
    cases p with
    | p0 => rfl
    | p1 => exact BitVec.or_comm _ _
  refine (exec_command_leaves (k := .mute) takes).trans ?_
  rw [← both]
  rfl

/-- Settles O40, by whether the action is stop. -/
theorem meterStartsOrStops : Obligations.MeterStartsOrStops := by
  intro s p body takes u action mode period mask with_ clamped
  refine (exec_command_leaves (k := .meter) takes).trans (congrArg Host.Outcome.next ?_)
  by_cases stop : action = 0
  · rw [if_pos stop, leaveAnswered, Kind.owner, answerMeter, Meter.command_of_stop _ stop, Reply.accept_status,
      parseMeter_clamped_of_stop stop]
    rfl
  · rw [if_neg stop, leaveAnswered, Kind.owner, answerMeter, Meter.command_of_start _ stop, Reply.accept_status]
    simp only [parseMeter_clamped_iff stop]
    rfl

/-- Refutes O41: a WATCH with the kind code 5 is accepted, because the model reads a code above 4 as the kind none. -/
theorem not_watchStoresSlot : ¬ Obligations.WatchStoresSlot := by
  intro h
  have refused := (h receivingPart .p0 watchUnknownKind receivingPart_takes).1 (.inr (by decide))
  obtain ⟨t, accepts, accepted⟩ := watchUnknownKind_accepted
  rw [refused] at accepts
  have same := Host.Outcome.next.inj accepts
  rw [← same] at accepted
  exact absurd accepted (by decide)

/-- Settles O42. -/
theorem eventEnableSets : Obligations.EventEnableSets := by
  intro s p body takes u r f
  refine (exec_command_leaves (k := .eventEnable) takes).trans (congrArg Host.Outcome.next ?_)
  rw [leaveAnswered, Kind.owner, answerEventEnable, Reply.accept_status]
  simp only [clampNat_zero_one_beq_one, Bool.or_eq_true, optClamped_flag_iff]
  rfl

/-- Settles O43, by whether every kind of the list is a routed one. -/
theorem routeSetsTable : Obligations.RouteSetsTable := by
  refine ⟨⟨rfl, fun _ _ _ => rfl⟩, ?_⟩
  intro s p body takes u es
  constructor
  · intro bad
    exact exec_command_answers (k := .route) takes (answerRoute_badKind bad)
  · intro good
    have answer := exec_command_answers (k := .route) takes (answerRoute_sets good)
    have sets : setRoute = fun routes e => routes.set (e.1 - 1) (Dest.ofCode e.2) :=
      funext fun routes => funext fun e => setRoute_eq routes e
    rw [sets, Reply.accept_status] at answer
    simp only [List.any_eq_true, decide_eq_true_eq] at answer
    exact answer

/-- Settles O44: WAKE by whether the part is in standby. -/
theorem standbyAndWake : Obligations.StandbyAndWake := by
  intro s p body u voted cleared
  refine ⟨fun takes => exec_command_leaves (k := .standby) takes, ?awake, ?inStandby⟩
  case awake =>
    intro takes awake
    refine (exec_command_leaves (k := .wake) takes).trans (congrArg Host.Outcome.next ?_)
    rw [leaveAnswered, Kind.owner, answerWake, State.wakeUp_awake awake]
    have body_eq : standbyBody u.unvoted = [0#8, 0#8, 0#8] := by
      rw [standbyBody, show u.unvoted.standby = false from awake]
      rfl
    rw [body_eq]
    rfl
  case inStandby =>
    intro takes inStandby
    refine (exec_command_leaves (k := .wake) takes).trans (congrArg Host.Outcome.next ?_)
    rw [leaveAnswered, Kind.owner, answerWake, State.wakeUp_standby inStandby]
    rfl

end

section
/-! PROOFS. What the resets leave (R163, R164, R17, R158). -/

namespace Sys2Proof.Machine

/-! ## RESET PART at the ports (R155, R163) -/

theorem Ctl.afterResetPart_eq (c : Ctl) :
    c.afterResetPart =
      { trans := match c.trans with
          | .receiving _ => .ignoring true
          | .idle => .idle
          | .sending copy => .sending copy
          | .ignoring write => .ignoring write
        slot := { kind := 0#8, status := .noRequest, body := [] }
        grant := c.grant } := by
  obtain ⟨trans, slot, grant⟩ := c
  cases trans <;> rfl

/-! ## What the discard of sets gives back (R44, R147) -/

/-- A set that is a pending open of the path. -/
def ChangeSet.Opens (c : ChangeSet) (n : Nat) : Prop := c.object = .path n ∧ c.change.pathPart.opening.isSome = true

theorem ChangeSet.opens_of_opening {c : ChangeSet} (opening : c.change.pathPart.opening.isSome = true) : ∃ n, c.Opens n := by
  obtain ⟨port, block, change⟩ := c
  cases change with
  | path n d => exact ⟨n, rfl, opening⟩
  | mic n d => cases opening
  | feed n d => cases opening
  | global d => cases opening

theorem State.returnSet_of_noOpening (s : State) {c : ChangeSet} (noOpening : c.change.pathPart.opening.isSome = false) :
    s.returnSet c = s.markSegs .free c.change.pathPart.reservations := by
  obtain ⟨port, block, change⟩ := c
  cases change with
  | path n d => exact if_neg (ne_true_of_eq_false noOpening)
  | mic n d => rfl
  | feed n d => rfl
  | global d => rfl

/-- The return of a set is the marks of its segments, and for a pending open the mark of its record. -/
theorem State.returnSet_cases (s : State) (c : ChangeSet) :
    (∃ n, c.Opens n ∧ s.returnSet c = (s.markSegs .free c.change.pathPart.reservations).markPath n .free) ∨
      ((∀ n, ¬ c.Opens n) ∧ s.returnSet c = s.markSegs .free c.change.pathPart.reservations) := by
  cases opening : c.change.pathPart.opening.isSome with
  | true =>
    obtain ⟨n, opens⟩ := ChangeSet.opens_of_opening opening
    exact .inl ⟨n, opens, s.returnSet_of_opening opens.1 opening⟩
  | false => exact .inr ⟨fun n opens => ne_true_of_eq_false opening opens.2, s.returnSet_of_noOpening opening⟩

theorem State.returnSet_tables (s : State) (c : ChangeSet) :
    ∃ g r v, s.returnSet c = { s with model := { s.model with segs := g, paths := r }, pool := v } := by
  obtain ⟨n, _, returns⟩ | ⟨_, returns⟩ := s.returnSet_cases c
  · exact ⟨_, _, _, returns⟩
  · exact ⟨_, _, _, returns⟩

theorem State.foldl_returnSet_tables (l : List ChangeSet) (s : State) :
    ∃ g r v, l.foldl State.returnSet s = { s with model := { s.model with segs := g, paths := r }, pool := v } := by
  induction l generalizing s with
  | nil => exact ⟨_, _, _, rfl⟩
  | cons c l ih =>
    obtain ⟨g, r, v, head⟩ := s.returnSet_tables c
    obtain ⟨g', r', v', tail⟩ := ih (s.returnSet c)
    refine ⟨g', r', v', tail.trans ?_⟩
    rw [head]

theorem State.returnSet_segs (s : State) (c : ChangeSet) :
    (s.returnSet c).model.segs = setSegs .free c.change.pathPart.reservations s.model.segs ∧
      (s.returnSet c).pool.segs = setSegs .free c.change.pathPart.reservations s.pool.segs := by
  obtain ⟨n, _, returns⟩ | ⟨_, returns⟩ := s.returnSet_cases c
  · rw [returns]
    exact ⟨rfl, rfl⟩
  · rw [returns]
    exact ⟨rfl, rfl⟩

/-- A number without a record counts as FREE, so marking it FREE is seen there too. -/
theorem pathAt_set_free (paths : List PathRec) (n : Nat) : pathAt (paths.set n .free) n = .free := by
  by_cases inTable : n < paths.length
  · exact pathAt_set_same inTable
  · rw [List.set_eq_of_length_le (Nat.not_lt.mp inTable)]
    exact List.getD_eq_default _ _ (Nat.not_lt.mp inTable)

/-- A record is freed by exactly the return of a pending open of its path. -/
theorem State.returnSet_record (s : State) (c : ChangeSet) (n : Nat) :
    (c.Opens n → pathAt (s.returnSet c).model.paths n = .free ∧
      (n < s.pool.paths.length → (s.returnSet c).pool.paths[n]? = some .free)) ∧
    (¬ c.Opens n → pathAt (s.returnSet c).model.paths n = pathAt s.model.paths n ∧
      (s.returnSet c).pool.paths[n]? = s.pool.paths[n]?) := by
  obtain ⟨k, opens, returns⟩ | ⟨never, returns⟩ := s.returnSet_cases c
  · have sameNumber : c.Opens n ↔ k = n := by
      constructor
      · intro opensHere
        exact Object.path.inj (opens.1.symm.trans opensHere.1)
      · rintro rfl
        exact opens
    rw [returns, sameNumber]
    constructor
    · rintro rfl
      exact ⟨pathAt_set_free s.model.paths k, fun inTable => List.getElem?_set_self inTable⟩
    · intro other
      exact ⟨pathAt_set_other s.model.paths .free (Ne.symm other), List.getElem?_set_ne other⟩
  · rw [returns]
    exact ⟨fun opens => absurd opens (never n), fun _ => ⟨rfl, rfl⟩⟩

theorem eq_ite_of {α : Type} {c : Prop} {_ : Decidable c} {a x y : α} (h : (c → a = x) ∧ (¬ c → a = y)) :
    a = if c then x else y := by
  by_cases holds : c
  · rw [if_pos holds, h.1 holds]
  · rw [if_neg holds, h.2 holds]

/-- What the return of several sets leaves of a value that the return of one overwrites or keeps. -/
theorem State.foldl_returnSet_read {α : Type} {read : State → α} {x : α} {P : ChangeSet → Prop}
    (one : ∀ (s : State) (c : ChangeSet), s.Shaped →
      (P c → read (s.returnSet c) = x) ∧ (¬ P c → read (s.returnSet c) = read s))
    (l : List ChangeSet) {s : State} (shaped : s.Shaped) :
    ((∃ c ∈ l, P c) → read (l.foldl State.returnSet s) = x) ∧
      ((¬ ∃ c ∈ l, P c) → read (l.foldl State.returnSet s) = read s) := by
  induction l generalizing s with
  | nil => exact ⟨fun ⟨c, inNil, _⟩ => absurd inNil List.not_mem_nil, fun _ => rfl⟩
  | cons c l ih =>
    obtain ⟨overwritten, kept⟩ := ih (shaped.returnSet c)
    obtain ⟨overwrites, keeps⟩ := one s c shaped
    simp only [List.foldl_cons, List.exists_mem_cons_iff, not_or]
    constructor
    · intro isSome
      by_cases later : ∃ d ∈ l, P d
      · exact overwritten later
      · exact (kept later).trans (overwrites (isSome.resolve_right later))
    · rintro ⟨here, later⟩
      exact (kept later).trans (keeps here)

/-- A segment of the table after a return: FREE if the set had reserved it. -/
theorem setSegs_free_segment {segs : List SegState} (l : List Nat) {i : Nat} (size : segs.length = 1024) (inTable : i < 1024) :
    (i ∈ l → (setSegs .free l segs)[i]? = some .free) ∧ (i ∉ l → (setSegs .free l segs)[i]? = segs[i]?) := by
  rw [setSegs_get _ _ _ _ (inTable.trans_eq size.symm)]
  exact ⟨fun reserved => if_pos reserved, fun other => if_neg other⟩

theorem State.Shaped.poolSizes {s : State} (h : s.Shaped) : s.pool.segs.length = 1024 ∧ s.pool.paths.length = 128 := by
  obtain ⟨_, _, _, _, _, sizes, _⟩ := h
  exact sizes

/-! ## RESET PORT (R164) -/

/-- RESET PORT in terms of the returns of its port's sets. -/
theorem State.resetPort_returns (s : State) (p : Port) :
    s.resetPort p =
      { (s.stager.get p).list.foldl State.returnSet s with
        stager := s.stager.set p { list := [], hold := false, age := 0, vote := false }
        canc := { s.canc with reqMask := s.canc.reqMask.set p 0#24 }
        report := s.report.set p Report.reset } := by
  obtain ⟨g, r, v, returns⟩ := State.foldl_returnSet_tables (s.stager.get p).list s
  simp only [State.resetPort, State.discardAll, returns]
  cases p with
  | p0 => rfl
  | p1 => rfl

end Sys2Proof.Machine
end

section
/-! PROOFS. The statements about the resets. -/

open Sys2Proof Sys2Proof.Machine

/-- Settles O45: the part at its reset values, and the two ports by which of them asked. -/
theorem resetPartResets : Obligations.ResetPartResets := by
  intro s p body takes q record other own
  have others : other = (s.ctl.get q).afterResetPart := (Ctl.afterResetPart_eq _).symm
  refine (exec_command_leaves (k := .resetPart) takes).trans (congrArg Host.Outcome.next ?_)
  rw [others, leaveAnswered, Kind.owner, answerResetPart, State.resetPart, s.settle_pending, s.settle_ctl, s.settle_twoWireAddr]
  cases p with
  | p0 => rfl
  | p1 => rfl

/-- Settles O46: RESET PORT as the return of its port's sets, and each table's entries by what one return does to them. -/
theorem resetPortDiscards : Obligations.ResetPortDiscards := by
  intro s p body shaped takes u sets
  have shapedNow : u.Shaped := shaped.settle
  obtain ⟨g, r, v, returns⟩ := State.foldl_returnSet_tables sets u
  refine ⟨leaveAnswered p .resetPort (answerResetPort p u), exec_command_leaves (k := .resetPort) takes, ?_⟩
  rw [leaveAnswered, answerResetPort, u.resetPort_returns]
  refine ⟨rfl, rfl, rfl, ?ctl, ?segs, ?paths, ?poolSegs, ?poolPaths, ?rest⟩
  case ctl =>
    have sameCtl : (sets.foldl State.returnSet u).ctl = s.ctl := by
      rw [returns]
      exact s.settle_ctl
    exact congrArg (fun ctl : PerPort Ctl => ctl.set p
      { trans := .idle, slot := { kind := 0x3F#8, status := .accepted, body := [] }, grant := (ctl.get p).grant }) sameCtl
  case segs =>
    intro i inTable
    refine eq_ite_of (State.foldl_returnSet_read (read := fun t => t.model.segs[i]?) (fun t c shaped => ?_) sets shapedNow)
    obtain ⟨size, _⟩ := shaped.model
    rw [(t.returnSet_segs c).1]
    exact setSegs_free_segment _ size inTable
  case paths =>
    intro n
    refine eq_ite_of (State.foldl_returnSet_read (read := fun t => pathAt t.model.paths n) (P := fun c => c.Opens n)
      (fun t c _ => ?_) sets shapedNow)
    obtain ⟨freed, kept⟩ := t.returnSet_record c n
    exact ⟨fun opens => (freed opens).1, fun other => (kept other).1⟩
  case poolSegs =>
    intro i inTable
    refine eq_ite_of (State.foldl_returnSet_read (read := fun t => t.pool.segs[i]?) (fun t c shaped => ?_) sets shapedNow)
    rw [(t.returnSet_segs c).2]
    exact setSegs_free_segment _ shaped.poolSizes.1 inTable
  case poolPaths =>
    intro n inTable
    refine eq_ite_of (State.foldl_returnSet_read (read := fun t => t.pool.paths[n]?) (P := fun c => c.Opens n)
      (fun t c shaped => ?_) sets shapedNow)
    obtain ⟨freed, kept⟩ := t.returnSet_record c n
    exact ⟨fun opens => (freed opens).2 (inTable.trans_eq shaped.poolSizes.2.symm), fun other => (kept other).2⟩
  case rest =>
    rw [State.answered, returns]

/-- Settles O47, value by value of the reset state. -/
theorem powerOnResetLeaves : Obligations.PowerOnResetLeaves := by
  refine ⟨?codes, fun s x => ⟨s.powerOn x, rfl, ?_⟩⟩
  case codes => decide
  refine ⟨rfl, rfl, rfl, fun a => rfl, rfl, rfl, rfl, rfl, rfl, rfl, rfl, rfl, rfl, rfl, rfl, rfl, rfl, rfl, rfl, rfl, rfl, rfl, rfl,
    rfl, rfl, rfl, rfl, rfl, rfl, rfl, rfl, rfl, rfl, rfl, rfl, rfl, rfl, rfl⟩

end

section
/-! PROOFS. The block start that HOLD_EXPIRED lets go on (R145), and what a frame arrival without an expiry lands (R140). -/

namespace Sys2Proof.Machine

/-! ## ADOUT once the block has landed (R4, R16) -/

theorem ArrayPort.driven_eq (a : ArrayPort) :
    a.driven =
      if a.framing = .search then none
      else some ((if a.run = .stopped then List.replicate 24 0#16
        else a.outBuf.getD a.rows.length (List.replicate 24 0#16)).map slotOfSample) := by
  unfold ArrayPort.driven
  cases a.framing with
  | search => rfl
  | inFrame _ _ => rfl

theorem State.landBlock_array (x : State) (p : Proc) (e : PerPort Bool) :
    (x.landBlock p e).array = (x.landSets.cancelBlock p).array := by
  obtain ⟨r, n, posted⟩ := State.postMerged_eq ((x.landSets.cancelBlock p).startStages p) (x.landNotices p.number e)
  exact (congrArg State.array posted :)

theorem State.landBlock_adout (x : State) (p : Proc) (e : PerPort Bool) :
    (x.landBlock p e).array.adout = ({ x.array with outBuf := (x.landBlock p e).array.outBuf } : ArrayPort).driven := by
  rw [x.landBlock_array p e]
  exact x.landSets.cancelBlock_adout p

/-! ## Holds that end -/

theorem State.endHolds_applying (x : State) :
    x.endHolds.applying =
      (if x.stager.p0.hold && !x.stager.p0.expires then [] else x.stager.p0.list) ++
        (if x.stager.p1.hold && !x.stager.p1.expires then [] else x.stager.p1.list) := by
  rw [← applyingOf_endHold, ← applyingOf_endHold]
  rfl

end Sys2Proof.Machine
end

section
/-! PROOFS. The statement about HOLD_EXPIRED. -/

open Sys2Proof Sys2Proof.Machine

/-- Settles O48: the holds end, and then the block lands as at a block start that nothing holds up. -/
theorem holdExpiryEndsHold : Obligations.HoldExpiryEndsHold := by
  intro s p block waits ends after sets all record own
  have expires : s.expireHolds = s.endHolds.landBlock p s.expiredHolds := State.expireHolds_waiting block waits
  have frame := s.endHolds.landBlock_frame p s.expiredHolds
  refine ⟨s.endHolds.landBlock p s.expiredHolds, congrArg Host.Outcome.next expires, ?stager, ?lands,
    s.endHolds.landBlock_proc p s.expiredHolds, s.endHolds.landBlock_captured p s.expiredHolds, ?mask, ?reqMask, ?snapshot, ?adout,
    ?frame⟩
  case stager =>
    have applied := (congrArg State.stager frame :)
    rw [applied]
    exact congrArg₂ PerPort.mk s.stager.p0.endHold_applied s.stager.p1.endHold_applied
  case lands =>
    have lands := s.endHolds.landBlock_lands p s.expiredHolds (base := s) rfl rfl
    rw [s.endHolds_applying] at lands
    have notices : (fun q => stagerNotices p.number q (s.expiredHolds.get q) (applyingOf (s.endHolds.stager.get q)).length) = own := by
      funext q
      cases q with
      | p0 => exact congrArg (fun l : List ChangeSet => stagerNotices p.number .p0 s.stager.p0.expires l.length) (applyingOf_endHold _)
      | p1 => exact congrArg (fun l : List ChangeSet => stagerNotices p.number .p1 s.stager.p1.expires l.length) (applyingOf_endHold _)
    rw [notices] at lands
    exact lands.congr rfl rfl rfl rfl fun _ => rfl
  case mask => exact (s.endHolds.landBlock_canc p s.expiredHolds).1
  case reqMask => exact (s.endHolds.landBlock_canc p s.expiredHolds).2.1
  case snapshot => exact (s.endHolds.landBlock_canc p s.expiredHolds).2.2
  case adout =>
    rw [State.landBlock_adout]
    exact ArrayPort.driven_eq _
  case frame =>
    generalize s.endHolds.landBlock p s.expiredHolds = t at frame
    rw [frame]
    rfl

end

section
/-! PROOFS. What lands at a block start that no hold delays (R31, R35, R71, R72, R140 to R142). -/

namespace Sys2Proof.Machine

/-! ## Feeds, settings and levels (R35, R71, R108, R134) -/

theorem landFeed_eq (sets : List ChangeSet) (n : Nat) (f : Feed) :
    landFeed sets n f =
      { f with b := f.dueMove.getD f.b, dueMove := none }.applyChange (changeFor sets (.feed n)).feedPart := by
  rw [landFeed, Feed.landMove_eq]

theorem PathRec.applySettings_eq (r : PathRec) (d : PathChange) :
    r.applySettings d =
      match r with
      | .opened p => .opened { p with base := d.base.getD p.base, fast := d.fast.getD p.fast, slow := d.slow.getD p.slow,
                                      frozen := d.frozen.getD p.frozen }
      | .pendingOpen mic feed => .pendingOpen mic feed
      | .free => .free := by
  cases r with
  | free => rfl
  | pendingOpen mic feed => rfl
  | opened p => rfl

theorem pathLevel_eq {mics : List Mic} {q : OpenPath} (notIdle : (micAt mics q.mic).conv ≠ .idle) :
    pathLevel mics q =
      if (micAt mics q.mic).conv = .recover then 3
      else if (micAt mics q.mic).conv = .acquire then min 3 (q.base + 1) else q.base := by
  unfold pathLevel
  revert notIdle
  cases (micAt mics q.mic).conv with
  | idle => exact fun notIdle => absurd rfl notIdle
  | acquire => exact fun _ => rfl
  | converged => exact fun _ => rfl
  | recover => exact fun _ => rfl

/-! ## Level queues (R72, R109) -/

theorem settleQueues_getElem? (old new : List PathRec) (mics : List Mic) (queues : List (List QEntry)) {level : Nat} (h : level < 4) :
    (settleQueues old new mics queues)[level]? = some (settleQueue old new mics level (queues.getD level [])) := by
  rw [settleQueues, List.getElem?_map, List.getElem?_range h]
  rfl

/-- The windows that join a level queue: those of its level that it does not keep. -/
def joinedEntries (new : List PathRec) (mics : List Mic) (level : Nat) (kept : List QEntry) : List QEntry :=
  (allEntries new).filter fun e => entryLevel new mics e == some level && !kept.contains e

theorem mem_joinedEntries {new : List PathRec} {mics : List Mic} {level : Nat} {kept : List QEntry} {e : QEntry} :
    e ∈ joinedEntries new mics level kept ↔ (∃ q w, windowAt new e = some (q, w) ∧ pathLevel mics q = level) ∧ e ∉ kept := by
  rw [joinedEntries, List.mem_filter, Bool.and_eq_true, entryLevel_iff, Bool.not_eq_true', ← Bool.not_eq_true, List.contains_iff_mem]
  constructor
  · rintro ⟨_, atLevel, new⟩
    exact ⟨atLevel, new⟩
  · rintro ⟨⟨q, w, window, level⟩, new⟩
    exact ⟨mem_allEntries.mpr ⟨q, w, window⟩, ⟨q, w, window, level⟩, new⟩

/-! ## A port's part of the change stager (R140, R145) -/

/-- The sets that apply are those of a port that is not holding, and ageing does not change which those are. -/
theorem applyingOf_ageHold (g : Stager) : applyingOf g.ageHold = applyingOf g := by
  unfold Stager.ageHold
  split
  next hold => rw [applyingOf, applyingOf, if_pos hold]
  next => rfl

theorem Stager.ageHold_applied (g : Stager) :
    g.ageHold.applied = if g.hold then { g with age := g.age + 1 } else { g with list := [] } := by
  unfold Stager.ageHold
  split
  next hold => exact if_pos hold
  next released => exact if_neg released

theorem Stager.ageHold_waits {g : Stager} (young : g.hold = true → g.age < 249) : g.ageHold.expires = false := by
  unfold Stager.ageHold
  split
  next hold =>
    have inTime : ¬ Config.holdLimit ≤ g.age + 1 := Nat.not_le.mpr (Nat.succ_lt_succ (young hold))
    rw [Stager.expires]
    simp only [hold, inTime, decide_false, Bool.and_false]
  next released => rw [Stager.expires, eq_false_of_ne_true released, Bool.false_and]

/-- What the block start leaves of a port's pending list and hold, when the hold does not expire. -/
theorem State.takeBlock_applied (j : State) (q : Port) :
    (j.takeBlock.stager.get q).applied =
      if (j.stager.get q).hold then
        (if j.standby then j.stager.get q else { j.stager.get q with age := (j.stager.get q).age + 1 })
      else { j.stager.get q with list := [] } := by
  cases standby : j.standby with
  | true =>
    have kept : j.takeBlock.stager = j.stager := if_pos standby
    rw [kept]
    rfl
  | false =>
    have aged : j.takeBlock.stager.get q = (j.stager.get q).ageHold := by
      rw [show j.takeBlock.stager = { p0 := j.stager.p0.ageHold, p1 := j.stager.p1.ageHold } from
        if_neg (ne_true_of_eq_false standby)]
      cases q with
      | p0 => rfl
      | p1 => rfl
    rw [aged, Stager.ageHold_applied]
    rfl

theorem State.takeBlock_applyingOf (j : State) (q : Port) : applyingOf (j.takeBlock.stager.get q) = applyingOf (j.stager.get q) := by
  unfold State.takeBlock
  dsimp only
  split
  · rfl
  · cases q with
    | p0 => exact applyingOf_ageHold _
    | p1 => exact applyingOf_ageHold _

theorem State.takeBlock_goesOn {j : State}
    (young : j.standby = true ∨
      ((j.stager.p0.hold = true → j.stager.p0.age < 249) ∧ (j.stager.p1.hold = true → j.stager.p1.age < 249))) :
    j.takeBlock.holdsExpire j.handedBlock = false := by
  rw [State.holdsExpire]
  obtain standby | ⟨young0, young1⟩ := young
  · rw [show j.handedBlock.standby = true from standby]
    rfl
  cases standby : j.standby with
  | true =>
    rw [show j.handedBlock.standby = true from standby]
    rfl
  | false =>
    have aged : j.takeBlock.stager = { p0 := j.stager.p0.ageHold, p1 := j.stager.p1.ageHold } :=
      if_neg (ne_true_of_eq_false standby)
    rw [aged, Stager.ageHold_waits young0, Stager.ageHold_waits young1]
    exact Bool.and_false _

/-- Where the receiver stands plays no part in what lands. -/
theorem State.Lands.receiver {u y : State} {p : Proc} {sets : List ChangeSet} {own : Port → List Notice} {base : State}
    (h : State.Lands u y p sets own base) (fr : Framing) (pin : Bool) (ad : Option (List Slot)) :
    State.Lands u { y with array := { y.array with framing := fr, pin := pin, adout := ad } } p sets own base := h

/-- The record of the sets of a port that apply, none when there is none (R142). -/
def appliedNotices (block : BlockNo) (q : Port) (n : Nat) : List Notice :=
  if n = 0 then [] else [{ dest := some q, record := { block := block, event := .applied n } }]

/-- What lands at the block start of the 64th row when no hold expires at it: the sets of the ports that are not holding. -/
theorem State.takeBlock_lands (j : State) {base : State} (report : base.report = j.report) (routes : base.routes = j.routes) :
    State.Lands j.takeBlock (j.takeBlock.landBlock j.handedBlock { p0 := false, p1 := false }) j.handedBlock
      (applyingOf j.stager.p0 ++ applyingOf j.stager.p1)
      (fun k => appliedNotices j.array.counter k (applyingOf (j.stager.get k)).length) base := by
  have lands := j.takeBlock.landBlock_lands j.handedBlock { p0 := false, p1 := false } report routes
  have sets : j.takeBlock.applying = applyingOf j.stager.p0 ++ applyingOf j.stager.p1 :=
    congrArg₂ (· ++ ·) (j.takeBlock_applyingOf .p0) (j.takeBlock_applyingOf .p1)
  have own : (fun k => stagerNotices j.handedBlock.number k (PerPort.get { p0 := false, p1 := false } k)
      (applyingOf (j.takeBlock.stager.get k)).length) =
      fun k => appliedNotices j.array.counter k (applyingOf (j.stager.get k)).length := by
    funext k
    rw [j.takeBlock_applyingOf]
    cases k with
    | p0 => rfl
    | p1 => rfl
  rw [sets, own] at lands
  exact lands

/-- The block start of the 64th row when no hold expires at it. -/
theorem State.landUnlessHeld_lands {x : State} {p : Proc} (goesOn : x.holdsExpire p = false) :
    x.landUnlessHeld p = x.landBlock p { p0 := false, p1 := false } := if_neg (ne_true_of_eq_false goesOn)

end Sys2Proof.Machine
end

section
/-! PROOFS. The statement about what lands. -/

open Sys2Proof Sys2Proof.Machine

/-- Settles O49: the parts by their own lemmas, and the block start from the state with the 64th row joined. -/
theorem blockStartLandsSets : Obligations.BlockStartLandsSets := by
  refine ⟨changeFor_spec, ?feeds, ?settings, fun mics q => pathLevel_eq, ?queues, ?queue, carriedEntry_spec, ?arrival⟩
  case feeds =>
    intro sets n f c toAuto toManual mode restarts
    rw [landFeed_eq, Feed.applyChange_eq]
    rfl
  case settings =>
    intro m sets
    rw [Model.landSettings]
    simp only [PathRec.applySettings_eq]
    rfl
  case queues =>
    intro old new mics queues
    exact ⟨settleQueues_length old new mics queues, fun level inRange => settleQueues_getElem? old new mics queues inRange⟩
  case queue =>
    intro old new mics level queue at_
    refine ⟨_, joinedEntries new mics level _, rfl, rfl, fun e => ?_, fun e kept => ?_, fun e => mem_joinedEntries, ?_⟩
    · exact beq_iff_eq.symm.trans entryLevel_iff
    · exact entryLevel_iff.mp (List.mem_filter.mp kept).2
    · exact (allEntries_sorted new).filter _
  case arrival =>
    intro s b fr f ends u v r row degraded x z after sets own rows young
    obtain ⟨j, hj, arrives, routes, captured, watches⟩ := s.arrayArrival_sixtyFourth f (Framing.onBit_slots ends) rows
    have bit := (State.arrayBit_ends ends).trans (State.setReceiver_driveRow _ _ _)
    have goesOn : j.takeBlock.holdsExpire j.handedBlock = false := State.takeBlock_goesOn (by rw [hj]; exact young)
    have arrived : s.arrayArrival f = j.takeBlock.landBlock j.handedBlock { p0 := false, p1 := false } := by
      rw [arrives, State.landUnlessHeld_lands goesOn, State.landBlock_expireHolds]
      cases f with
      | wellFormed slots => rfl
      | faulted => rfl
    have handed : j.handedBlock = {
        number := u.array.counter, rows := u.array.rows ++ [row], degraded := degraded,
        feedLive := r.1.array.feedLive, standby := u.standby, writesSince := 0, phase := .expiring, excited := [], grants := [],
        stageQueues := u.queues } := by
      rw [hj]
      cases f with
      | wellFormed slots => rfl
      | faulted => rfl
    have model : j.takeBlock.model = { u.model with captured := r.1.feedPort.state } := by
      rw [← captured, hj]
      rfl
    have stagerOf : ∀ k, j.stager.get k = u.stager.get k := by
      rw [hj]
      exact fun _ => rfl
    have standbyOf : j.standby = u.standby := by rw [hj]
    have taken : j.takeBlock = { u with
        feedPort := z.feedPort
        array := { rows := [], counter := u.array.counter + 1#32, degraded := false, feedLive := true, run := .running,
                   stopTimer := true, outBuf := v.array.outBuf, framing := u.array.framing, pin := u.array.pin,
                   adout := u.array.adout }
        hist := u.hist.zipIdx.map fun c => r.2.getD c.2 0#16 :: c.1.take 12287
        model := j.takeBlock.model
        proc := j.takeBlock.proc
        stager := j.takeBlock.stager
        report := z.report } := by
      rw [hj]
      rfl
    have applied : ∀ k, (j.takeBlock.stager.get k).applied = after (u.stager.get k) := by
      intro k
      rw [j.takeBlock_applied, stagerOf, standbyOf]
    have lands := j.takeBlock_lands (base := z) (by rw [hj]) (by rw [hj]; exact routes)
    have frame := j.takeBlock.landBlock_frame j.handedBlock { p0 := false, p1 := false }
    have proc := j.takeBlock.landBlock_proc j.handedBlock { p0 := false, p1 := false }
    have canc := j.takeBlock.landBlock_canc j.handedBlock { p0 := false, p1 := false }
    have sameCaptured := j.takeBlock.landBlock_captured j.handedBlock { p0 := false, p1 := false }
    rw [arrived] at bit
    refine ⟨_, _, congrArg Host.Outcome.next bit, proc, ?_, ?_, ?_, ?_, ?_⟩
    case refine_1 => rw [handed]
    case refine_2 =>
      have stager := (congrArg State.stager frame :)
      refine stager.trans ?_
      exact congrArg₂ PerPort.mk (applied .p0) (applied .p1)
    case refine_3 =>
      have sameSets : applyingOf j.stager.p0 ++ applyingOf j.stager.p1 = sets u.stager.p0 ++ sets u.stager.p1 :=
        congrArg₂ (fun g h => sets g ++ sets h) (stagerOf .p0) (stagerOf .p1)
      have sameOwn : (fun k => appliedNotices j.array.counter k (applyingOf (j.stager.get k)).length) = own := by
        funext k
        rw [stagerOf, hj]
        rfl
      rw [sameSets, sameOwn] at lands
      have landsHere := lands.congr (v := { u with model := { u.model with captured := r.1.feedPort.state } }) model.symm
        (by rw [taken]) (by rw [taken]) (by rw [taken]) fun k => by rw [taken]; exact (watches k).symm
      exact (landsHere.phase _ _).receiver _ _ _
    case refine_4 => exact sameCaptured.trans (congrArg Model.captured model)
    case refine_5 =>
      have cancOf : j.takeBlock.canc = u.canc := by rw [taken]
      have histOf : j.takeBlock.hist = u.hist.zipIdx.map fun c => r.2.getD c.2 0#16 :: c.1.take 12287 := by rw [taken]
      have arrayOf : j.takeBlock.array =
          { rows := [], counter := u.array.counter + 1#32, degraded := false, feedLive := true, run := .running,
            stopTimer := true, outBuf := v.array.outBuf, framing := u.array.framing, pin := u.array.pin,
            adout := u.array.adout } := by rw [taken]
      have hist := (congrArg State.hist frame :)
      have array := (congrArg State.array frame :)
      rw [cancOf] at canc
      obtain ⟨mask, reqMask, snapshot⟩ := canc
      refine ⟨mask, reqMask, snapshot, hist.trans histOf, ?_, ?_⟩
      · dsimp only
        rw [array, arrayOf]
        cases f with
        | wellFormed slots =>
          obtain ⟨rfl, _⟩ := Framing.onBit_wellFormed ends
          rfl
        | faulted =>
          rw [if_pos (Framing.onBit_faulted ends)]
          rfl
      · generalize j.takeBlock.landBlock j.handedBlock { p0 := false, p1 := false } = y at frame
        rw [taken] at frame
        rw [frame]

end

section
/-! PROOFS. The canceller's work on a block, microphone by microphone and sample by sample (R75 to R88). -/

namespace Sys2Proof.Machine

theorem getD_map_range {α : Type} {n i : Nat} (f : Nat → α) (d : α) (h : i < n) : ((List.range n).map f).getD i d = f i := by
  rw [List.getD_eq_getElem?_getD, List.getElem?_map, List.getElem?_range h]
  rfl

theorem rowsOfColumns_sample {cols : List (List Sample)} {m i : Nat} (hm : m < cols.length) (hi : i < 64) :
    ((rowsOfColumns cols).getD i []).getD m 0#16 = (cols.getD m []).getD i 0#16 := by
  rw [rowsOfColumns, Config.blockFrames, getD_map_range _ _ hi, List.getD_eq_getElem?_getD, List.getElem?_map, List.getElem?_eq_getElem hm,
    List.getD_eq_getElem _ _ hm]
  rfl

theorem inputsOf_getD (rows : List (List Sample)) (m : Nat) {i : Nat} (hi : i < 64) :
    (inputsOf rows m).getD i 0#16 = inputAt rows m i := getD_map_range _ _ hi

theorem errorsOf_getD (s : State) (p : Proc) (m : Nat) {i : Nat} (hi : i < 64) :
    (errorsOf s p m).getD i 0#16 =
      if (micAt s.model.mics m).conv = .idle then inputAt p.rows m i
      else errorOf (inputAt p.rows m i) (echoAcc s p.writesSince m i) := getD_map_range _ _ hi

theorem errorsOf_length (s : State) (p : Proc) (m : Nat) : (errorsOf s p m).length = 64 := by
  rw [errorsOf, List.length_map, List.length_range, Config.blockFrames]

/-! ## The block with the masks in force (R85) -/

/-- The state with both ports' requested masks in force. -/
def State.masked (s : State) : State := { s with canc := { s.canc with mask := s.canc.reqMask } }

theorem State.cancelBlock_output (s : State) (p : Proc) {m i : Nat} (hm : m < 24) (hi : i < 64) :
    ((s.cancelBlock p).array.outBuf.getD i []).getD m 0#16 = (outputsOf s.masked p m).getD i 0#16 := by
  have outBuf : (s.cancelBlock p).array.outBuf = outputBlock s.masked p := rfl
  have inTable : m < ((List.range Config.mics).map (outputsOf s.masked p)).length := by
    rw [List.length_map, List.length_range]
    exact hm
  rw [outBuf, outputBlock, rowsOfColumns_sample inTable hi, Config.mics, getD_map_range _ _ hm]

theorem outputsOf_muted {s : State} {p : Proc} {m i : Nat} (muted : mutedNow s.canc m = true) (hi : i < 64) :
    (outputsOf s p m).getD i 0#16 = 0#16 := by
  rw [outputsOf, if_pos muted]
  exact List.getD_replicate 0#16 hi

theorem outputsOf_standby {s : State} {p : Proc} {m : Nat} (heard : mutedNow s.canc m = false) (standby : p.standby = true) :
    outputsOf s p m = inputsOf p.rows m := by
  rw [outputsOf, if_neg (ne_true_of_eq_false heard), if_pos standby]

theorem outputsOf_cancelled {s : State} {p : Proc} {m : Nat} (heard : mutedNow s.canc m = false) (awake : p.standby = false) :
    outputsOf s p m =
      if (micAt s.model.mics m).conv = .idle then inputsOf p.rows m
      else (residualRun (targetOf s m) (gainAt s m) (errorsOf s p m)).2 := by
  rw [outputsOf, if_neg (ne_true_of_eq_false heard), if_neg (ne_true_of_eq_false awake)]

theorem State.cancelBlock_standby {s : State} {p : Proc} (standby : p.standby = true) :
    (s.cancelBlock p).model = s.model ∧ (s.cancelBlock p).canc = s.masked.canc := by
  unfold State.cancelBlock
  dsimp only
  rw [if_pos standby]
  exact ⟨rfl, rfl⟩

theorem State.cancelBlock_awake {s : State} {p : Proc} (awake : p.standby = false) :
    (s.cancelBlock p).model = { s.model with gains := (List.range 24).map (gainAfter s p) } ∧
      (s.cancelBlock p).canc = { s.masked.canc with
        errD := (List.range 24).map (inputsOf p.rows)
        errE := (List.range 24).map (errorsOf s p) } := by
  unfold State.cancelBlock
  dsimp only
  rw [if_neg (ne_true_of_eq_false awake)]
  exact ⟨rfl, rfl⟩

/-! ## Gains (R80 to R84) -/

/-- The gain of a microphone before sample i of the block. -/
def gainRun (s : State) (m i : Nat) : Nat :=
  if (micAt s.model.mics m).conv = .idle then gainAt s m else gainBefore (targetOf s m) (gainAt s m) i

theorem gainRun_succ (s : State) (m i : Nat) :
    gainRun s m (i + 1) = if (micAt s.model.mics m).conv = .idle then gainRun s m i else rampGain (targetOf s m) (gainRun s m i) := by
  unfold gainRun
  by_cases idle : (micAt s.model.mics m).conv = .idle
  · simp only [if_pos idle]
  · simp only [if_neg idle]
    rfl

theorem gainAfter_eq (s : State) (p : Proc) (m : Nat) : gainAfter s p m = gainRun s m 64 := by
  unfold gainAfter gainRun
  rw [residualRun_fst, errorsOf_length]

theorem targetOf_eq {s : State} {m : Nat} (active : (micAt s.model.mics m).conv ≠ .idle) :
    targetOf s m =
      if (micAt s.model.mics m).talk = .clear ∧
          ((pathsOnMic s.model.paths m).any fun c => s.canc.snapshot.getD c.2.feed false) = true then
        (micAt s.model.mics m).floor
      else 32767 := by
  rw [targetOf, if_neg active]
  cases (micAt s.model.mics m).talk with
  | clear =>
    simp only [true_and]
    rfl
  | talk => rfl

end Sys2Proof.Machine
end

section
/-! PROOFS. The statement about the canceller. -/

open Sys2Proof Sys2Proof.Machine

/-- Settles O50: muted microphones, the block in standby, and outside it the errors with the gains that run beside them. -/
theorem cancellerCancelsBlock : Obligations.CancellerCancelsBlock := by
  intro s p t muted out acc target
  refine ⟨?muted, ?standby, ?awake, ?frame⟩
  case muted =>
    intro m hm i hi isMuted
    rw [show out m i = _ from s.cancelBlock_output p hm hi]
    exact outputsOf_muted (s := s.masked) isMuted hi
  case standby =>
    intro standby
    obtain ⟨model, canc⟩ := State.cancelBlock_standby (s := s) standby
    refine ⟨congrArg Model.gains model, (congrArg Canceller.errD canc :), (congrArg Canceller.errE canc :), ?_⟩
    intro m hm i hi heard
    rw [show out m i = _ from s.cancelBlock_output p hm hi, outputsOf_standby (s := s.masked) heard standby, inputsOf_getD _ _ hi]
  case awake =>
    intro awake m hm
    obtain ⟨model, canc⟩ := State.cancelBlock_awake (s := s) awake
    refine ⟨fun i => (errorsOf s p m).getD i 0#16, gainRun s m, ?_⟩
    intro idle
    have echo : ∀ i, echoAcc s p.writesSince m i = acc m i := fun i => rfl
    have gains : t.model.gains.getD m 32767 = gainRun s m 64 := by
      rw [show t.model = _ from model, getD_map_range _ _ hm, gainAfter_eq]
    have start : gainRun s m 0 = s.model.gains.getD m 32767 := ite_self _
    refine ⟨start, gains, ?_⟩
    intro i hi
    refine ⟨?error, ?inputs, ?errors, ?gain, ?output⟩
    case error =>
      rw [← echo]
      exact errorsOf_getD s p m hi
    case inputs => rw [show t.canc = _ from canc, getD_map_range _ _ hm, inputsOf_getD _ _ hi]
    case errors => rw [show t.canc = _ from canc, getD_map_range _ _ hm]
    case gain =>
      rw [gainRun_succ]
      by_cases isIdle : idle
      · rw [if_pos isIdle, if_pos isIdle]
      · rw [if_neg isIdle, if_neg isIdle, targetOf_eq isIdle]
    case output =>
      intro heard
      rw [show out m i = _ from s.cancelBlock_output p hm hi, outputsOf_cancelled (s := s.masked) heard awake]
      by_cases isIdle : idle
      · rw [if_pos isIdle]
        exact (congrArg (fun l : List Sample => l.getD i 0#16) (if_pos isIdle)).trans (inputsOf_getD _ _ hi)
      · rw [if_neg isIdle, gainRun, if_neg isIdle]
        refine (congrArg (fun l : List Sample => l.getD i 0#16) (if_neg isIdle)).trans ?_
        exact residualRun_snd _ _ _ _ (hi.trans_eq (errorsOf_length s p m).symm)
  case frame =>
    obtain ⟨g, a, b, o, d, frame⟩ := s.cancelBlock_eq p
    have isFrame : t = _ := frame
    rw [isFrame]

end

section
/-! PROOFS. The steps of a block start on the tap store, and the addresses of taps (R40, R45 to R54, R62 to R69). -/

namespace Sys2Proof.Machine

/-! ## Addresses (R40) -/

theorem Window.tapAddr_outside {w : Window} {k : Nat} (outside : k < w.start ∨ w.start + w.len ≤ k) : w.tapAddr k = none := by
  have notCovered : ¬ (w.start ≤ k ∧ k < w.start + w.len) := by omega
  exact if_neg notCovered

theorem seenTap_of_tapAddr {u : State} {w : Window} {k a : Nat} (addr : w.tapAddr k = some a) :
    seenTap u w k = Memory.read u.seen.coefs a := by
  unfold seenTap
  rw [addr]

theorem OpenPath.window_of_tapAddr {q : OpenPath} {k a : Nat} (addr : q.tapAddr k = some a) :
    ∃ w ∈ q.windows, w.tapAddr k = some a :=
  List.exists_of_findSome?_eq_some addr

theorem OpenPath.tapAddr_eq_none (q : OpenPath) (k : Nat) : q.tapAddr k = none ↔ ∀ w ∈ q.windows, w.tapAddr k = none :=
  List.findSome?_eq_none_iff

theorem pathAt_eq_opened {paths : List PathRec} {n : Nat} {q : OpenPath} :
    pathAt paths n = .opened q ↔ paths[n]? = some (.opened q) := by
  rw [pathAt, List.getD_eq_getElem?_getD]
  cases paths[n]? with
  | none => exact iff_of_false (fun free => PathRec.noConfusion free) fun noRecord => absurd noRecord nofun
  | some r => exact Option.some_inj.symm

/-! ## The order of the steps (R46, R141) -/

theorem Model.applySets_eq (m : Model) (sets : List ChangeSet) :
    m.applySets sets =
      sets.foldl Model.tapStep (sets.foldl Model.shapeStep (sets.foldl Model.closeStep ((m.landSettings sets).clearStep sets
        fun f => (landFeed sets f (feedAt m.feeds f)).b != (feedAt m.feeds f).dueMove.getD (feedAt m.feeds f).b))) := by
  simp only [← Feed.landMove_b]
  rfl

/-! ## Clears (R47, R53) -/

theorem namedByClear_iff (sets : List ChangeSet) (n : Nat) (q : OpenPath) :
    namedByClear sets n q = true ↔
      (changeFor sets .global).globalPart.clear = true ∨ (changeFor sets (.mic q.mic)).micPart.clear = true ∨
        (changeFor sets (.path n)).pathPart.clear = true := by
  rw [namedByClear, Bool.or_eq_true, Bool.or_eq_true, or_assoc]

/-- An address that the clear step zeroes: it is in a segment of a path that is on the clear list, named by a clear or on a moved feed. -/
theorem Model.clearStep_read (m : Model) (sets : List ChangeSet) (moved : Nat → Bool) (a : Nat) :
    ((∃ c ∈ openPaths m.paths,
        (c.1 ∈ m.clearList ∨ namedByClear sets c.1 c.2 = true ∨ moved c.2.feed = true) ∧ a / 64 ∈ c.2.segs) →
      Memory.read (m.clearStep sets moved).coefs a = 0#24) ∧
    ((¬ ∃ c ∈ openPaths m.paths,
        (c.1 ∈ m.clearList ∨ namedByClear sets c.1 c.2 = true ∨ moved c.2.feed = true) ∧ a / 64 ∈ c.2.segs) →
      Memory.read (m.clearStep sets moved).coefs a = Memory.read m.coefs a) := by
  rw [Model.clearStep, Memory.read_zeroSegments]
  simp only [List.mem_flatMap, List.mem_filter, Bool.or_eq_true, List.contains_iff_mem, or_assoc, and_assoc]
  exact ⟨fun cleared => if_pos cleared, fun kept => if_neg kept⟩

/-! ## Closes (R65) -/

theorem Model.closeStep_closes {m : Model} {c : ChangeSet} {n : Nat} {d : PathChange} {q : OpenPath} (change : c.change = .path n d)
    (close : d.close = true) (opened : pathAt m.paths n = .opened q) :
    m.closeStep c = { m.release q.segs with paths := m.paths.set n .free } := by
  simp only [Model.closeStep, change, close, opened]

/-! ## Reshapes and opens (R62, R68) -/

theorem Model.shapeStep_opens {m : Model} {c : ChangeSet} {n : Nat} {d : PathChange} {o : OpenPart} (change : c.change = .path n d)
    (opening : d.opening = some o) :
    m.shapeStep c = m.layOut n (openedPath d o) [] (d.windows.getD o.windows) d.reservations := by
  simp only [Model.shapeStep, change, opening]

theorem Model.shapeStep_reshapes {m : Model} {c : ChangeSet} {n : Nat} {d : PathChange} {q : OpenPath} {layout : List Geom}
    (change : c.change = .path n d) (noOpening : d.opening = none) (windows : d.windows = some layout)
    (opened : pathAt m.paths n = .opened q) : m.shapeStep c = m.layOut n q q.windows layout d.reservations := by
  simp only [Model.shapeStep, change, noOpening, windows, opened]

/-! ## Tap writes (R51) -/

theorem Model.tapStep_writes {m : Model} {c : ChangeSet} {n : Nat} {d : PathChange} {q : OpenPath} (change : c.change = .path n d)
    (opened : pathAt m.paths n = .opened q) :
    m.tapStep c = { m with
      coefs := Memory.writeAll m.coefs (d.taps.filterMap fun t => (q.tapAddr t.1).map fun a => (a, t.2)) } := by
  simp only [Model.tapStep, change, opened]

/-- Where no address is written twice, each holds what was written to it. -/
theorem Memory.read_writeAll_written {m : Memory} (h : Memory.wf m) {ws : List (Nat × Coef)} (once : (ws.map Prod.fst).Nodup)
    {w : Nat × Coef} (written : w ∈ ws) : Memory.read (m.writeAll ws) w.1 = w.2 := by
  induction ws generalizing m with
  | nil => exact absurd written List.not_mem_nil
  | cons v ws ih =>
    rw [List.map_cons, List.nodup_cons] at once
    obtain ⟨notAgain, onceLater⟩ := once
    have wf := Memory.wf_write h v.1 v.2
    obtain rfl | later := List.mem_cons.mp written
    · have kept : Memory.read ((Memory.write m w.1 w.2).writeAll ws) w.1 = Memory.read (Memory.write m w.1 w.2) w.1 :=
        Memory.read_writeAll_other wf ws w.1 fun x inList same => notAgain (List.mem_map.mpr ⟨x, inList, same⟩)
      exact kept.trans ((Memory.read_write h w.1 w.1 w.2).trans (if_pos rfl))
    · exact ih wf onceLater later

end Sys2Proof.Machine
end

section
/-! PROOFS. The statement about the tap store at a block start. -/

open Sys2Proof Sys2Proof.Machine

/-- Settles O51: addresses, then the four steps, each by its own equation. -/
theorem blockStartStepsOnTapStore : Obligations.BlockStartStepsOnTapStore := by
  refine ⟨?addresses, ?paths, ?opened, Model.applySets_eq, namedByClear_iff, ?clears, ?closes, ?idle, ?shapes, ?taps⟩
  case addresses =>
    intro u w aligned backed
    have mem_iff : ∀ k a, (k, a) ∈ w.taps ↔ w.tapAddr k = some a :=
      fun k a => (w.mem_taps k a).trans (w.tapAddr_iff aligned backed k a).symm
    refine ⟨?_, mem_iff, ?_, fun k => Window.tapAddr_outside, fun k a => seenTap_of_tapAddr⟩
    · rw [w.taps_delays, ← backed]
    · intro i j seg segment inSegment
      exact (w.tapAddr_iff aligned backed _ _).mpr ⟨i, seg, j, segment, inSegment, rfl, rfl⟩
  case paths =>
    intro q k
    exact ⟨fun a => OpenPath.window_of_tapAddr, q.tapAddr_eq_none k, rfl, rfl, q.mem_backing k⟩
  case opened =>
    intro paths
    refine ⟨?_, fun n q => mem_openPaths.trans pathAt_eq_opened, fun m => rfl⟩
    exact List.pairwise_map.mpr (openPaths_sorted paths)
  case clears =>
    intro m sets moved a cleared
    obtain ⟨zeroed, kept⟩ := m.clearStep_read sets moved a
    exact ⟨zeroed, kept, rfl⟩
  case closes =>
    intro m c n d q change close opened inTable
    rw [Model.closeStep_closes change close opened]
    refine ⟨fun a => Memory.read_zeroSegments _ _ _, fun i inStore => setSegs_get _ _ _ _ inStore, fun k => ?_⟩
    by_cases here : k = n
    · rw [if_pos here, here]
      exact pathAt_set_same inTable
    · rw [if_neg here]
      exact pathAt_set_other _ _ here
  case idle =>
    intro m c
    obtain ⟨close, shape, tap⟩ := m.steps_frame c
    exact ⟨close, shape, tap, Model.closeStep_idle, Model.shapeStep_idle, Model.tapStep_idle⟩
  case shapes =>
    intro m c n d q layout change inTable lays
    obtain ⟨o, opening, rfl, rfl⟩ | ⟨noOpening, windows, opened⟩ := lays
    · rw [Model.shapeStep_opens change opening]
      exact m.layOut_spec n _ _ d.reservations inTable
    · rw [Model.shapeStep_reshapes change noOpening windows opened]
      exact m.layOut_spec n q layout d.reservations inTable
  case taps =>
    intro m c n d q wf change opened writes once
    rw [Model.tapStep_writes change opened]
    exact ⟨fun w written => Memory.read_writeAll_written wf once written, fun a other => Memory.read_writeAll_other wf _ a other, rfl⟩

end

section
/-! PROOFS. The part's arithmetic (R77 to R100), and where records go (R169 to R176). -/

namespace Sys2Proof.Machine

/-! ## Arithmetic -/

theorem roundDiv_of_nonneg {a : Int} (h : 0 ≤ a) (d : Nat) : roundDiv a d = ((2 * a.natAbs + d) / (2 * d) : Nat) :=
  if_neg (not_lt.mpr h)

theorem roundDiv_of_neg {a : Int} (h : a < 0) (d : Nat) : roundDiv a d = -(((2 * a.natAbs + d) / (2 * d) : Nat) : Int) := if_pos h

/-- Rounding to nearest: the product of the quotient and the divisor is as far from the dividend as its magnitude is from the
dividend's. -/
theorem roundDiv_distance (a : Int) (d : Nat) :
    (a - roundDiv a d * d).natAbs = ((a.natAbs : Int) - (((2 * a.natAbs + d) / (2 * d) * d : Nat) : Int)).natAbs := by
  obtain nonneg | neg := le_or_gt 0 a
  · rw [roundDiv_of_nonneg nonneg, Int.natAbs_of_nonneg nonneg, Nat.cast_mul]
  · rw [roundDiv_of_neg neg, Nat.cast_mul, ← Int.natAbs_neg]
    congr 1
    have magnitude : (a.natAbs : Int) = -a := Int.ofNat_natAbs_of_nonpos neg.le
    rw [magnitude]
    ring

theorem roundDiv_nearest (a : Int) {d : Nat} (hd : 0 < d) :
    2 * (a - roundDiv a d * d).natAbs ≤ d ∧
      (2 * (a - roundDiv a d * d).natAbs = d → a.natAbs ≤ (roundDiv a d).natAbs * d) := by
  rw [roundDiv_distance, roundDiv_natAbs]
  exact roundMagnitude a.natAbs d hd

theorem rampGain_up {target r : Nat} (h : r < target) : rampGain target r = r + min 256 (target - r) := if_pos h

theorem rampGain_down {target r : Nat} (h : target ≤ r) : rampGain target r = r - min 256 (r - target) := if_neg (Nat.not_lt.mpr h)

/-- A sample times a gain of at most 32,767, over 32,768, is a sample again. -/
theorem residualOut_toInt (e : Sample) {r : Nat} (h : r ≤ 32767) : (residualOut e r).toInt = roundDiv (e.toInt * r) 32768 := by
  have lower := BitVec.le_toInt e
  have upper := BitVec.toInt_lt (x := e)
  have magnitude : e.toInt.natAbs ≤ 32768 := by omega
  have product : (e.toInt * r).natAbs ≤ 32767 * 32768 := by
    rw [Int.natAbs_mul, Int.natAbs_natCast, Nat.mul_comm]
    exact Nat.mul_le_mul h magnitude
  have bound := roundDiv_le (d := 32768) (by decide) product
  exact BitVec.toInt_ofInt_eq_self (by decide) (by omega) (by omega)

theorem sumTo_succ (n : Nat) (g : Nat → Int) : sumTo (n + 1) g = sumTo n g + g n := by
  rw [sumTo, List.range_succ, List.map_append, List.sum_append, List.map_singleton, List.sum_singleton]
  rfl

/-! ## Records -/

theorem Event.isFault_iff (e : Event) :
    e.isFault = true ↔ e.code = 0x02 ∨ e.code = 0x06 ∨ e.code = 0x08 ∨ e.code = 0x13 := by
  cases e <;> simp [Event.isFault, Event.code]

theorem Report.passes_routed (r : Report) {e : Event} (h : e ≠ .partReset) :
    r.passes e = if e.isFault then r.faultOn else r.routineOn := if_neg h

theorem Report.join_stopped {r : Report} {c : Record} (h : r.passes c.event = false) : r.join c = r :=
  if_neg (ne_true_of_eq_false h)

theorem Report.join_room {r : Report} {c : Record} (h : r.passes c.event = true) (room : r.queue.length < 32) :
    r.join c = { r with queue := r.queue ++ [c] } := (if_pos h).trans (if_pos room)

theorem Report.join_full {r : Report} {c : Record} (h : r.passes c.event = true) (full : 32 ≤ r.queue.length) :
    r.join c = { r with counters := { r.counters with eventsLost := r.counters.eventsLost.bump } } :=
  (if_pos h).trans (if_neg (Nat.not_lt.mpr full))

theorem State.alert_iff (s : State) (p : Port) : s.alert p = true ↔ (s.report.get p).queue ≠ [] := by
  rw [State.alert, Bool.not_eq_true', ← Bool.not_eq_true, List.isEmpty_iff]

theorem Counter.bump_overflow_iff (c : Counter) : c.bump.overflow = true ↔ c.overflow = true ∨ c.value = 65535#16 := by
  rw [Counter.bump, Bool.or_eq_true, beq_iff_eq]

/-- A record sent where an entry of the routing table says (R172). -/
def State.sendTo (s : State) (c : Record) : Dest → State
  | .none => s
  | .port0 => { s with report := { s.report with p0 := s.report.p0.join c } }
  | .port1 => { s with report := { s.report with p1 := s.report.p1.join c } }
  | .both => { s with report := { p0 := s.report.p0.join c, p1 := s.report.p1.join c } }

theorem State.raise_sendTo (s : State) (c : Record) : s.raise c = s.sendTo c (s.routes.getD (c.event.code - 1) .both) := by
  unfold State.raise State.destOf
  cases s.routes.getD (c.event.code - 1) .both with
  | none => rfl
  | port0 => rfl
  | port1 => rfl
  | both => rfl

end Sys2Proof.Machine
end

section
/-! PROOFS. The statements about arithmetic and records. -/

open Sys2Proof Sys2Proof.Machine

/-- Settles O59: rounding by the law of its magnitude, the clamped values by what they read back, and the rest by definition. -/
theorem arithmeticIsExact : Obligations.ArithmeticIsExact :=
  ⟨fun a _ => roundDiv_nearest a, fun _ _ => sat16_toInt _, fun _ _ => ⟨rampGain_up, rampGain_down⟩,
    fun e _ => residualOut_toInt e, fun _ _ _ => rfl, fun _ _ _ => rfl, fun _ _ => clampCoef_toInt _,
    fun _ _ => ⟨rfl, rfl, rfl⟩, fun _ _ _ => rfl, fun _ _ _ => rfl, fun g => ⟨rfl, fun n => sumTo_succ n g⟩⟩

/-- Settles O60: a record's class and bytes, what a port's report does with it, and where it is sent. -/
theorem recordsJoinQueues : Obligations.RecordsJoinQueues := by
  refine ⟨Event.isFault_iff, fun _ => rfl, ?joins, State.alert_iff, ?counts, fun _ _ => rfl, ?bumps, ?raises,
    fun _ _ => ⟨rfl, rfl, rfl⟩⟩
  case joins =>
    intro r c
    exact ⟨fun isReset => if_pos isReset, r.passes_routed, Report.join_stopped, Report.join_room, Report.join_full⟩
  case counts => exact fun _ => ⟨rfl, rfl, rfl, rfl, rfl, rfl, rfl, rfl⟩
  case bumps => exact fun c => ⟨rfl, c.bump_overflow_iff⟩
  case raises =>
    intro s c d
    have sent : ∀ e, d = e → s.raise c = s.sendTo c e := fun e isDest => (s.raise_sendTo c).trans (congrArg (s.sendTo c) isDest)
    exact ⟨sent .none, sent .port0, sent .port1, sent .both⟩

end

section
/-! PROOFS. The supervisor's evaluation of a microphone (R119 to R125). -/

namespace Sys2Proof.Machine

/-! ## Lists -/

/-- The running maximum of a list is a bound of it, and is its start or one of its values. -/
theorem foldl_max_spec {α : Type} (f : α → Nat) (l : List α) (start : Nat) :
    start ≤ l.foldl (fun x c => max x (f c)) start ∧ (∀ c ∈ l, f c ≤ l.foldl (fun x c => max x (f c)) start) ∧
      (l.foldl (fun x c => max x (f c)) start = start ∨ ∃ c ∈ l, f c = l.foldl (fun x c => max x (f c)) start) := by
  induction l generalizing start with
  | nil => exact ⟨Nat.le_refl _, fun c inNil => absurd inNil List.not_mem_nil, .inl rfl⟩
  | cons a l ih =>
    obtain ⟨above, bounds, attained⟩ := ih (max start (f a))
    rw [List.foldl_cons]
    refine ⟨(Nat.le_max_left _ _).trans above, ?_, ?_⟩
    · intro c inList
      obtain rfl | later := List.mem_cons.mp inList
      · exact (Nat.le_max_right _ _).trans above
      · exact bounds c later
    · obtain isMax | ⟨c, later, isValue⟩ := attained
      · rw [isMax]
        obtain isStart | isHead := max_choice start (f a)
        · exact .inl isStart
        · exact .inr ⟨a, List.mem_cons_self, isHead.symm⟩
      · exact .inr ⟨c, List.mem_cons_of_mem _ later, isValue⟩

theorem getD_zipIdx_map {α β : Type} {l : List α} {i : Nat} (f : α × Nat → β) (d : α) (e : β) (h : i < l.length) :
    (l.zipIdx.map f).getD i e = f (l.getD i d, i) := by
  rw [List.getD_eq_getElem?_getD, List.getElem?_map, List.getElem?_zipIdx, List.getElem?_eq_getElem h, List.getD_eq_getElem _ _ h,
    Nat.zero_add]
  rfl

theorem mem_filter_zipIdx_snd {α : Type} {l : List α} {g : α × Nat → Bool} (d : α) {i : Nat} :
    i ∈ (l.zipIdx.filter g).map Prod.snd ↔ i < l.length ∧ g (l.getD i d, i) = true := by
  simp only [List.mem_map, List.mem_filter, List.mem_zipIdx_iff_getElem?, Prod.exists, exists_eq_right]
  constructor
  · rintro ⟨a, found, holds⟩
    obtain ⟨inRange, rfl⟩ := List.getElem?_eq_some_iff.mp found
    rw [List.getD_eq_getElem _ _ inRange]
    exact ⟨inRange, holds⟩
  · rintro ⟨inRange, holds⟩
    rw [List.getD_eq_getElem _ _ inRange] at holds
    exact ⟨l[i], List.getElem?_eq_getElem inRange, holds⟩

/-! ## The talk detector (R121, R122) -/

theorem Mic.detectTalk_degraded (a : Mic) (px : Nat) : a.detectTalk true px = a := rfl

theorem Mic.detectTalk_talks {a : Mic} {px : Nat} (talks : a.theta * px < 16 * a.peakD) :
    a.detectTalk false px = { a with talk := .talk, hangover := a.hang } := if_pos (decide_eq_true talks)

theorem Mic.detectTalk_clears {a : Mic} {px : Nat} (quiet : ¬ a.theta * px < 16 * a.peakD) (ended : a.hangover = 0) :
    a.detectTalk false px = { a with talk := .clear } :=
  (if_neg (ne_true_of_eq_false (decide_eq_false quiet))).trans (if_pos ended)

theorem Mic.detectTalk_hangs {a : Mic} {px : Nat} (quiet : ¬ a.theta * px < 16 * a.peakD) (hangs : 0 < a.hangover) :
    a.detectTalk false px = { a with hangover := a.hangover - 1 } :=
  (if_neg (ne_true_of_eq_false (decide_eq_false quiet))).trans (if_neg (Nat.ne_of_gt hangs))

/-- The talk detector writes the talk state and the hangover, and nothing else. -/
theorem Mic.detectTalk_frame (a : Mic) (degraded : Bool) (px : Nat) :
    a.detectTalk degraded px =
      { a with talk := (a.detectTalk degraded px).talk, hangover := (a.detectTalk degraded px).hangover } := by
  cases degraded with
  | true => rfl
  | false =>
    by_cases talks : a.theta * px < 16 * a.peakD
    · rw [Mic.detectTalk_talks talks]
    obtain ended | hangs := Nat.eq_zero_or_pos a.hangover
    · rw [Mic.detectTalk_clears talks ended]
    · rw [Mic.detectTalk_hangs talks hangs]

/-! ## Classes and runs (R124, R125) -/

theorem Mic.classify_good {a : Mic} (h : 32 * a.energyE ≤ a.energyD) :
    a.classify = { a with lastClass := .good, goodRun := min (a.goodRun + 1) 65535, poorRun := 0, divCount := 0 } := by
  have quality : qualityOf a.energyD a.energyE = .good := if_pos h
  rw [Mic.classify, quality]
  rfl

theorem Mic.classify_fair {a : Mic} (notGood : a.energyD < 32 * a.energyE) (notPoor : 4 * a.energyE ≤ a.energyD) :
    a.classify = { a with lastClass := .fair, goodRun := 0, poorRun := 0, divCount := 0 } := by
  have quality : qualityOf a.energyD a.energyE = .fair :=
    (if_neg (Nat.not_le.mpr notGood)).trans (if_neg (Nat.not_lt.mpr notPoor))
  rw [Mic.classify, quality]

theorem Mic.classify_poor {a : Mic} (poor : a.energyD < 4 * a.energyE) :
    a.classify =
      { a with
        lastClass := .poor, goodRun := 0, poorRun := min (a.poorRun + 1) 65535
        divCount := if 4 * a.energyD < a.energyE then a.divCount + 1 else 0 } := by
  have notGood : ¬ 32 * a.energyE ≤ a.energyD := by omega
  have quality : qualityOf a.energyD a.energyE = .poor := (if_neg notGood).trans (if_pos poor)
  rw [Mic.classify, quality]
  simp only [diverging, decide_eq_true_eq]
  rfl

/-- A classification writes the class and the runs, and nothing else. -/
theorem Mic.classify_frame (a : Mic) :
    a.classify =
      { a with lastClass := a.classify.lastClass, goodRun := a.classify.goodRun, poorRun := a.classify.poorRun,
               divCount := a.classify.divCount } := by
  unfold Mic.classify
  split <;> rfl

/-! ## A microphone's evaluation (R119, R123) -/

theorem excitedFor_iff (s : State) (p : Proc) (m : Nat) (a : Mic) :
    excitedFor s p m a = true ↔ p.degraded = false ∧ (measured s p m a).talk = .clear ∧ anyFeedActive s m = true := by
  rw [excitedFor, Bool.and_eq_true, Bool.and_eq_true, Bool.not_eq_true', beq_iff_eq, and_assoc]

theorem evaluated_excited {s : State} {p : Proc} {m : Nat} {a : Mic} (excited : excitedFor s p m a = true) :
    evaluated s p m a = (measured s p m a).classify := if_pos excited

theorem evaluated_plain {s : State} {p : Proc} {m : Nat} {a : Mic} (plain : excitedFor s p m a = false) :
    evaluated s p m a = measured s p m a := if_neg (ne_true_of_eq_false plain)

/-- Steps 1 and 2 write the measures, the talk state and the hangover, and nothing else. -/
theorem measured_frame (s : State) (p : Proc) (m : Nat) (a : Mic) :
    measured s p m a =
      { a.measure p.number (s.canc.errD.getD m []) (s.canc.errE.getD m []) with
        talk := (measured s p m a).talk, hangover := (measured s p m a).hangover } :=
  Mic.detectTalk_frame _ _ _

section

variable {s : State} {p : Proc} {m : Nat} {a : Mic}

theorem measured_degraded (degraded : p.degraded = true) :
    (measured s p m a).talk = a.talk ∧ (measured s p m a).hangover = a.hangover := by
  unfold measured
  rw [degraded, Mic.detectTalk_degraded]
  exact ⟨rfl, rfl⟩

variable (whole : p.degraded = false)

include whole

theorem measured_talks (talks : a.theta * peakX s m < 16 * peakOf (s.canc.errD.getD m [])) :
    (measured s p m a).talk = .talk ∧ (measured s p m a).hangover = a.hang := by
  unfold measured
  rw [whole, Mic.detectTalk_talks talks]
  exact ⟨rfl, rfl⟩

theorem measured_clears (quiet : ¬ a.theta * peakX s m < 16 * peakOf (s.canc.errD.getD m [])) (ended : a.hangover = 0) :
    (measured s p m a).talk = .clear ∧ (measured s p m a).hangover = 0 := by
  unfold measured
  rw [whole, Mic.detectTalk_clears (a := a.measure _ _ _) quiet ended]
  exact ⟨rfl, ended⟩

theorem measured_hangs (quiet : ¬ a.theta * peakX s m < 16 * peakOf (s.canc.errD.getD m [])) (hangs : 0 < a.hangover) :
    (measured s p m a).talk = a.talk ∧ (measured s p m a).hangover = a.hangover - 1 := by
  unfold measured
  rw [whole, Mic.detectTalk_hangs (a := a.measure _ _ _) quiet hangs]
  exact ⟨rfl, rfl⟩

end

/-- Step 4 writes the class and the runs, and nothing else. -/
theorem evaluated_frame (s : State) (p : Proc) (m : Nat) (a : Mic) :
    evaluated s p m a =
      { measured s p m a with
        lastClass := (evaluated s p m a).lastClass, goodRun := (evaluated s p m a).goodRun
        poorRun := (evaluated s p m a).poorRun, divCount := (evaluated s p m a).divCount } := by
  cases excited : excitedFor s p m a with
  | false => rw [evaluated_plain excited]
  | true =>
    rw [evaluated_excited excited]
    exact Mic.classify_frame _

theorem anyFeedActive_iff (s : State) (m : Nat) :
    anyFeedActive s m = true ↔ ∃ c ∈ pathsOnMic s.model.paths m, (feedAt s.model.feeds c.2.feed).active = true := by
  rw [anyFeedActive, List.any_eq_true]

theorem State.supervisorStage_eq {s : State} {p : Proc} (block : s.proc = some p) (phase : p.phase = .supervise) :
    s.supervisorStage =
      { s with
        model := { s.model with mics := s.model.mics.zipIdx.map fun c => evaluated s p c.2 c.1 }
        proc := some { p with
          phase := .align
          excited := (s.model.mics.zipIdx.filter fun c => excitedFor s p c.2 c.1).map Prod.snd
          stageQueues := s.queues } } := by
  unfold State.supervisorStage
  rw [block]
  exact if_pos phase

end Sys2Proof.Machine
end

section
/-! PROOFS. The statement about the supervisor's evaluation. -/

open Sys2Proof Sys2Proof.Machine

/-- Settles O52: each microphone's record is its evaluation, which the talk detector and the class decide. -/
theorem supervisorEvaluates : Obligations.SupervisorEvaluates := by
  refine ⟨?feeds, ?samples, ?stage⟩
  case feeds =>
    intro s m peak
    obtain ⟨_, bounds, attained⟩ := foldl_max_spec peak (pathsOnMic s.model.paths m) 0
    exact ⟨bounds, attained, anyFeedActive_iff s m⟩
  case samples =>
    intro l
    obtain ⟨_, bounds, attained⟩ := foldl_max_spec (fun x : Sample => x.toInt.natAbs) l 0
    exact ⟨rfl, bounds, attained⟩
  case stage =>
    intro s p block phase
    refine ⟨_, _, congrArg Host.Outcome.next (State.supervisorStage_eq block phase), rfl, rfl, rfl, ?_⟩
    intro m inTable a b d e talks excited
    have evaluation : b = evaluated s p m a := getD_zipIdx_map _ Mic.reset _ inTable
    have measure := measured_frame s p m a
    have frame := evaluated_frame s p m a
    rw [← evaluation] at frame
    have talkOf : b.talk = (measured s p m a).talk := (congrArg Mic.talk frame :)
    have hangoverOf : b.hangover = (measured s p m a).hangover := (congrArg Mic.hangover frame :)
    have excited_iff : excitedFor s p m a = true ↔ excited := by
      rw [excitedFor_iff, ← talkOf]
    have peakD : b.peakD = peakOf d := (congrArg Mic.peakD frame :).trans (congrArg Mic.peakD measure :)
    have energyD : (measured s p m a).energyD = b.energyD := (congrArg Mic.energyD frame.symm :)
    have energyE : (measured s p m a).energyE = b.energyE := (congrArg Mic.energyE frame.symm :)
    have classifies : excited → b = (measured s p m a).classify :=
      fun isExcited => evaluation.trans (evaluated_excited (excited_iff.mpr isExcited))
    have goodRun : (measured s p m a).goodRun = a.goodRun := (congrArg Mic.goodRun measure :)
    have poorRun : (measured s p m a).poorRun = a.poorRun := (congrArg Mic.poorRun measure :)
    have divCount : (measured s p m a).divCount = a.divCount := (congrArg Mic.divCount measure :)
    refine ⟨?turn, peakD, ?peakE, ?energyD, ?energyE, ?block, ?degraded, ?talks, ?clears, ?hangs, ?plain, ?good, ?fair, ?poor, ?diverges,
      ?conv, ?theta, ?hang, ?floor⟩
    case turn =>
      rw [← excited_iff]
      exact (mem_filter_zipIdx_snd Mic.reset).trans (and_iff_right inTable)
    case peakE => exact (congrArg Mic.peakE frame :).trans (congrArg Mic.peakE measure :)
    case energyD => exact energyD.symm.trans (congrArg Mic.energyD measure :)
    case energyE => exact energyE.symm.trans (congrArg Mic.energyE measure :)
    case block => exact (congrArg Mic.measBlock frame :).trans (congrArg Mic.measBlock measure :)
    case degraded =>
      rw [talkOf, hangoverOf]
      exact measured_degraded
    case talks =>
      rw [talkOf, hangoverOf]
      intro whole talking
      exact measured_talks whole (talking.trans_eq (congrArg (16 * ·) peakD))
    case clears =>
      rw [talkOf, hangoverOf]
      intro whole quiet
      exact measured_clears whole (by rw [← peakD]; exact quiet)
    case hangs =>
      rw [talkOf, hangoverOf]
      intro whole quiet
      exact measured_hangs whole (by rw [← peakD]; exact quiet)
    case plain =>
      intro plain
      have same : b = measured s p m a :=
        evaluation.trans (evaluated_plain (eq_false_of_ne_true fun isExcited => plain (excited_iff.mp isExcited)))
      rw [same]
      exact ⟨(congrArg Mic.lastClass measure :), goodRun, poorRun, divCount⟩
    case good =>
      intro isExcited good
      rw [classifies isExcited, Mic.classify_good (by rw [energyD, energyE]; exact good), goodRun]
      exact ⟨rfl, rfl, rfl, rfl⟩
    case fair =>
      intro isExcited notPoor notGood
      rw [classifies isExcited, Mic.classify_fair (by rw [energyD, energyE]; exact notGood) (by rw [energyD, energyE]; exact notPoor)]
      exact ⟨rfl, rfl, rfl, rfl⟩
    case poor =>
      intro isExcited poor notDiverging
      rw [classifies isExcited, Mic.classify_poor (by rw [energyD, energyE]; exact poor), energyD, energyE, poorRun,
        if_neg (Nat.not_lt.mpr notDiverging)]
      exact ⟨rfl, rfl, rfl, rfl⟩
    case diverges =>
      intro isExcited diverging
      have poor : b.energyD < 4 * b.energyE := by omega
      rw [classifies isExcited, Mic.classify_poor (by rw [energyD, energyE]; exact poor), energyD, energyE, poorRun, divCount,
        if_pos diverging]
      exact ⟨rfl, rfl, rfl, rfl⟩
    case conv => exact (congrArg Mic.conv frame :).trans (congrArg Mic.conv measure :)
    case theta => exact (congrArg Mic.theta frame :).trans (congrArg Mic.theta measure :)
    case hang => exact (congrArg Mic.hang frame :).trans (congrArg Mic.hang measure :)
    case floor => exact (congrArg Mic.floor frame :).trans (congrArg Mic.floor measure :)

end

section
/-! PROOFS. Step 5 of the supervisor: whose turn it is, and what a run threshold and a divergence do (R126, R127, R130, R132). -/

namespace Sys2Proof.Machine

/-! ## Whose turn it is -/

theorem verdictsDue_eq_nil_iff (mics : List Mic) : verdictsDue mics = [] ↔ ∀ m < mics.length, (micAt mics m).verdictDue ≠ true := by
  rw [List.eq_nil_iff_forall_not_mem]
  simp only [mem_verdictsDue, not_and]

/-- The first of an ascending list is the member that no other lies below. -/
theorem head?_eq_some_iff_of_sorted {l : List Nat} (sorted : l.Pairwise (· < ·)) (m : Nat) :
    l.head? = some m ↔ m ∈ l ∧ ∀ k < m, k ∉ l := by
  cases l with
  | nil => exact iff_of_false nofun fun ⟨inNil, _⟩ => List.not_mem_nil inNil
  | cons a l =>
    have above : ∀ {k : Nat}, k ∈ l → a < k := List.rel_of_pairwise_cons sorted
    rw [List.head?_cons, Option.some_inj]
    constructor
    · rintro rfl
      refine ⟨List.mem_cons_self, fun k below inList => ?_⟩
      obtain rfl | later := List.mem_cons.mp inList
      · exact Nat.lt_irrefl _ below
      · exact Nat.lt_asymm below (above later)
    · rintro ⟨inList, none⟩
      obtain rfl | later := List.mem_cons.mp inList
      · rfl
      · exact absurd List.mem_cons_self (none a (above later))

theorem State.verdictTurn_iff (s : State) (m : Nat) :
    s.verdictTurn m = true ↔
      (∃ p, s.proc = some p ∧ p.phase = .align ∧ p.standby = false) ∧ m < s.model.mics.length ∧
        (micAt s.model.mics m).verdictDue = true ∧ ∀ k < m, (micAt s.model.mics k).verdictDue ≠ true := by
  have lowest : (verdictsDue s.model.mics).head? = some m ↔
      m < s.model.mics.length ∧ (micAt s.model.mics m).verdictDue = true ∧
        ∀ k < m, (micAt s.model.mics k).verdictDue ≠ true := by
    rw [head?_eq_some_iff_of_sorted (verdictsDue_sorted _), mem_verdictsDue, and_assoc]
    refine and_congr_right fun inTable => and_congr_right fun _ => forall₂_congr fun k below => ?_
    rw [mem_verdictsDue]
    exact not_congr (and_iff_right (below.trans inTable))
  rw [← lowest]
  unfold State.verdictTurn
  cases s.proc with
  | none => exact iff_of_false nofun fun ⟨⟨p, noBlock, _⟩, _⟩ => nomatch noBlock
  | some p =>
    simp only [Bool.and_eq_true, beq_iff_eq, Bool.not_eq_true', Option.some.injEq, exists_eq_left']

/-! ## The clear list (R47) -/

theorem addAll_cons (l : List Nat) (n : Nat) (new : List Nat) :
    addAll l (n :: new) = addAll (if l.contains n then l else l ++ [n]) new := rfl

theorem addAll_spec (l new : List Nat) :
    l <+: addAll l new ∧ (l.Nodup → (addAll l new).Nodup) ∧ ∀ n, n ∈ addAll l new ↔ n ∈ l ∨ n ∈ new := by
  induction new generalizing l with
  | nil => exact ⟨List.prefix_refl l, id, fun n => (or_iff_left List.not_mem_nil).symm⟩
  | cons a new ih =>
    rw [addAll_cons]
    by_cases held : a ∈ l
    · obtain ⟨isPrefix, once, members⟩ := ih l
      rw [if_pos (List.contains_iff_mem.mpr held)]
      refine ⟨isPrefix, once, fun n => (members n).trans ?_⟩
      rw [List.mem_cons]
      refine ⟨Or.imp_right .inr, ?_⟩
      rintro (inList | rfl | later)
      · exact .inl inList
      · exact .inl held
      · exact .inr later
    · obtain ⟨isPrefix, once, members⟩ := ih (l ++ [a])
      rw [if_neg fun contains => held (List.contains_iff_mem.mp contains)]
      refine ⟨(List.prefix_append l [a]).trans isPrefix, fun nodup => once ?_, fun n => (members n).trans ?_⟩
      · exact List.nodup_append_comm.mp (List.nodup_cons.mpr ⟨held, nodup⟩)
      · rw [List.mem_append, List.mem_singleton, List.mem_cons, or_assoc]

/-! ## Changes of convergence state (R126, R127, R130) -/

theorem micStateNotice_of_ne (block : BlockNo) (m : Nat) {old new : Conv} (cause : Cause) (changes : old ≠ new) :
    micStateNotice block m old new cause =
      [{ dest := none, record := { block := block, event := .micState m old new cause } }] := if_neg changes

theorem micStateNotice_self (block : BlockNo) (m : Nat) (c : Conv) (cause : Cause) : micStateNotice block m c c cause = [] :=
  if_pos rfl

theorem State.enterConv_eq {s : State} {p : Proc} (block : s.proc = some p) (m : Nat) (c : Conv) :
    s.enterConv m c =
      { s with
        model := { s.model with mics := s.model.mics.set m ((micAt s.model.mics m).enter c) }
        queues := settleQueues s.model.paths s.model.paths (s.model.mics.set m ((micAt s.model.mics m).enter c))
          p.stageQueues } := by
  rw [State.enterConv, block]

theorem State.blockNumber_eq {s : State} {p : Proc} (block : s.proc = some p) : s.blockNumber = p.number := by
  rw [State.blockNumber, block]

section

variable {s : State} {p : Proc} {m : Nat} (block : s.proc = some p) (turn : s.verdictTurn m = true)

include block turn

/-- A run threshold changes the state of the microphone whose turn it is. -/
theorem State.runThreshold_changes {c : Conv} {cause : Cause} (due : (micAt s.model.mics m).runDue = some (c, cause))
    (changes : (micAt s.model.mics m).conv ≠ c) :
    s.runThreshold m =
      (s.enterConv m c).raise { block := p.number, event := .micState m (micAt s.model.mics m).conv c cause } := by
  unfold State.runThreshold
  dsimp only
  rw [turn, due]
  dsimp only
  rw [micStateNotice_of_ne _ _ _ changes, State.blockNumber_eq block]
  rfl

/-- The record of a divergence. -/
def divergedRecord (block : BlockNo) (m : Nat) (old : Conv) (paths : List Nat) : Record :=
  { block := block, event := .micDiverged m old paths.length }

/-- A divergence puts the microphone's paths on the clear list and the microphone in ACQUIRE, and then its records are given. -/
theorem State.micDiverged_changes (diverges : 8 ≤ (micAt s.model.mics m).divCount) :
    s.micDiverged m =
      (micStateNotice p.number m (micAt s.model.mics m).conv .acquire .diverged ++
        ([{ dest := none
            record := divergedRecord p.number m (micAt s.model.mics m).conv
              ((pathsOnMic s.model.paths m).map Prod.fst) }] : List Notice)).foldl State.post
        ((s.askClears ((pathsOnMic s.model.paths m).map Prod.fst)).enterConv m .acquire) := by
  have due : (s.verdictTurn m && (micAt s.model.mics m).divergeDue) = true := by
    rw [turn, Bool.true_and, Mic.divergeDue_iff]
    exact diverges
  rw [← State.blockNumber_eq block]
  exact if_pos due

end

section

variable {a : Mic} (calm : a.divCount < 8)

include calm

theorem Mic.divergeDue_of_calm : ¬ a.divergeDue = true := fun due => Nat.not_le.mpr calm (a.divergeDue_iff.mp due)

theorem Mic.runDue_acquire (conv : a.conv = .acquire) (good : 4 ≤ a.goodRun) : a.runDue = some (.converged, .goodRun) := by
  rw [Mic.runDue, if_neg (Mic.divergeDue_of_calm calm), conv]
  exact if_pos good

theorem Mic.runDue_converged (conv : a.conv = .converged) (poor : 25 ≤ a.poorRun) : a.runDue = some (.recover, .poorRun) := by
  rw [Mic.runDue, if_neg (Mic.divergeDue_of_calm calm), conv]
  exact if_pos poor

theorem Mic.runDue_recover (conv : a.conv = .recover) (good : 4 ≤ a.goodRun) : a.runDue = some (.converged, .goodRun) := by
  rw [Mic.runDue, if_neg (Mic.divergeDue_of_calm calm), conv]
  exact if_pos good

end

end Sys2Proof.Machine
end

section
/-! PROOFS. The statement about step 5. -/

open Sys2Proof Sys2Proof.Machine

/-- Settles O53, verdict by verdict at the microphone whose turn it is. -/
theorem supervisorVerdicts : Obligations.SupervisorVerdicts := by
  unfold Obligations.SupervisorVerdicts
  intro due
  have due_iff : ∀ a : Mic, due a ↔ a.verdictDue = true := fun a => a.verdictDue_iff.symm
  refine ⟨?none, ?turn, addAll_spec, ?verdict⟩
  case none =>
    intro mics
    simp only [due_iff]
    exact verdictsDue_eq_nil_iff mics
  case turn =>
    intro s m
    simp only [due_iff]
    exact s.verdictTurn_iff m
  case verdict =>
    intro s p m block turn mic mine mics goes cleared record
    have enters : ∀ c, s.enterConv m c = goes c := fun c => State.enterConv_eq block m c
    have clears : (s.askClears mine).enterConv m .acquire = cleared := State.enterConv_eq (s := s.askClears mine) block m .acquire
    have runs : ∀ {old new cause}, mic.conv = old → old ≠ new → mic.runDue = some (new, cause) →
        exec (.runThreshold m) s = .next ((goes new).raise (record (.micState m old new cause))) := by
      rintro _ new cause rfl changes verdict
      have changed := State.runThreshold_changes block turn verdict changes
      rw [enters] at changed
      exact congrArg Host.Outcome.next changed
    refine ⟨?locks, ?recovers, ?locksAgain, ?restarts, ?falls⟩
    case locks => exact fun calm conv good => runs conv (by decide) (Mic.runDue_acquire calm conv good)
    case recovers => exact fun calm conv poor => runs conv (by decide) (Mic.runDue_converged calm conv poor)
    case locksAgain => exact fun calm conv good => runs conv (by decide) (Mic.runDue_recover calm conv good)
    case restarts =>
      intro diverges conv
      have changes := State.micDiverged_changes block turn diverges
      rw [show (micAt s.model.mics m).conv = _ from conv, micStateNotice_self, clears] at changes
      exact congrArg Host.Outcome.next changes
    case falls =>
      intro diverges conv
      have changes := State.micDiverged_changes block turn diverges
      rw [micStateNotice_of_ne _ _ _ conv, clears] at changes
      exact congrArg Host.Outcome.next changes

end

section
/-! PROOFS. The alignment unit's stage at one feed, and the check countdown (R21, R26, R27, R32). -/

namespace Sys2Proof.Machine

/-! ## A feed's part of the stage -/

/-- The measures of a feed for a block (R21). -/
def Feed.measured (a : Feed) (hist : List (List Sample)) (p : Proc) (n : Nat) : Feed :=
  a.remeasure (alignedSamples hist p.writesSince n a.b)

theorem counts_iff (mics : List Mic) (p : Proc) (a : Feed) :
    counts mics p a = true ↔
      p.standby = false ∧ a.active = true ∧ (micAt mics a.probe).talk = .clear ∧ p.degraded = false ∧ p.feedLive = true := by
  simp only [counts, Bool.and_eq_true, Bool.not_eq_true', beq_iff_eq, and_assoc]

section

variable {hist : List (List Sample)} {mics : List Mic} {p : Proc} {n : Nat} {a : Feed}

/-- A feed that searches takes the block if the block counts for it. -/
theorem Feed.stage_searches (searches : a.acq = .seek ∨ a.acq = .check) :
    a.stage hist mics p n =
      if counts mics p (a.measured hist p n) then
        { a.measured hist p n with
          acc := a.acc.zipIdx.map fun c => c.1 + lagSum hist p a.probe n (8 * c.2), counted := a.counted + 1 }
      else a.measured hist p n := by
  obtain seek | check := searches
  · cases a
    cases seek
    rfl
  · cases a
    cases check
    rfl

/-- A LOCKED feed counts down outside standby. -/
theorem Feed.stage_locked (locked : a.acq = .locked) :
    a.stage hist mics p n =
      if p.standby then a.measured hist p n else { a.measured hist p n with countdown := a.countdown - 1 } := by
  cases a
  cases locked
  rfl

theorem Feed.stage_manual (manual : a.acq = .manual) : a.stage hist mics p n = a.measured hist p n := by
  cases a
  cases manual
  rfl

/-- The stage writes the measures, the search and the countdown, and nothing else. -/
theorem Feed.stage_frame :
    a.stage hist mics p n =
      { a.measured hist p n with
        acc := (a.stage hist mics p n).acc, counted := (a.stage hist mics p n).counted
        countdown := (a.stage hist mics p n).countdown } := by
  cases acq : a.acq with
  | manual => rw [Feed.stage_manual acq]
  | locked =>
    rw [Feed.stage_locked acq]
    split <;> rfl
  | seek =>
    rw [Feed.stage_searches (.inl acq)]
    split <;> rfl
  | check =>
    rw [Feed.stage_searches (.inr acq)]
    split <;> rfl

theorem Feed.stage_counts (searches : a.acq = .seek ∨ a.acq = .check) (fit : counts mics p (a.measured hist p n) = true) :
    (a.stage hist mics p n).counted = a.counted + 1 ∧
      (a.stage hist mics p n).acc = a.acc.zipIdx.map fun c => c.1 + lagSum hist p a.probe n (8 * c.2) := by
  rw [Feed.stage_searches searches, if_pos fit]
  exact ⟨rfl, rfl⟩

theorem Feed.stage_waits (waits : ¬ ((a.acq = .seek ∨ a.acq = .check) ∧ counts mics p (a.measured hist p n) = true)) :
    (a.stage hist mics p n).counted = a.counted ∧ (a.stage hist mics p n).acc = a.acc := by
  cases acq : a.acq with
  | manual =>
    rw [Feed.stage_manual acq]
    exact ⟨rfl, rfl⟩
  | locked =>
    rw [Feed.stage_locked acq]
    split <;> exact ⟨rfl, rfl⟩
  | seek =>
    rw [Feed.stage_searches (.inl acq), if_neg fun fit => waits ⟨.inl acq, fit⟩]
    exact ⟨rfl, rfl⟩
  | check =>
    rw [Feed.stage_searches (.inr acq), if_neg fun fit => waits ⟨.inr acq, fit⟩]
    exact ⟨rfl, rfl⟩

theorem Feed.stage_countdown_kept (kept : a.acq ≠ .locked ∨ p.standby = true) :
    (a.stage hist mics p n).countdown = a.countdown := by
  cases acq : a.acq with
  | manual => rw [Feed.stage_manual acq]; rfl
  | locked =>
    have standby : p.standby = true := kept.resolve_left fun notLocked => notLocked acq
    rw [Feed.stage_locked acq, if_pos standby]
    rfl
  | seek =>
    rw [Feed.stage_searches (.inl acq)]
    split <;> rfl
  | check =>
    rw [Feed.stage_searches (.inr acq)]
    split <;> rfl

end

/-! ## The stage and the countdown's expiry -/

theorem State.checkExpiry_restarts {s : State} {p : Proc} {f : Nat} (block : s.proc = some p) (phase : p.phase = .arbitrate)
    (isFeed : f < s.model.feeds.length) (locked : (feedAt s.model.feeds f).acq = .locked)
    (expired : (feedAt s.model.feeds f).countdown = 0) :
    s.checkExpiry f =
      { s with
        model := { s.model with
          feeds := s.model.feeds.set f { feedAt s.model.feeds f with acq := .check, acc := List.replicate 256 0, counted := 0 } } } := by
  have turn : s.resultsTurn = true := (s.inPhase_iff _).mpr (by rw [block]; exact congrArg some phase)
  have due : (s.resultsTurn && decide (f < s.model.feeds.length) && (feedAt s.model.feeds f).checkDue) = true := by
    rw [turn, decide_eq_true isFeed, (Feed.checkDue_iff _).mpr ⟨locked, expired⟩]
    rfl
  exact if_pos due

end Sys2Proof.Machine
end

section
/-! PROOFS. The statement about the alignment unit's stage. -/

open Sys2Proof Sys2Proof.Machine

/-- Settles O54: the stage in and outside standby, and each feed by how far its search and its countdown are. -/
theorem alignmentStageMeasures : Obligations.AlignmentStageMeasures := by
  refine ⟨?stage, fun s p f block phase isFeed locked expired =>
    congrArg Host.Outcome.next (State.checkExpiry_restarts block phase isFeed locked expired)⟩
  case stage =>
    intro s p block phase noVerdict
    have staged := s.alignmentStage_eq p block phase noVerdict
    obtain ⟨t, ht⟩ : ∃ t, t = s.alignmentStage := ⟨_, rfl⟩
    have feeds : t.model.feeds = s.model.feeds.zipIdx.map fun c => Feed.stage s.hist s.model.mics p c.2 c.1 := by
      rw [ht, staged]
      dsimp only
      split <;> rfl
    refine ⟨t, congrArg Host.Outcome.next ht.symm, ?standby, ?awake, ?model, ?length, ?frame, ?feed⟩
    case standby =>
      intro standby
      rw [ht, staged]
      dsimp only
      rw [if_pos standby]
      exact ⟨rfl, rfl, rfl⟩
    case awake =>
      intro awake
      rw [ht, staged]
      dsimp only
      rw [if_neg (ne_true_of_eq_false awake)]
      exact ⟨rfl, rfl, rfl⟩
    case model =>
      rw [ht, staged]
      dsimp only
      split <;> rfl
    case length => rw [feeds, List.length_map, List.length_zipIdx]
    case frame =>
      rw [ht, staged]
      dsimp only
      split <;> rfl
    case feed =>
      intro f isFeed a b x counted
      have stage : b = a.stage s.hist s.model.mics p f := by
        show feedAt t.model.feeds f = _
        rw [feeds]
        exact getD_zipIdx_map _ Feed.reset _ isFeed
      have frame : b = _ := stage.trans Feed.stage_frame
      have active : b.active = (a.measured s.hist p f).active := (congrArg Feed.active frame :)
      have energy : b.energy = (x.map fun v => v.toInt.natAbs * v.toInt.natAbs).sum := (congrArg Feed.energy frame :)
      have peak : b.peak = peakOf x := (congrArg Feed.peak frame :)
      have counted_iff : counted ↔ (a.acq = .seek ∨ a.acq = .check) ∧ counts s.model.mics p (a.measured s.hist p f) = true := by
        rw [counts_iff, ← active]
        exact Iff.rfl
      obtain ⟨_, bounds, attained⟩ := foldl_max_spec (fun v : Sample => v.toInt.natAbs) x 0
      refine ⟨energy, ?_, ?_, ?active, ?counts, ?waits, ?locked, ?kept, ?rest⟩
      · rw [peak]
        exact bounds
      · rw [peak]
        exact attained
      case active =>
        rw [active, energy]
        exact decide_eq_true_iff
      case counts =>
        intro isCounted
        obtain ⟨searches, fit⟩ := counted_iff.mp isCounted
        obtain ⟨count, acc⟩ := Feed.stage_counts searches fit
        rw [stage]
        refine ⟨count, fun i inRange => ?_⟩
        rw [acc, getD_zipIdx_map _ 0 _ inRange]
        rfl
      case waits =>
        intro notCounted
        rw [stage]
        exact Feed.stage_waits (mt counted_iff.mpr notCounted)
      case locked =>
        intro locked awake
        rw [stage, Feed.stage_locked locked, if_neg (ne_true_of_eq_false awake)]
      case kept =>
        rw [stage]
        exact Feed.stage_countdown_kept
      case rest =>
        rw [← stage] at frame
        rw [active, energy, peak]
        exact frame

end

section
/-! PROOFS. The results of the searches: the peak of a measurement, what a result leaves of a feed, and its events (R28 to R33). -/

namespace Sys2Proof.Machine

/-! ## The peak of a measurement (R28) -/

/-- An index holds the largest magnitude of a list, and is the first to hold it (0 where the list is empty). -/
structure PeakAt (acc : List Int) (k : Nat) : Prop where
  inRange : k < acc.length ∨ k = 0
  bounds : ∀ c ∈ acc, c.natAbs ≤ (acc.getD k 0).natAbs
  first : ∀ i < k, (acc.getD i 0).natAbs < (acc.getD k 0).natAbs

theorem PeakAt.nil : PeakAt [] 0 where
  inRange := .inr rfl
  bounds := fun _ inNil => absurd inNil List.not_mem_nil
  first := fun _ below => absurd below (Nat.not_lt_zero _)

theorem getD_mem_or_default {α : Type} (l : List α) (i : Nat) (d : α) : l.getD i d ∈ l ∨ l.getD i d = d := by
  by_cases inRange : i < l.length
  · rw [List.getD_eq_getElem _ _ inRange]
    exact .inl (List.getElem_mem inRange)
  · exact .inr (List.getD_eq_default _ _ (Nat.not_lt.mp inRange))

theorem PeakAt.getD_le {pre : List Int} {k : Nat} (h : PeakAt pre k) (i : Nat) : (pre.getD i 0).natAbs ≤ (pre.getD k 0).natAbs := by
  obtain inList | isZero := getD_mem_or_default pre i 0
  · exact h.bounds _ inList
  · rw [isZero]
    exact Nat.zero_le _

theorem PeakAt.append_larger {pre : List Int} {k : Nat} {c : Int} (h : PeakAt pre k) (larger : (pre.getD k 0).natAbs < c.natAbs) :
    PeakAt (pre ++ [c]) pre.length := by
  have here : (pre ++ [c]).getD pre.length 0 = c := by
    rw [List.getD_append_right _ _ _ _ (Nat.le_refl _), Nat.sub_self]
    rfl
  refine ⟨.inl (by rw [List.length_append]; exact Nat.lt_succ_self _), fun d inList => ?_, fun i below => ?_⟩
  · rw [here]
    obtain before | isLast := List.mem_append.mp inList
    · exact ((h.bounds d before).trans_lt larger).le
    · rw [List.mem_singleton.mp isLast]
  · rw [here, List.getD_append _ _ _ _ below]
    exact (h.getD_le i).trans_lt larger

theorem PeakAt.append_kept {pre : List Int} {k : Nat} {c : Int} (h : PeakAt pre k) (smaller : c.natAbs ≤ (pre.getD k 0).natAbs) :
    PeakAt (pre ++ [c]) k ∧ ((pre ++ [c]).getD k 0).natAbs = (pre.getD k 0).natAbs := by
  have same : ((pre ++ [c]).getD k 0).natAbs = (pre.getD k 0).natAbs := by
    by_cases inPre : k < pre.length
    · rw [List.getD_append _ _ _ _ inPre]
    · have past : pre.getD k 0 = 0 := List.getD_eq_default _ _ (Nat.not_lt.mp inPre)
      rw [past] at smaller ⊢
      obtain rfl : c = 0 := Int.natAbs_eq_zero.mp (Nat.le_zero.mp smaller)
      obtain inList | isZero := getD_mem_or_default (pre ++ [0]) k 0
      · obtain before | isLast := List.mem_append.mp inList
        · have bound := h.bounds _ before
          rw [past] at bound
          exact Nat.le_zero.mp bound
        · rw [List.mem_singleton.mp isLast]
      · rw [isZero]
  refine ⟨⟨h.inRange.imp_left fun inPre => ?_, fun d inList => ?_, fun i below => ?_⟩, same⟩
  · rw [List.length_append]
    exact Nat.lt_add_right _ inPre
  · rw [same]
    obtain before | isLast := List.mem_append.mp inList
    · exact h.bounds d before
    · rw [List.mem_singleton.mp isLast]
      exact smaller
  · have inPre : k < pre.length := h.inRange.resolve_right (Nat.ne_of_gt (Nat.zero_lt_of_lt below))
    rw [same, List.getD_append _ _ _ _ (below.trans inPre)]
    exact h.first i below

/-- The search goes on from the peak of what it has seen. -/
theorem peakIndexFrom_peakAt (l : List Int) {pre : List Int} {k : Nat} (h : PeakAt pre k) :
    PeakAt (pre ++ l) (peakIndexFrom pre.length k (pre.getD k 0).natAbs l) := by
  induction l generalizing pre k with
  | nil =>
    rw [List.append_nil]
    exact h
  | cons c l ih =>
    have length : (pre ++ [c]).length = pre.length + 1 := List.length_append
    rw [peakIndexFrom, List.append_cons]
    split
    next larger =>
      have here : (pre ++ [c]).getD pre.length 0 = c := by
        rw [List.getD_append_right _ _ _ _ (Nat.le_refl _), Nat.sub_self]
        rfl
      have found := ih (h.append_larger larger)
      rw [length, here] at found
      exact found
    next notLarger =>
      obtain ⟨kept, same⟩ := h.append_kept (Nat.not_lt.mp notLarger)
      have found := ih kept
      rw [length, same] at found
      exact found

theorem bestLag_div (acc : List Int) : bestLag acc / 8 = peakIndexFrom 0 0 0 acc := Nat.mul_div_cancel_left _ (by decide)

theorem bestLag_peakAt (acc : List Int) : PeakAt acc (bestLag acc / 8) := by
  rw [bestLag_div]
  exact peakIndexFrom_peakAt acc .nil

/-! ## A feed's result (R28 to R30) -/

/-- A measurement is complete (R28). -/
def Feed.Due (a : Feed) : Prop := (a.acq = .seek ∨ a.acq = .check) ∧ 64 ≤ a.counted

/-- The peak of a measurement is at least four times the mean magnitude (R28). -/
def ValidPeak (acc : List Int) : Prop := 4 * (acc.map Int.natAbs).sum ≤ (acc.getD (bestLag acc / 8) 0).natAbs * 256

/-- A new delay is more than the tolerance away (R29). -/
def FarFrom (b bNew : Nat) : Prop := 16 < bNew - b ∨ 16 < b - bNew

theorem Feed.resultDue_iff (a : Feed) : a.resultDue = true ↔ a.Due := by
  rw [Feed.resultDue, Bool.and_eq_true, Bool.or_eq_true, beq_iff_eq, beq_iff_eq, decide_eq_true_iff]
  exact Iff.rfl

theorem validityOf_valid {acc : List Int} (valid : ValidPeak acc) : validityOf acc = .valid := by
  unfold ValidPeak at valid
  rw [bestLag_div] at valid
  exact if_pos valid

theorem validityOf_weak {acc : List Int} (weak : ¬ ValidPeak acc) : validityOf acc = .weak := by
  unfold ValidPeak at weak
  rw [bestLag_div] at weak
  exact if_neg weak

theorem validityOf_eq_valid_iff (acc : List Int) : validityOf acc = .valid ↔ ValidPeak acc := by
  by_cases valid : ValidPeak acc
  · exact iff_of_true (validityOf_valid valid) valid
  · refine iff_of_false (fun isValid => ?_) valid
    rw [validityOf_weak valid] at isValid
    cases isValid

theorem movesDelay_iff (b lag : Nat) : movesDelay b (newDelay lag) = true ↔ FarFrom b (lag - 64) := by
  have distance : 16 < max b (lag - 64) - min b (lag - 64) ↔ FarFrom b (lag - 64) := by
    unfold FarFrom
    omega
  exact decide_eq_true_iff.trans distance

theorem Feed.decidesMove_iff (a : Feed) :
    a.decidesMove = true ↔ a.Due ∧ ValidPeak a.acc ∧ FarFrom a.b (bestLag a.acc - 64) := by
  rw [Feed.decidesMove, Bool.and_eq_true, Bool.and_eq_true, Feed.resultDue_iff, beq_iff_eq, validityOf_eq_valid_iff, movesDelay_iff,
    and_assoc]

theorem Feed.takeResult_waits {a : Feed} (notDue : ¬ a.Due) : a.takeResult = a := if_neg (mt a.resultDue_iff.mp notDue)

theorem Feed.takeResult_valid {a : Feed} (due : a.Due) (valid : ValidPeak a.acc) :
    a.takeResult =
      { a with
        acc := List.replicate 256 0, counted := 0, lastLag := bestLag a.acc, lastValidity := .valid, acq := .locked
        countdown := 4096, dueMove := if a.decidesMove = true then some (bestLag a.acc - 64) else a.dueMove } := by
  rw [Feed.takeResult, if_pos (a.resultDue_iff.mpr due), validityOf_valid valid]
  rfl

theorem Feed.takeResult_weakSeek {a : Feed} (due : a.Due) (weak : ¬ ValidPeak a.acc) (seek : a.acq = .seek) :
    a.takeResult =
      { a with acc := List.replicate 256 0, counted := 0, lastLag := bestLag a.acc, lastValidity := .weak } := by
  rw [Feed.takeResult, if_pos (a.resultDue_iff.mpr due), validityOf_weak weak]
  exact (if_neg nofun).trans (if_pos seek)

theorem Feed.takeResult_weakCheck {a : Feed} (due : a.Due) (weak : ¬ ValidPeak a.acc) (notSeek : a.acq ≠ .seek) :
    a.takeResult =
      { a with
        acc := List.replicate 256 0, counted := 0, lastLag := bestLag a.acc, lastValidity := .weak, acq := .locked
        countdown := 4096 } := by
  rw [Feed.takeResult, if_pos (a.resultDue_iff.mpr due), validityOf_weak weak]
  exact (if_neg nofun).trans (if_neg notSeek)

/-- A result that is formed, by its validity and its reach. -/
theorem Feed.takeResult_eq {a : Feed} (due : a.Due) {_ : Decidable (ValidPeak a.acc)}
    {_ : Decidable (FarFrom a.b (bestLag a.acc - 64))} :
    a.takeResult =
      { a with
        acc := List.replicate 256 0
        counted := 0
        lastLag := bestLag a.acc
        lastValidity := if ValidPeak a.acc then .valid else .weak
        acq := if ¬ ValidPeak a.acc ∧ a.acq = .seek then .seek else .locked
        countdown := if ¬ ValidPeak a.acc ∧ a.acq = .seek then a.countdown else 4096
        dueMove := if ValidPeak a.acc ∧ FarFrom a.b (bestLag a.acc - 64) then some (bestLag a.acc - 64) else a.dueMove } := by
  by_cases valid : ValidPeak a.acc
  · have moves_iff : a.decidesMove = true ↔ ValidPeak a.acc ∧ FarFrom a.b (bestLag a.acc - 64) :=
      a.decidesMove_iff.trans (and_iff_right due)
    have notWeak : ¬ (¬ ValidPeak a.acc ∧ a.acq = .seek) := fun ⟨weak, _⟩ => weak valid
    rw [Feed.takeResult_valid due valid, if_pos valid, if_neg notWeak, if_neg notWeak]
    simp only [moves_iff]
  have notMoved : ¬ (ValidPeak a.acc ∧ FarFrom a.b (bestLag a.acc - 64)) := fun ⟨isValid, _⟩ => valid isValid
  by_cases seek : a.acq = .seek
  · rw [Feed.takeResult_weakSeek due valid seek, if_neg valid, if_pos ⟨valid, seek⟩, if_pos ⟨valid, seek⟩, if_neg notMoved,
      ← seek]
  · have notSeek : ¬ (¬ ValidPeak a.acc ∧ a.acq = .seek) := fun ⟨_, isSeek⟩ => seek isSeek
    rw [Feed.takeResult_weakCheck due valid seek, if_neg valid, if_neg notSeek, if_neg notSeek, if_neg notMoved]

theorem feedAt_map {feeds : List Feed} {f : Nat} (g : Feed → Feed) (h : f < feeds.length) :
    feedAt (feeds.map g) f = g (feedAt feeds f) := by
  rw [feedAt, feedAt, List.getD_eq_getElem?_getD, List.getElem?_map, List.getElem?_eq_getElem h, List.getD_eq_getElem _ _ h]
  rfl

/-! ## The results together (R31, R129, R132) -/

/-- The paths on feeds that move. -/
def State.movedPaths (s : State) : List (Nat × OpenPath) :=
  (openPaths s.model.paths).filter fun c => (feedAt s.model.feeds c.2.feed).decidesMove

/-- The verdict of the moves on a microphone: to ACQUIRE, if one of its paths is on a feed that moves. -/
def State.moveVerdict (s : State) (m : Nat) : Option (Conv × Cause) :=
  if s.movedPaths.any fun c => c.2.mic == m then some (.acquire, .bulkMove) else none

/-- What the results leave before their records. -/
def State.resultsTaken (s : State) (p : Proc) : State :=
  { s with
    model := { s.model with
      feeds := s.model.feeds.map Feed.takeResult
      mics := applyVerdicts s.moveVerdict s.model.mics
      clearList := addAll s.model.clearList (s.movedPaths.map Prod.fst) }
    queues := settleQueues s.model.paths s.model.paths (applyVerdicts s.moveVerdict s.model.mics) p.stageQueues
    proc := some p }

theorem State.bulkResult_eq {s : State} {p : Proc} (block : s.proc = some p) (phase : p.phase = .arbitrate)
    (due : s.model.feeds.any Feed.resultDue = true) :
    s.bulkResult =
      (s.resultsTaken p).postMerged
        ((s.model.feeds.zipIdx.map fun c => resultNotice p.number c.2 c.1) ++
          [verdictNotices p.number s.moveVerdict s.model.mics]) := by
  have turn : s.resultsTurn = true := (s.inPhase_iff _).mpr (by rw [block]; exact congrArg some phase)
  have now : (s.resultsTurn && s.model.feeds.any Feed.resultDue) = true := by
    rw [turn, due]
    rfl
  rw [State.bulkResult, if_pos now, block, State.blockNumber_eq block]
  rfl

theorem State.moveVerdict_moves {s : State} {m : Nat} (moves : ∃ c ∈ s.movedPaths, c.2.mic = m) :
    s.moveVerdict m = some (.acquire, .bulkMove) := by
  obtain ⟨c, isMoved, onMic⟩ := moves
  have found : (s.movedPaths.any fun c => c.2.mic == m) = true :=
    List.any_eq_true.mpr ⟨c, isMoved, beq_iff_eq.mpr onMic⟩
  exact if_pos found

theorem State.moveVerdict_stays {s : State} {m : Nat} (stays : ¬ ∃ c ∈ s.movedPaths, c.2.mic = m) : s.moveVerdict m = none := by
  refine if_neg fun moves => stays ?_
  obtain ⟨c, isMoved, onMic⟩ := List.any_eq_true.mp moves
  exact ⟨c, isMoved, beq_iff_eq.mp onMic⟩

theorem micAt_applyVerdicts {verdict : Nat → Option (Conv × Cause)} {mics : List Mic} {m : Nat} (h : m < mics.length) :
    micAt (applyVerdicts verdict mics) m =
      match verdict m with
      | some v => (micAt mics m).enter v.1
      | none => micAt mics m :=
  getD_zipIdx_map _ Mic.reset _ h

/-- The MIC_STATE record of a move at one microphone, if it changes its state. -/
def moveNotices (s : State) (block : BlockNo) (m : Nat) (a : Mic) : List Notice :=
  match s.moveVerdict m with
  | some v => micStateNotice block m a.conv v.1 v.2
  | none => []

theorem moveNotices_eq (s : State) (block : BlockNo) (m : Nat) (a : Mic)
    {_ : Decidable ((∃ c ∈ s.movedPaths, c.2.mic = m) ∧ a.conv ≠ .acquire)} :
    moveNotices s block m a =
      if (∃ c ∈ s.movedPaths, c.2.mic = m) ∧ a.conv ≠ .acquire then
        [{ dest := none, record := { block := block, event := .micState m a.conv .acquire .bulkMove } }]
      else [] := by
  unfold moveNotices
  by_cases moves : ∃ c ∈ s.movedPaths, c.2.mic = m
  · rw [State.moveVerdict_moves moves]
    dsimp only
    by_cases already : a.conv = .acquire
    · rw [if_neg fun both => both.2 already, already, micStateNotice_self]
    · rw [if_pos ⟨moves, already⟩, micStateNotice_of_ne _ _ _ already]
  · rw [State.moveVerdict_stays moves, if_neg fun both => moves both.1]

theorem verdictNotices_moves (s : State) (block : BlockNo) :
    verdictNotices block s.moveVerdict s.model.mics = s.model.mics.zipIdx.flatMap fun c => moveNotices s block c.2 c.1 := rfl

/-- The results touch the feeds, the microphones, the clear list, the queues and the records. -/
theorem State.bulkResult_frame {s : State} {p : Proc} (block : s.proc = some p) (phase : p.phase = .arbitrate)
    (due : s.model.feeds.any Feed.resultDue = true) :
    ∃ r n, s.bulkResult = { s.resultsTaken p with report := r, freeCount := n } := by
  rw [State.bulkResult_eq block phase due]
  exact State.postMerged_eq _ _

end Sys2Proof.Machine
end

section
/-! PROOFS. The statement about the results of the searches. -/

open Sys2Proof Sys2Proof.Machine

/-- Settles O55: each feed by whether its result is due, valid and far, and the records as one merge of the feeds' and the
microphones'. -/
theorem bulkResultForms : Obligations.BulkResultForms := by
  refine ⟨fun a => ⟨a.resultDue_iff, Nat.mul_mod_right 8 _⟩, ?_⟩
  intro s p block phase due moves moved events states
  obtain ⟨t, ht⟩ : ∃ t, t = s.bulkResult := ⟨_, rfl⟩
  obtain ⟨r, n, frame⟩ := State.bulkResult_frame block phase due
  rw [← ht] at frame
  have model : t.model = (s.resultsTaken p).model := by rw [frame]
  refine ⟨t, congrArg Host.Outcome.next ht.symm, ?feeds, ?clears, ?mics, ?records, ?queues, ?frame⟩
  case feeds =>
    intro f isFeed a b dueHere lag peak valid far
    have taken : b = a.takeResult := by
      show feedAt t.model.feeds f = _
      rw [model]
      exact feedAt_map Feed.takeResult isFeed
    have peakAt := bestLag_peakAt a.acc
    refine ⟨peakAt.bounds, peakAt.first, a.decidesMove_iff, ?_, ?_⟩
    · intro notDue
      rw [taken]
      exact Feed.takeResult_waits notDue
    · intro isDue
      rw [taken]
      exact Feed.takeResult_eq isDue
  case clears =>
    intro n
    have clearList : t.model.clearList = addAll s.model.clearList (moved.map Prod.fst) := by
      rw [model]
      rfl
    rw [clearList, (addAll_spec _ _).2.2, List.mem_map]
  case mics =>
    intro m isMic
    have verdict : micAt t.model.mics m = _ := (congrArg (fun x : Model => micAt x.mics m) model).trans (micAt_applyVerdicts isMic)
    rw [verdict]
    by_cases moves : ∃ c ∈ moved, c.2.mic = m
    · rw [if_pos moves, State.moveVerdict_moves moves]
      rfl
    · rw [if_neg moves, State.moveVerdict_stays moves]
  case records =>
    have feedNotices : (s.model.feeds.zipIdx.map fun c => resultNotice p.number c.2 c.1) =
        s.model.feeds.zipIdx.map fun c =>
          (events c.2 c.1).map fun e => { dest := none, record := { block := p.number, event := e } } :=
      List.map_congr_left fun c _ => resultNotice_eq p.number c.2 c.1
    have micNotices : verdictNotices p.number s.moveVerdict s.model.mics = states :=
      (verdictNotices_moves s p.number).trans (congrArg (fun f => s.model.mics.zipIdx.flatMap f)
        (funext fun c => moveNotices_eq s p.number c.2 c.1))
    have merged := State.bulkResult_eq block phase due
    rw [feedNotices, micNotices] at merged
    refine ⟨_, (congrArg State.report (ht.trans merged)).trans ((State.postMerged_report _ _).trans
      (State.foldl_post_report_congr _ rfl rfl)), mergeAll_sublist _ _ _ (List.mem_append_right _ List.mem_cons_self), ?_⟩
    refine (mergeAll_perm _ _).trans (List.Perm.of_eq ?_)
    rw [List.flatten_append, List.flatten_singleton, List.flatMap_def]
  case queues =>
    rw [frame]
    rfl
  case frame =>
    rw [frame, State.resultsTaken, ← block]

end

section
/-! PROOFS. The arbiter's scan and its stage (R93, R110 to R114). -/

namespace Sys2Proof.Machine

/-! ## The scan of one queue (R111, R112) -/

section

variable {req : QEntry → Bool} {len : QEntry → Nat} {left : Nat} {e : QEntry} {es : List QEntry}

theorem scanQueue_passes {scan : Scan} (passes : req e = false) :
    scanQueue req len scan left (e :: es) = scanQueue req len scan left es :=
  if_neg (ne_true_of_eq_false passes)

theorem scanQueue_grants {scan : Scan} (requests : req e = true) (fits : len e ≤ left) :
    scanQueue req len scan left (e :: es) =
      (e :: (scanQueue req len scan (left - len e) es).1, (scanQueue req len scan (left - len e) es).2) :=
  (if_pos requests).trans (if_pos fits)

theorem scanQueue_fairStops (requests : req e = true) (tooLong : left < len e) :
    scanQueue req len .fair left (e :: es) = ([], left, true) := by
  rw [scanQueue, if_pos requests, if_neg (Nat.not_le.mpr tooLong)]

theorem scanQueue_greedyPasses (requests : req e = true) (tooLong : left < len e) :
    scanQueue req len .greedy left (e :: es) = scanQueue req len .greedy left es := by
  rw [scanQueue, if_pos requests, if_neg (Nat.not_le.mpr tooLong)]

end

/-- What a scan grants requests, and takes its taps from the budget. -/
theorem scanQueue_spec (req : QEntry → Bool) (len : QEntry → Nat) (scan : Scan) (left : Nat) (queue : List QEntry) :
    (∀ e ∈ (scanQueue req len scan left queue).1, req e = true) ∧
      ((scanQueue req len scan left queue).1.map len).sum + (scanQueue req len scan left queue).2.1 = left := by
  induction queue generalizing left with
  | nil => exact ⟨fun e inNil => absurd inNil List.not_mem_nil, Nat.zero_add left⟩
  | cons e es ih =>
    by_cases requests : req e = true
    · obtain fits | tooLong := Nat.lt_or_ge left (len e) |>.symm
      · obtain ⟨all, budget⟩ := ih (left - len e)
        rw [scanQueue_grants requests fits]
        refine ⟨fun d inList => ?_, ?_⟩
        · obtain rfl | later := List.mem_cons.mp inList
          · exact requests
          · exact all d later
        · dsimp only
          rw [List.map_cons, List.sum_cons]
          omega
      · cases scan with
        | fair =>
          rw [scanQueue_fairStops requests tooLong]
          exact ⟨fun e inNil => absurd inNil List.not_mem_nil, Nat.zero_add left⟩
        | greedy =>
          rw [scanQueue_greedyPasses requests tooLong]
          exact ih left
    · rw [scanQueue_passes (eq_false_of_ne_true requests)]
      exact ih left

/-! ## The scan of the levels (R110, R111) -/

/-- How far a scan of the levels has come within its budget: what it granted requests, and left the rest. -/
structure Arbitration.Within (req : QEntry → Bool) (len : QEntry → Nat) (budget : Nat) (a : Arbitration) : Prop where
  requests : ∀ e ∈ a.granted, req e = true
  budget : (a.granted.map len).sum + a.left = budget

theorem Arbitration.level_stopped {req : QEntry → Bool} {len : QEntry → Nat} {scan : Scan} {a : Arbitration} {l : Nat}
    (stopped : a.stopped = true) : a.level req len scan l = a := if_pos stopped

theorem Arbitration.level_scans {req : QEntry → Bool} {len : QEntry → Nat} {scan : Scan} {a : Arbitration} {l : Nat}
    (goesOn : a.stopped = false) :
    a.level req len scan l =
      { queues := a.queues.set l (requeue (scanQueue req len scan a.left (a.queues.getD l [])).1 (a.queues.getD l []))
        granted := a.granted ++ (scanQueue req len scan a.left (a.queues.getD l [])).1
        left := (scanQueue req len scan a.left (a.queues.getD l [])).2.1
        stopped := (scanQueue req len scan a.left (a.queues.getD l [])).2.2 } := if_neg (ne_true_of_eq_false goesOn)

theorem Arbitration.Within.level {req : QEntry → Bool} {len : QEntry → Nat} {budget : Nat} {a : Arbitration}
    (h : a.Within req len budget) (scan : Scan) (l : Nat) : (a.level req len scan l).Within req len budget := by
  cases stopped : a.stopped with
  | true =>
    rw [Arbitration.level_stopped stopped]
    exact h
  | false =>
    obtain ⟨all, taken⟩ := scanQueue_spec req len scan a.left (a.queues.getD l [])
    have before := h.budget
    rw [Arbitration.level_scans stopped]
    refine ⟨fun e granted => ?_, ?_⟩
    · exact (List.mem_append.mp granted).elim (h.requests e) (all e)
    · simp only [List.map_append, List.sum_append]
      omega

theorem Arbitration.Within.levels {req : QEntry → Bool} {len : QEntry → Nat} {budget : Nat} (scan : Scan) (ls : List Nat)
    {a : Arbitration} (h : a.Within req len budget) : (ls.foldl (Arbitration.level req len scan) a).Within req len budget := by
  induction ls generalizing a with
  | nil => exact h
  | cons l ls ih => exact ih (h.level scan l)

/-! ## What requests (R93, R94) -/

theorem entryRequests_of_window {s : State} {p : Proc} {e : QEntry} {q : OpenPath} {w : Window}
    (window : windowAt s.model.paths e = some (q, w)) :
    entryRequests s p e = pathRequests s p e.path q ∧ entryLength s e = w.len := by
  unfold entryRequests entryLength
  rw [window]
  exact ⟨rfl, rfl⟩

theorem entryRequests_of_none {s : State} {p : Proc} {e : QEntry} (noWindow : windowAt s.model.paths e = none) :
    entryRequests s p e = false ∧ entryLength s e = 0 := by
  unfold entryRequests entryLength
  rw [noWindow]
  exact ⟨rfl, rfl⟩

theorem State.pendingOnPath_eq_false_iff (s : State) (n : Nat) : s.pendingOnPath n = false ↔ s.owner (.path n) = none := by
  rw [State.pendingOnPath, Option.isSome_eq_false_iff, Option.isNone_iff_eq_none]

theorem pathRequests_iff (s : State) (p : Proc) (n : Nat) (q : OpenPath) :
    pathRequests s p n q = true ↔
      q.frozen = false ∧ p.standby = false ∧ q.mic ∈ p.excited ∧ (micAt s.model.mics q.mic).conv ≠ .idle ∧
        (feedAt s.model.feeds q.feed).active = true ∧ p.feedLive = true ∧ n ∉ s.model.clearList ∧ s.owner (.path n) = none := by
  have notListed : s.model.clearList.contains n = false ↔ n ∉ s.model.clearList := by
    rw [← Bool.not_eq_true, List.contains_iff_mem]
  simp only [pathRequests, Bool.and_eq_true, Bool.not_eq_true', notListed, List.contains_iff_mem, bne_iff_ne,
    State.pendingOnPath_eq_false_iff, and_assoc]

theorem State.resultsPending_iff (s : State) :
    s.resultsPending = true ↔ ∃ a ∈ s.model.feeds,
      ((a.acq = .seek ∨ a.acq = .check) ∧ 64 ≤ a.counted) ∨ (a.acq = .locked ∧ a.countdown = 0) := by
  simp only [State.resultsPending, List.any_eq_true, Bool.or_eq_true, Feed.resultDue_iff, Feed.checkDue_iff]
  exact Iff.rfl

/-! ## Grant ages (R114) -/

theorem ageWindows_getElem? (granted : List QEntry) (paths : List PathRec) (n : Nat) :
    (ageWindows granted paths)[n]? = paths[n]?.map fun r => match r with
      | .opened q => .opened { q with windows := q.windows.zipIdx.map fun w =>
          { w.1 with age := if granted.contains { path := n, index := w.2 } then 0 else runUp w.1.age } }
      | .free => .free
      | .pendingOpen m f => .pendingOpen m f := by
  rw [ageWindows, List.getElem?_map, List.getElem?_zipIdx, Option.map_map, Nat.zero_add]
  cases paths[n]? with
  | none => rfl
  | some r => cases r <;> rfl

theorem ageWindows_opened {granted : List QEntry} {paths : List PathRec} {n : Nat} {q : OpenPath} (opened : pathAt paths n = .opened q) :
    pathAt (ageWindows granted paths) n =
      .opened { q with windows := q.windows.zipIdx.map fun w =>
        { w.1 with age := if { path := n, index := w.2 } ∈ granted then 0 else min (w.1.age + 1) 65535 } } := by
  rw [pathAt_eq_opened] at opened ⊢
  rw [ageWindows_getElem?, opened]
  simp only [List.contains_iff_mem]
  rfl

theorem ageWindows_other {granted : List QEntry} {paths : List PathRec} {n : Nat} (other : ∀ q, paths[n]? ≠ some (.opened q)) :
    (ageWindows granted paths)[n]? = paths[n]? := by
  rw [ageWindows_getElem?]
  cases record : paths[n]? with
  | none => rfl
  | some r =>
    cases r with
    | free => rfl
    | pendingOpen m f => rfl
    | opened q => exact absurd record (other q)

/-! ## The stage -/

theorem State.arbiterStage_eq {s : State} {p : Proc} (block : s.proc = some p) (phase : p.phase = .arbitrate)
    (noResult : s.resultsPending = false) :
    s.arbiterStage =
      { s with
        queues := (arbitrate s p).queues
        model := { s.model with paths := ageWindows (arbitrate s p).granted s.model.paths }
        proc := some { p with phase := .update, grants := (arbitrate s p).granted } } := by
  have now : (decide (p.phase = .arbitrate) && !s.resultsPending) = true := by
    rw [decide_eq_true phase, noResult]
    rfl
  unfold State.arbiterStage
  rw [block]
  exact if_pos now

theorem arbitrate_within (s : State) (p : Proc) : (arbitrate s p).Within (entryRequests s p) (entryLength s) 16384 :=
  .levels _ _ ⟨fun _ inNil => absurd inNil List.not_mem_nil, Nat.zero_add _⟩

end Sys2Proof.Machine
end

section
/-! PROOFS. The statement about the arbiter. -/

open Sys2Proof Sys2Proof.Machine

/-- Settles O56: the scan by its equations, and the stage with what it grants within the budget. -/
theorem arbiterGrantsWithinBudget : Obligations.ArbiterGrantsWithinBudget := by
  refine ⟨?scan, fun _ _ => rfl, ?levels, fun paths e q w => windowAt_eq, ?entries, State.resultsPending_iff, pathRequests_iff, ?stage⟩
  case scan =>
    exact fun req len scan left e es => ⟨rfl, scanQueue_passes, scanQueue_grants, scanQueue_fairStops, scanQueue_greedyPasses⟩
  case levels =>
    intro req len scan a l queue r
    exact ⟨Arbitration.level_stopped, Arbitration.level_scans⟩
  case entries =>
    intro s p e
    exact ⟨fun q w => entryRequests_of_window, entryRequests_of_none⟩
  case stage =>
    intro s p block phase noResult a
    have within := arbitrate_within s p
    exact ⟨_, congrArg Host.Outcome.next (State.arbiterStage_eq block phase noResult), rfl, rfl, within.requests,
      (Nat.le_add_right _ _).trans_eq within.budget, fun n q opened _ => ageWindows_opened opened, fun n => ageWindows_other, rfl⟩

end

section
/-! PROOFS. The update stage, the meter expiries and the end of a processing (R96 to R101, R150, R160, R178). -/

namespace Sys2Proof.Machine

/-! ## The end of a processing (R150, R160, R178) -/

/-- What one event of the end of block `p`'s processing leaves of `x`: with no meter expiry left the processing is complete, and otherwise
the next expiry is due, with STANDBY_ENTERED before it or still due. -/
structure State.Ends (x t : State) (p : Proc) (due : Bool) : Prop where
  frame : t = { x with report := t.report, proc := t.proc, seen := t.seen, pool := t.pool, freeCount := t.freeCount }
  meters : ∀ q, (t.report.get q).meter = (x.report.get q).meter
  complete : (¬ ∃ q, (x.report.get q).meter.running = true ∧ (x.report.get q).meter.count = 0) →
    t.report = (if due then (x.raise { block := p.number, event := .standbyEntered }).report else x.report) ∧ t.proc = none ∧
      t.seen = x.model ∧ t.pool = { segs := x.model.segs, paths := x.model.paths.map PathRec.status }
  goesOn : (∃ q, (x.report.get q).meter.running = true ∧ (x.report.get q).meter.count = 0) →
    t.seen = x.seen ∧ t.pool = x.pool ∧
      ((t.report = x.report ∧ t.proc = some { p with phase := .meters due }) ∨
        (due = true ∧ t.report = (x.raise { block := p.number, event := .standbyEntered }).report ∧
          t.proc = some { p with phase := .meters false }))

theorem State.endStep_ends {x : State} {b : Proc} (block : x.proc = some b) {p : Proc} (number : b.number = p.number) (due : Bool) :
    State.Ends x (x.endStep p due) p due := by
  have raised : x.raiseEntered = x.raise { block := p.number, event := .standbyEntered } := by
    rw [State.raiseEntered, State.blockNumber_eq block, number]
  have timers := x.raise_timers { block := p.number, event := .standbyEntered }
  obtain ⟨completes, goesOn⟩ := x.endStep_cases p due
  rw [raised] at completes goesOn
  cases more : x.metersDue with
  | false =>
    have noMore : ¬ ∃ q, (x.report.get q).meter.running = true ∧ (x.report.get q).meter.count = 0 := by
      rw [← x.metersDue_iff]
      exact ne_true_of_eq_false more
    rw [completes more]
    refine ⟨rfl, fun q => ?_, fun _ => ⟨rfl, rfl, rfl, rfl⟩, fun isMore => absurd isMore noMore⟩
    cases due with
    | false => rfl
    | true => exact (timers q).1
  | true =>
    have isMore := x.metersDue_iff.mp more
    obtain ⟨n, stays | ⟨isDue, raises⟩⟩ := goesOn more
    · rw [stays]
      exact ⟨rfl, fun q => rfl, fun noMore => absurd isMore noMore, fun _ => ⟨rfl, rfl, .inl ⟨rfl, rfl⟩⟩⟩
    · rw [raises]
      exact ⟨rfl, fun q => (timers q).1, fun noMore => absurd isMore noMore, fun _ => ⟨rfl, rfl, .inr ⟨isDue, rfl, rfl⟩⟩⟩

/-! ## A meter expiry (R178) -/

/-- A port's report once its expired meter timer has given its record. -/
def Report.expired (r : Report) (mics : List Mic) (block : BlockNo) : Report :=
  ({ r with meter := r.meter.reload } : Report).join { block := block, event := .meter (meterEntries mics r.meter.mask) }

theorem State.expireMeter_eq (s : State) (q : Port) (block : BlockNo) :
    s.expireMeter q block = { s with report := s.report.set q ((s.report.get q).expired s.model.mics block) } := by
  cases q with
  | p0 => rfl
  | p1 => rfl

theorem State.meterExpiry_eq {s : State} {p : Proc} {q : Port} {due : Bool} (block : s.proc = some p) (phase : p.phase = .meters due)
    (expired : (s.report.get q).meter.expired = true) : s.meterExpiry q = (s.expireMeter q p.number).endStep p due := by
  unfold State.meterExpiry
  rw [block]
  dsimp only
  rw [phase]
  exact if_pos expired

/-! ## The update stage (R96 to R101) -/

theorem windowUpdates_of_window {s : State} {p : Proc} {e : QEntry} {q : OpenPath} {w : Window}
    (window : windowAt s.model.paths e = some (q, w)) :
    windowUpdates s p e = w.taps.map fun t =>
      (t.2, updatedCoef (Memory.read s.model.coefs t.2)
        (increment (stepCodeOf (micAt s.model.mics q.mic).conv q.fast q.slow) (gradient s p q t.1)
          (normaliser (feedAt s.model.feeds q.feed).energy q.totalTaps s.globals.delta))) := by
  unfold windowUpdates
  rw [window]

theorem windowUpdates_of_none {s : State} {p : Proc} {e : QEntry} (noWindow : windowAt s.model.paths e = none) :
    windowUpdates s p e = [] := by
  unfold windowUpdates
  rw [noWindow]

/-- What the update stage leaves before the end of the processing. -/
def State.updated (s : State) (p : Proc) : State := ((s.writeUpdates p).refreshSnapshot.tickMeters).enterIf s.enters

theorem State.updateStage_eq {s : State} {p : Proc} (block : s.proc = some p) (phase : p.phase = .update) :
    s.updateStage = (s.updated p).endStep p s.enters := by
  unfold State.updateStage
  rw [block]
  exact if_pos phase

theorem State.updated_eq (s : State) (p : Proc) :
    s.updated p =
      { s with
        model := { s.model with coefs := Memory.writeAll s.model.coefs (p.grants.flatMap (windowUpdates s p)) }
        canc := { s.canc with snapshot := s.model.feeds.map Feed.active }
        report := { p0 := { s.report.p0 with meter := s.report.p0.meter.tick },
                    p1 := { s.report.p1 with meter := s.report.p1.meter.tick } }
        standby := s.standby || s.enters } := rfl

/-- The standby test, with the votes first (R150). -/
theorem State.enters_eq (s : State) :
    s.enters = (!s.standby && (s.stager.p0.vote || s.stager.p1.vote) &&
      ((s.ctl.p0.grant != .control || s.stager.p0.vote) && (s.ctl.p1.grant != .control || s.stager.p1.vote))) := by
  rw [State.enters, State.standbyTest, Bool.and_assoc (!s.standby), Bool.and_comm (s.stager.p0.vote || s.stager.p1.vote)]

end Sys2Proof.Machine
end

section
/-! PROOFS. The statements about the update stage and the meter expiries. -/

open Sys2Proof Sys2Proof.Machine

/-- Settles O57: the writes by address, and then the end of the processing. -/
theorem updateStageWrites : Obligations.UpdateStageWrites := by
  refine ⟨?addresses, ?stage⟩
  case addresses =>
    intro s p e
    refine ⟨fun q w window => ?_, windowUpdates_of_none⟩
    rw [windowUpdates_of_window window, List.map_map]
    rfl
  case stage =>
    intro s p block phase votes agree tick ticked enters raised due
    obtain ⟨x, hx⟩ : ∃ x, x = s.updated p := ⟨_, rfl⟩
    have xBlock : x.proc = some p := by rw [hx]; exact block
    have ends := State.endStep_ends xBlock rfl s.enters
    rw [hx, ← State.updateStage_eq block phase, ← hx] at ends
    rw [s.updated_eq] at hx
    have reports : x.report = ticked := by rw [hx]; rfl
    have raisedOf : (x.raise { block := p.number, event := .standbyEntered }).report = raised :=
      State.raise_report_congr _ reports (by rw [hx])
    have complete := ends.complete
    have goesOn := ends.goesOn
    have meters := ends.meters
    have frame := ends.frame
    rw [raisedOf, reports, s.enters_eq] at complete goesOn
    rw [reports] at meters
    obtain ⟨t, ht⟩ : ∃ t, t = s.updateStage := ⟨_, rfl⟩
    rw [← ht] at complete goesOn meters frame
    have model : t.model = x.model := by rw [frame]
    refine ⟨t, congrArg Host.Outcome.next ht.symm, ?writes, ?model, ?canc, ?standby, ?meters, ?complete, ?goesOn, ?frame⟩
    case writes =>
      intro wf once
      have coefs : t.model.coefs = Memory.writeAll s.model.coefs (p.grants.flatMap (windowUpdates s p)) := by rw [frame, hx]
      rw [coefs]
      refine ⟨?_, fun a other => Memory.read_writeAll_other wf _ a other⟩
      intro e granted q w window k a isTap b g c d
      have written : (a, updatedCoef (Memory.read s.model.coefs a) (roundDiv (c * g * 512) d)) ∈
          p.grants.flatMap (windowUpdates s p) := by
        refine List.mem_flatMap.mpr ⟨e, granted, ?_⟩
        rw [windowUpdates_of_window window]
        exact List.mem_map.mpr ⟨(k, a), isTap, rfl⟩
      exact Memory.read_writeAll_written wf once written
    case model =>
      rw [model, hx]
    case canc => rw [frame, hx]
    case standby =>
      have standby : t.standby = (s.standby || enters) := by
        rw [frame, hx, s.enters_eq]
      rw [standby]
      cases inStandby : s.standby with
      | false => simp only [enters, inStandby, Bool.not_false, Bool.true_and]
      | true => rfl
    case meters =>
      intro q
      rw [meters]
      cases q with
      | p0 => rfl
      | p1 => rfl
    case complete =>
      rw [model]
      exact complete
    case goesOn =>
      have kept : x.seen = s.seen ∧ x.pool = s.pool := by rw [hx]; exact ⟨rfl, rfl⟩
      rw [kept.1, kept.2] at goesOn
      exact goesOn
    case frame =>
      rw [hx] at frame
      rw [frame]

/-- Settles O58: the timer that expires gives its record, and then the end of the processing goes on. -/
theorem meterExpiryReports : Obligations.MeterExpiryReports := by
  intro s p q due block phase running zero m entries m' u raised more
  have expired := State.meterExpiry_eq block phase ((Meter.expired_iff _).mpr ⟨running, zero⟩)
  have given : s.expireMeter q p.number = u := s.expireMeter_eq q p.number
  rw [given] at expired
  have ends := State.endStep_ends (x := u) block rfl due
  refine ⟨u.endStep p due, congrArg Host.Outcome.next expired, ends.complete, ends.goesOn, ?_, ends.frame⟩
  have own : (u.report.get q).meter = m' := by
    show ((s.report.set q _).get q).meter = m'
    rw [PerPort.get_set_same, Report.join_meter]
  rw [ends.meters, own]

end
